-- ==== Sys2Proof/Word.lean ====
section
/-! DEFINITION. The word types of the core and the two closed vocabularies its operands use.
A command word has 32 bits (R70), a register or a buffer cell 16 (R5 `REG_BITS`, `CELL_BITS`), a device byte, a font
byte and a character code 8 (R40, R51, R75). -/

namespace Sys2Proof

/-- A command word, `cmd_data[31:0]` (R70). -/
abbrev Word := BitVec 32

/-- A 16-bit register or buffer cell (R5: `REG_BITS`, `CELL_BITS`). -/
abbrev Half := BitVec 16

/-- A device byte, a font byte or a character code (R40, R51, R75). -/
abbrev Byte := BitVec 8

/-- The four orientations `{0, 90, 180, 270}` (R73). -/
inductive Orient where
  | deg0 | deg90 | deg180 | deg270
deriving DecidableEq, Repr

/-- The eight colour names, in the order of R74. -/
inductive ColorName where
  | off | red | green | blue | yellow | cyan | magenta | white
deriving DecidableEq, Repr

end Sys2Proof
end

