-- ==== Sys2Proof/Config.lean ====
section
/-! DEFINITION. What one instance of the core fixes (the parameters of R5) and the free values of the model.
R30: the font image, the alphabet and the other parameters are configuration: constant for the life of an instance,
changed by no command and not by reset. The instance is carried in State (field `cfg`, assumption log 9), so that a statement
about every
state is a statement about every instance. The default values stand in `Sys2Proof/Machine/Params.lean`. -/

namespace Sys2Proof

/-- The parameter `G270_RULE` of R5: the predicate `glyph_offset` uses at 270 degrees (R102). -/
inductive G270Rule where
  | literal | rotated
deriving DecidableEq, Repr

/-- The parameter `LIT_BYTE` of R5: which byte of a font byte pair is compared with `LIT_VALUE` (R115 b). -/
inductive LitByte where
  | lower | higher
deriving DecidableEq, Repr

/-- The font ROM image `FONT` of `FONT_SIZE` bytes (R5, R51). `bytes` lists the bytes of the image that are known, as
(offset, byte) pairs; an offset that is not listed reads as the free value `Config.freeFontByte` of that offset, because
no source gives the contents of the font (R4, R51). -/
structure Font where
  size  : Nat
  bytes : List Host.Cell
deriving DecidableEq, Repr

/-- The parameters of R5. -/
structure Config where
  /-- `FONT` and `FONT_SIZE`. -/
  font      : Font
  /-- `ALPHABET`: the ordered list of character codes (R110). -/
  alphabet  : List Byte
  /-- `LIT_BYTE`. -/
  litByte   : LitByte
  /-- `G270_RULE`. -/
  g270      : G270Rule
  /-- `MSG_MAX`: capacity of the message buffer, 1 to 255. -/
  msgMax    : Nat
  /-- `PACE_TICKS`: ticks of `mtime` that one pacing wait lasts (R205). -/
  paceTicks : Nat
  /-- `MTIME_BITS`: width of `mtime` (R29). -/
  mtimeBits : Nat
deriving DecidableEq, Repr

/-- FREE VALUE: the byte of the platform's font image at an offset that `Font.bytes` does not list
(R4, R51: "not in any source"; 93_implementation_defined U10). Assumption log 4. -/
opaque Config.freeFontByte : Nat → Byte

/-- FREE VALUE: the contents of a pixel buffer cell after reset (R18, R31 "unspecified: arbitrary values"; V1), by the
number of the draw. Assumption log 2. -/
opaque Config.freeCell : Nat → Half

/-- FREE VALUE: the contents of a message buffer entry after reset (R20, R31; V2), by the number of the draw.
Assumption log 2. -/
opaque Config.freeChar : Nat → Byte

/-- FREE VALUE: what a device byte of the attempted range holds after a failed or abandoned write (R45, R222; V5, V8), by
the number of the draw. Assumption log 3. -/
opaque Config.freeDeviceByte : Nat → Byte

end Sys2Proof
end

