-- ==== Sys2Proof/Syntax.lean ====
section
/-! DEFINITION. The 26 commands of R76, one constructor per row of spec/opcode_table.json, in the table's order.
An operand has exactly the width of the field it stands in (R71), so every term is a legal command: R79, a field value out
of an operation's domain is no illegal encoding. The fields a format does not read are no operands (R72, R78). -/

namespace Sys2Proof

inductive Instr where
  /-- `ENCRGB r, g, b`, format ABC (R91). -/
  | encrgb (r g b : Byte)
  /-- `ENCNAME n`, format C (R92). -/
  | encname (n : Byte)
  /-- `DECODE hi, lo`, format BC (R93). -/
  | decode (hi lo : Byte)
  /-- `SETFG v`, format I (R94). -/
  | setfg (v : Half)
  /-- `SETBG v`, format I (R95). -/
  | setbg (v : Half)
  /-- `SETFGR`, format N (R96). -/
  | setfgr
  /-- `SETBGR`, format N (R97). -/
  | setbgr
  /-- `PIXOFF angle, x, y`, format OXY (R101). -/
  | pixoff (o : Orient) (x y : BitVec 4)
  /-- `GLYOFF angle, s`, format OC (R103). -/
  | glyoff (o : Orient) (scan : Byte)
  /-- `GLYIDX ch`, format C (R114). -/
  | glyidx (ch : Byte)
  /-- `GLYADDR row, ch`, format BC (R116). -/
  | glyaddr (row ch : Byte)
  /-- `LOOKUP ch`, format C (R117). -/
  | lookup (ch : Byte)
  /-- `GLYBIT g`, format C (R118). -/
  | glybit (g : Byte)
  /-- `PBSET x, y, v`, format XYI (R125). -/
  | pbset (x y : BitVec 4) (v : Half)
  /-- `PBSETL off, v`, format AI (R126). -/
  | pbsetl (off : Byte) (v : Half)
  /-- `PBFILL v`, format I (R127). -/
  | pbfill (v : Half)
  /-- `PBGET off`, format C (R128). -/
  | pbget (off : Byte)
  /-- `PBBYTE i`, format C (R129). -/
  | pbbyte (idx : Byte)
  /-- `FLUSH`, format N (R136). -/
  | flush
  /-- `FLUSH1 cell`, format C (R137). -/
  | flush1 (cell : Byte)
  /-- `SETPIX angle, x, y, v`, format OXYI (R138). -/
  | setpix (o : Orient) (x y : BitVec 4) (v : Half)
  /-- `MSGCLR`, format N (R151). -/
  | msgclr
  /-- `MSGPUT ch`, format C (R153). -/
  | msgput (ch : Byte)
  /-- `STATIC angle`, format O (R155). -/
  | static (o : Orient)
  /-- `SCROLL angle`, format O (R156). -/
  | scroll (o : Orient)
  /-- `CLRST mask`, format I (R180). -/
  | clrst (mask : Half)
deriving DecidableEq, Repr

end Sys2Proof
end

