-- ==== Sys2Proof/WellFormed.lean ====
section
/-! DEFINITION. The checks on terms.
Every term of `Instr` is a legal command: its operands have exactly the widths of their fields (R71), and a value outside an
operation's domain is legal and ends the command as a no-op (R79). So the one check on a command is `Instr.inDomain`, the
operand conditions of the no-op list of R193; `decode (encode i) = i` is asked of every command, in the domain or not.
`Config.wellFormed` is the check on the parameters (R5, and the ranges of 92_eei_decisions section 7). -/

namespace Sys2Proof

/-- Both coordinates lie in 0 to 7 (R8, R101, R125, R138). -/
def coordsInRange (x y : BitVec 4) : Bool :=
  decide (x.toNat ≤ 7 ∧ y.toNat ≤ 7)

/-- The operands lie in the operation's domain: the command is NOT one of the operand rows of R193's no-op list.
(The two rows of R193 that look at `MSGLEN`, those of `MSGPUT` and `STATIC`, are conditions on the state.) -/
def Instr.inDomain : Instr → Bool
  | .pixoff _ x y => coordsInRange x y
  | .glyoff _ scan => decide (scan.toNat ≤ 63)
  | .glyaddr row _ => decide (row.toNat ≤ 4)
  | .glybit g => decide (g.toNat ≤ 63)
  | .pbset x y _ => coordsInRange x y
  | .pbsetl off _ => decide (off.toNat ≤ 63)
  | .pbget off => decide (off.toNat ≤ 63)
  | .pbbyte idx => decide (idx.toNat ≤ 127)
  | .flush1 cell => decide (cell.toNat ≤ 63)
  | .setpix _ x y _ => coordsInRange x y
  | .encrgb _ _ _ | .encname _ | .decode _ _ | .setfg _ | .setbg _ | .setfgr | .setbgr => true
  | .glyidx _ | .lookup _ | .pbfill _ | .flush | .msgclr | .msgput _ | .static _ | .scroll _ | .clrst _ => true

/-- The listed font bytes stand at strictly rising offsets below `FONT_SIZE`. -/
def Font.listed (f : Font) : Bool :=
  decide (f.bytes.Pairwise fun p q => p.1 < q.1) && f.bytes.all fun p => decide (p.1 < f.size)

/-- `FONT_SIZE` is at least 10378 (R5, R52). -/
def Config.fontOk (c : Config) : Bool := decide (10378 ≤ c.font.size) && c.font.listed

/-- `ALPHABET` has at most 256 entries, all distinct (R5; 92_eei_decisions section 7). -/
def Config.alphabetOk (c : Config) : Bool := decide (c.alphabet.length ≤ 256 ∧ c.alphabet.Nodup)

/-- `MSG_MAX` is 1 to 255 (R5). -/
def Config.msgMaxOk (c : Config) : Bool := decide (1 ≤ c.msgMax ∧ c.msgMax ≤ 255)

/-- `MTIME_BITS` is at least 8 and `PACE_TICKS` below `2^(MTIME_BITS-1)` (R205; V20). -/
def Config.paceOk (c : Config) : Bool := decide (8 ≤ c.mtimeBits ∧ c.paceTicks < 2 ^ (c.mtimeBits - 1))

/-- The parameters have the ranges the spec gives them. -/
def Config.wellFormed (c : Config) : Bool := c.fontOk && c.alphabetOk && c.msgMaxOk && c.paceOk

end Sys2Proof
end

