-- ==== Sys2Proof/Decode.lean ====
section
/-! DEFINITION. The decoder of R70 to R78, total on every 32-bit word, and after it the encoder, both written from the field
table of R71, the formats of R72 and the opcode map of R76. -/

namespace Sys2Proof

/-! ### Fields (R71) -/

/-- `op`, bits 31:26. -/
def opField (w : Word) : BitVec 6 := w.extractLsb' 26 6
/-- `o`, bits 25:24. -/
def oField (w : Word) : BitVec 2 := w.extractLsb' 24 2
/-- `x`, bits 23:20. -/
def xField (w : Word) : BitVec 4 := w.extractLsb' 20 4
/-- `y`, bits 19:16. -/
def yField (w : Word) : BitVec 4 := w.extractLsb' 16 4
/-- `imm`, bits 15:0. -/
def immField (w : Word) : Half := w.extractLsb' 0 16
/-- `a`, bits 23:16. -/
def aField (w : Word) : Byte := w.extractLsb' 16 8
/-- `b`, bits 15:8. -/
def bField (w : Word) : Byte := w.extractLsb' 8 8
/-- `c`, bits 7:0. -/
def cField (w : Word) : Byte := w.extractLsb' 0 8

/-- The orientation of a 2-bit code (R73). -/
def Orient.ofCode (c : BitVec 2) : Orient :=
  match c.toNat with
  | 0 => .deg0
  | 1 => .deg90
  | 2 => .deg180
  | _ => .deg270

/-- The 2-bit code of an orientation (R73). -/
def Orient.code : Orient → BitVec 2
  | .deg0 => 0
  | .deg90 => 1
  | .deg180 => 2
  | .deg270 => 3

/-! ### Decoder -/

/-- Why a word is no command. -/
inductive DecodeError where
  /-- `op` is one of the 38 reserved values of R77. -/
  | reservedOp (op : BitVec 6)
deriving DecidableEq, Repr

/-- The command a word stands for (R76), or the name of the reason why it is none (R77). Bits that the command's format does
not read are ignored (R78). -/
def decode (w : Word) : Except DecodeError Instr :=
  match (opField w).toNat with
  | 0x01 => .ok (.encrgb (aField w) (bField w) (cField w))
  | 0x02 => .ok (.encname (cField w))
  | 0x03 => .ok (.decode (bField w) (cField w))
  | 0x04 => .ok (.setfg (immField w))
  | 0x05 => .ok (.setbg (immField w))
  | 0x06 => .ok .setfgr
  | 0x07 => .ok .setbgr
  | 0x08 => .ok (.pixoff (.ofCode (oField w)) (xField w) (yField w))
  | 0x09 => .ok (.glyoff (.ofCode (oField w)) (cField w))
  | 0x10 => .ok (.glyidx (cField w))
  | 0x11 => .ok (.glyaddr (bField w) (cField w))
  | 0x12 => .ok (.lookup (cField w))
  | 0x13 => .ok (.glybit (cField w))
  | 0x18 => .ok (.pbset (xField w) (yField w) (immField w))
  | 0x19 => .ok (.pbsetl (aField w) (immField w))
  | 0x1A => .ok (.pbfill (immField w))
  | 0x1B => .ok (.pbget (cField w))
  | 0x1C => .ok (.pbbyte (cField w))
  | 0x20 => .ok .flush
  | 0x21 => .ok (.flush1 (cField w))
  | 0x22 => .ok (.setpix (.ofCode (oField w)) (xField w) (yField w) (immField w))
  | 0x28 => .ok .msgclr
  | 0x29 => .ok (.msgput (cField w))
  | 0x2A => .ok (.static (.ofCode (oField w)))
  | 0x2B => .ok (.scroll (.ofCode (oField w)))
  | 0x30 => .ok (.clrst (immField w))
  | _ => .error (.reservedOp (opField w))

/-- The command the decoder reads from the word `w` of `nbits` bits (bit 0 the least significant, R6); the bits above
`nbits` are 0. A command is one 32-bit word presented in parallel (R41, R70), so there is no byte order in it. -/
def decodeTableWord (nbits w : Nat) : Option Instr :=
  match decode (BitVec.ofNat 32 (w % 2 ^ nbits)) with
  | .ok i => some i
  | .error _ => none

/-! ### Encoder (R71, R72, R76; unused bits 0, R81) -/

/-- The word with the fields `op`, `o`, `a` (or `x` and `y`) and `imm` (or `b` and `c`) in their places. -/
def packWord (op : BitVec 6) (o : BitVec 2) (a : Byte) (imm : Half) : Word :=
  op ++ o ++ a ++ imm

/-- The word of a command. -/
def encode : Instr → Word
  | .encrgb r g b => packWord 0x01 0 r (g ++ b)
  | .encname n => packWord 0x02 0 0 (0#8 ++ n)
  | .decode hi lo => packWord 0x03 0 0 (hi ++ lo)
  | .setfg v => packWord 0x04 0 0 v
  | .setbg v => packWord 0x05 0 0 v
  | .setfgr => packWord 0x06 0 0 0
  | .setbgr => packWord 0x07 0 0 0
  | .pixoff o x y => packWord 0x08 o.code (x ++ y) 0
  | .glyoff o scan => packWord 0x09 o.code 0 (0#8 ++ scan)
  | .glyidx ch => packWord 0x10 0 0 (0#8 ++ ch)
  | .glyaddr row ch => packWord 0x11 0 0 (row ++ ch)
  | .lookup ch => packWord 0x12 0 0 (0#8 ++ ch)
  | .glybit g => packWord 0x13 0 0 (0#8 ++ g)
  | .pbset x y v => packWord 0x18 0 (x ++ y) v
  | .pbsetl off v => packWord 0x19 0 off v
  | .pbfill v => packWord 0x1A 0 0 v
  | .pbget off => packWord 0x1B 0 0 (0#8 ++ off)
  | .pbbyte idx => packWord 0x1C 0 0 (0#8 ++ idx)
  | .flush => packWord 0x20 0 0 0
  | .flush1 cell => packWord 0x21 0 0 (0#8 ++ cell)
  | .setpix o x y v => packWord 0x22 o.code (x ++ y) v
  | .msgclr => packWord 0x28 0 0 0
  | .msgput ch => packWord 0x29 0 0 (0#8 ++ ch)
  | .static o => packWord 0x2A o.code 0 0
  | .scroll o => packWord 0x2B o.code 0 0
  | .clrst mask => packWord 0x30 0 0 mask

/-- The bits of a word that `decode` reads for the command it stands for: the mask of its format (R72, R76). -/
def formatMask : Instr → Word
  | .setfgr | .setbgr | .flush | .msgclr => 0xFC000000
  | .setfg _ | .setbg _ | .pbfill _ | .clrst _ => 0xFC00FFFF
  | .encname _ | .glyidx _ | .lookup _ | .glybit _ | .pbget _ | .pbbyte _ | .flush1 _ | .msgput _ => 0xFC0000FF
  | .decode _ _ | .glyaddr _ _ => 0xFC00FFFF
  | .encrgb _ _ _ => 0xFCFFFFFF
  | .static _ | .scroll _ => 0xFF000000
  | .glyoff _ _ => 0xFF0000FF
  | .pixoff _ _ _ => 0xFFFF0000
  | .pbset _ _ _ | .pbsetl _ _ => 0xFCFFFFFF
  | .setpix _ _ _ _ => 0xFFFFFFFF

end Sys2Proof
end

