-- ==== Sys2Proof/Machine/Cells.lean ====
section
/-! DEFINITION. Fixed arrays of cells: the shape of `PB`, `GL` and `MSG` (R18, R19, R20, R59).
Access is by whole cell and by index. The commands check an index before they use it (R59, R131); the functions here are
total: a read outside the array answers the given default and a write outside it changes nothing. -/

namespace Sys2Proof.Machine

/-- The array whose cell `i` is `f i`. -/
def tabulate {α : Type} (n : Nat) (f : Nat → α) : Vector α n :=
  ⟨((List.range n).map f).toArray, by simp⟩

/-- Cell `i` of `v`, `d` outside the array. -/
def cellAt {α : Type} {n : Nat} (d : α) (v : Vector α n) (i : Nat) : α :=
  v.toList.getD i d

/-- `v` with cell `i` replaced by `x`. -/
def setCell {α : Type} {n : Nat} (v : Vector α n) (i : Nat) (x : α) : Vector α n :=
  v.setIfInBounds i x

end Sys2Proof.Machine
end

