-- ==== Sys2Proof/Machine/Params.lean ====
section
/-! DEFINITION. The fixed constants of R5 and the default values of its parameters (assumption log 9). -/

namespace Sys2Proof.Machine

/-! ### Fixed constants (R5) -/

def nCells : Nat := 64
def devBytes : Nat := 128
def fontBase : Nat := 3098
def glyphStride : Nat := 80
def chunkBytes : Nat := 16
def glyphChunks : Nat := 5
def maxIndex : Nat := 90
def litValue : Byte := 0xFF
def colsPerChar : Nat := 6
def trailingChars : Nat := 2

/-! ### Default parameters (R5) -/

/-- The default `ALPHABET`: the 90 codes of R110, positions 0 to 89. Assumption log 18. -/
def defaultAlphabet : List Byte :=
  -- 0..10: space + - * / ! " # $ > <
  [0x20, 0x2B, 0x2D, 0x2A, 0x2F, 0x21, 0x22, 0x23, 0x24, 0x3E, 0x3C]
  -- 11..20: 0 to 9
  ++ [0x30, 0x31, 0x32, 0x33, 0x34, 0x35, 0x36, 0x37, 0x38, 0x39]
  -- 21..24: . = ) (
  ++ [0x2E, 0x3D, 0x29, 0x28]
  -- 25..50: A to Z
  ++ [0x41, 0x42, 0x43, 0x44, 0x45, 0x46, 0x47, 0x48, 0x49, 0x4A, 0x4B, 0x4C, 0x4D]
  ++ [0x4E, 0x4F, 0x50, 0x51, 0x52, 0x53, 0x54, 0x55, 0x56, 0x57, 0x58, 0x59, 0x5A]
  -- 51..76: a to z
  ++ [0x61, 0x62, 0x63, 0x64, 0x65, 0x66, 0x67, 0x68, 0x69, 0x6A, 0x6B, 0x6C, 0x6D]
  ++ [0x6E, 0x6F, 0x70, 0x71, 0x72, 0x73, 0x74, 0x75, 0x76, 0x77, 0x78, 0x79, 0x7A]
  -- 77..89: ? , ; : | @ % [ & _ ' ] ~
  ++ [0x3F, 0x2C, 0x3B, 0x3A, 0x7C, 0x40, 0x25, 0x5B, 0x26, 0x5F, 0x27, 0x5D, 0x7E]

/-- The parameters at their defaults. `FONT` has none ("supplied by the platform"): no byte of it is known. -/
def defaultConfig : Config where
  font := ⟨10378, []⟩
  alphabet := defaultAlphabet
  litByte := .lower
  g270 := .literal
  msgMax := 255
  paceTicks := 100
  mtimeBits := 32

/-- `FG` after reset: the palette value of white (R13, R31). -/
def resetFg : Half := 0x1CE7

/-- `BG` after reset: the palette value of off (R14, R31). -/
def resetBg : Half := 0x0000

end Sys2Proof.Machine
end

