-- ==== Sys2Proof/Machine/Operands.lean ====
section
/-! DEFINITION. The operand forms: the checks a command makes on an operand before it does anything (R79, R193), and the
numeric code of a colour name (R74). Immediates are used as they stand (R83). -/

namespace Sys2Proof.Machine

/-- A checked coordinate pair: `none` when `x > 7` or `y > 7` (R101, R125, R138). -/
def coords (x y : BitVec 4) : Option (Nat × Nat) :=
  if x.toNat ≤ 7 ∧ y.toNat ≤ 7 then some (x.toNat, y.toNat) else none

/-- A checked cell, glyph cell or scan index: `none` above 63 (R103, R118, R126, R128, R137). -/
def cellIndex (b : Byte) : Option Nat :=
  if b.toNat ≤ 63 then some b.toNat else none

/-- A checked chunk number: `none` above 4 (R116). -/
def chunkRow (b : Byte) : Option Nat :=
  if b.toNat ≤ 4 then some b.toNat else none

/-- A checked index into `pb_bytes()`: `none` above 127 (R129). -/
def byteIndex (b : Byte) : Option Nat :=
  if b.toNat ≤ 127 then some b.toNat else none

/-- The code of a colour name (R74). -/
def nameCode : ColorName → Byte
  | .off => 0
  | .red => 1
  | .green => 2
  | .blue => 3
  | .yellow => 4
  | .cyan => 5
  | .magenta => 6
  | .white => 7

end Sys2Proof.Machine
end

