-- ==== Sys2Proof/Machine/Colors.lean ====
section
/-! DEFINITION. ColorCodec's functions (R90, R92, R93). -/

namespace Sys2Proof.Machine

/-- `channel3 = channel div 32` (R90). -/
def channel3 (c : Byte) : Nat := c.toNat / 32

/-- `pack(r, g, b) = blue3*1024 + red3*32 + green3` (R90). -/
def pack (r g b : Byte) : Half :=
  BitVec.ofNat 16 (channel3 b * 1024 + channel3 r * 32 + channel3 g)

/-- `PALETTE[n]` for a named-colour code; a code above 7 is off (R92). -/
def palette (n : Byte) : Half :=
  match n.toNat with
  | 0 => 0x0000
  | 1 => 0x00E0
  | 2 => 0x0007
  | 3 => 0x1C00
  | 4 => 0x00E7
  | 5 => 0x1C07
  | 6 => 0x1CE0
  | 7 => 0x1CE7
  | _ => 0x0000

/-- `hi * 256 + lo` (R93). -/
def joinBytes (hi lo : Byte) : Half := BitVec.ofNat 16 (hi.toNat * 256 + lo.toNat)

/-- `v div 256`, the byte at the lower device offset (R41). -/
def highByte (v : Half) : Byte := BitVec.ofNat 8 (v.toNat / 256)

/-- `v mod 256`, the byte at the higher device offset (R41). -/
def lowByte (v : Half) : Byte := BitVec.ofNat 8 (v.toNat % 256)

end Sys2Proof.Machine
end

