-- ==== Sys2Proof/Machine/Mapping.lean ====
section
/-! DEFINITION. OrientationMapper's two functions (R100, R102). -/

namespace Sys2Proof.Machine

/-- `pixel_offset(x, y, o)` for `x`, `y` in 0 to 7 (R100). -/
def pixelOffset (x y : Nat) : Orient → Nat
  | .deg0 => y * 8 + x
  | .deg90 => x * 8 + (7 - y)
  | .deg180 => 63 - (y * 8 + x)
  | .deg270 => (7 - x) * 8 + y

/-- `glyph_offset(s, o)` for a scan index 0 to 63: a glyph cell, or `none` for a background position (R102). -/
def glyphOffset (rule : G270Rule) (scan : Nat) : Orient → Option Nat
  | .deg0 => if scan % 8 > 4 then none else some ((scan % 8 + 1) * 8 - 1 - scan / 8)
  | .deg90 => if scan ≥ 40 then none else some scan
  | .deg180 => if scan % 8 < 3 then none else some ((7 - scan % 8) * 8 + scan / 8)
  | .deg270 =>
    match rule with
    | .literal => if scan > 24 then none else some (63 - scan)
    | .rotated => if scan < 24 then none else some (63 - scan)

end Sys2Proof.Machine
end

