-- ==== Sys2Proof/Machine/Draw.lean ====
section
/-! DEFINITION. What the rendering commands do to the 64 cells of `PB` (R130, R154, R155, R157, R158), as functions of
arrays. -/

namespace Sys2Proof.Machine

/-- `pb_bytes()[i]` (R130, R41): the high byte of a cell at its even offset, the low byte at its odd one. -/
def pbByte (pb : Vector Half 64) (i : Nat) : Byte :=
  if i % 2 = 0 then highByte (cellAt 0 pb (i / 2)) else lowByte (cellAt 0 pb (i / 2))

/-- `pb_bytes()[off .. off+n-1]` (R135). -/
def pbBytes (pb : Vector Half 64) (off n : Nat) : List Byte :=
  (List.range n).map fun k => pbByte pb (off + k)

/-- `ink(g)` for a glyph cell or `none` (R154). -/
def ink (fg bg : Half) (gl : Vector Bool 64) : Option Nat → Half
  | none => bg
  | some g => if cellAt false gl g then fg else bg

/-- Every cell `c` (R127, and the initial fill of R156). -/
def fillCells (c : Half) : Vector Half 64 := tabulate 64 fun _ => c

/-- Every cell `s` takes `ink(glyph_offset(s, o))` (R155). -/
def paintCells (rule : G270Rule) (fg bg : Half) (gl : Vector Bool 64) (o : Orient) : Vector Half 64 :=
  tabulate 64 fun i => ink fg bg gl (glyphOffset rule i o)

/-- `Shift(o)` (R157); the trailing edge keeps its old values, which R157 says is immaterial (assumption log 13). -/
def shiftCells (o : Orient) (pb : Vector Half 64) : Vector Half 64 :=
  tabulate 64 fun i =>
    match o with
    | .deg0 => if i % 8 < 7 then cellAt 0 pb (i + 1) else cellAt 0 pb i
    | .deg90 => if i / 8 < 7 then cellAt 0 pb (i + 8) else cellAt 0 pb i
    | .deg180 => if i % 8 > 0 then cellAt 0 pb (i - 1) else cellAt 0 pb i
    | .deg270 => if i / 8 > 0 then cellAt 0 pb (i - 8) else cellAt 0 pb i

/-- The glyph cell that `Insert(o, col, false)` shows in buffer cell `i`, and `none` for a cell it does not write (R158). -/
def insertCell (o : Orient) (col i : Nat) : Option Nat :=
  match o with
  | .deg0 => if i % 8 = 7 then some (col * 8 + (7 - i / 8)) else none
  | .deg90 => if i / 8 = 7 then some (col * 8 + i % 8) else none
  | .deg180 => if i % 8 = 0 then some (col * 8 + i / 8) else none
  | .deg270 => if i / 8 = 0 then some (col * 8 + (7 - i % 8)) else none

/-- `Insert(o, col, blank)` (R158). -/
def insertCells (o : Orient) (col : Nat) (blank : Bool) (fg bg : Half) (gl : Vector Bool 64) (pb : Vector Half 64) :
    Vector Half 64 :=
  tabulate 64 fun i =>
    match insertCell o col i with
    | some g => if blank then bg else ink fg bg gl (some g)
    | none => cellAt 0 pb i

end Sys2Proof.Machine
end

