-- ==== Sys2Proof/Machine/State.lean ====
section
/-! DEFINITION. The state of the core and of what stands around it, as plain data.
Architectural registers: R10 to R17. Arrays: R18 to R20. Hidden state: R25. The command being executed: R84, R7.
The platform's inputs (R26 to R29, R32) are scripts: the answers and levels still to come, in the order in which the core
samples them; a statement about every state is a statement about every sequence of them. -/

namespace Sys2Proof.Machine

/-- `STATUS.ASTATE` (R11, R150). -/
inductive AState where
  | idle | painting | scrolling | done
deriving DecidableEq, Repr

/-- The fields of `STATUS` (R11); the 8-bit word of it is `Status.word` in Machine/Flags.lean. -/
structure Status where
  busy      : Bool
  astate    : AState
  fonterr   : Bool
  deverr    : Bool
  illcmd    : Bool
  cancelled : Bool
  nodev     : Bool
deriving DecidableEq, Repr

/-- The four abort events (R198). -/
inductive Abort where
  | fontErr | devErr | illCmd | cancelled
deriving DecidableEq, Repr

/-- The platform's answer to one transaction (R44, R45, R50). `silent`: it has not answered when the core looks, and the command
waits (R231). -/
inductive Answer where
  | ok | failed | silent
deriving DecidableEq, Repr

/-- The values an input takes, one for each time the core samples it: those of `next` in order, then `rest` for ever. -/
structure Script (α : Type) where
  next : List α
  rest : α
deriving DecidableEq, Repr

/-- What the host and the platform will present (R26, R32; the oracle inputs of 92_eei_decisions section 7). -/
structure Platform where
  /-- `cmd_valid`, `cmd_data`: the words the host presents, the first one now; none left is `cmd_valid = 0`. -/
  commands : List Word
  /-- `rst`, one sample a step. -/
  rst      : Script Bool
  /-- `cancel`, one sample a between-frames check (R162). -/
  cancel   : Script Bool
  /-- `dev_present`, one sample a `DevAcquire` (R27). -/
  present  : Script Bool
  /-- The answers to the device requests (`Granted` is `ok`). -/
  acquire  : Script Answer
  /-- The answers to the device writes. -/
  write    : Script Answer
  /-- The answers to the font reads. -/
  font     : Script Answer
  /-- After each device event of a flush (R57), whether a clock edge falls between it and what the command does next: how many
  cycles a command takes is not fixed (R236), so a reset may come there (R222). -/
  edge     : Script Bool
  /-- How far `mtime` has moved on each time the core reads it (R29). -/
  ticks    : Script Nat
  /-- What others write to the device while the core does not hold it (R58, R233): (offset, byte) pairs, one list each time
  `othersWrite` takes one. -/
  foreign  : Script (List Host.Cell)
deriving DecidableEq, Repr

/-- The history of transactions (R57), oldest first. Assumption log 12. -/
inductive Event where
  /-- `DevAcquire` with the device present: granted or failed. -/
  | acquire (granted : Bool)
  /-- `DevWrite(off, n, bytes)` and whether it was answered `Ok`. -/
  | write (off : Nat) (bytes : List Byte) (ok : Bool)
  /-- `DevRelease`. -/
  | release
  /-- `FontRead(addr, 16)` and whether it was answered with bytes. -/
  | fontRead (addr : Nat) (ok : Bool)
  /-- The end of a `Pace()`. -/
  | pace
  /-- `rst` was taken (R220). -/
  | reset
deriving DecidableEq, Repr

/-- The statements of the pseudocode of the commands that wait for the platform (`LOOKUP`, `FLUSH`, `FLUSH1`, `SETPIX`,
`STATIC`, `SCROLL`); what each does is `runOp` in Machine/Engine.lean. -/
inductive Op where
  /-- `STATUS.ASTATE <- a`. -/
  | setAState (a : AState)
  /-- `SCHR <- k`. -/
  | setSchr (k : Nat)
  /-- `SCOL <- c`. -/
  | setScol (c : Nat)
  /-- `n <- MSGLEN`. -/
  | latchLen
  /-- `for i in 0 .. 63: PB[i] <- BG`. -/
  | fillBg
  /-- `G <- FontLookup(ch)`; on success `GL <- G`, on failure `raise FontErr` (R117, R155). -/
  | lookup (ch : Byte)
  /-- The same for `MSG[SCHR]` if `SCHR < n`, else nothing (R156, R159). -/
  | lookupMsg
  /-- `blank <-` whether `SCHR` is a trailing character (R156). -/
  | setBlank
  /-- `PB[s] <- ink(glyph_offset(s, o))` for every `s` (R155). -/
  | paint (o : Orient)
  /-- `Shift(o)` (R157). -/
  | shift (o : Orient)
  /-- `Insert(o, SCOL, blank)` (R158). -/
  | insert (o : Orient)
  /-- `Flush(off, n)` from its start; `raise DevErr` if it returns `Failed` (R135, R141). -/
  | flush (off n : Nat)
  /-- `Pace()` from its start (R205). -/
  | pace
  /-- `if cancel = 1 then raise Cancelled` (R162). -/
  | checkCancel
  /-- A lookup that waits for the answer to the read of chunk `row`. -/
  | fontRow (row : Nat)
  /-- A flush that waits for the answer to its device request. -/
  | flushGrant (off n : Nat)
  /-- A flush that holds the device and has not begun its write. -/
  | flushHold (off n : Nat)
  /-- A flush that holds the device and waits for the answer to its write. -/
  | flushWrite (off n : Nat)
  /-- A flush whose write was answered, with `Ok` or not, and that still holds the device. -/
  | flushRelease (ok : Bool)
  /-- A flush that holds nothing any more and has not returned yet: `Ok`, or `Failed` and then `raise DevErr`. -/
  | flushEnd (ok : Bool)
  /-- A pacing wait that has begun. -/
  | paceWait
deriving DecidableEq, Repr

structure State where
  /-- The instance's parameters (R5, R30). -/
  cfg     : Config
  /-- `STATUS` (R11). -/
  status  : Status
  /-- `RES` (R12). -/
  res     : Half
  /-- `FG` (R13). -/
  fg      : Half
  /-- `BG` (R14). -/
  bg      : Half
  /-- `MSGLEN` (R15). -/
  msglen  : Byte
  /-- `SCHR` (R16). -/
  schr    : BitVec 9
  /-- `SCOL` (R17). -/
  scol    : BitVec 3
  /-- `PB[0..63]` (R18). -/
  pb      : Vector Half 64
  /-- `GL[0..63]` (R19); true is lit. -/
  gl      : Vector Bool 64
  /-- `MSG` (R20); its first `MSG_MAX` entries are the instance's. -/
  msg     : Vector Byte 255
  /-- Device held (R25 a). -/
  held    : Bool
  /-- Pace start `t0` (R25 b). -/
  t0      : Nat
  /-- Latched message length `n` (R25 c). -/
  n       : Byte
  /-- Blank flag (R25 c). -/
  blank   : Bool
  /-- The accepted command while it executes (R7 `cmd`, R84). -/
  cmd     : Option Instr
  /-- The rest of its pseudocode, while it waits for the platform (R84, R231). -/
  todo    : List Op
  /-- `index` of the lookup in progress (R115). -/
  fontIdx : Nat
  /-- `G` of the lookup in progress (R115). -/
  glyph   : Vector Bool 64
  /-- What the host and the platform will present. -/
  plat    : Platform
  /-- `mtime` (R29). -/
  mtime   : Nat
  /-- `DEV` (R40), as (offset, byte) pairs, offsets strictly rising; an offset not listed is not known. -/
  dev     : List Host.Cell
  /-- The history (R57). -/
  trace   : List Event
  /-- How many free values have been drawn. -/
  draws   : Nat
deriving DecidableEq, Repr

/-- The core never stops with a fault: it has no traps (R196, R166), every word is accepted and ends (R77, R79), and a platform
that never answers hangs it, which is a waiting state and "not a fault" (R231). So there is no constructor: nothing raises one;
safe. Assumption log 17. -/
inductive Fault where
deriving DecidableEq, Repr

inductive Refusal where
  /-- Raised by an arm of `exec` whose command has no meaning yet, and by nothing else; safe. No arm raises it now. -/
  | notModelled (mnemonic : String)
deriving DecidableEq, Repr

/-- `STATUS` after reset: 0x00 (R31). -/
def Status.reset : Status where
  busy := false
  astate := .idle
  fonterr := false
  deverr := false
  illcmd := false
  cancelled := false
  nodev := false

/-- The platform a fresh model begins with: nothing presented, `rst` and `cancel` low, a device present, every transaction
answered at once, no clock edge inside a flush, `mtime` moving on by `PACE_TICKS` of the default instance between two readings,
no other master (assumption log 5; nothing of it is the core's state). -/
def Platform.quiet : Platform where
  commands := []
  rst := ⟨[], false⟩
  cancel := ⟨[], false⟩
  present := ⟨[], true⟩
  acquire := ⟨[], .ok⟩
  write := ⟨[], .ok⟩
  font := ⟨[], .ok⟩
  edge := ⟨[], false⟩
  ticks := ⟨[], 100⟩
  foreign := ⟨[], []⟩

/-- The core after reset (R31) in a default instance on a quiet platform. `PB` and `MSG` are free values (log 2); `t0`, `n`, the
blank flag and the locals of a lookup are zero (log 6). -/
def State.reset : State where
  cfg := defaultConfig
  status := .reset
  res := 0
  fg := resetFg
  bg := resetBg
  msglen := 0
  schr := 0
  scol := 0
  pb := tabulate 64 Config.freeCell
  gl := tabulate 64 fun _ => false
  msg := tabulate 255 Config.freeChar
  held := false
  t0 := 0
  n := 0
  blank := false
  cmd := none
  todo := []
  fontIdx := 0
  glyph := tabulate 64 fun _ => false
  plat := .quiet
  mtime := 0
  dev := []
  trace := []
  draws := 255

end Sys2Proof.Machine
end

