-- ==== Sys2Proof/Machine/Flags.lean ====
section
/-! DEFINITION. The `STATUS` register: its word (R11), the flag of each abort event (R198), and what `CLRST` clears (R180).
No command computes a condition code (R22). -/

namespace Sys2Proof.Machine

/-- The 2-bit code of `ASTATE` (R11). -/
def AState.code : AState → BitVec 2
  | .idle => 0
  | .painting => 1
  | .scrolling => 2
  | .done => 3

/-- The 8-bit word of `STATUS` (R11): from bit 7 down to bit 0. -/
def Status.word (st : Status) : BitVec 8 :=
  BitVec.ofBool st.nodev ++ BitVec.ofBool st.cancelled ++ BitVec.ofBool st.illcmd ++ BitVec.ofBool st.deverr
    ++ BitVec.ofBool st.fonterr ++ st.astate.code ++ BitVec.ofBool st.busy

/-- `STATUS.<flag of e> <- 1` (R196 step 1; the flags of R198). -/
def Status.raiseFlag (st : Status) : Abort → Status
  | .fontErr => { st with fonterr := true }
  | .devErr => { st with deverr := true }
  | .illCmd => { st with illcmd := true }
  | .cancelled => { st with cancelled := true }

/-- The flag of an abort event (R198). -/
def Status.flag (st : Status) : Abort → Bool
  | .fontErr => st.fonterr
  | .devErr => st.deverr
  | .illCmd => st.illcmd
  | .cancelled => st.cancelled

/-- The mask bit of `CLRST`, which is the flag's own position in `STATUS` (R180, R198 "code"). -/
def Abort.code : Abort → Nat
  | .fontErr => 3
  | .devErr => 4
  | .illCmd => 5
  | .cancelled => 6

/-- The sticky flags whose mask bit is 1 become 0; nothing else of `STATUS` changes (R180). -/
def Status.clear (st : Status) (mask : Half) : Status :=
  { st with
    fonterr := st.fonterr && !mask.getLsbD Abort.fontErr.code
    deverr := st.deverr && !mask.getLsbD Abort.devErr.code
    illcmd := st.illcmd && !mask.getLsbD Abort.illCmd.code
    cancelled := st.cancelled && !mask.getLsbD Abort.cancelled.code }

end Sys2Proof.Machine
end

