-- ==== Sys2Proof/Machine/Font.lean ====
section
/-! DEFINITION. GlyphStore's functions: from a character to the font bytes of its glyph (R110 to R115), and the font space
(R50 to R52). -/

namespace Sys2Proof.Machine

/-- The position of the first entry of the alphabet equal to `ch`, or -1 (R111). -/
def positionIn (alphabet : List Byte) (ch : Byte) : Int :=
  match alphabet.findIdx? (· == ch) with
  | some p => p
  | none => -1

/-- `clamp(v, lo, hi)` (R6). -/
def clamp (v lo hi : Int) : Int := if v < lo then lo else if v > hi then hi else v

/-- `glyph_index(ch) = clamp(90 - position_in_alphabet(ch), 0, 90)` (R112). -/
def glyphIndex (alphabet : List Byte) (ch : Byte) : Nat :=
  (clamp (maxIndex - positionIn alphabet ch) 0 maxIndex).toNat

/-- `chunk_addr(index, row) = 3098 + index*80 + (64 - row*16)` (R113). -/
def chunkAddr (index row : Nat) : Nat :=
  fontBase + index * glyphStride + (64 - row * chunkBytes)

/-- `FONT[a]` (R50, R51): the listed byte, else the free value of that offset. -/
def fontByte (f : Font) (a : Nat) : Byte :=
  match f.bytes.find? fun p => p.1 == a with
  | some p => p.2
  | none => Config.freeFontByte a

/-- The `n` bytes `FONT[a .. a+n-1]` in ascending address order (R50). -/
def fontRead (f : Font) (a n : Nat) : List Byte :=
  (List.range n).map fun k => fontByte f (a + k)

/-- Where in a byte pair the relevant byte stands (R115 b). -/
def litOffset : LitByte → Nat
  | .lower => 0
  | .higher => 1

/-- Whether pixel `col` of a chunk is lit: equality of the relevant byte with `LIT_VALUE` (R115 b, c). -/
def chunkLit (lit : LitByte) (bytes : List Byte) (col : Nat) : Bool :=
  bytes.getD (2 * col + litOffset lit) 0 == litValue

/-- `G` with the eight cells of chunk `row` taken from its 16 bytes (R115 d). -/
def glyphWithChunk (lit : LitByte) (g : Vector Bool 64) (row : Nat) (bytes : List Byte) : Vector Bool 64 :=
  tabulate 64 fun i => if i / 8 = row then chunkLit lit bytes (i % 8) else cellAt false g i

/-- `G` with cells 40 to 63 background (R115, its last loop). -/
def glyphClosed (g : Vector Bool 64) : Vector Bool 64 :=
  tabulate 64 fun i => if i < 40 then cellAt false g i else false

/-- The glyph that the font image holds at `index` (R115, when every read is answered). -/
def fontGlyph (lit : LitByte) (f : Font) (index : Nat) : Vector Bool 64 :=
  tabulate 64 fun i =>
    if i < 40 then chunkLit lit (fontRead f (chunkAddr index (i / 8)) chunkBytes) (i % 8) else false

end Sys2Proof.Machine
end

