-- ==== Sys2Proof/Machine/Ops.lean ====
section
/-! DEFINITION. The named operations over registers, arrays, the device space and the platform's answers; the acceptance and
the end of a command (R84), the one entry of an abort event (R196), and reset (R220, R222). -/

namespace Sys2Proof.Machine

/-- What a meaning answers. -/
abbrev Out := Host.Outcome State Fault Refusal

/-! ### Registers and arrays (R10 to R20) -/

/-- `RES <- v` (R12). -/
def State.withRes (s : State) (v : Half) : State := { s with res := v }

/-- `FG <- v` (R13). -/
def State.withFg (s : State) (v : Half) : State := { s with fg := v }

/-- `BG <- v` (R14). -/
def State.withBg (s : State) (v : Half) : State := { s with bg := v }

/-- `PB` replaced whole (R18). -/
def State.withPb (s : State) (pb : Vector Half 64) : State := { s with pb := pb }

/-- `GL` replaced whole (R19, R119). -/
def State.withGl (s : State) (gl : Vector Bool 64) : State := { s with gl := gl }

/-- `STATUS` replaced. -/
def State.withStatus (s : State) (st : Status) : State := { s with status := st }

/-- `STATUS.ASTATE <- a` (R150). -/
def State.withAState (s : State) (a : AState) : State := { s with status := { s.status with astate := a } }

/-- `MSGLEN <- 0` (R151). -/
def State.clearMsg (s : State) : State := { s with msglen := 0 }

/-- `MSG[MSGLEN] <- ch`, then `MSGLEN <- MSGLEN + 1` (R153). -/
def State.appendMsg (s : State) (ch : Byte) : State :=
  { s with msg := setCell s.msg s.msglen.toNat ch, msglen := s.msglen + 1 }

/-- `PB[i]` (R18). -/
def State.pbAt (s : State) (i : Nat) : Half := cellAt 0 s.pb i

/-- `GL[g]` (R19). -/
def State.glAt (s : State) (g : Nat) : Bool := cellAt false s.gl g

/-- `MSG[i]` (R20). -/
def State.msgAt (s : State) (i : Nat) : Byte := cellAt 0 s.msg i

/-- The history with one more transaction (R57). -/
def State.log (s : State) (e : Event) : State := { s with trace := s.trace ++ [e] }

/-! ### Acceptance and end of a command (R84), abort events (R196) -/

/-- Acceptance: `STATUS.BUSY <- 1`, and the command's fields are held while it executes (R84, R7). -/
def State.accept (s : State) (i : Instr) : State :=
  { s with status := { s.status with busy := true }, cmd := some i }

/-- The end of a command by completion, no-op or abort: `STATUS.BUSY <- 0` (R84). -/
def State.finish (s : State) : State :=
  { s with status := { s.status with busy := false }, cmd := none, todo := [] }

/-- Whether the command being executed is `SCROLL`. -/
def State.scrolling (s : State) : Bool :=
  match s.cmd with
  | some (.scroll _) => true
  | _ => false

/-- `raise e` (R196): the flag is set, `SCROLL` goes to `Idle`, and the command ends; nothing is saved or rolled back. -/
def State.raise (s : State) (e : Abort) : State :=
  let flagged := s.withStatus (s.status.raiseFlag e)
  (if flagged.scrolling then flagged.withAState .idle else flagged).finish

/-- A command that is one atomic update of the state (R84: every command that waits for nothing). -/
def command (i : Instr) (f : State → State) (s : State) : Out :=
  .next (f (s.accept i)).finish

/-- The same for a command that first checks an operand: `none` is its no-op (R193). -/
def checked {α : Type} (i : Instr) (operand : Option α) (f : α → State → State) (s : State) : Out :=
  command i (match operand with | some a => f a | none => id) s

/-! ### The device space (R40, R41, R45) -/

/-- The byte at an address of a list of cells, `none` where nothing is listed. -/
def Memory.read : List Host.Cell → Nat → Option Byte
  | [], _ => none
  | c :: m, a => if c.1 = a then some c.2 else Memory.read m a

/-- The cells of the bytes `bs` standing at `a`, `a + 1`, … -/
def Memory.cellsFrom : Nat → List Byte → List Host.Cell
  | _, [] => []
  | a, b :: bs => (a, b) :: Memory.cellsFrom (a + 1) bs

/-- The bytes `bs` written at `a`, `a + 1`, … in one piece, the list kept in rising order of addresses (R45, R48). Assumption
log 16. -/
def Memory.writeBytes (m : List Host.Cell) (a : Nat) (bs : List Byte) : List Host.Cell :=
  m.filter (fun c => decide (c.1 < a)) ++ Memory.cellsFrom a bs ++ m.filter fun c => decide (a + bs.length ≤ c.1)

/-- The canonical form: addresses strictly rising. An unlisted address reads as no value, so no entry can equal it. -/
def Memory.rising : List Host.Cell → Bool
  | [] => true
  | [_] => true
  | c :: d :: m => decide (c.1 < d.1) && Memory.rising (d :: m)

/-- The device list is canonical and lies in the 128 bytes that exist (R40). -/
def Memory.wf (m : List Host.Cell) : Bool := Memory.rising m && m.all fun c => decide (c.1 < devBytes)

/-- What the model knows of device byte `a`: `none` outside the 128 bytes and where nothing is known (R43, R58). -/
def State.devAt (s : State) (a : Nat) : Option Byte :=
  if a < devBytes then Memory.read s.dev a else none

/-- `n` free values, one for each byte of a failed, abandoned or unanswered write (R45, R48, R222). -/
def freeBytes (draws n : Nat) : List Byte :=
  (List.range n).map fun k => Config.freeDeviceByte (draws + k)

/-- The range of a write that failed, or that is not answered yet, holds unspecified bytes; the bytes outside it are unchanged
(R45, R48; V5, V6). -/
def State.spoil (s : State) (off n : Nat) : State :=
  { s with dev := Memory.writeBytes s.dev off (freeBytes s.draws n), draws := s.draws + n }

/-- What others wrote to the device between two holds; an offset outside the device is no device byte (R58, R233). -/
def Memory.merge : List Host.Cell → List Host.Cell → List Host.Cell
  | m, [] => m
  | m, c :: cs => Memory.merge (if c.1 < devBytes then Memory.writeBytes m c.1 [c.2] else m) cs

/-! ### Sampling the platform (R26 to R29) -/

/-- The value an input has now. -/
def Script.now {α : Type} (sc : Script α) : α :=
  match sc.next with
  | [] => sc.rest
  | a :: _ => a

/-- The script after one sample. -/
def Script.later {α : Type} (sc : Script α) : Script α := { sc with next := sc.next.tail }

/-- After one sample of `rst`. -/
def State.sampledRst (s : State) : State := { s with plat := { s.plat with rst := s.plat.rst.later } }

/-- After one sample of `cancel` (R162). -/
def State.sampledCancel (s : State) : State := { s with plat := { s.plat with cancel := s.plat.cancel.later } }

/-- After one sample of `dev_present`, with `NODEV` written (R44: 1 on `Absent`, else 0). -/
def State.sampledPresent (s : State) : State :=
  { s with
    plat := { s.plat with present := s.plat.present.later }
    status := { s.status with nodev := !s.plat.present.now } }

/-- After the platform's answer to a device request. -/
def State.sampledAcquire (s : State) : State := { s with plat := { s.plat with acquire := s.plat.acquire.later } }

/-- After the platform's answer to a device write. -/
def State.sampledWrite (s : State) : State := { s with plat := { s.plat with write := s.plat.write.later } }

/-- After the platform's answer to a font read. -/
def State.sampledFont (s : State) : State := { s with plat := { s.plat with font := s.plat.font.later } }

/-- After one sample of `edge` (R222). -/
def State.sampledEdge (s : State) : State := { s with plat := { s.plat with edge := s.plat.edge.later } }

/-- `mtime` read: it has moved on, wrapping at `2^MTIME_BITS` (R29). Assumption log 14. -/
def State.readMtime (s : State) : State :=
  { s with
    mtime := (s.mtime + s.plat.ticks.now) % 2 ^ s.cfg.mtimeBits
    plat := { s.plat with ticks := s.plat.ticks.later } }

/-- What others write to the device while the core does not hold it: one entry of their script (R58, R233). It comes before a
grant, after a release, and at the start of every step that finds the device not held. Assumption log 7. -/
def State.othersWrite (s : State) : State :=
  { s with
    dev := Memory.merge s.dev s.plat.foreign.now
    plat := { s.plat with foreign := s.plat.foreign.later } }

/-- The device granted: held from here on, with whatever others left in it (R44, R58). -/
def State.takeDevice (s : State) : State :=
  { s with
    held := true
    dev := Memory.merge s.dev s.plat.foreign.now
    plat := { s.plat with foreign := s.plat.foreign.later } }

/-- `DevRelease()` (R46); from here on the device is the platform's again (R58). -/
def State.releaseDevice (s : State) : State :=
  { s with
    held := false
    dev := Memory.merge s.dev s.plat.foreign.now
    plat := { s.plat with foreign := s.plat.foreign.later }
    trace := s.trace ++ [.release] }

/-- What every step begins with: `rst` is sampled (R220), and the platform may have written a device that the core does not hold
(R58). -/
def State.begun (s : State) : State := if s.held then s.sampledRst else s.sampledRst.othersWrite

/-! ### Reset (R31, R220, R222) -/

/-- The device after a reset that met a write in progress: its range is unspecified (R222). The write in progress is the one the
core waits on. -/
def State.abandonWrite (s : State) : State :=
  match s.todo with
  | .flushWrite off n :: _ => if s.held then s.spoil off n else s
  | _ => s

/-- `rst` taken: the reset values of R31, with fresh free values in `PB` and `MSG`; the instance, the platform and its device
are not the core's to reset (R30). -/
def State.resetCore (s : State) : State :=
  let t := s.abandonWrite
  { State.reset with
    cfg := t.cfg
    pb := tabulate 64 fun i => Config.freeCell (t.draws + i)
    msg := tabulate 255 fun i => Config.freeChar (t.draws + i)
    plat := t.plat
    mtime := t.mtime
    dev := t.dev
    trace := t.trace ++ [.reset]
    draws := t.draws + 255 }

/-! ### Command acceptance (R26, R77, R84) -/

/-- The word the host presents and the state after taking it: `none` when `cmd_valid = 0`. -/
def State.fetch (s : State) : Option (Word × State) :=
  match s.plat.commands with
  | [] => none
  | w :: ws => some (w, { s with plat := { s.plat with commands := ws } })

/-- A word with a reserved `op` is accepted, performs `raise IllCmd` and ends (R77, R195). -/
def State.acceptIllegal (s : State) : State :=
  { s with status := { s.status with busy := true }, cmd := none }.raise .illCmd

end Sys2Proof.Machine
end

