-- ==== Sys2Proof/Machine/ColorCodec.lean ====
section
/-! DEFINITION. The meanings of `ENCRGB`, `ENCNAME`, `DECODE`, `SETFG`, `SETBG`, `SETFGR`, `SETBGR` (40_color.md). -/

namespace Sys2Proof.Machine

/-- `ENCRGB r, g, b` (R91). -/
def execEncrgb (r g b : Byte) (s : State) : Out :=
  command (.encrgb r g b) (·.withRes (pack r g b)) s

/-- `ENCNAME n` (R92). -/
def execEncname (n : Byte) (s : State) : Out :=
  command (.encname n) (·.withRes (palette n)) s

/-- `DECODE hi, lo` (R93). -/
def execDecode (hi lo : Byte) (s : State) : Out :=
  command (.decode hi lo) (·.withRes (joinBytes hi lo)) s

/-- `SETFG v` (R94). -/
def execSetfg (v : Half) (s : State) : Out :=
  command (.setfg v) (·.withFg v) s

/-- `SETBG v` (R95). -/
def execSetbg (v : Half) (s : State) : Out :=
  command (.setbg v) (·.withBg v) s

/-- `SETFGR` (R96). -/
def execSetfgr (s : State) : Out :=
  command .setfgr (fun t => t.withFg t.res) s

/-- `SETBGR` (R97). -/
def execSetbgr (s : State) : Out :=
  command .setbgr (fun t => t.withBg t.res) s

end Sys2Proof.Machine
end

