-- ==== Sys2Proof/Machine/Engine.lean ====
section
/-! DEFINITION. The commands that wait for the platform, statement by statement.
A command's pseudocode is a list of statements (`Op`). `run` performs them in order: each is done, or raises an abort event
(R196), or waits for an answer the platform has not given, or for the next clock edge after a device event. A command that waits
keeps the rest of its statements in `todo` with `BUSY = 1`, so that every point of it at which the platform can be slow, and
every prefix of its device events, is a state of the machine (R84, R222, R231). Assumption log 1 and 11. -/

namespace Sys2Proof.Machine

/-- What one statement comes to. -/
inductive OpResult where
  /-- It is done. -/
  | done (s : State)
  /-- It performs `raise e` (R196). -/
  | raise (e : Abort) (s : State)
  /-- The platform has not answered, or a clock edge falls here; `resume` is where the statement goes on. -/
  | wait (s : State) (resume : Op)
deriving DecidableEq, Repr

/-! ### Font lookup (R50, R115, R119) -/

/-- `FontRead(addr, 16)` is answered `Failed`: by the platform, or because the read runs past the end of the image (R52). -/
def State.fontFails (s : State) (addr : Nat) : Bool :=
  decide (s.plat.font.now = .failed) || decide (s.cfg.font.size < addr + chunkBytes)

/-- `G` with chunk `row` of the glyph at `index` (one turn of R115's loop). -/
def State.readChunk (s : State) (row : Nat) : State :=
  let addr := chunkAddr s.fontIdx row
  { s.sampledFont with
    glyph := glyphWithChunk s.cfg.litByte s.glyph row (fontRead s.cfg.font addr chunkBytes)
    trace := s.trace ++ [.fontRead addr true] }

/-- The reads of the chunks `rows`, in order; then `G[40..63] <- 0` and `GL <- G`, whole or not at all (R115, R119). -/
def readChunks : List Nat → State → OpResult
  | [], s => .done (s.withGl (glyphClosed s.glyph))
  | row :: rows, s =>
    if s.plat.font.now = .silent then .wait s.sampledFont (.fontRow row)
    else if s.fontFails (chunkAddr s.fontIdx row) then
      .raise .fontErr (s.sampledFont.log (.fontRead (chunkAddr s.fontIdx row) false))
    else readChunks rows (s.readChunk row)

/-- The chunk numbers from `row` on, in ascending order (R113: 0, 1, 2, 3, 4). -/
def chunksFrom (row : Nat) : List Nat := (List.range glyphChunks).drop row

/-- `index <- glyph_index(ch)`, and a fresh `G` (R115). -/
def State.beginLookup (s : State) (ch : Byte) : State :=
  { s with fontIdx := glyphIndex s.cfg.alphabet ch, glyph := tabulate 64 fun _ => false }

/-- `FontLookup(ch)` with what the command does with its answer (R117, R155, R156). -/
def lookupChar (ch : Byte) (s : State) : OpResult := readChunks (chunksFrom 0) (s.beginLookup ch)

/-! ### Flush (R44 to R46, R135) -/

/-- The device answers a write of `bytes` at `off` with `Ok`: exactly those bytes change (R45). -/
def State.writeDevice (s : State) (off : Nat) (bytes : List Byte) : State :=
  { s with dev := Memory.writeBytes s.dev off bytes }

/-- After a device event the command goes on, or a clock edge falls there and the step ends: so every prefix of the device
events of a command is a state of the machine, in which a reset may come (R222; V8). Assumption log 11. -/
def atEdge (resume : Op) (go : State → OpResult) (s : State) : OpResult :=
  if s.plat.edge.now then .wait s.sampledEdge resume else go s.sampledEdge

/-- `Flush` has returned `Ok`, or `Failed`, on which the command performs `raise DevErr` (R141). -/
def flushEnd (ok : Bool) (s : State) : OpResult := if ok then .done s else .raise .devErr s

/-- `Flush` from its `DevRelease` on: the device is released on both outcomes of the write (R135). -/
def flushRelease (ok : Bool) (s : State) : OpResult := atEdge (.flushEnd ok) (flushEnd ok) s.releaseDevice

/-- `Flush` from its `DevWrite` on. While the write is under way its range holds unspecified bytes: whether others can see it
half-written is not to be assumed either way (R48; V6). -/
def flushWrite (off n : Nat) (s : State) : OpResult :=
  let bytes := pbBytes s.pb off n
  match s.plat.write.now with
  | .silent => .wait (s.sampledWrite.spoil off n) (.flushWrite off n)
  | .ok =>
    atEdge (.flushRelease true) (flushRelease true) ((s.sampledWrite.writeDevice off bytes).log (.write off bytes true))
  | .failed => atEdge (.flushRelease false) (flushRelease false) ((s.sampledWrite.spoil off n).log (.write off bytes false))

/-- `Flush` from the platform's answer to its request on (R44). -/
def flushGrant (off n : Nat) (s : State) : OpResult :=
  match s.plat.acquire.now with
  | .silent => .wait s.sampledAcquire (.flushGrant off n)
  | .ok => atEdge (.flushHold off n) (flushWrite off n) (s.sampledAcquire.takeDevice.log (.acquire true))
  | .failed => atEdge (.flushEnd false) (flushEnd false) (s.sampledAcquire.log (.acquire false))

/-- `Flush(off, n)` (R135): with no device it is skipped, which is no error (R139). -/
def flushStart (off n : Nat) (s : State) : OpResult :=
  if s.plat.present.now then flushGrant off n s.sampledPresent else .done s.sampledPresent

/-! ### Pacing and cancellation (R162, R205) -/

/-- `(mtime - t0) mod 2^MTIME_BITS` (R205), `t0` being `MTIME_BITS` wide (R25 b). -/
def State.elapsed (s : State) : Nat :=
  (s.mtime + 2 ^ s.cfg.mtimeBits - s.t0 % 2 ^ s.cfg.mtimeBits) % 2 ^ s.cfg.mtimeBits

/-- One comparison of the pacing wait (R205). -/
def paceWait (s : State) : OpResult :=
  if s.cfg.paceTicks ≤ s.readMtime.elapsed then .done (s.readMtime.log .pace) else .wait s.readMtime .paceWait

/-- `t0 <- mtime` (R205). -/
def State.startPace (s : State) : State := { s.readMtime with t0 := s.readMtime.mtime }

/-- `Pace()` (R205). -/
def paceStart (s : State) : OpResult := paceWait s.startPace

/-- The between-frames check (R162). -/
def checkCancel (s : State) : OpResult :=
  if s.plat.cancel.now then .raise .cancelled s.sampledCancel else .done s.sampledCancel

/-! ### Statements -/

/-- What each statement does. -/
def runOp (op : Op) (s : State) : OpResult :=
  match op with
  | .setAState a => .done (s.withAState a)
  | .setSchr k => .done { s with schr := BitVec.ofNat 9 k }
  | .setScol c => .done { s with scol := BitVec.ofNat 3 c }
  | .latchLen => .done { s with n := s.msglen }
  | .fillBg => .done (s.withPb (fillCells s.bg))
  | .lookup ch => lookupChar ch s
  | .lookupMsg => if s.schr.toNat < s.n.toNat then lookupChar (s.msgAt s.schr.toNat) s else .done s
  | .setBlank => .done { s with blank := !decide (s.schr.toNat < s.n.toNat) }
  | .paint o => .done (s.withPb (paintCells s.cfg.g270 s.fg s.bg s.gl o))
  | .shift o => .done (s.withPb (shiftCells o s.pb))
  | .insert o => .done (s.withPb (insertCells o s.scol.toNat s.blank s.fg s.bg s.gl s.pb))
  | .flush off n => flushStart off n s
  | .pace => paceStart s
  | .checkCancel => checkCancel s
  | .fontRow row => readChunks (chunksFrom row) s
  | .flushGrant off n => flushGrant off n s
  | .flushHold off n => flushWrite off n s
  | .flushWrite off n => flushWrite off n s
  | .flushRelease ok => flushRelease ok s
  | .flushEnd ok => flushEnd ok s
  | .paceWait => paceWait s

/-- The statements in order, to the end of the command, to its abort, or to where it waits. -/
def run : List Op → State → State
  | [], s => s.finish
  | op :: rest, s =>
    match runOp op s with
    | .done t => run rest t
    | .raise e t => t.raise e
    | .wait t resume => { t with todo := resume :: rest }

/-- A command made of statements: accepted, then run. -/
def execOps (i : Instr) (ops : List Op) (s : State) : Out := .next (run ops (s.accept i))

/-- A waiting command goes on where it stopped. -/
def State.resume (s : State) : State := run s.todo s

/-! ### The statements of each command -/

/-- `FLUSH` (R136), and the last statement of `STATIC` and of every scroll step. -/
def fullFlush : Op := .flush 0 devBytes

/-- The flush of one cell (R137, R138). -/
def cellFlush (cell : Nat) : Op := .flush (2 * cell) 2

/-- `STATIC` from its lookup on (R155). -/
def staticOps (ch : Byte) (o : Orient) : List Op := [.lookup ch, .paint o, fullFlush]

/-- One step of the animation: Shift, Insert, Flush, Pace, then the cancellation check (R161). -/
def stepOps (o : Orient) (col : Nat) : List Op :=
  [.setScol col, .shift o, .insert o, fullFlush, .pace, .checkCancel]

/-- One character: its glyph, looked up once, then six steps (R156, R160). -/
def charOps (o : Orient) (k : Nat) : List Op :=
  [.setSchr k, .lookupMsg, .setBlank] ++ (List.range colsPerChar).flatMap (stepOps o)

/-- `SCROLL` up to its first step (R156). -/
def scrollStart : List Op :=
  [.setAState .painting, .setSchr 0, .setScol 0, .fillBg, fullFlush, .setAState .scrolling, .latchLen]

/-- `SCROLL` of a message of `len` characters and the two trailing blanks (R156, R159). -/
def scrollOps (o : Orient) (len : Nat) : List Op :=
  scrollStart ++ (List.range (len + trailingChars)).flatMap (charOps o) ++ [.setAState .done]

end Sys2Proof.Machine
end

