-- ==== Sys2Proof/Machine/PixelBuffer.lean ====
section
/-! DEFINITION. The meanings of `PBSET`, `PBSETL`, `PBFILL`, `PBGET`, `PBBYTE` (43_pixbuf.md). -/

namespace Sys2Proof.Machine

/-- `PB[i] <- v`. -/
def State.setPb (s : State) (i : Nat) (v : Half) : State := s.withPb (setCell s.pb i v)

/-- `PBSET x, y, v` (R125). -/
def execPbset (x y : BitVec 4) (v : Half) (s : State) : Out :=
  checked (.pbset x y v) (coords x y) (fun p t => t.setPb (p.2 * 8 + p.1) v) s

/-- `PBSETL off, v` (R126). -/
def execPbsetl (off : Byte) (v : Half) (s : State) : Out :=
  checked (.pbsetl off v) (cellIndex off) (fun i t => t.setPb i v) s

/-- `PBFILL v` (R127). -/
def execPbfill (v : Half) (s : State) : Out :=
  command (.pbfill v) (·.withPb (fillCells v)) s

/-- `PBGET off` (R128). -/
def execPbget (off : Byte) (s : State) : Out :=
  checked (.pbget off) (cellIndex off) (fun i t => t.withRes (t.pbAt i)) s

/-- `PBBYTE i` (R129). -/
def execPbbyte (idx : Byte) (s : State) : Out :=
  checked (.pbbyte idx) (byteIndex idx) (fun i t => t.withRes ((pbByte t.pb i).setWidth 16)) s

end Sys2Proof.Machine
end

