-- ==== Sys2Proof/Machine/DisplayWriter.lean ====
section
/-! DEFINITION. The meanings of `FLUSH`, `FLUSH1`, `SETPIX` (44_display.md). -/

namespace Sys2Proof.Machine

/-- `FLUSH` (R136). -/
def execFlush (s : State) : Out :=
  execOps .flush [fullFlush] s

/-- `FLUSH1 cell` (R137): out of range it makes no acquisition at all. -/
def execFlush1 (cell : Byte) (s : State) : Out :=
  match cellIndex cell with
  | some i => execOps (.flush1 cell) [cellFlush i] s
  | none => command (.flush1 cell) id s

/-- `SETPIX angle, x, y, v` (R138): the buffer cell first, then its flush. -/
def execSetpix (o : Orient) (x y : BitVec 4) (v : Half) (s : State) : Out :=
  match coords x y with
  | some p => execOps (.setpix o x y v) [cellFlush (pixelOffset p.1 p.2 o)] (s.setPb (pixelOffset p.1 p.2 o) v)
  | none => command (.setpix o x y v) id s

end Sys2Proof.Machine
end

