-- ==== Sys2Proof/Machine/GlyphStore.lean ====
section
/-! DEFINITION. The meanings of `GLYIDX`, `GLYADDR`, `LOOKUP`, `GLYBIT` (42_glyph.md). -/

namespace Sys2Proof.Machine

/-- `GLYIDX ch` (R114). -/
def execGlyidx (ch : Byte) (s : State) : Out :=
  command (.glyidx ch) (fun t => t.withRes (BitVec.ofNat 16 (glyphIndex t.cfg.alphabet ch))) s

/-- `GLYADDR row, ch` (R116). -/
def execGlyaddr (row ch : Byte) (s : State) : Out :=
  checked (.glyaddr row ch) (chunkRow row)
    (fun r t => t.withRes (BitVec.ofNat 16 (chunkAddr (glyphIndex t.cfg.alphabet ch) r))) s

/-- `LOOKUP ch` (R117). -/
def execLookup (ch : Byte) (s : State) : Out :=
  execOps (.lookup ch) [.lookup ch] s

/-- `GLYBIT g` (R118). -/
def execGlybit (g : Byte) (s : State) : Out :=
  checked (.glybit g) (cellIndex g) (fun i t => t.withRes (if t.glAt i then 1 else 0)) s

end Sys2Proof.Machine
end

