-- ==== Sys2Proof/Machine/OrientationMapper.lean ====
section
/-! DEFINITION. The meanings of `PIXOFF` and `GLYOFF` (41_orient.md). -/

namespace Sys2Proof.Machine

/-- `PIXOFF angle, x, y` (R101). -/
def execPixoff (o : Orient) (x y : BitVec 4) (s : State) : Out :=
  checked (.pixoff o x y) (coords x y) (fun p t => t.withRes (BitVec.ofNat 16 (pixelOffset p.1 p.2 o))) s

/-- The word `GLYOFF` writes: bit 15 is the none flag (R12, R103). -/
def glyphOffsetWord : Option Nat → Half
  | none => 0x8000
  | some g => BitVec.ofNat 16 g

/-- `GLYOFF angle, s` (R103). -/
def execGlyoff (o : Orient) (scan : Byte) (s : State) : Out :=
  checked (.glyoff o scan) (cellIndex scan)
    (fun i t => t.withRes (glyphOffsetWord (glyphOffset t.cfg.g270 i o))) s

end Sys2Proof.Machine
end

