-- ==== Sys2Proof/Machine/Render.lean ====
section
/-! DEFINITION. The meanings of `MSGCLR`, `MSGPUT`, `STATIC`, `SCROLL` (45_render.md). -/

namespace Sys2Proof.Machine

/-- `MSGCLR` (R151). -/
def execMsgclr (s : State) : Out :=
  command .msgclr (·.clearMsg) s

/-- `MSGPUT ch` (R153): a full buffer ignores the character. -/
def execMsgput (ch : Byte) (s : State) : Out :=
  command (.msgput ch) (fun t => if t.msglen.toNat = t.cfg.msgMax then t else t.appendMsg ch) s

/-- `STATIC angle` (R155): a no-op unless the message is one character. -/
def execStatic (o : Orient) (s : State) : Out :=
  if s.msglen.toNat = 1 then execOps (.static o) (staticOps (s.msgAt 0) o) s else command (.static o) id s

/-- `SCROLL angle` (R156). -/
def execScroll (o : Orient) (s : State) : Out :=
  execOps (.scroll o) (scrollOps o s.msglen.toNat) s

end Sys2Proof.Machine
end

