-- ==== Sys2Proof/Machine/System.lean ====
section
/-! DEFINITION. The meaning of `CLRST` (46_system.md). -/

namespace Sys2Proof.Machine

/-- `CLRST mask` (R180). -/
def execClrst (mask : Half) (s : State) : Out :=
  command (.clrst mask) (fun t => t.withStatus (t.status.clear mask)) s

end Sys2Proof.Machine
end

