-- ==== Sys2Proof/Machine/Dispatch.lean ====
section
/-! DEFINITION. One arm per command. -/

namespace Sys2Proof.Machine

def exec (i : Instr) (s : State) : Host.Outcome State Fault Refusal :=
  match i with
  | .encrgb r g b => Sys2Proof.Machine.execEncrgb r g b s
  | .encname n => Sys2Proof.Machine.execEncname n s
  | .decode hi lo => Sys2Proof.Machine.execDecode hi lo s
  | .setfg v => Sys2Proof.Machine.execSetfg v s
  | .setbg v => Sys2Proof.Machine.execSetbg v s
  | .setfgr => Sys2Proof.Machine.execSetfgr s
  | .setbgr => Sys2Proof.Machine.execSetbgr s
  | .pixoff o x y => Sys2Proof.Machine.execPixoff o x y s
  | .glyoff o scan => Sys2Proof.Machine.execGlyoff o scan s
  | .glyidx ch => Sys2Proof.Machine.execGlyidx ch s
  | .glyaddr row ch => Sys2Proof.Machine.execGlyaddr row ch s
  | .lookup ch => Sys2Proof.Machine.execLookup ch s
  | .glybit g => Sys2Proof.Machine.execGlybit g s
  | .pbset x y v => Sys2Proof.Machine.execPbset x y v s
  | .pbsetl off v => Sys2Proof.Machine.execPbsetl off v s
  | .pbfill v => Sys2Proof.Machine.execPbfill v s
  | .pbget off => Sys2Proof.Machine.execPbget off s
  | .pbbyte idx => Sys2Proof.Machine.execPbbyte idx s
  | .flush => Sys2Proof.Machine.execFlush s
  | .flush1 cell => Sys2Proof.Machine.execFlush1 cell s
  | .setpix o x y v => Sys2Proof.Machine.execSetpix o x y v s
  | .msgclr => Sys2Proof.Machine.execMsgclr s
  | .msgput ch => Sys2Proof.Machine.execMsgput ch s
  | .static o => Sys2Proof.Machine.execStatic o s
  | .scroll o => Sys2Proof.Machine.execScroll o s
  | .clrst mask => Sys2Proof.Machine.execClrst mask s

end Sys2Proof.Machine
end

