-- ==== Sys2Proof/Machine/Step.lean ====
section
/-! DEFINITION. One step of the machine: `rst` first (R220), then the command that waits (R84: no word is accepted while
`BUSY = 1`), then the word the host presents. Assumption log 1 and 11. -/

namespace Sys2Proof.Machine

def step (s : State) : Host.Outcome State Fault Refusal :=
  if s.plat.rst.now then .next s.begun.resetCore
  else if s.status.busy then .next s.begun.resume
  else
    match s.begun.fetch with
    | none => .next s.begun
    | some (w, t) =>
      match decode w with
      | .ok i => exec i t
      | .error _ => .next t.acceptIllegal

/-- `s` in which the very next step accepts and runs the word `w` of `nbits` bits: the host presents it in place of the word it
presented, `rst` is 0 at that step, and the core is ready (`BUSY = 0`, R26). Assumption log 8. -/
def State.withFetchWord (s : State) (nbits w : Nat) : State :=
  { s with
    status := { s.status with busy := false }
    plat := { s.plat with
      commands := BitVec.ofNat 32 (w % 2 ^ nbits) :: s.plat.commands.tail
      rst := { s.plat.rst with next := false :: s.plat.rst.next.tail } } }

end Sys2Proof.Machine
end

