-- ==== Sys2Proof/Machine/Assembler.lean ====
section
/-! DEFINITION. The assembler of R81 and R82, from a line that has been read (mnemonic and operands) to command words. The
letters of the text (decimal or `0x`, quotes, `;`) are the assembler's own input form and are not modelled (assumption log 10). -/

namespace Sys2Proof.Machine

/-- The mnemonics of R76 and the pseudo-commands of R82. -/
inductive Mnemonic where
  | encrgb | encname | decode | setfg | setbg | setfgr | setbgr | pixoff | glyoff | glyidx | glyaddr | lookup | glybit
  | pbset | pbsetl | pbfill | pbget | pbbyte | flush | flush1 | setpix | msgclr | msgput | static | scroll | clrst
  | msg | letter | print | clrerr
deriving DecidableEq, Repr

/-- An operand as written. -/
inductive Operand where
  /-- A number. -/
  | num (n : Nat)
  /-- A quoted character, already its code (R75). -/
  | chr (c : Byte)
  /-- A colour name. -/
  | color (c : ColorName)
  /-- A quoted text. -/
  | text (cs : List Byte)
deriving DecidableEq, Repr

/-- A number that fits the field, else no operand: the assembler never truncates. -/
def Operand.bits (w : Nat) : Operand → Option (BitVec w)
  | .num n => if n < 2 ^ w then some (BitVec.ofNat w n) else none
  | _ => none

/-- An orientation, written as its angle (R81). -/
def Operand.angle : Operand → Option Orient
  | .num 0 => some .deg0
  | .num 90 => some .deg90
  | .num 180 => some .deg180
  | .num 270 => some .deg270
  | _ => none

/-- A character: quoted, or its code (R81). -/
def Operand.char : Operand → Option Byte
  | .chr c => some c
  | o => o.bits 8

/-- A colour word: a number, or a name that stands for its palette literal (R82). -/
def Operand.value : Operand → Option Half
  | .color c => some (palette (nameCode c))
  | o => o.bits 16

/-- The operand of `ENCNAME`: a code, or a name that stands for its code (R81). -/
def Operand.name : Operand → Option Byte
  | .color c => some (nameCode c)
  | o => o.bits 8

/-- The commands of one line (R81, R82), or `none` for a line that is none. -/
def assemble (m : Mnemonic) (ops : List Operand) : Option (List Instr) :=
  match m, ops with
  | .encrgb, [r, g, b] => do return [.encrgb (← r.bits 8) (← g.bits 8) (← b.bits 8)]
  | .encname, [n] => do return [.encname (← n.name)]
  | .decode, [hi, lo] => do return [.decode (← hi.bits 8) (← lo.bits 8)]
  | .setfg, [v] => do return [.setfg (← v.value)]
  | .setbg, [v] => do return [.setbg (← v.value)]
  | .setfgr, [] => some [.setfgr]
  | .setbgr, [] => some [.setbgr]
  | .pixoff, [o, x, y] => do return [.pixoff (← o.angle) (← x.bits 4) (← y.bits 4)]
  | .glyoff, [o, i] => do return [.glyoff (← o.angle) (← i.bits 8)]
  | .glyidx, [ch] => do return [.glyidx (← ch.char)]
  | .glyaddr, [row, ch] => do return [.glyaddr (← row.bits 8) (← ch.char)]
  | .lookup, [ch] => do return [.lookup (← ch.char)]
  | .glybit, [g] => do return [.glybit (← g.bits 8)]
  | .pbset, [x, y, v] => do return [.pbset (← x.bits 4) (← y.bits 4) (← v.value)]
  | .pbsetl, [i, v] => do return [.pbsetl (← i.bits 8) (← v.value)]
  | .pbfill, [v] => do return [.pbfill (← v.value)]
  | .pbget, [i] => do return [.pbget (← i.bits 8)]
  | .pbbyte, [i] => do return [.pbbyte (← i.bits 8)]
  | .flush, [] => some [.flush]
  | .flush1, [i] => do return [.flush1 (← i.bits 8)]
  | .setpix, [o, x, y, v] => do return [.setpix (← o.angle) (← x.bits 4) (← y.bits 4) (← v.value)]
  | .msgclr, [] => some [.msgclr]
  | .msgput, [ch] => do return [.msgput (← ch.char)]
  | .static, [o] => do return [.static (← o.angle)]
  | .scroll, [o] => do return [.scroll (← o.angle)]
  | .clrst, [m] => do return [.clrst (← m.bits 16)]
  | .msg, [.text cs] => some (.msgclr :: cs.map .msgput)
  | .letter, [o, ch] => do return [.msgclr, .msgput (← ch.char), .static (← o.angle)]
  | .print, [o, .text cs] => do return .msgclr :: cs.map .msgput ++ [.scroll (← o.angle)]
  | .clrerr, [] => some [.clrst 0x0078]
  | _, _ => none

/-- The command words of one line. -/
def assembleWords (m : Mnemonic) (ops : List Operand) : Option (List Word) :=
  (assemble m ops).map (·.map encode)

end Sys2Proof.Machine
end

