-- ==== Sys2Proof/Machine/Ports.lean ====
section
/-! DEFINITION. What the host sees on the ports: the register read port (R10) and the outputs (R26, R31). Reading has no side
effect and is possible in every state, so it is a function of the state and no step. -/

namespace Sys2Proof.Machine

/-- `reg_rdata` for `reg_addr` (R10): narrower registers are zero-extended, addresses 7 to 15 read as 0. -/
def State.readReg (s : State) (addr : BitVec 4) : Half :=
  match addr.toNat with
  | 0 => s.status.word.setWidth 16
  | 1 => s.res
  | 2 => s.fg
  | 3 => s.bg
  | 4 => s.msglen.setWidth 16
  | 5 => s.schr.setWidth 16
  | 6 => s.scol.setWidth 16
  | _ => 0

/-- `cmd_ready = not STATUS.BUSY` (R26). -/
def State.cmdReady (s : State) : Bool := !s.status.busy

/-- `dev_req`: the core asks for the device and has no answer yet (R26, R44). -/
def State.devReq (s : State) : Bool :=
  match s.todo with
  | .flushGrant _ _ :: _ => true
  | _ => false

/-- `dev_we`: a write burst has no answer yet (R26, R45). -/
def State.devWe (s : State) : Bool :=
  match s.todo with
  | .flushWrite _ _ :: _ => true
  | _ => false

/-- `dev_rel`: a release is never waited for (R46), so no state of the machine shows it (assumption log 15). -/
def State.devRel (_ : State) : Bool := false

/-- `font_re`: a font read has no answer yet (R26, R50). -/
def State.fontRe (s : State) : Bool :=
  match s.todo with
  | .fontRow _ :: _ => true
  | _ => false

end Sys2Proof.Machine
end

