-- ==== Sys2Proof/Safety.lean ====
section
/-! DEFINITION. The terms in which claims about the core are stated: a ready core, a platform that answers, and the invariants
of R19, R25, R16, R17, R15, R40, R47 and R150. -/

namespace Sys2Proof.Machine

/-- The core is ready for a command: no command executes (R84). -/
def State.Ready (s : State) : Prop := s.status.busy = false ∧ s.cmd = none ∧ s.todo = []

/-! ### The platform -/

/-- Every value the input will ever take satisfies `p`. -/
def Script.All {α : Type} (p : α → Prop) (sc : Script α) : Prop := (∀ a ∈ sc.next, p a) ∧ p sc.rest

/-- The value the input will have at its sample number `k`, the next one being number 0. -/
def Script.nth {α : Type} (sc : Script α) (k : Nat) : α := sc.next.getD k sc.rest

/-- The same answers with no silence before any of them. -/
def Script.prompt (sc : Script Answer) : Script Answer := { sc with next := sc.next.filter fun a => decide (a ≠ .silent) }

/-- The answer that comes next, however long it takes. -/
def Script.answer (sc : Script Answer) : Answer := sc.prompt.now

/-- The same state before a platform that gives the same answers at once: with no silence, no clock edge inside a flush, and a
counter that stands at 0 and moves on by `PACE_TICKS` between two readings. -/
def State.prompt (s : State) : State :=
  { s with
    mtime := 0
    t0 := 0
    plat := { s.plat with
      acquire := s.plat.acquire.prompt, write := s.plat.write.prompt, font := s.plat.font.prompt
      edge := ⟨[], false⟩, ticks := ⟨[], s.cfg.paceTicks⟩ } }

/-- No clock edge falls inside a flush: after each of its device events it goes on at once (R236). -/
def State.NoEdge (s : State) : Prop := s.plat.edge.All (· = false)

/-- Every device request and write is answered with success (the device may be absent), and no clock edge falls inside a flush. -/
def State.DeviceAnswers (s : State) : Prop :=
  s.plat.acquire.All (· = .ok) ∧ s.plat.write.All (· = .ok) ∧ s.NoEdge

/-- Every font read is answered with bytes: the platform answers, and the image is long enough (R52). -/
def State.FontAnswers (s : State) : Prop := s.plat.font.All (· = .ok) ∧ 10378 ≤ s.cfg.font.size

/-- The next device request and the next device write come to be answered with success, whatever silences come before. -/
def State.DeviceWillAnswer (s : State) : Prop := s.plat.acquire.answer = .ok ∧ s.plat.write.answer = .ok

/-- No font read fails, whatever silences come before its answer: the platform reports no failure, and the image is long enough
(R52). -/
def State.FontWillAnswer (s : State) : Prop := s.plat.font.All (· ≠ .failed) ∧ 10378 ≤ s.cfg.font.size

/-- `mtime` keeps advancing: between two readings it moves on by at least `PACE_TICKS` and does not wrap past the start of the
wait (R205, R231). -/
def State.Ticking (s : State) : Prop :=
  s.plat.ticks.All fun d => s.cfg.paceTicks ≤ d ∧ d < 2 ^ s.cfg.mtimeBits

/-- `cancel` stays 0. -/
def State.NotCancelled (s : State) : Prop := s.plat.cancel.All (· = false)

/-- The platform withholds no answer: success or failure, but never silence (the fairness of R231); and no clock edge falls
inside a flush. -/
def State.NeverSilent (s : State) : Prop :=
  s.plat.acquire.All (· ≠ .silent) ∧ s.plat.write.All (· ≠ .silent) ∧ s.plat.font.All (· ≠ .silent) ∧ s.NoEdge

/-- No other master ever writes the device byte `a`: V7's quiet platform, for one byte. Without it the byte may hold anything
once the core does not hold the device (R58). -/
def State.Untouched (s : State) (a : Nat) : Prop := s.plat.foreign.All fun cells => ∀ c ∈ cells, c.1 ≠ a

/-- A fair platform (R231): after any number of silences every request, write and font read is answered, with success or
failure; `mtime` comes to advance by a steady amount below one turn; `PACE_TICKS` keeps the constraint of R205; and `rst` stays
0. -/
def State.Fair (s : State) : Prop :=
  s.plat.rst.All (· = false) ∧ s.plat.acquire.rest ≠ .silent ∧ s.plat.write.rest ≠ .silent ∧
  s.plat.font.rest ≠ .silent ∧ 0 < s.plat.ticks.rest ∧ s.plat.ticks.rest < 2 ^ s.cfg.mtimeBits ∧
  s.cfg.paceTicks < 2 ^ (s.cfg.mtimeBits - 1)

/-- `t` is a state of the execution of `i` begun in `s`: the one `exec` answers, or the one `k` steps later, while the command
waited and `rst` stayed 0. -/
def Executes (i : Instr) : Nat → State → State → Prop
  | 0, s, t => exec i s = .next t
  | k + 1, s, t => ∃ u, Executes i k s u ∧ u.status.busy = true ∧ u.plat.rst.now = false ∧ step u = .next t

/-! ### Invariants -/

/-- The statement is one from which a command goes on after waiting. -/
def Op.isResume : Op → Bool
  | .fontRow _ | .flushGrant _ _ | .flushHold _ _ | .flushWrite _ _ | .flushRelease _ | .flushEnd _ | .paceWait => true
  | _ => false

/-- The statement is one of a flush between its grant and its release. -/
def Op.holds : Op → Bool
  | .flushHold _ _ | .flushWrite _ _ | .flushRelease _ => true
  | _ => false

/-- The device is held exactly while the core is inside a flush, between its grant and its release, and a ready core has nothing
left of a command (R25 a, R84, R140). -/
def State.HeldInv (s : State) : Prop :=
  (s.status.busy = false → s.cmd = none ∧ s.todo = []) ∧
  s.held = s.todo.head?.any Op.holds ∧
  ∀ op ∈ s.todo.tail, op.isResume = false

/-- Glyph cells 40 to 63 are background (R19, R115). -/
def State.GlyphInv (s : State) : Prop := ∀ g, 40 ≤ g → s.glAt g = false

/-- A device write has one of the two shapes of R47: 128 bytes at 0, or 2 bytes at `2*cell`. -/
def writeShape (off n : Nat) : Prop := (off = 0 ∧ n = 128) ∨ ∃ cell, cell < 64 ∧ off = 2 * cell ∧ n = 2

/-- The flush statements of a command have a shape of R47. -/
def Op.ShapeOk : Op → Prop
  | .flush off n | .flushGrant off n | .flushHold off n | .flushWrite off n => writeShape off n
  | _ => True

/-- The device list is canonical and inside the 128 bytes, and so is every write still to come (R40, R47). -/
def State.DeviceInv (s : State) : Prop := Memory.wf s.dev = true ∧ ∀ op ∈ s.todo, op.ShapeOk

/-- The cursor statements of a command stay in the ranges of R16 and R17. -/
def Op.CursorOk : Op → Prop
  | .setSchr k => k ≤ 256
  | .setScol c => c ≤ 5
  | _ => True

/-- `SCHR` is at most 256 and `SCOL` at most 5 (R16, R17). -/
def State.CursorInv (s : State) : Prop :=
  s.schr.toNat ≤ 256 ∧ s.scol.toNat ≤ 5 ∧ ∀ op ∈ s.todo, op.CursorOk

/-- `MSGLEN` is at most `MSG_MAX`, which is at most 255 (R5, R15). -/
def State.MsgInv (s : State) : Prop := s.msglen.toNat ≤ s.cfg.msgMax ∧ s.cfg.msgMax ≤ 255

/-- The animator runs: `Painting` or `Scrolling`. -/
def AState.running (a : AState) : Prop := a = .painting ∨ a = .scrolling

/-- The statement is one from which a flush that has begun goes on. -/
def Op.inFlush : Op → Bool
  | .flushGrant _ _ | .flushHold _ _ | .flushWrite _ _ | .flushRelease _ | .flushEnd _ => true
  | _ => false

/-- The last of the statements sets `Done`, and no other of them writes `ASTATE`. -/
def OnlyDoneAtTheEnd (ops : List Op) : Prop :=
  ops.getLast? = some (.setAState .done) ∧ ∀ a, .setAState a ∉ ops.dropLast

/-- `Painting` and `Scrolling` are seen only while a `SCROLL` executes: `Painting` while it is inside its initial flush, the
buffer all `BG` and the cursor 0, after which it goes to `Scrolling`; `Scrolling` from there on, to the statement that sets
`Done`, its last (R150, R156). -/
def State.AnimatorInv (s : State) : Prop :=
  (s.status.busy = false → s.cmd = none ∧ s.todo = []) ∧
  if s.scrolling then
    (s.status.astate = .painting ∧ s.pb = fillCells s.bg ∧ s.schr = 0 ∧ s.scol = 0 ∧
      ∃ op rest, s.todo = op :: .setAState .scrolling :: rest ∧ op.inFlush = true ∧ OnlyDoneAtTheEnd rest) ∨
    (s.status.astate = .scrolling ∧ OnlyDoneAtTheEnd s.todo)
  else ¬ s.status.astate.running ∧ ∀ a, .setAState a ∉ s.todo

/-! ### Which command writes what (the "written by" columns of R10, R11, R18, R19, R20, R24) -/

/-- The ten commands that write `RES` (R10, R228). -/
def writesRes : Instr → Bool
  | .encrgb _ _ _ | .encname _ | .decode _ _ | .pixoff _ _ _ | .glyoff _ _ | .glyidx _ | .glyaddr _ _ | .glybit _
  | .pbget _ | .pbbyte _ => true
  | _ => false

/-- The commands that write `FG` (R10, R13). -/
def writesFg : Instr → Bool
  | .setfg _ | .setfgr => true
  | _ => false

/-- The commands that write `BG` (R10, R14). -/
def writesBg : Instr → Bool
  | .setbg _ | .setbgr => true
  | _ => false

/-- The commands that write `MSGLEN` or `MSG` (R10, R20). -/
def writesMsg : Instr → Bool
  | .msgclr | .msgput _ => true
  | _ => false

/-- The command that writes `SCHR`, `SCOL` and `ASTATE` (R10, R11, R150). -/
def isScroll : Instr → Bool
  | .scroll _ => true
  | _ => false

/-- The commands that write `PB` (R18). -/
def writesPb : Instr → Bool
  | .pbset _ _ _ | .pbsetl _ _ | .pbfill _ | .setpix _ _ _ _ | .static _ | .scroll _ => true
  | _ => false

/-- The commands that write `GL` and read the font (R19, R24). -/
def usesFont : Instr → Bool
  | .lookup _ | .static _ | .scroll _ => true
  | _ => false

/-- The commands that reach the device (R24). -/
def usesDevice : Instr → Bool
  | .flush | .flush1 _ | .setpix _ _ _ _ | .static _ | .scroll _ => true
  | _ => false

/-- Which commands may raise which event (R198); `IllCmd` belongs to the words that are no command. -/
def mayRaise (i : Instr) : Abort → Bool
  | .fontErr => usesFont i
  | .devErr => usesDevice i
  | .illCmd => false
  | .cancelled => isScroll i

/-- The commands that clear a sticky flag (R11). -/
def isClrst : Instr → Bool
  | .clrst _ => true
  | _ => false

/-- The 38 reserved values of `op`, as R77 lists them. -/
def reservedOps : List Nat :=
  [0x00] ++ [0x0A, 0x0B, 0x0C, 0x0D, 0x0E, 0x0F] ++ [0x14, 0x15, 0x16, 0x17] ++ [0x1D, 0x1E, 0x1F]
    ++ [0x23, 0x24, 0x25, 0x26, 0x27] ++ [0x2C, 0x2D, 0x2E, 0x2F]
    ++ [0x31, 0x32, 0x33, 0x34, 0x35, 0x36, 0x37, 0x38, 0x39, 0x3A, 0x3B, 0x3C, 0x3D, 0x3E, 0x3F]

/-! ### The device and the font, as a claim reads them -/

/-- The two bytes of cell `k` of the device agree with `v`, most significant first (R41). -/
def State.ShowsCell (s : State) (k : Nat) (v : Half) : Prop :=
  s.devAt (2 * k) = some (v.extractLsb' 8 8) ∧ s.devAt (2 * k + 1) = some (v.extractLsb' 0 8)

/-- In `t`, which comes after `s`, the device shows the whole buffer, but for the bytes that other masters write (R143, R58). -/
def State.ShownIn (s t : State) : Prop :=
  ∀ k, k < 64 → s.Untouched (2 * k) → s.Untouched (2 * k + 1) → t.ShowsCell k (t.pbAt k)

/-- `GL` holds the glyph that the font image has for the character `ch` (R115): cells 0 to 39 from the relevant bytes of its
five chunks, cells 40 to 63 background. -/
def State.HoldsGlyph (s : State) (ch : Byte) : Prop :=
  (∀ row col, row < 5 → col < 8 →
    s.glAt (row * 8 + col) =
      decide (fontByte s.cfg.font
        (chunkAddr (glyphIndex s.cfg.alphabet ch) row + 2 * col + litOffset s.cfg.litByte) = 0xFF)) ∧
  ∀ g, 40 ≤ g → s.glAt g = false

/-- The five font reads of a lookup that succeeds, in ascending `row` (R115 f). -/
def lookupReads (alphabet : List Byte) (ch : Byte) : List Event :=
  [0, 1, 2, 3, 4].map fun row => .fontRead (chunkAddr (glyphIndex alphabet ch) row) true

/-- The whole glyph of `ch` lies in the font image: the read of its chunk 0, which lies highest, ends within it (R52, R113). -/
def State.GlyphInImage (s : State) (ch : Byte) : Prop :=
  chunkAddr (glyphIndex s.cfg.alphabet ch) 0 + chunkBytes ≤ s.cfg.font.size

/-- A lookup of `ch` whose read of chunk `k` is answered `a`, and the reads before it `Ok`, fails there: the platform says so;
or `k` is 0 and the read runs past the end of a short image, whatever `a` says (R50, R52). -/
def State.LookupFails (s : State) (ch : Byte) (k : Nat) (a : Answer) : Prop :=
  (a = .failed ∧ k < 5 ∧ s.GlyphInImage ch) ∨ (a ≠ .silent ∧ k = 0 ∧ ¬ s.GlyphInImage ch)

/-- `t` is `s` but for what a transaction with the device or the font may change: `NODEV`, the hold, the device, the platform's
answers, the history, the locals of a lookup. The registers, the arrays, the flags, the cursor and the host's words stay. -/
def State.OnlyTransacts (s t : State) : Prop :=
  t = { s with
    status := { s.status with nodev := t.status.nodev }
    held := t.held
    dev := t.dev
    plat := { s.plat with
      present := t.plat.present, acquire := t.plat.acquire, write := t.plat.write, font := t.plat.font
      edge := t.plat.edge, foreign := t.plat.foreign }
    trace := t.trace
    fontIdx := t.fontIdx
    glyph := t.glyph
    draws := t.draws }

/-- `s` but for the samples of `rst` that the steps up to `t` took, all of them 0 while a command executes. -/
def State.rstOf (s t : State) : State := { s with plat := { s.plat with rst := t.plat.rst } }

/-- `t` is what a command leaves that had come to `s` when its `Flush(off, n)` was granted and answered (R135, R142): one write
between one acquisition and one release, the cells of its range shown and every other device byte as it was, but for the bytes
that others write (R58). -/
def State.FlushShown (s : State) (off n : Nat) (t : State) : Prop :=
  s.OnlyTransacts t ∧ t.status.nodev = false ∧ t.held = false ∧
  (∀ k, k < 64 → off ≤ 2 * k → 2 * k + 2 ≤ off + n → s.Untouched (2 * k) → s.Untouched (2 * k + 1) → t.ShowsCell k (s.pbAt k)) ∧
  (∀ a, s.Untouched a → a < off ∨ off + n ≤ a → t.devAt a = s.devAt a) ∧
  t.trace = s.trace ++ [.acquire true, .write off (pbBytes s.pb off n) true, .release]

/-- `t` is what a `LOOKUP` of `ch` that succeeds leaves of `s` (R115, R117). -/
def State.LookedUp (s : State) (ch : Byte) (t : State) : Prop :=
  t.HoldsGlyph ch ∧ t.trace = s.trace ++ lookupReads s.cfg.alphabet ch ∧ ({ s with gl := t.gl } : State).OnlyTransacts t ∧
  (∀ a, s.Untouched a → t.devAt a = s.devAt a) ∧ t.held = s.held ∧ t.status = s.status

/-- `t` is what a `STATIC` whose reads and whose flush succeed leaves of `s`, with a message of one character (R155): its glyph
loaded, all 64 cells painted through `glyph_offset`, and shown if there is a device. -/
def State.StaticShown (s : State) (o : Orient) (t : State) : Prop :=
  let painted : State :=
    { s with gl := t.gl, pb := t.pb, trace := s.trace ++ lookupReads s.cfg.alphabet (s.msgAt 0) }
  t.HoldsGlyph (s.msgAt 0) ∧
  (∀ i, i < 64 → t.pbAt i =
    match glyphOffset s.cfg.g270 i o with
    | none => s.bg
    | some g => if t.glAt g then s.fg else s.bg) ∧
  (s.plat.present.now = true → painted.FlushShown 0 128 t) ∧
  (s.plat.present.now = false → painted.OnlyTransacts t ∧ t.status.nodev = true ∧ t.held = s.held ∧ t.trace = painted.trace ∧
    ∀ a, s.Untouched a → t.devAt a = s.devAt a)

/-- The next flush finds a device and fails, at its request or at its write (R44, R45), with no clock edge inside it. -/
def State.DeviceFails (s : State) : Prop :=
  s.NoEdge ∧ s.plat.present.now = true ∧
  (s.plat.acquire.now = .failed ∨ s.plat.acquire.now = .ok ∧ s.plat.write.now = .failed)

/-- `t` is what a command leaves that had come to `s` when its `Flush(off, n)` failed (R135, R141, R192): `DEVERR` is set; of a
failed request nothing was held and nothing written; after a failed write the device is released, and the bytes outside the
range that others leave alone are as they were. -/
def State.FlushFailed (s : State) (off n : Nat) (t : State) : Prop :=
  t.status = { s.status with nodev := false, deverr := true } ∧ ({ s with status := t.status } : State).OnlyTransacts t ∧
  (s.plat.acquire.now = .failed → t.held = s.held ∧ t.trace = s.trace ++ [.acquire false] ∧
    ∀ a, s.Untouched a → t.devAt a = s.devAt a) ∧
  (s.plat.acquire.now = .ok → t.held = false ∧
    (∀ a, s.Untouched a → a < off ∨ off + n ≤ a → t.devAt a = s.devAt a) ∧
    t.trace = s.trace ++ [.acquire true, .write off (pbBytes s.pb off n) false, .release])

/-- The device events of the next `Flush(off, n)` that finds a device and is answered, in order (R135). -/
def State.flushEvents (s : State) (off n : Nat) : List Event :=
  if s.plat.acquire.now = .ok then
    [.acquire true, .write off (pbBytes s.pb off n) (decide (s.plat.write.now = .ok)), .release]
  else [.acquire false]

/-- The next `Flush(off, n)`, which finds a device, waits when `j` of its events have happened: its request is not answered; its
write is under way and not answered; or a clock edge falls after event number `j`. -/
def State.PausesAfter (s : State) (off n j : Nat) : Prop :=
  (j = 0 ∧ s.plat.acquire.now = .silent) ∨
  (j = 1 ∧ s.plat.acquire.now = .ok ∧ s.plat.edge.now = false ∧ s.plat.write.now = .silent) ∨
  ∃ k rest, j = k + 1 ∧ k < (s.flushEvents off n).length ∧ s.plat.acquire.now ≠ .silent ∧
    (0 < k → s.plat.write.now ≠ .silent) ∧ s.plat.edge.next = List.replicate k false ++ true :: rest

/-! ### The frames of an animation -/

/-- The glyphs shown by a scroll of `MSG[0..n-1]`: one for each character, then two synthetic blanks (R156, R159). -/
def State.scrollGlyphs (s : State) : List (Option (Vector Bool 64)) :=
  ((List.range s.msglen.toNat).map fun k =>
    some (fontGlyph s.cfg.litByte s.cfg.font (glyphIndex s.cfg.alphabet (s.msgAt k)))) ++ [none, none]

/-- One step of the animation on the buffer (R157, R158): `none` is a blank character. -/
def stepFrame (o : Orient) (fg bg : Half) (g : Option (Vector Bool 64)) (col : Nat) (pb : Vector Half 64) : Vector Half 64 :=
  match g with
  | some gl => insertCells o col false fg bg gl (shiftCells o pb)
  | none => insertCells o col true fg bg (tabulate 64 fun _ => false) (shiftCells o pb)

/-- The frames after the steps `(glyph, column)`, in order (R156). -/
def framesFrom (o : Orient) (fg bg : Half) : List (Option (Vector Bool 64) × Nat) → Vector Half 64 → List (Vector Half 64)
  | [], _ => []
  | (g, col) :: steps, pb => stepFrame o fg bg g col pb :: framesFrom o fg bg steps (stepFrame o fg bg g col pb)

/-- The steps of a scroll: six columns of each glyph (R156). -/
def scrollSteps (gs : List (Option (Vector Bool 64))) : List (Option (Vector Bool 64) × Nat) :=
  gs.flatMap fun g => (List.range 6).map fun col => (g, col)

/-- All frames of a scroll, the initial one first (R156, R165: `1 + 6*(n + 2)` of them). -/
def State.scrollFrames (s : State) (o : Orient) : List (Vector Half 64) :=
  fillCells s.bg :: framesFrom o s.fg s.bg (scrollSteps s.scrollGlyphs) (fillCells s.bg)

/-- The bytes of the full-frame writes of a history that were answered `Ok`, in order. -/
def shownFrames (tr : List Event) : List (List Byte) :=
  tr.filterMap fun e =>
    match e with
    | .write 0 bytes true => some bytes
    | _ => none

/-- `new` are the events of a full flush of the bytes `frame` that finds a device, up to the point from which it goes on with
the statement `op` (R57, R135). -/
def EventsUpTo (frame : List Byte) (op : Op) (new : List Event) : Prop :=
  match op with
  | .flushGrant off n => off = 0 ∧ n = 128 ∧ new = []
  | .flushHold off n | .flushWrite off n => off = 0 ∧ n = 128 ∧ new = [.acquire true]
  | .flushRelease ok => new = [.acquire true, .write 0 frame ok]
  | .flushEnd true => new = [.acquire true, .write 0 frame true, .release]
  | .flushEnd false => new = [.acquire false] ∨ new = [.acquire true, .write 0 frame false, .release]
  | _ => False

/-- A `SCROLL` accepted in `s` that waits in `t`, after the transactions `new`, is inside its initial flush, that of the
all-`BG` buffer (R156): it found a device, and has come to a point of that flush and no further. -/
def State.InitialFlush (s t : State) (new : List Event) : Prop :=
  s.plat.present.now = true ∧ ∃ op rest, t.todo = op :: rest ∧ EventsUpTo (pbBytes (fillCells s.bg) 0 128) op new

def Event.isWrite : Event → Bool
  | .write _ _ _ => true
  | _ => false

def Event.isFontRead : Event → Bool
  | .fontRead _ _ => true
  | _ => false

/-! ### A platform that never answers (R231) -/

/-- The core waits for something that never comes. -/
def State.Starved (s : State) : Prop :=
  s.status.busy = true ∧ s.plat.rst.All (· = false) ∧
  match s.todo with
  | .flushGrant _ _ :: _ => s.plat.acquire.All (· = .silent)
  | .flushWrite _ _ :: _ => s.plat.write.All (· = .silent)
  | .fontRow row :: _ => row < 5 ∧ s.plat.font.All (· = .silent)
  | .paceWait :: _ => s.plat.ticks.All (· = 0) ∧ s.mtime < 2 ^ s.cfg.mtimeBits ∧ s.elapsed < s.cfg.paceTicks
  | _ => False

end Sys2Proof.Machine
end

