-- ==== Sys2Proof/Certificates/Slice0/Obligations.lean ====
section
/-! DEFINITION. The statements for the provers. Each says in its docstring which rules of the spec it formalises.
`s.Ready` is the condition under which a command is accepted at all (R84). Where a statement says that a flush ends in the step
that begins it, its premise (`DeviceAnswers`, `DeviceFails`, `NeverSilent`, `NoEdge`) includes that no clock edge falls inside it
(assumption log 11). -/

open Sys2Proof Sys2Proof.Machine

/-! ### Encoding (30_encoding.md) -/

/-- R70 to R72, R76, R81: decoding the word of any command gives that command back, with every operand at every value its field
admits; and a word whose unread bits are 0 is the word of the command it decodes to. -/
def Obligations.DecodeInvertsEncode : Prop :=
  (∀ i : Instr, decode (encode i) = .ok i) ∧ ∀ w i, decode w = .ok i → w &&& ~~~formatMask i = 0 → encode i = w

/-- R78: the bits that a command's format does not read have no influence, the assembler writes them as 0, and whether a word is
a command at all depends on `op` alone. -/
def Obligations.IgnoredBitsHaveNoInfluence : Prop :=
  (∀ w w' i, decode w = .ok i → w &&& formatMask i = w' &&& formatMask i → decode w' = .ok i) ∧
  (∀ w i, decode w = .ok i → encode i = w &&& formatMask i) ∧
  (∀ w w', opField w = opField w' → (∃ i, decode w = .ok i) → ∃ i, decode w' = .ok i)

/-- R77: the words with no command are those with one of the 38 reserved values of `op`; such a word is accepted like any other,
sets `ILLCMD`, has no other effect, and ends. What the step does around it (it takes the word, samples `rst`, and lets others
write the device: `begun`) is the model's: assumption logs 1, 7 and 11. -/
def Obligations.ReservedWordSetsIllcmdOnly : Prop :=
  (∀ w, (∀ i, decode w ≠ .ok i) ↔ (opField w).toNat ∈ reservedOps) ∧
  ∀ (s : State) w ws, s.Ready → s.plat.rst.now = false → s.plat.commands = w :: ws →
    (opField w).toNat ∈ reservedOps →
    step s = .next { s.begun with
      status := { s.status with illcmd := true }
      plat := { s.begun.plat with commands := ws } }

/-- R71, R73, R76, 95_test_vectors: the fields of a word have the bits of the table, the codes of the orientations are those of
R73, and words written out from the tables decode to the commands they stand for. -/
def Obligations.PrintedWordsDecode : Prop :=
  (∀ w : Word,
    (opField w).toNat = w.toNat / 2 ^ 26 ∧ (oField w).toNat = w.toNat / 2 ^ 24 % 4 ∧ (xField w).toNat = w.toNat / 2 ^ 20 % 16 ∧
    (yField w).toNat = w.toNat / 2 ^ 16 % 16 ∧ (immField w).toNat = w.toNat % 2 ^ 16 ∧
    (aField w).toNat = w.toNat / 2 ^ 16 % 256 ∧ (bField w).toNat = w.toNat / 2 ^ 8 % 256 ∧ (cField w).toNat = w.toNat % 256) ∧
  [0, 1, 2, 3].map Orient.ofCode = [.deg0, .deg90, .deg180, .deg270] ∧
  decode 0x04E0DF21 = .ok (.encrgb 224 223 33) ∧ decode 0x21250000 = .ok (.pixoff .deg90 2 5) ∧
  decode 0x44000441 = .ok (.glyaddr 4 0x41) ∧ decode 0x643F1C07 = .ok (.pbsetl 63 0x1C07) ∧
  decode 0x8A2500E0 = .ok (.setpix .deg180 2 5 0x00E0) ∧ decode 0xAF000000 = .ok (.scroll .deg270) ∧
  decode 0xC0000078 = .ok (.clrst 0x0078)

/-- R82: the pseudo-commands expand as the table says: the eight colour names stand for the literals of R92 in the six commands
that take one, at the four angles; and `MSG`, `LETTER`, `PRINT` and `CLRERR`, for every text, character and angle. -/
def Obligations.PseudoCommandsExpand : Prop :=
  (∀ c ∈ ([(.off, 0x0000), (.red, 0x00E0), (.green, 0x0007), (.blue, 0x1C00), (.yellow, 0x00E7), (.cyan, 0x1C07),
      (.magenta, 0x1CE0), (.white, 0x1CE7)] : List (ColorName × Half)),
    assemble .setfg [.color c.1] = some [.setfg c.2] ∧ assemble .setbg [.color c.1] = some [.setbg c.2] ∧
    assemble .pbfill [.color c.1] = some [.pbfill c.2] ∧
    (∀ off, off < 256 → assemble .pbsetl [.num off, .color c.1] = some [.pbsetl off c.2]) ∧
    ∀ x y, x < 16 → y < 16 →
      assemble .pbset [.num x, .num y, .color c.1] = some [.pbset x y c.2] ∧
      ∀ q ∈ ([(0, .deg0), (90, .deg90), (180, .deg180), (270, .deg270)] : List (Nat × Orient)),
        assemble .setpix [.num q.1, .num x, .num y, .color c.1] = some [.setpix q.2 x y c.2]) ∧
  (∀ cs, assemble .msg [.text cs] = some (.msgclr :: cs.map .msgput)) ∧
  (∀ q ∈ ([(0, .deg0), (90, .deg90), (180, .deg180), (270, .deg270)] : List (Nat × Orient)),
    (∀ c, assemble .letter [.num q.1, .chr c] = some [.msgclr, .msgput c, .static q.2]) ∧
    ∀ cs, assemble .print [.num q.1, .text cs] = some (.msgclr :: cs.map .msgput ++ [.scroll q.2])) ∧
  assemble .clrerr [] = some [.clrst 0x0078]

/-! ### The step (30_encoding.md section 5, 70_reset_and_hazards.md) -/

/-- R84, R220: without `rst`, a ready core runs the command the presented word decodes to; with no word presented nothing
happens; a busy core goes on with the command it executes. `withFetchWord` presents a word to a ready core. What is the model's
own, and no rule's: that one accepted command is one step (assumption log 1), that a step samples `rst` once (log 11), that
others may write a device not held at the start of every step (R58, log 7), and `withFetchWord` (log 8). -/
def Obligations.StepRunsTheDecodedCommand : Prop :=
  (∀ s : State, s.begun = { s with
    dev := if s.held then s.dev else Memory.merge s.dev s.plat.foreign.now
    plat := { s.plat with
      rst := s.plat.rst.later
      foreign := if s.held then s.plat.foreign else s.plat.foreign.later } }) ∧
  (∀ (s : State) w ws i, s.plat.rst.now = false → s.status.busy = false → s.plat.commands = w :: ws → decode w = .ok i →
    step s = exec i { s.begun with plat := { s.begun.plat with commands := ws } }) ∧
  (∀ s : State, s.plat.rst.now = false → s.status.busy = false → s.plat.commands = [] → step s = .next s.begun) ∧
  (∀ s : State, s.plat.rst.now = false → s.status.busy = true → step s = .next s.begun.resume) ∧
  ∀ (s : State) w i, decode (BitVec.ofNat 32 w) = .ok i →
    step (s.withFetchWord 32 w) =
      exec i { s.begun with
        status := { s.status with busy := false }
        plat := { s.begun.plat with commands := s.plat.commands.tail } }

/-- Every step has a next state: no word, state or platform stops the machine. This is the model's deduction (assumption log 17)
from R77 and R79 (every word is accepted and ends), R166 and R196 (no trap), R181 (no breakpoint) and R231 (an answer withheld
is a wait); no rule says it in these words. -/
def Obligations.StepNeverStops : Prop := ∀ s, ∃ t, step s = .next t

/-- R84 (D24): while `BUSY = 1` no word is taken from the host. -/
def Obligations.BusyCoreTakesNoWord : Prop :=
  ∀ s t : State, s.plat.rst.now = false → s.status.busy = true → step s = .next t → t.plat.commands = s.plat.commands

/-- R31 (its values are the spec's own decision D31): the state after reset. The contents of `PB` and `MSG`, `t0`, `n` and the
blank flag, which the rule leaves unspecified, are not stated. -/
def Obligations.ResetValues : Prop :=
  State.reset.status.word = 0x00 ∧ State.reset.status.astate = .idle ∧ State.reset.res = 0x0000 ∧
  State.reset.fg = 0x1CE7 ∧ State.reset.bg = 0x0000 ∧ State.reset.msglen = 0 ∧ State.reset.schr = 0 ∧
  State.reset.scol = 0 ∧ (∀ g, State.reset.glAt g = false) ∧ State.reset.held = false ∧
  State.reset.cmdReady = true ∧ State.reset.devReq = false ∧ State.reset.devWe = false ∧ State.reset.devRel = false ∧
  State.reset.fontRe = false

/-- R220, R31, R30: `rst` brings the core to the reset values of R31 whatever it was doing, with priority over acceptance; it
changes no parameter (R30). That `rst` is looked at once a step, at its start, is the model's: assumption log 11. -/
def Obligations.RstTakesPriority : Prop :=
  ∀ s : State, s.plat.rst.now = true → ∃ t, step s = .next t ∧ t.Ready ∧ t.held = false ∧
    t.status.word = 0x00 ∧ t.res = 0 ∧ t.fg = 0x1CE7 ∧ t.bg = 0 ∧ t.msglen = 0 ∧ t.schr = 0 ∧ t.scol = 0 ∧
    (∀ g, t.glAt g = false) ∧ t.plat.commands = s.plat.commands ∧ t.cfg = s.cfg

/-- R222, V8: a reset during a command: any prefix of its device events, then the reset state. The first clause: of a flush of
all or of one cell, whose request and write succeed or fail, the reset can come before its first device event, after each one,
and while its write is under way: the command is then `BUSY`, just those events have happened, and the core holds the device
exactly between the grant and the release; the step that takes `rst` adds only the reset to them, holds nothing and asserts
neither `dev_req` nor `dev_we`, which the platform must treat as a release. The second: a reset that meets a write in progress
leaves every device byte outside the write's range as it was, but for bytes that others write. The third, a reset that meets no
write leaves the whole device as it was (but for the same), is the model's and not R222's, which leaves the point of abandonment
open: it rests on when others write (assumption log 7). How a reset comes to a point of a command, by a silence or by a clock
edge after an event, is the model's too (log 11). -/
def Obligations.RstSparesTheRestOfTheDevice : Prop :=
  (∀ (i : Instr) (off n : Nat) (s : State), s.Ready → s.held = false → s.plat.present.now = true →
    (i = .flush ∧ off = 0 ∧ n = 128 ∨ ∃ cell : Byte, i = .flush1 cell ∧ cell.toNat ≤ 63 ∧ off = 2 * cell.toNat ∧ n = 2) →
    ∀ j, s.PausesAfter off n j →
      ∃ t, exec i s = .next t ∧ t.status.busy = true ∧ t.trace = s.trace ++ (s.flushEvents off n).take j ∧
        t.held = decide (s.plat.acquire.now = .ok ∧ 1 ≤ j ∧ j < 3) ∧
        (s.plat.rst.now = true → ∃ u, step t = .next u ∧ u.Ready ∧ u.held = false ∧ u.devReq = false ∧ u.devWe = false ∧
          u.trace = t.trace ++ [.reset])) ∧
  ∀ (s t : State) (a : Nat), s.plat.rst.now = true → step s = .next t → s.Untouched a →
    (∀ off n rest, s.todo = .flushWrite off n :: rest → a < off ∨ off + n ≤ a → t.devAt a = s.devAt a) ∧
    (s.devWe = false → t.devAt a = s.devAt a)

/-- R231, R205: a core that waits for an answer (or for `mtime`) that never comes stays `BUSY` for ever, in the same place, with
no timeout. The device bytes outside the range of a write under way that others leave alone are as they were; of the bytes in
that range nothing is said (R48). Of `Pace()`: it latches a reading of `mtime` in `t0`, and ends at a reading exactly if `(mtime
- t0) mod 2^MTIME_BITS >= PACE_TICKS` there; otherwise it waits, and changes nothing but the two. So with a counter that stands
still no pace of a `SCROLL` ever ends, and no `SCROLL` comes to `Done`. How `mtime` moves between two readings is the model's:
assumption log 14. -/
def Obligations.StarvedCoreHangs : Prop :=
  (∀ (s : State) (k : Nat), s.Starved → ∃ t, core.run k s = .next t ∧ t.status.busy = true ∧ t.todo = s.todo ∧ t.pb = s.pb ∧
    ∀ a, s.Untouched a → (∀ off n rest, s.todo = .flushWrite off n :: rest → a < off ∨ off + n ≤ a) → t.devAt a = s.devAt a) ∧
  (∀ s : State,
    let reading : State → State := fun u =>
      { u with
        mtime := (u.mtime + u.plat.ticks.now) % 2 ^ u.cfg.mtimeBits, plat := { u.plat with ticks := u.plat.ticks.later } }
    let compare : State → OpResult := fun u =>
      if (u.cfg.paceTicks : Int) ≤ ((u.mtime : Int) - u.t0) % 2 ^ u.cfg.mtimeBits then .done (u.log .pace)
      else .wait u .paceWait
    runOp .pace s = compare (reading { reading s with t0 := (reading s).mtime }) ∧
    runOp .paceWait s = compare (reading s)) ∧
  ∀ (o : Orient) (k : Nat) (s t : State), s.plat.ticks.All (· = 0) → 0 < s.cfg.paceTicks → Executes (.scroll o) k s t →
    t.status.astate ≠ .done ∧ ∃ new, t.trace = s.trace ++ new ∧ new.count .pace = 0

/-- R166, R231: every command ends. On a fair platform, which answers each request, write and font read after any finite number
of silences, with success or failure, and on which `mtime` comes to advance steadily, a command begun is ready after some number
of steps, and so is one met while it waits; where no answer is withheld, no clock edge falls inside a flush and `PACE_TICKS`
pass between any two readings, it ends in the one step. The platform's fairness, which R231 asks a model to state, is
`State.Fair`. -/
def Obligations.AnsweredCommandsEnd : Prop :=
  (∀ (i : Instr) (s : State), s.Fair → ∃ k t, Executes i k s t ∧ t.Ready) ∧
  (∀ s : State, s.Fair → s.status.busy = true → ∃ k t, core.run k s = .next t ∧ t.Ready) ∧
  ∀ (i : Instr) (s : State), s.NeverSilent → s.Ticking → ∃ t, exec i s = .next t ∧ t.Ready

/-! ### Whole-machine rules -/

/-- R193: the complete list of no-ops: an operand out of range, a full message buffer, a message that is not one character. The
command changes nothing (`BUSY` is set at acceptance and cleared at the end). -/
def Obligations.NoOpsChangeNothing : Prop :=
  ∀ (i : Instr) (s : State), s.Ready →
    (i.inDomain = false ∨ (∃ ch, i = .msgput ch ∧ s.msglen.toNat = s.cfg.msgMax) ∨
      ∃ o, i = .static o ∧ s.msglen.toNat ≠ 1) →
    exec i s = .next s

/-- R10, R11, R18, R19, R20, R24, R198: a command, in the step that accepts it and in every step in which it goes on after a
wait, writes a register or an array only if the spec's table names it as one that does, and sets a sticky flag only if R198
names it as one that may; a command that reaches no device leaves every device byte as it was that others leave alone. -/
def Obligations.OnlyNamedCommandsWrite : Prop :=
  ∀ (i : Instr) (k : Nat) (s t : State), Executes i k s t →
    (writesRes i = false → t.res = s.res) ∧ (writesFg i = false → t.fg = s.fg) ∧ (writesBg i = false → t.bg = s.bg) ∧
    (writesMsg i = false → t.msglen = s.msglen ∧ t.msg = s.msg) ∧
    (isScroll i = false → t.schr = s.schr ∧ t.scol = s.scol ∧ t.status.astate = s.status.astate) ∧
    (writesPb i = false → t.pb = s.pb) ∧ (usesFont i = false → t.gl = s.gl) ∧
    (usesDevice i = false → t.status.nodev = s.status.nodev ∧ t.held = s.held ∧
      ∀ a, s.Untouched a → t.devAt a = s.devAt a) ∧
    ∀ e, mayRaise i e = false → isClrst i = false → t.status.flag e = s.status.flag e

/-- R11, R203: a sticky flag, once set, stays set through every step but a `CLRST` and a reset. -/
def Obligations.StickyFlagsStay : Prop :=
  ∀ (s t : State) (e : Abort), s.plat.rst.now = false → step s = .next t → s.status.flag e = true →
    (∀ w ws i, s.status.busy = false → s.plat.commands = w :: ws → decode w = .ok i → isClrst i = false) →
    t.status.flag e = true

/-- R30: no command, no step and no reset changes the font image, the alphabet or any other parameter. -/
def Obligations.ParametersNeverChange : Prop := ∀ s t : State, step s = .next t → t.cfg = s.cfg

/-- R200: the values `cancel` takes have no effect on any command other than `SCROLL`: not in the step that accepts it, nor in
any step in which it goes on after a wait. -/
def Obligations.CancelConcernsOnlyScroll : Prop :=
  ∀ (i : Instr) (k : Nat) (s t : State) (c : Script Bool), isScroll i = false → Executes i k s t →
    Executes i k { s with plat := { s.plat with cancel := c } } { t with plat := { t.plat with cancel := c } }

/-- R205, R84, R231: no value the core computes depends on `mtime` or on how long the platform takes. First: two runs of a
command that differ only in the counter and its pace, both advancing, differ in nothing else afterwards. Second, for every
command and however it waits (for silences, at clock edges, and in paces of any number of readings): when it has ended, the
state is the one that the same command comes to in one step where the same answers are given at once, but for the counter, the
inputs sampled meanwhile, the count of free values, and the device bytes that others write or that a failed write left
unspecified (R45, R58). Since that one step does not know `mtime`, two runs that differ in the counter alone agree, waits
included. -/
def Obligations.ResultsDoNotDependOnTime : Prop :=
  (∀ (i : Instr) (s t : State) (m z : Nat) (ti : Script Nat), s.Ticking →
    ({ s with mtime := m, t0 := z, plat := { s.plat with ticks := ti } } : State).Ticking → exec i s = .next t →
    ∃ m' z' ti', exec i { s with mtime := m, t0 := z, plat := { s.plat with ticks := ti } } =
      .next { t with mtime := m', t0 := z', plat := { t.plat with ticks := ti' } }) ∧
  ∀ (i : Instr) (k : Nat) (s t : State), Executes i k s t → t.Ready →
    ∃ u, exec i s.prompt = .next u ∧ u.Ready ∧
      t = { u with
        mtime := t.mtime, t0 := t.t0, dev := t.dev, draws := t.draws
        plat := { u.plat with
          rst := t.plat.rst, acquire := t.plat.acquire, write := t.plat.write, font := t.plat.font, edge := t.plat.edge
          ticks := t.plat.ticks, foreign := t.plat.foreign } } ∧
      ∀ a, s.Untouched a →
        (∀ off bytes, .write off bytes false ∈ t.trace.drop s.trace.length → a < off ∨ off + bytes.length ≤ a) →
        t.devAt a = u.devAt a

/-- R10, R11: the register read port: the seven registers zero-extended at their addresses, 0 elsewhere, and the fields of
`STATUS` at their bits, with the four codes of `ASTATE`. -/
def Obligations.ReadPortShowsRegisters : Prop :=
  ∀ s : State,
    (s.readReg 0).toNat = s.status.word.toNat ∧ s.readReg 1 = s.res ∧ s.readReg 2 = s.fg ∧ s.readReg 3 = s.bg ∧
    (s.readReg 4).toNat = s.msglen.toNat ∧ (s.readReg 5).toNat = s.schr.toNat ∧ (s.readReg 6).toNat = s.scol.toNat ∧
    (∀ a : BitVec 4, 7 ≤ a.toNat → s.readReg a = 0) ∧
    s.status.word.getLsbD 0 = s.status.busy ∧
    s.status.word.extractLsb' 1 2 =
      (match s.status.astate with | .idle => 0#2 | .painting => 1#2 | .scrolling => 2#2 | .done => 3#2) ∧
    s.status.word.getLsbD 3 = s.status.fonterr ∧ s.status.word.getLsbD 4 = s.status.deverr ∧
    s.status.word.getLsbD 5 = s.status.illcmd ∧ s.status.word.getLsbD 6 = s.status.cancelled ∧
    s.status.word.getLsbD 7 = s.status.nodev

/-! ### Invariants that every step keeps -/

/-- R25 (a), R46, R140: between two steps the device is held exactly while the core is inside a flush, between its grant and its
release; a ready core holds nothing and has nothing left to do. Every step keeps this. -/
def Obligations.StepKeepsHeldInv : Prop := ∀ s t : State, s.HeldInv → step s = .next t → t.HeldInv

/-- R19, R115: glyph cells 40 to 63 are background; every step keeps this. -/
def Obligations.StepKeepsGlyphInv : Prop := ∀ s t : State, s.GlyphInv → step s = .next t → t.GlyphInv

/-- R40, R47: the device's bytes stay a canonical list inside the 128 that exist, and only the two shapes of write are ever
under way; every step keeps this. -/
def Obligations.StepKeepsDeviceInv : Prop := ∀ s t : State, s.DeviceInv → step s = .next t → t.DeviceInv

/-- R16, R17: `SCHR` stays at most 256 and `SCOL` at most 5; every step keeps this. -/
def Obligations.StepKeepsCursorInv : Prop := ∀ s t : State, s.CursorInv → step s = .next t → t.CursorInv

/-- R15: `MSGLEN` stays at most `MSG_MAX`; every step keeps this. -/
def Obligations.StepKeepsMsgInv : Prop := ∀ s t : State, s.MsgInv → step s = .next t → t.MsgInv

/-- R150, R156: `Painting` and `Scrolling` are seen only while a `SCROLL` executes, and a ready core is in `Idle` or `Done`;
`Painting` is seen exactly inside the initial flush, with the buffer all `BG` and the cursor 0, and what comes next is
`Scrolling`, which lasts to the `SCROLL`'s last statement; every step keeps this. -/
def Obligations.StepKeepsAnimatorInv : Prop := ∀ s t : State, s.AnimatorInv → step s = .next t → t.AnimatorInv

/-- The invariants hold at reset. -/
def Obligations.ResetMeetsTheInvariants : Prop :=
  State.reset.HeldInv ∧ State.reset.GlyphInv ∧ State.reset.DeviceInv ∧ State.reset.CursorInv ∧ State.reset.MsgInv ∧
  State.reset.AnimatorInv

/-! ### ColorCodec (40_color.md) -/

/-- R91: `ENCRGB` (format ABC, `op` 0x01) writes the packed word to `RES`, the high three bits of each channel in the places of
R90, and changes nothing else. -/
def Obligations.EncrgbPacksTheChannels : Prop :=
  (∀ w, opField w = 0x01 → decode w = .ok (.encrgb (aField w) (bField w) (cField w))) ∧
  ∀ (r g b : Byte) (s : State), s.Ready →
    exec (.encrgb r g b) s =
      .next { s with res :=
        (0#3 ++ b.extractLsb' 5 3 ++ 0#2 ++ r.extractLsb' 5 3 ++ 0#2 ++ g.extractLsb' 5 3 : BitVec 16) }

/-- R90: the packed word is the formula's value and has its bits in their places; the largest is 0x1CE7; two colours pack to one
word exactly when their channels agree in the high three bits (so there are 512 results). -/
def Obligations.PackKeepsTheHighThreeBits : Prop :=
  pack 255 255 255 = 0x1CE7 ∧
  ∀ r g b : Byte,
    (pack r g b).toNat = b.toNat / 32 * 1024 + r.toNat / 32 * 32 + g.toNat / 32 ∧
    pack r g b = (0#3 ++ b.extractLsb' 5 3 ++ 0#2 ++ r.extractLsb' 5 3 ++ 0#2 ++ g.extractLsb' 5 3 : BitVec 16) ∧
    (pack r g b).toNat ≤ 0x1CE7 ∧
    ∀ r' g' b' : Byte, pack r g b = pack r' g' b' ↔
      r.toNat / 32 = r'.toNat / 32 ∧ g.toNat / 32 = g'.toNat / 32 ∧ b.toNat / 32 = b'.toNat / 32

/-- R92: `ENCNAME` (format C, `op` 0x02) writes the palette's literal to `RES`, and off for every code above 7, and changes
nothing else; each literal is the packed form of its triple. -/
def Obligations.EncnameReadsThePalette : Prop :=
  (∀ w, opField w = 0x02 → decode w = .ok (.encname (cField w))) ∧
  (∀ (n : Byte) (s : State), s.Ready →
    exec (.encname n) s =
      .next { s with res :=
        ([0x0000, 0x00E0, 0x0007, 0x1C00, 0x00E7, 0x1C07, 0x1CE0, 0x1CE7] : List Half).getD n.toNat 0x0000 }) ∧
  palette 0 = pack 0 0 0 ∧ palette 1 = pack 255 0 0 ∧ palette 2 = pack 0 255 0 ∧ palette 3 = pack 0 0 255 ∧
  palette 4 = pack 255 255 0 ∧ palette 5 = pack 0 255 255 ∧ palette 6 = pack 255 0 255 ∧ palette 7 = pack 255 255 255

/-- R93: `DECODE hi, lo` (format BC, `op` 0x03) writes the two bytes as one word and changes nothing else; of the two bytes of
any word it makes that word again. -/
def Obligations.DecodeJoinsTwoBytes : Prop :=
  (∀ w, opField w = 0x03 → decode w = .ok (.decode (bField w) (cField w))) ∧
  ∀ s : State, s.Ready →
    (∀ hi lo : Byte, exec (.decode hi lo) s = .next { s with res := (hi ++ lo : BitVec 16) }) ∧
    ∀ v : Half, exec (.decode (BitVec.ofNat 8 (v.toNat / 256)) (BitVec.ofNat 8 (v.toNat % 256))) s =
      .next { s with res := v }

/-- R94 to R97: the four commands that write the colour registers (`op` 0x04 to 0x07), from the immediate or from `RES`,
unmasked, and nothing else. -/
def Obligations.ColourRegisterCommands : Prop :=
  (∀ w, (opField w = 0x04 → decode w = .ok (.setfg (immField w))) ∧ (opField w = 0x05 → decode w = .ok (.setbg (immField w))) ∧
    (opField w = 0x06 → decode w = .ok .setfgr) ∧ (opField w = 0x07 → decode w = .ok .setbgr)) ∧
  ∀ (v : Half) (s : State), s.Ready →
    exec (.setfg v) s = .next { s with fg := v } ∧ exec (.setbg v) s = .next { s with bg := v } ∧
    exec .setfgr s = .next { s with fg := s.res } ∧ exec .setbgr s = .next { s with bg := s.res }

/-! ### OrientationMapper (41_orient.md) -/

/-- R100: `pixel_offset` has the values of the table and is, for each orientation, a bijection of the 64 cells. -/
def Obligations.PixelOffsetIsABijection : Prop :=
  (∀ x y, pixelOffset x y .deg0 = y * 8 + x ∧ pixelOffset x y .deg90 = x * 8 + (7 - y) ∧
    pixelOffset x y .deg180 = 63 - (y * 8 + x) ∧ pixelOffset x y .deg270 = (7 - x) * 8 + y) ∧
  ∀ o, (∀ x y, x ≤ 7 → y ≤ 7 → pixelOffset x y o < 64) ∧
    ∀ c, c < 64 → ∃ x y, x ≤ 7 ∧ y ≤ 7 ∧ pixelOffset x y o = c ∧
      ∀ x' y', x' ≤ 7 → y' ≤ 7 → pixelOffset x' y' o = c → x' = x ∧ y' = y

/-- R101: `PIXOFF` (format OXY, `op` 0x08) writes the offset to `RES` and nothing else; with a coordinate above 7 it changes
nothing; the four corners. -/
def Obligations.PixoffWritesTheOffset : Prop :=
  (∀ w, opField w = 0x08 → decode w = .ok (.pixoff (.ofCode (oField w)) (xField w) (yField w))) ∧
  ([0, 1, 2, 3].map fun c => (pixelOffset 0 0 (.ofCode c), pixelOffset 7 7 (.ofCode c))) = [(0, 63), (7, 56), (63, 0), (56, 7)] ∧
  ∀ (o : Orient) (x y : BitVec 4) (s : State), s.Ready →
    (x.toNat ≤ 7 ∧ y.toNat ≤ 7 →
      exec (.pixoff o x y) s = .next { s with res := BitVec.ofNat 16 (pixelOffset x.toNat y.toNat o) }) ∧
    (7 < x.toNat ∨ 7 < y.toNat → exec (.pixoff o x y) s = .next s)

/-- R102: which glyph cell the scan position `(x, y)` shows, by each rule: at 0, 90 and 180 degrees the cells of the table,
which is a bijection of the positions that show one onto cells 0 to 39; at 270 degrees, by the literal rule, the positions 0 to
24 show cells 63 down to 39, and by the rotated one the positions from 24 on show cells 39 down to 0. -/
def Obligations.GlyphOffsetReachesTheGlyph : Prop :=
  (∀ rule x y, x < 8 → y < 8 →
    glyphOffset rule (y * 8 + x) .deg0 = (if x ≤ 4 then some ((x + 1) * 8 - 1 - y) else none) ∧
    glyphOffset rule (y * 8 + x) .deg90 = (if y * 8 + x < 40 then some (y * 8 + x) else none) ∧
    glyphOffset rule (y * 8 + x) .deg180 = (if 3 ≤ x then some ((7 - x) * 8 + y) else none)) ∧
  (∀ rule o, o ≠ .deg270 →
    (∀ i g, i < 64 → glyphOffset rule i o = some g → g < 40) ∧
    ∀ g, g < 40 → ∃ i, i < 64 ∧ glyphOffset rule i o = some g ∧
      ∀ i', i' < 64 → glyphOffset rule i' o = some g → i' = i) ∧
  (∀ i, i < 64 → glyphOffset .literal i .deg270 = if i ≤ 24 then some (63 - i) else none) ∧
  ∀ i, i < 64 → glyphOffset .rotated i .deg270 = if i < 24 then none else some (63 - i)

/-- R104: the printed value table of `glyph_offset` (64, which is no glyph cell, stands for none). -/
def Obligations.GlyphOffsetTable : Prop :=
  (∀ i < 64, (glyphOffset .literal i .deg0).getD 64 =
    ([7, 15, 23, 31, 39, 64, 64, 64, 6, 14, 22, 30, 38, 64, 64, 64, 5, 13, 21, 29, 37, 64, 64, 64, 4, 12, 20, 28, 36, 64, 64, 64]
    ++ [3, 11, 19, 27, 35, 64, 64, 64, 2, 10, 18, 26, 34, 64, 64, 64, 1, 9, 17, 25, 33, 64, 64, 64, 0, 8, 16, 24, 32, 64, 64, 64]
      : List Nat).getD i 99) ∧
  (∀ i < 64, glyphOffset .literal i .deg90 = if i < 40 then some i else none) ∧
  (∀ i < 64, (glyphOffset .literal i .deg180).getD 64 =
    ([64, 64, 64, 32, 24, 16, 8, 0, 64, 64, 64, 33, 25, 17, 9, 1, 64, 64, 64, 34, 26, 18, 10, 2, 64, 64, 64, 35, 27, 19, 11, 3]
      ++ [64, 64, 64, 36, 28, 20, 12, 4, 64, 64, 64, 37, 29, 21, 13, 5, 64, 64, 64, 38, 30, 22, 14, 6, 64, 64, 64, 39, 31, 23,
          15, 7]
      : List Nat).getD i 99) ∧
  ∀ i < 64, (glyphOffset .literal i .deg270).getD 64 =
    ([63, 62, 61, 60, 59, 58, 57, 56, 55, 54, 53, 52, 51, 50, 49, 48, 47, 46, 45, 44, 43, 42, 41, 40, 39] : List Nat).getD i 64

/-- R103: `GLYOFF` (format OC, `op` 0x09) writes the glyph cell, or 0x8000 for none, and nothing else; a scan index above 63
changes nothing; the rule's boundaries. -/
def Obligations.GlyoffWritesCellOrNone : Prop :=
  (∀ w, opField w = 0x09 → decode w = .ok (.glyoff (.ofCode (oField w)) (cField w))) ∧
  (∀ rule, glyphOffset rule 4 .deg0 = some 39 ∧ glyphOffset rule 5 .deg0 = none ∧ glyphOffset rule 39 .deg90 = some 39 ∧
    glyphOffset rule 40 .deg90 = none ∧ glyphOffset rule 2 .deg180 = none ∧ glyphOffset rule 3 .deg180 = some 32) ∧
  glyphOffset .literal 24 .deg270 = some 39 ∧ glyphOffset .literal 25 .deg270 = none ∧
  ∀ (o : Orient) (scan : Byte) (s : State), s.Ready →
    (scan.toNat ≤ 63 →
      (glyphOffset s.cfg.g270 scan.toNat o = none → exec (.glyoff o scan) s = .next { s with res := 0x8000 }) ∧
      ∀ g, glyphOffset s.cfg.g270 scan.toNat o = some g →
        g < 64 ∧ exec (.glyoff o scan) s = .next { s with res := BitVec.ofNat 16 g }) ∧
    (63 < scan.toNat → exec (.glyoff o scan) s = .next s)

/-! ### GlyphStore (42_glyph.md) -/

/-- R110: the default alphabet has 90 distinct members; the positions of the table's rows that D0's own examples name; the
printable codes that are no members. The members' codes and their number are the spec's own presumption, not D0's words (K1,
K2): assumption log 18. -/
def Obligations.DefaultAlphabetPositions : Prop :=
  defaultAlphabet.length = 90 ∧ defaultAlphabet.Nodup ∧ positionIn defaultAlphabet 0x20 = 0 ∧
  positionIn defaultAlphabet 0x38 = 19 ∧ positionIn defaultAlphabet 0x41 = 25 ∧ positionIn defaultAlphabet 0x61 = 51 ∧
  positionIn defaultAlphabet 0x7E = 89 ∧ ∀ ch ∈ ([0x5C, 0x60, 0x5E, 0x7B, 0x7D] : List Byte), positionIn defaultAlphabet ch = -1

/-- R112, R114: `GLYIDX` (format C, `op` 0x10) writes 90 less the position of the first entry of the alphabet equal to the
character (0 for a position above 90), and 90 for a character outside it, and changes nothing else. -/
def Obligations.GlyidxClampsThePosition : Prop :=
  (∀ w, opField w = 0x10 → decode w = .ok (.glyidx (cField w))) ∧
  ∀ (ch : Byte) (s : State), s.Ready →
    (∀ p, s.cfg.alphabet[p]? = some ch → (∀ q, q < p → s.cfg.alphabet[q]? ≠ some ch) →
      exec (.glyidx ch) s = .next { s with res := BitVec.ofNat 16 (90 - p) }) ∧
    (ch ∉ s.cfg.alphabet → exec (.glyidx ch) s = .next { s with res := 90 })

/-- R116: `GLYADDR` (format BC, `op` 0x11) writes the font offset of the chunk, which lies in 3098 to 10362, and nothing else; a
row above 4 changes nothing. -/
def Obligations.GlyaddrWritesTheChunkOffset : Prop :=
  (∀ w, opField w = 0x11 → decode w = .ok (.glyaddr (bField w) (cField w))) ∧
  ∀ (row ch : Byte) (s : State), s.Ready →
    (row.toNat ≤ 4 → ∃ v : Half, exec (.glyaddr row ch) s = .next { s with res := v } ∧
      v.toNat + 16 * row.toNat = 3098 + glyphIndex s.cfg.alphabet ch * 80 + 64 ∧ 3098 ≤ v.toNat ∧ v.toNat ≤ 10362) ∧
    (4 < row.toNat → exec (.glyaddr row ch) s = .next s)

/-- R115, R117: `LOOKUP` (format C, `op` 0x12), when the font reads are answered, loads the character's glyph into `GL`, by five
reads in ascending row, and changes no register, no other array and no flag. It does so in the step that accepts it when the
answers come at once, and in the end however long each of them takes. -/
def Obligations.LookupLoadsTheGlyph : Prop :=
  (∀ w, opField w = 0x12 → decode w = .ok (.lookup (cField w))) ∧
  ∀ (ch : Byte) (s : State), s.Ready →
    (s.FontAnswers → ∃ t, exec (.lookup ch) s = .next t ∧ s.LookedUp ch t) ∧
    (s.FontWillAnswer → ∀ k t, Executes (.lookup ch) k s t → t.Ready → (s.rstOf t).LookedUp ch t)

/-- R119, R164, R191, R52: when the read of chunk `k` is the first of a lookup to fail, because the platform says so or because
it runs past the end of a short image, `LOOKUP` and `STATIC` end with `FONTERR` set after `k + 1` reads, and `GL`, `PB` and the
device are as before. A `SCROLL` in which this happens at character `k`, chunk `r`, ends in `Idle` with `FONTERR` set, the
buffer at the last complete frame, `GL` at the glyph before, `SCHR = k`, `SCOL` 0 for the first character and 5 for any other;
`NODEV` is what its last flush, number `6*k`, wrote (R44). -/
def Obligations.FontFailureKeepsGlyphAndBuffer : Prop :=
  (∀ (i : Instr) (ch : Byte) (s : State) (k : Nat) (ans : Answer) (rest : List Answer), s.Ready → s.LookupFails ch k ans →
    s.plat.font.next = List.replicate k .ok ++ ans :: rest →
    (i = .lookup ch ∨ s.msglen.toNat = 1 ∧ s.msgAt 0 = ch ∧ ∃ o, i = .static o) →
    ∃ t, exec i s = .next t ∧ t.status = { s.status with fonterr := true } ∧ t.gl = s.gl ∧ t.pb = s.pb ∧
      (∀ a, s.Untouched a → t.devAt a = s.devAt a) ∧
      t.trace = s.trace ++ ((lookupReads s.cfg.alphabet ch).take k) ++
        [.fontRead (chunkAddr (glyphIndex s.cfg.alphabet ch) k) false] ∧
      ({ s with status := t.status } : State).OnlyTransacts t) ∧
  ∀ (o : Orient) (s : State) (k r : Nat) (ans : Answer) (rest : List Answer), s.Ready → s.DeviceAnswers → s.Ticking →
    s.NotCancelled → k < s.msglen.toNat → (∀ j, j < k → s.GlyphInImage (s.msgAt j)) → s.LookupFails (s.msgAt k) r ans →
    s.plat.font.next = List.replicate (5 * k + r) .ok ++ ans :: rest →
    ∃ t new, exec (.scroll o) s = .next t ∧ t.Ready ∧
      t.status = { s.status with astate := .idle, fonterr := true, nodev := !s.plat.present.nth (6 * k) } ∧
      t.schr.toNat = k ∧ t.scol.toNat = (if k = 0 then 0 else 5) ∧
      (s.scrollFrames o)[6 * k]? = some t.pb ∧ (s.plat.present.All (· = true) → s.ShownIn t) ∧
      (k = 0 → t.gl = s.gl) ∧ (∀ j, k = j + 1 → t.HoldsGlyph (s.msgAt j)) ∧ (s.held = false → t.held = false) ∧
      t.trace = s.trace ++ new ∧ new.count .pace = 6 * k ∧ new.countP Event.isFontRead = 5 * k + r + 1

/-- R118: `GLYBIT` (format C, `op` 0x13) writes the cell of the glyph latch as 0 or 1 and nothing else; an index above 63
changes nothing; cells 40 to 63 read 0 (where R19's invariant holds), and after reset every cell reads 0. -/
def Obligations.GlybitReadsTheLatch : Prop :=
  (∀ w, opField w = 0x13 → decode w = .ok (.glybit (cField w))) ∧
  ∀ (g : Byte) (s : State), s.Ready →
    (g.toNat ≤ 63 → exec (.glybit g) s = .next { s with res := if s.glAt g.toNat then 1 else 0 }) ∧
    (63 < g.toNat → exec (.glybit g) s = .next s) ∧
    (s.GlyphInv → 40 ≤ g.toNat ∧ g.toNat ≤ 63 → exec (.glybit g) s = .next { s with res := 0 }) ∧
    (g.toNat ≤ 63 → exec (.glybit g) State.reset = .next { State.reset with res := 0 })

/-! ### PixelBuffer (43_pixbuf.md) -/

/-- R125, R126: `PBSET x, y, v` (format XYI, `op` 0x18) and `PBSETL y*8+x, v` (format AI, `op` 0x19) write that one cell, all 16
bits, and nothing else; out of range they change nothing. -/
def Obligations.PbsetWritesOneCell : Prop :=
  (∀ w, (opField w = 0x18 → decode w = .ok (.pbset (xField w) (yField w) (immField w))) ∧
    (opField w = 0x19 → decode w = .ok (.pbsetl (aField w) (immField w)))) ∧
  ∀ (x y : BitVec 4) (off : Byte) (v : Half) (s : State), s.Ready →
    (x.toNat ≤ 7 ∧ y.toNat ≤ 7 → ∃ t, exec (.pbset x y v) s = .next t ∧ t = { s with pb := t.pb } ∧
      ∀ i, i < 64 → t.pbAt i = if i = y.toNat * 8 + x.toNat then v else s.pbAt i) ∧
    (off.toNat ≤ 63 → ∃ t, exec (.pbsetl off v) s = .next t ∧ t = { s with pb := t.pb } ∧
      ∀ i, i < 64 → t.pbAt i = if i = off.toNat then v else s.pbAt i) ∧
    (7 < x.toNat ∨ 7 < y.toNat → exec (.pbset x y v) s = .next s) ∧
    (63 < off.toNat → exec (.pbsetl off v) s = .next s)

/-- R127: `PBFILL` (format I, `op` 0x1A) writes every cell and nothing else. -/
def Obligations.PbfillWritesEveryCell : Prop :=
  (∀ w, opField w = 0x1A → decode w = .ok (.pbfill (immField w))) ∧
  ∀ (v : Half) (s : State), s.Ready →
    ∃ t, exec (.pbfill v) s = .next t ∧ t = { s with pb := t.pb } ∧ ∀ i, i < 64 → t.pbAt i = v

/-- R128, R129 (with R130): `PBGET` (format C, `op` 0x1B) reads a cell, `PBBYTE` (format C, `op` 0x1C) one byte of the
big-endian serialisation, into `RES`, and change nothing else; out of range they change nothing. -/
def Obligations.BufferReads : Prop :=
  (∀ w, (opField w = 0x1B → decode w = .ok (.pbget (cField w))) ∧ (opField w = 0x1C → decode w = .ok (.pbbyte (cField w)))) ∧
  ∀ (i : Byte) (s : State), s.Ready →
    (i.toNat ≤ 63 → exec (.pbget i) s = .next { s with res := s.pbAt i.toNat }) ∧
    (63 < i.toNat → exec (.pbget i) s = .next s) ∧
    (i.toNat ≤ 127 → exec (.pbbyte i) s =
      .next { s with res :=
        if i.toNat % 2 = 0 then s.pbAt (i.toNat / 2) >>> 8 else s.pbAt (i.toNat / 2) &&& 0x00FF }) ∧
    (127 < i.toNat → exec (.pbbyte i) s = .next s)

/-! ### DisplayWriter (44_display.md) -/

/-- R135, R136, R139, R142: `FLUSH` (format N, `op` 0x20), when the device answers, makes one write of the 128 bytes of the
buffer between one acquisition and one release, after which the device shows the buffer, but for bytes that others write (R58):
in the step that accepts it when the answers come at once, and in the end however it waits, at silences and at clock edges. With
no device it sets `NODEV` and does nothing else. -/
def Obligations.FlushShowsTheBuffer : Prop :=
  (∀ w, opField w = 0x20 → decode w = .ok .flush) ∧
  ∀ s : State, s.Ready →
    (s.plat.present.now = true →
      (s.DeviceAnswers → ∃ t, exec .flush s = .next t ∧ s.FlushShown 0 128 t) ∧
      (s.DeviceWillAnswer → ∀ k t, Executes .flush k s t → t.Ready → (s.rstOf t).FlushShown 0 128 t)) ∧
    (s.plat.present.now = false → exec .flush s =
      .next { s with
        status := { s.status with nodev := true }, plat := { s.plat with present := s.plat.present.later } })

/-- R137: `FLUSH1 cell` (format C, `op` 0x21) writes the two bytes of that cell and no other device byte, at once or in the end
however it waits; what others write is theirs (R58); with no device it sets `NODEV` alone; a cell above 63 changes nothing, not
even `NODEV`. -/
def Obligations.Flush1ShowsOneCell : Prop :=
  (∀ w, opField w = 0x21 → decode w = .ok (.flush1 (cField w))) ∧
  ∀ (cell : Byte) (s : State), s.Ready →
    (cell.toNat ≤ 63 → s.plat.present.now = true →
      (s.DeviceAnswers → ∃ t, exec (.flush1 cell) s = .next t ∧ s.FlushShown (2 * cell.toNat) 2 t) ∧
      (s.DeviceWillAnswer → ∀ k t, Executes (.flush1 cell) k s t → t.Ready →
        (s.rstOf t).FlushShown (2 * cell.toNat) 2 t)) ∧
    (cell.toNat ≤ 63 → s.plat.present.now = false → exec (.flush1 cell) s =
      .next { s with
        status := { s.status with nodev := true }, plat := { s.plat with present := s.plat.present.later } }) ∧
    (63 < cell.toNat → exec (.flush1 cell) s = .next s)

/-- R138, R139: `SETPIX` (format OXYI, `op` 0x22) writes the buffer cell that `pixel_offset` names and shows that one cell, and
no other, at once or in the end however it waits; what others write is theirs (R58); with no device the buffer cell is still
written and only `NODEV` set besides; a coordinate above 7 changes nothing. -/
def Obligations.SetpixWritesAndShowsOneCell : Prop :=
  (∀ w, opField w = 0x22 → decode w = .ok (.setpix (.ofCode (oField w)) (xField w) (yField w) (immField w))) ∧
  ∀ (o : Orient) (x y : BitVec 4) (v : Half) (s : State), s.Ready →
    let cell := pixelOffset x.toNat y.toNat o
    let wrote : State → Prop := fun t => ∀ i, i < 64 → t.pbAt i = if i = cell then v else s.pbAt i
    (x.toNat ≤ 7 ∧ y.toNat ≤ 7 → s.plat.present.now = true →
      (s.DeviceAnswers → ∃ t, exec (.setpix o x y v) s = .next t ∧ wrote t ∧
        ({ s with pb := t.pb } : State).FlushShown (2 * cell) 2 t) ∧
      (s.DeviceWillAnswer → ∀ k t, Executes (.setpix o x y v) k s t → t.Ready → wrote t ∧
        ({ s.rstOf t with pb := t.pb } : State).FlushShown (2 * cell) 2 t)) ∧
    (x.toNat ≤ 7 ∧ y.toNat ≤ 7 → s.plat.present.now = false → ∃ t, exec (.setpix o x y v) s = .next t ∧ wrote t ∧
      t = { s with
        pb := t.pb, status := { s.status with nodev := true }
        plat := { s.plat with present := s.plat.present.later } }) ∧
    (7 < x.toNat ∨ 7 < y.toNat → exec (.setpix o x y v) s = .next s)

/-- R44, R45, R141, R192, R138, R155, R164: a device request or a device write that fails sets `DEVERR`, whichever command makes
it; after a failed request nothing was held, after a failed write the device is released all the same and the bytes outside the
attempted range are as they were (but for what others write). `FLUSH` and `FLUSH1` change nothing else; `SETPIX` has written its
buffer cell; `STATIC` has loaded its glyph and painted the buffer. A `SCROLL` whose flush number `m` (0 is the initial one)
fails ends in `Idle`: the buffer is the frame whose flush failed, `SCHR` and `SCOL` are those of its step, `GL` is the glyph
last loaded, `m` frames were shown and each step before that one was paced. -/
def Obligations.FlushFailureSetsDeverr : Prop :=
  (∀ s : State, s.Ready → s.DeviceFails → ∃ t, exec .flush s = .next t ∧ s.FlushFailed 0 128 t) ∧
  (∀ (cell : Byte) (s : State), s.Ready → s.DeviceFails → cell.toNat ≤ 63 →
    ∃ t, exec (.flush1 cell) s = .next t ∧ s.FlushFailed (2 * cell.toNat) 2 t) ∧
  (∀ (o : Orient) (x y : BitVec 4) (v : Half) (s : State), s.Ready → s.DeviceFails → x.toNat ≤ 7 → y.toNat ≤ 7 →
    ∃ t, exec (.setpix o x y v) s = .next t ∧
      ({ s with pb := t.pb } : State).FlushFailed (2 * pixelOffset x.toNat y.toNat o) 2 t ∧
      ∀ i, i < 64 → t.pbAt i = if i = pixelOffset x.toNat y.toNat o then v else s.pbAt i) ∧
  (∀ (o : Orient) (s : State), s.Ready → s.FontAnswers → s.DeviceFails → s.msglen.toNat = 1 →
    ∃ t, exec (.static o) s = .next t ∧
      ({ s with gl := t.gl, pb := t.pb, trace := s.trace ++ lookupReads s.cfg.alphabet (s.msgAt 0) } : State).FlushFailed
        0 128 t ∧
      t.HoldsGlyph (s.msgAt 0) ∧
      ∀ i, i < 64 → t.pbAt i =
        match glyphOffset s.cfg.g270 i o with
        | none => s.bg
        | some g => if t.glAt g then s.fg else s.bg) ∧
  ∀ (o : Orient) (s : State) (m : Nat) (rest : List Answer), s.Ready → s.FontAnswers → s.Ticking → s.NotCancelled →
    s.NoEdge → s.plat.present.All (· = true) → m ≤ 6 * (s.msglen.toNat + 2) →
    (s.plat.acquire.next = List.replicate m .ok ++ .failed :: rest ∧ s.plat.write.All (· = .ok) ∨
      s.plat.acquire.All (· = .ok) ∧ s.plat.write.next = List.replicate m .ok ++ .failed :: rest) →
    ∃ t new, exec (.scroll o) s = .next t ∧ t.Ready ∧
      t.status = { s.status with astate := .idle, deverr := true, nodev := false } ∧
      (s.scrollFrames o)[m]? = some t.pb ∧ t.schr.toNat = (m - 1) / 6 ∧ t.scol.toNat = (m - 1) % 6 ∧
      (min ((m + 5) / 6) s.msglen.toNat = 0 → t.gl = s.gl) ∧
      (∀ k, min ((m + 5) / 6) s.msglen.toNat = k + 1 → t.HoldsGlyph (s.msgAt k)) ∧
      (s.held = false → t.held = false) ∧ t.trace = s.trace ++ new ∧
      shownFrames new = ((s.scrollFrames o).take m).map (fun pb => pbBytes pb 0 128) ∧ new.count .pace = m - 1

/-! ### Rendering (45_render.md) -/

/-- R151, R153: `MSGCLR` (format N, `op` 0x28) empties the message and erases none of its entries; `MSGPUT` (format C, `op`
0x29) appends one character, and a full buffer ignores it; nothing else changes. -/
def Obligations.MessageCommands : Prop :=
  (∀ w, (opField w = 0x28 → decode w = .ok .msgclr) ∧ (opField w = 0x29 → decode w = .ok (.msgput (cField w)))) ∧
  ∀ (ch : Byte) (s : State), s.Ready → s.MsgInv →
    exec .msgclr s = .next { s with msglen := 0 } ∧
    (s.msglen.toNat = s.cfg.msgMax → exec (.msgput ch) s = .next s) ∧
    (s.msglen.toNat ≠ s.cfg.msgMax → ∃ t, exec (.msgput ch) s = .next t ∧ t = { s with msg := t.msg, msglen := t.msglen } ∧
      t.msglen.toNat = s.msglen.toNat + 1 ∧ t.msgAt s.msglen.toNat = ch ∧
      ∀ i, i ≠ s.msglen.toNat → t.msgAt i = s.msgAt i)

/-- R155: `STATIC` (format O, `op` 0x2A), with a message of one character, loads its glyph, paints all 64 cells through
`glyph_offset` and shows them (with a device, and but for bytes that others write); `ASTATE` and every flag but `NODEV` are as
before. It does so in the step that accepts it when the answers come at once, and in the end however long each of them takes. -/
def Obligations.StaticPaintsTheLetter : Prop :=
  (∀ w, opField w = 0x2A → decode w = .ok (.static (.ofCode (oField w)))) ∧
  ∀ (o : Orient) (s : State), s.Ready → s.msglen.toNat = 1 →
    (s.FontAnswers → s.DeviceAnswers → ∃ t, exec (.static o) s = .next t ∧ s.StaticShown o t) ∧
    (s.FontWillAnswer → (s.plat.present.now = true → s.DeviceWillAnswer) →
      ∀ k t, Executes (.static o) k s t → t.Ready → (s.rstOf t).StaticShown o t)

/-- R157, R158: `Shift` moves every cell one place in the direction of its orientation; `Insert` writes glyph chunk `col` (or
the background) into the eight cells of the trailing edge, in the order of the table, and no other cell; column 5 of a glyph is
all background. -/
def Obligations.ShiftAndInsertMoveTheBuffer : Prop :=
  (∀ (pb : Vector Half 64) (px py : Nat), px < 8 → py < 8 →
    (px ≤ 6 → cellAt 0 (shiftCells .deg0 pb) (py * 8 + px) = cellAt 0 pb (py * 8 + px + 1)) ∧
    (py ≤ 6 → cellAt 0 (shiftCells .deg90 pb) (py * 8 + px) = cellAt 0 pb ((py + 1) * 8 + px)) ∧
    (1 ≤ px → cellAt 0 (shiftCells .deg180 pb) (py * 8 + px) = cellAt 0 pb (py * 8 + px - 1)) ∧
    (1 ≤ py → cellAt 0 (shiftCells .deg270 pb) (py * 8 + px) = cellAt 0 pb ((py - 1) * 8 + px))) ∧
  ∀ (pb : Vector Half 64) (gl : Vector Bool 64) (fg bg : Half) (blank : Bool) (col px py : Nat), px < 8 → py < 8 →
    let paint := fun g => if blank then bg else if cellAt false gl g then fg else bg
    let cell := fun o => cellAt 0 (insertCells o col blank fg bg gl pb) (py * 8 + px)
    cell .deg0 = (if px = 7 then paint (col * 8 + (7 - py)) else cellAt 0 pb (py * 8 + px)) ∧
    cell .deg90 = (if py = 7 then paint (col * 8 + px) else cellAt 0 pb (py * 8 + px)) ∧
    cell .deg180 = (if px = 0 then paint (col * 8 + py) else cellAt 0 pb (py * 8 + px)) ∧
    cell .deg270 = (if py = 0 then paint (col * 8 + (7 - px)) else cellAt 0 pb (py * 8 + px)) ∧
    ((∀ g, 40 ≤ g → cellAt false gl g = false) → col = 5 → paint (col * 8 + px) = bg ∧ paint (col * 8 + py) = bg)

/-- R170: for a glyph whose cells 40 to 63 are background, the buffer after step 8 of the scroll of that one character equals
the statically painted one at 0, 90 and 180 degrees; at 270 degrees with the literal rule it does not, for some glyph and
colours. -/
def Obligations.ScrollStepEightIsTheStaticLetter : Prop :=
  (∀ (rule : G270Rule) (o : Orient) (fg bg : Half) (gl : Vector Bool 64), o ≠ .deg270 →
    (∀ g, 40 ≤ g → cellAt false gl g = false) →
    (framesFrom o fg bg (scrollSteps [some gl, none]) (fillCells bg))[7]? = some (paintCells rule fg bg gl o)) ∧
  ∃ (fg bg : Half) (gl : Vector Bool 64), (∀ g, 40 ≤ g → cellAt false gl g = false) ∧
    (framesFrom .deg270 fg bg (scrollSteps [some gl, none]) (fillCells bg))[7]? ≠
      some (paintCells .literal fg bg gl .deg270)

/-- R156, R163, R168: `SCROLL` (format O, `op` 0x2B), when the platform answers, `mtime` advances and `cancel` stays 0, ends in
`Done` with every cell of the buffer equal to `BG`, `SCHR = n + 1`, `SCOL = 5`, the glyph of the last character in `GL`
(unchanged for an empty message), the device released; `NODEV` is what the last of its `1 + 6*(n + 2)` flushes wrote, 1 if it
found no device and 0 otherwise (R44); the other registers and flags are as before. It holds with and without a device (R139):
with one throughout, the device shows the buffer at the end; with none, its bytes are as before; both but for bytes that others
write (R58, R233). -/
def Obligations.ScrollRunsToDone : Prop :=
  (∀ w, opField w = 0x2B → decode w = .ok (.scroll (.ofCode (oField w)))) ∧
  ∀ (o : Orient) (s : State), s.Ready → s.FontAnswers → s.DeviceAnswers → s.Ticking → s.NotCancelled →
    ∃ t, exec (.scroll o) s = .next t ∧ t.Ready ∧
      t.status = { s.status with astate := .done, nodev := !s.plat.present.nth (6 * (s.msglen.toNat + 2)) } ∧
      (∀ i, i < 64 → t.pbAt i = s.bg) ∧ t.schr.toNat = s.msglen.toNat + 1 ∧ t.scol.toNat = 5 ∧
      (s.msglen.toNat = 0 → t.gl = s.gl) ∧ (∀ k, s.msglen.toNat = k + 1 → t.HoldsGlyph (s.msgAt k)) ∧
      (s.plat.present.All (· = true) → s.ShownIn t) ∧
      (s.plat.present.All (· = false) → ∀ a, s.Untouched a → t.devAt a = s.devAt a) ∧
      (s.held = false → t.held = false) ∧ t.res = s.res ∧ t.fg = s.fg ∧ t.bg = s.bg ∧ t.msglen = s.msglen ∧
      t.msg = s.msg ∧ t.cfg = s.cfg ∧ t.plat.commands = s.plat.commands

/-- R156 to R161, R165: the frames a `SCROLL` shows are, in order, the all-`BG` frame and one frame a step, each made from the
one before by `Shift` and `Insert`; it makes that many writes, one pace a step, and five font reads a character. -/
def Obligations.ScrollShowsTheFrames : Prop :=
  ∀ (o : Orient) (s : State), s.Ready → s.FontAnswers → s.DeviceAnswers → s.Ticking → s.NotCancelled →
    s.plat.present.All (· = true) →
    ∃ t new, exec (.scroll o) s = .next t ∧ t.trace = s.trace ++ new ∧
      shownFrames new = (s.scrollFrames o).map (fun pb => pbBytes pb 0 128) ∧
      new.countP Event.isWrite = 1 + 6 * (s.msglen.toNat + 2) ∧ new.count .pace = 6 * (s.msglen.toNat + 2) ∧
      new.countP Event.isFontRead = 5 * s.msglen.toNat

/-- R162, R163, R164, R201: the between-frames check. A `SCROLL` that finds `cancel` 1 at the check of its step `m`, and 0 at
each one before, ends in `Idle` with `CANCELLED` set: the buffer is the frame of that step, `SCHR` and `SCOL` are its own, `GL`
is the glyph last loaded, `m + 1` steps were paced, and with a device the initial frame and those of the steps were shown, with
none nothing was written. For `m = 0`, which is `cancel` held at 1, these are the initial frame and exactly one step; the last
step is checked like any other. If no check of the `6*(n + 2)` steps finds 1, the command ends in `Done`, with no sticky flag
set, and has sampled `cancel` just that often. `NODEV` is what the last flush wrote, that of the last step (R44). -/
def Obligations.CancelStopsAfterOneStep : Prop :=
  ∀ (o : Orient) (s : State), s.Ready → s.FontAnswers → s.DeviceAnswers → s.Ticking →
    (∀ m, m < 6 * (s.msglen.toNat + 2) → (∀ j, j < m → s.plat.cancel.nth j = false) → s.plat.cancel.nth m = true →
      ∃ t new, exec (.scroll o) s = .next t ∧ t.Ready ∧
        t.status = { s.status with astate := .idle, cancelled := true, nodev := !s.plat.present.nth (m + 1) } ∧
        (s.scrollFrames o)[m + 1]? = some t.pb ∧ t.schr.toNat = m / 6 ∧ t.scol.toNat = m % 6 ∧
        (min (m / 6 + 1) s.msglen.toNat = 0 → t.gl = s.gl) ∧
        (∀ k, min (m / 6 + 1) s.msglen.toNat = k + 1 → t.HoldsGlyph (s.msgAt k)) ∧
        (s.held = false → t.held = false) ∧ t.trace = s.trace ++ new ∧ new.count .pace = m + 1 ∧
        new.countP Event.isFontRead = 5 * min (m / 6 + 1) s.msglen.toNat ∧
        (s.plat.present.All (· = true) → s.ShownIn t ∧ new.countP Event.isWrite = m + 2 ∧
          shownFrames new = ((s.scrollFrames o).take (m + 2)).map (fun pb => pbBytes pb 0 128)) ∧
        (s.plat.present.All (· = false) → new.countP Event.isWrite = 0 ∧ ∀ a, s.Untouched a → t.devAt a = s.devAt a)) ∧
    ((∀ j, j < 6 * (s.msglen.toNat + 2) → s.plat.cancel.nth j = false) →
      ∃ t, exec (.scroll o) s = .next t ∧ t.Ready ∧
        t.status = { s.status with astate := .done, nodev := !s.plat.present.nth (6 * (s.msglen.toNat + 2)) } ∧
        t.plat.cancel = { s.plat.cancel with next := s.plat.cancel.next.drop (6 * (s.msglen.toNat + 2)) })

/-- R164: a `SCROLL` whose first device request fails has filled the buffer with `BG`, read no glyph and reset its cursor;
`DEVERR` is set and the animator is `Idle`. -/
def Obligations.ScrollFailsAtTheFirstFrame : Prop :=
  ∀ (o : Orient) (s : State), s.Ready → s.NoEdge → s.plat.present.now = true → s.plat.acquire.now = .failed →
    ∃ t, exec (.scroll o) s = .next t ∧ t.Ready ∧
      t.status = { s.status with astate := .idle, deverr := true, nodev := false } ∧ (∀ i, i < 64 → t.pbAt i = s.bg) ∧
      t.schr = 0 ∧ t.scol = 0 ∧ t.gl = s.gl ∧ (∀ a, s.Untouched a → t.devAt a = s.devAt a) ∧
      t.trace = s.trace ++ [.acquire false]

/-- R150, R156, R164, R196, R44: whatever the platform does, a `SCROLL`, in the step that accepts it and in every step in which
it goes on, has ended in `Done` with every sticky flag as before; or in `Idle` with the flag of its abort set and every other as
before; or still waits with `BUSY = 1`, the flags as before. It waits in `Painting` exactly inside the initial flush: that flush
found a device, and the transactions of the command so far are those of the flush up to where it goes on, nothing looked up,
written or paced after it; the buffer is all `BG`, `SCHR`, `SCOL` and `NODEV` are 0. It waits in `Scrolling` exactly from the
return of that flush on: it was skipped, or its frame was written and the device released before anything else. In all of these
`NODEV` is 0 if every flush finds a device, and 1 if none does. -/
def Obligations.ScrollEndsDoneOrAborted : Prop :=
  ∀ (o : Orient) (k : Nat) (s t : State), Executes (.scroll o) k s t →
    (s.plat.present.All (· = true) → t.status.nodev = false) ∧ (s.plat.present.All (· = false) → t.status.nodev = true) ∧
    ((t.Ready ∧ t.status.astate = .done ∧ ∀ e, t.status.flag e = s.status.flag e) ∨
      (t.Ready ∧ t.status.astate = .idle ∧ ∃ e, (e = .fontErr ∨ e = .devErr ∨ e = .cancelled) ∧
        t.status.flag e = true ∧ ∀ e', e' ≠ e → t.status.flag e' = s.status.flag e') ∨
      (t.status.busy = true ∧ t.cmd = some (.scroll o) ∧ (∀ e, t.status.flag e = s.status.flag e) ∧
        ∃ new, t.trace = s.trace ++ new ∧
          ((s.InitialFlush t new ∧ t.status.astate = .painting ∧ (∀ i, i < 64 → t.pbAt i = s.bg) ∧
              t.schr = 0 ∧ t.scol = 0 ∧ t.status.nodev = false) ∨
            (¬ s.InitialFlush t new ∧ t.status.astate = .scrolling ∧
              (s.plat.present.now = false ∨
                [.acquire true, .write 0 (pbBytes (fillCells s.bg) 0 128) true, .release] <+: new)))))

/-! ### System (46_system.md) -/

/-- R180: `CLRST` (format I, `op` 0x30) clears the sticky flags whose mask bit is 1 and changes nothing else. -/
def Obligations.ClrstClearsMaskedFlags : Prop :=
  (∀ w, opField w = 0x30 → decode w = .ok (.clrst (immField w))) ∧
  ∀ (mask : Half) (s : State), s.Ready →
    exec (.clrst mask) s = .next { s with status := { s.status with
      fonterr := s.status.fonterr && !mask.getLsbD 3
      deverr := s.status.deverr && !mask.getLsbD 4
      illcmd := s.status.illcmd && !mask.getLsbD 5
      cancelled := s.status.cancelled && !mask.getLsbD 6 } }
end

