-- ==== Sys2Proof/Laws/Cells.lean ====
section
/-! SUPPORT. The laws of fixed arrays: what a cell of a tabulated or updated array holds, and that the cells decide the
array. -/

namespace Sys2Proof.Machine

variable {α : Type} {n : Nat} {d : α}

theorem cellAt_eq_getElem (v : Vector α n) {i : Nat} (h : i < n) : cellAt d v i = v[i] := by
  simp [cellAt, List.getD, h]

theorem cellAt_of_le (v : Vector α n) {i : Nat} (h : n ≤ i) : cellAt d v i = d := by
  simp [cellAt, List.getD, h]

theorem cellAt_tabulate (f : Nat → α) {i : Nat} (h : i < n) : cellAt d (tabulate n f) i = f i := by
  simp [cellAt, tabulate, List.getD, Vector.toList, h]

/-- The same with the array's end spelled out: the form to rewrite with when the index is not known to lie in the array. -/
theorem cellAt_tabulate_ite (f : Nat → α) (i : Nat) : cellAt d (tabulate n f) i = if i < n then f i else d := by
  split
  · exact cellAt_tabulate f ‹_›
  · exact cellAt_of_le _ (by omega)

theorem cellAt_setCell_self (v : Vector α n) {i : Nat} (x : α) (h : i < n) : cellAt d (setCell v i x) i = x := by
  simp [cellAt_eq_getElem, setCell, h]

theorem cellAt_setCell_ne (v : Vector α n) {i j : Nat} (x : α) (h : j ≠ i) :
    cellAt d (setCell v i x) j = cellAt d v j := by
  by_cases hj : j < n
  · simp [cellAt_eq_getElem, setCell, hj, Ne.symm h]
  · simp [cellAt_of_le _ (Nat.le_of_not_lt hj)]

theorem setCell_of_le (v : Vector α n) {i : Nat} (x : α) (h : n ≤ i) : setCell v i x = v := by
  simp [setCell, Vector.setIfInBounds_eq_of_size_le h]

/-- Two arrays with the same cells are the same array. -/
theorem cells_ext (d : α) {v w : Vector α n} (h : ∀ i, i < n → cellAt d v i = cellAt d w i) : v = w := by
  ext i hi
  have := h i hi
  rwa [cellAt_eq_getElem _ hi, cellAt_eq_getElem _ hi] at this

end Sys2Proof.Machine
end

