-- ==== Sys2Proof/Laws/Script.lean ====
section
/-! SUPPORT. A property of every value an input will take holds of the value now and of the values later. -/

namespace Sys2Proof.Machine

variable {α : Type} {p : α → Prop} {sc : Script α}

theorem Script.All.now (h : sc.All p) : p sc.now := by
  obtain ⟨h1, h2⟩ := h
  unfold Script.now
  split
  · exact h2
  · rename_i a l hl
    exact h1 a (by simp [hl])

theorem Script.All.later (h : sc.All p) : sc.later.All p :=
  ⟨fun a ha => h.1 a (List.mem_of_mem_tail ha), h.2⟩

theorem Script.All.mono {q : α → Prop} (h : sc.All p) (hpq : ∀ a, p a → q a) : sc.All q :=
  ⟨fun a ha => hpq a (h.1 a ha), hpq _ h.2⟩

theorem Script.nth_zero (sc : Script α) : sc.nth 0 = sc.now := by
  obtain ⟨_ | ⟨a, l⟩, r⟩ := sc <;> rfl

theorem Script.nth_later (sc : Script α) (k : Nat) : sc.later.nth k = sc.nth (k + 1) := by
  obtain ⟨_ | ⟨a, l⟩, r⟩ := sc <;> simp [Script.nth, Script.later]

/-- What every answer is, the next one is. -/
theorem Script.All.answer {p : Answer → Prop} {sc : Script Answer} (h : sc.All p) : p sc.answer :=
  Script.All.now (sc := sc.prompt) ⟨fun a ha => h.1 a (List.mem_filter.mp ha).1, h.2⟩

end Sys2Proof.Machine
end

