-- ==== Sys2Proof/Laws/State.lean ====
section
/-! SUPPORT. What each named update of the state makes of each field: one lemma per field per update, true by `rfl`. -/

namespace Sys2Proof.Machine

variable (s : State)

/-! ### `withRes` -/

@[simp] theorem withRes_cfg (v : Half) : (s.withRes v).cfg = s.cfg := rfl
@[simp] theorem withRes_status (v : Half) : (s.withRes v).status = s.status := rfl
@[simp] theorem withRes_res (v : Half) : (s.withRes v).res = v := rfl
@[simp] theorem withRes_fg (v : Half) : (s.withRes v).fg = s.fg := rfl
@[simp] theorem withRes_bg (v : Half) : (s.withRes v).bg = s.bg := rfl
@[simp] theorem withRes_msglen (v : Half) : (s.withRes v).msglen = s.msglen := rfl
@[simp] theorem withRes_schr (v : Half) : (s.withRes v).schr = s.schr := rfl
@[simp] theorem withRes_scol (v : Half) : (s.withRes v).scol = s.scol := rfl
@[simp] theorem withRes_pb (v : Half) : (s.withRes v).pb = s.pb := rfl
@[simp] theorem withRes_gl (v : Half) : (s.withRes v).gl = s.gl := rfl
@[simp] theorem withRes_msg (v : Half) : (s.withRes v).msg = s.msg := rfl
@[simp] theorem withRes_held (v : Half) : (s.withRes v).held = s.held := rfl
@[simp] theorem withRes_t0 (v : Half) : (s.withRes v).t0 = s.t0 := rfl
@[simp] theorem withRes_n (v : Half) : (s.withRes v).n = s.n := rfl
@[simp] theorem withRes_blank (v : Half) : (s.withRes v).blank = s.blank := rfl
@[simp] theorem withRes_cmd (v : Half) : (s.withRes v).cmd = s.cmd := rfl
@[simp] theorem withRes_todo (v : Half) : (s.withRes v).todo = s.todo := rfl
@[simp] theorem withRes_fontIdx (v : Half) : (s.withRes v).fontIdx = s.fontIdx := rfl
@[simp] theorem withRes_glyph (v : Half) : (s.withRes v).glyph = s.glyph := rfl
@[simp] theorem withRes_plat (v : Half) : (s.withRes v).plat = s.plat := rfl
@[simp] theorem withRes_mtime (v : Half) : (s.withRes v).mtime = s.mtime := rfl
@[simp] theorem withRes_dev (v : Half) : (s.withRes v).dev = s.dev := rfl
@[simp] theorem withRes_trace (v : Half) : (s.withRes v).trace = s.trace := rfl
@[simp] theorem withRes_draws (v : Half) : (s.withRes v).draws = s.draws := rfl

/-! ### `withFg` -/

@[simp] theorem withFg_cfg (v : Half) : (s.withFg v).cfg = s.cfg := rfl
@[simp] theorem withFg_status (v : Half) : (s.withFg v).status = s.status := rfl
@[simp] theorem withFg_res (v : Half) : (s.withFg v).res = s.res := rfl
@[simp] theorem withFg_fg (v : Half) : (s.withFg v).fg = v := rfl
@[simp] theorem withFg_bg (v : Half) : (s.withFg v).bg = s.bg := rfl
@[simp] theorem withFg_msglen (v : Half) : (s.withFg v).msglen = s.msglen := rfl
@[simp] theorem withFg_schr (v : Half) : (s.withFg v).schr = s.schr := rfl
@[simp] theorem withFg_scol (v : Half) : (s.withFg v).scol = s.scol := rfl
@[simp] theorem withFg_pb (v : Half) : (s.withFg v).pb = s.pb := rfl
@[simp] theorem withFg_gl (v : Half) : (s.withFg v).gl = s.gl := rfl
@[simp] theorem withFg_msg (v : Half) : (s.withFg v).msg = s.msg := rfl
@[simp] theorem withFg_held (v : Half) : (s.withFg v).held = s.held := rfl
@[simp] theorem withFg_t0 (v : Half) : (s.withFg v).t0 = s.t0 := rfl
@[simp] theorem withFg_n (v : Half) : (s.withFg v).n = s.n := rfl
@[simp] theorem withFg_blank (v : Half) : (s.withFg v).blank = s.blank := rfl
@[simp] theorem withFg_cmd (v : Half) : (s.withFg v).cmd = s.cmd := rfl
@[simp] theorem withFg_todo (v : Half) : (s.withFg v).todo = s.todo := rfl
@[simp] theorem withFg_fontIdx (v : Half) : (s.withFg v).fontIdx = s.fontIdx := rfl
@[simp] theorem withFg_glyph (v : Half) : (s.withFg v).glyph = s.glyph := rfl
@[simp] theorem withFg_plat (v : Half) : (s.withFg v).plat = s.plat := rfl
@[simp] theorem withFg_mtime (v : Half) : (s.withFg v).mtime = s.mtime := rfl
@[simp] theorem withFg_dev (v : Half) : (s.withFg v).dev = s.dev := rfl
@[simp] theorem withFg_trace (v : Half) : (s.withFg v).trace = s.trace := rfl
@[simp] theorem withFg_draws (v : Half) : (s.withFg v).draws = s.draws := rfl

/-! ### `withBg` -/

@[simp] theorem withBg_cfg (v : Half) : (s.withBg v).cfg = s.cfg := rfl
@[simp] theorem withBg_status (v : Half) : (s.withBg v).status = s.status := rfl
@[simp] theorem withBg_res (v : Half) : (s.withBg v).res = s.res := rfl
@[simp] theorem withBg_fg (v : Half) : (s.withBg v).fg = s.fg := rfl
@[simp] theorem withBg_bg (v : Half) : (s.withBg v).bg = v := rfl
@[simp] theorem withBg_msglen (v : Half) : (s.withBg v).msglen = s.msglen := rfl
@[simp] theorem withBg_schr (v : Half) : (s.withBg v).schr = s.schr := rfl
@[simp] theorem withBg_scol (v : Half) : (s.withBg v).scol = s.scol := rfl
@[simp] theorem withBg_pb (v : Half) : (s.withBg v).pb = s.pb := rfl
@[simp] theorem withBg_gl (v : Half) : (s.withBg v).gl = s.gl := rfl
@[simp] theorem withBg_msg (v : Half) : (s.withBg v).msg = s.msg := rfl
@[simp] theorem withBg_held (v : Half) : (s.withBg v).held = s.held := rfl
@[simp] theorem withBg_t0 (v : Half) : (s.withBg v).t0 = s.t0 := rfl
@[simp] theorem withBg_n (v : Half) : (s.withBg v).n = s.n := rfl
@[simp] theorem withBg_blank (v : Half) : (s.withBg v).blank = s.blank := rfl
@[simp] theorem withBg_cmd (v : Half) : (s.withBg v).cmd = s.cmd := rfl
@[simp] theorem withBg_todo (v : Half) : (s.withBg v).todo = s.todo := rfl
@[simp] theorem withBg_fontIdx (v : Half) : (s.withBg v).fontIdx = s.fontIdx := rfl
@[simp] theorem withBg_glyph (v : Half) : (s.withBg v).glyph = s.glyph := rfl
@[simp] theorem withBg_plat (v : Half) : (s.withBg v).plat = s.plat := rfl
@[simp] theorem withBg_mtime (v : Half) : (s.withBg v).mtime = s.mtime := rfl
@[simp] theorem withBg_dev (v : Half) : (s.withBg v).dev = s.dev := rfl
@[simp] theorem withBg_trace (v : Half) : (s.withBg v).trace = s.trace := rfl
@[simp] theorem withBg_draws (v : Half) : (s.withBg v).draws = s.draws := rfl

/-! ### `withPb` -/

@[simp] theorem withPb_cfg (v : Vector Half 64) : (s.withPb v).cfg = s.cfg := rfl
@[simp] theorem withPb_status (v : Vector Half 64) : (s.withPb v).status = s.status := rfl
@[simp] theorem withPb_res (v : Vector Half 64) : (s.withPb v).res = s.res := rfl
@[simp] theorem withPb_fg (v : Vector Half 64) : (s.withPb v).fg = s.fg := rfl
@[simp] theorem withPb_bg (v : Vector Half 64) : (s.withPb v).bg = s.bg := rfl
@[simp] theorem withPb_msglen (v : Vector Half 64) : (s.withPb v).msglen = s.msglen := rfl
@[simp] theorem withPb_schr (v : Vector Half 64) : (s.withPb v).schr = s.schr := rfl
@[simp] theorem withPb_scol (v : Vector Half 64) : (s.withPb v).scol = s.scol := rfl
@[simp] theorem withPb_pb (v : Vector Half 64) : (s.withPb v).pb = v := rfl
@[simp] theorem withPb_gl (v : Vector Half 64) : (s.withPb v).gl = s.gl := rfl
@[simp] theorem withPb_msg (v : Vector Half 64) : (s.withPb v).msg = s.msg := rfl
@[simp] theorem withPb_held (v : Vector Half 64) : (s.withPb v).held = s.held := rfl
@[simp] theorem withPb_t0 (v : Vector Half 64) : (s.withPb v).t0 = s.t0 := rfl
@[simp] theorem withPb_n (v : Vector Half 64) : (s.withPb v).n = s.n := rfl
@[simp] theorem withPb_blank (v : Vector Half 64) : (s.withPb v).blank = s.blank := rfl
@[simp] theorem withPb_cmd (v : Vector Half 64) : (s.withPb v).cmd = s.cmd := rfl
@[simp] theorem withPb_todo (v : Vector Half 64) : (s.withPb v).todo = s.todo := rfl
@[simp] theorem withPb_fontIdx (v : Vector Half 64) : (s.withPb v).fontIdx = s.fontIdx := rfl
@[simp] theorem withPb_glyph (v : Vector Half 64) : (s.withPb v).glyph = s.glyph := rfl
@[simp] theorem withPb_plat (v : Vector Half 64) : (s.withPb v).plat = s.plat := rfl
@[simp] theorem withPb_mtime (v : Vector Half 64) : (s.withPb v).mtime = s.mtime := rfl
@[simp] theorem withPb_dev (v : Vector Half 64) : (s.withPb v).dev = s.dev := rfl
@[simp] theorem withPb_trace (v : Vector Half 64) : (s.withPb v).trace = s.trace := rfl
@[simp] theorem withPb_draws (v : Vector Half 64) : (s.withPb v).draws = s.draws := rfl

/-! ### `withGl` -/

@[simp] theorem withGl_cfg (v : Vector Bool 64) : (s.withGl v).cfg = s.cfg := rfl
@[simp] theorem withGl_status (v : Vector Bool 64) : (s.withGl v).status = s.status := rfl
@[simp] theorem withGl_res (v : Vector Bool 64) : (s.withGl v).res = s.res := rfl
@[simp] theorem withGl_fg (v : Vector Bool 64) : (s.withGl v).fg = s.fg := rfl
@[simp] theorem withGl_bg (v : Vector Bool 64) : (s.withGl v).bg = s.bg := rfl
@[simp] theorem withGl_msglen (v : Vector Bool 64) : (s.withGl v).msglen = s.msglen := rfl
@[simp] theorem withGl_schr (v : Vector Bool 64) : (s.withGl v).schr = s.schr := rfl
@[simp] theorem withGl_scol (v : Vector Bool 64) : (s.withGl v).scol = s.scol := rfl
@[simp] theorem withGl_pb (v : Vector Bool 64) : (s.withGl v).pb = s.pb := rfl
@[simp] theorem withGl_gl (v : Vector Bool 64) : (s.withGl v).gl = v := rfl
@[simp] theorem withGl_msg (v : Vector Bool 64) : (s.withGl v).msg = s.msg := rfl
@[simp] theorem withGl_held (v : Vector Bool 64) : (s.withGl v).held = s.held := rfl
@[simp] theorem withGl_t0 (v : Vector Bool 64) : (s.withGl v).t0 = s.t0 := rfl
@[simp] theorem withGl_n (v : Vector Bool 64) : (s.withGl v).n = s.n := rfl
@[simp] theorem withGl_blank (v : Vector Bool 64) : (s.withGl v).blank = s.blank := rfl
@[simp] theorem withGl_cmd (v : Vector Bool 64) : (s.withGl v).cmd = s.cmd := rfl
@[simp] theorem withGl_todo (v : Vector Bool 64) : (s.withGl v).todo = s.todo := rfl
@[simp] theorem withGl_fontIdx (v : Vector Bool 64) : (s.withGl v).fontIdx = s.fontIdx := rfl
@[simp] theorem withGl_glyph (v : Vector Bool 64) : (s.withGl v).glyph = s.glyph := rfl
@[simp] theorem withGl_plat (v : Vector Bool 64) : (s.withGl v).plat = s.plat := rfl
@[simp] theorem withGl_mtime (v : Vector Bool 64) : (s.withGl v).mtime = s.mtime := rfl
@[simp] theorem withGl_dev (v : Vector Bool 64) : (s.withGl v).dev = s.dev := rfl
@[simp] theorem withGl_trace (v : Vector Bool 64) : (s.withGl v).trace = s.trace := rfl
@[simp] theorem withGl_draws (v : Vector Bool 64) : (s.withGl v).draws = s.draws := rfl

/-! ### `withStatus` -/

@[simp] theorem withStatus_cfg (v : Status) : (s.withStatus v).cfg = s.cfg := rfl
@[simp] theorem withStatus_status (v : Status) : (s.withStatus v).status = v := rfl
@[simp] theorem withStatus_res (v : Status) : (s.withStatus v).res = s.res := rfl
@[simp] theorem withStatus_fg (v : Status) : (s.withStatus v).fg = s.fg := rfl
@[simp] theorem withStatus_bg (v : Status) : (s.withStatus v).bg = s.bg := rfl
@[simp] theorem withStatus_msglen (v : Status) : (s.withStatus v).msglen = s.msglen := rfl
@[simp] theorem withStatus_schr (v : Status) : (s.withStatus v).schr = s.schr := rfl
@[simp] theorem withStatus_scol (v : Status) : (s.withStatus v).scol = s.scol := rfl
@[simp] theorem withStatus_pb (v : Status) : (s.withStatus v).pb = s.pb := rfl
@[simp] theorem withStatus_gl (v : Status) : (s.withStatus v).gl = s.gl := rfl
@[simp] theorem withStatus_msg (v : Status) : (s.withStatus v).msg = s.msg := rfl
@[simp] theorem withStatus_held (v : Status) : (s.withStatus v).held = s.held := rfl
@[simp] theorem withStatus_t0 (v : Status) : (s.withStatus v).t0 = s.t0 := rfl
@[simp] theorem withStatus_n (v : Status) : (s.withStatus v).n = s.n := rfl
@[simp] theorem withStatus_blank (v : Status) : (s.withStatus v).blank = s.blank := rfl
@[simp] theorem withStatus_cmd (v : Status) : (s.withStatus v).cmd = s.cmd := rfl
@[simp] theorem withStatus_todo (v : Status) : (s.withStatus v).todo = s.todo := rfl
@[simp] theorem withStatus_fontIdx (v : Status) : (s.withStatus v).fontIdx = s.fontIdx := rfl
@[simp] theorem withStatus_glyph (v : Status) : (s.withStatus v).glyph = s.glyph := rfl
@[simp] theorem withStatus_plat (v : Status) : (s.withStatus v).plat = s.plat := rfl
@[simp] theorem withStatus_mtime (v : Status) : (s.withStatus v).mtime = s.mtime := rfl
@[simp] theorem withStatus_dev (v : Status) : (s.withStatus v).dev = s.dev := rfl
@[simp] theorem withStatus_trace (v : Status) : (s.withStatus v).trace = s.trace := rfl
@[simp] theorem withStatus_draws (v : Status) : (s.withStatus v).draws = s.draws := rfl

/-! ### `withAState` -/

@[simp] theorem withAState_cfg (a : AState) : (s.withAState a).cfg = s.cfg := rfl
@[simp] theorem withAState_status (a : AState) : (s.withAState a).status = { s.status with astate := a } := rfl
@[simp] theorem withAState_res (a : AState) : (s.withAState a).res = s.res := rfl
@[simp] theorem withAState_fg (a : AState) : (s.withAState a).fg = s.fg := rfl
@[simp] theorem withAState_bg (a : AState) : (s.withAState a).bg = s.bg := rfl
@[simp] theorem withAState_msglen (a : AState) : (s.withAState a).msglen = s.msglen := rfl
@[simp] theorem withAState_schr (a : AState) : (s.withAState a).schr = s.schr := rfl
@[simp] theorem withAState_scol (a : AState) : (s.withAState a).scol = s.scol := rfl
@[simp] theorem withAState_pb (a : AState) : (s.withAState a).pb = s.pb := rfl
@[simp] theorem withAState_gl (a : AState) : (s.withAState a).gl = s.gl := rfl
@[simp] theorem withAState_msg (a : AState) : (s.withAState a).msg = s.msg := rfl
@[simp] theorem withAState_held (a : AState) : (s.withAState a).held = s.held := rfl
@[simp] theorem withAState_t0 (a : AState) : (s.withAState a).t0 = s.t0 := rfl
@[simp] theorem withAState_n (a : AState) : (s.withAState a).n = s.n := rfl
@[simp] theorem withAState_blank (a : AState) : (s.withAState a).blank = s.blank := rfl
@[simp] theorem withAState_cmd (a : AState) : (s.withAState a).cmd = s.cmd := rfl
@[simp] theorem withAState_todo (a : AState) : (s.withAState a).todo = s.todo := rfl
@[simp] theorem withAState_fontIdx (a : AState) : (s.withAState a).fontIdx = s.fontIdx := rfl
@[simp] theorem withAState_glyph (a : AState) : (s.withAState a).glyph = s.glyph := rfl
@[simp] theorem withAState_plat (a : AState) : (s.withAState a).plat = s.plat := rfl
@[simp] theorem withAState_mtime (a : AState) : (s.withAState a).mtime = s.mtime := rfl
@[simp] theorem withAState_dev (a : AState) : (s.withAState a).dev = s.dev := rfl
@[simp] theorem withAState_trace (a : AState) : (s.withAState a).trace = s.trace := rfl
@[simp] theorem withAState_draws (a : AState) : (s.withAState a).draws = s.draws := rfl

/-! ### `clearMsg` -/

@[simp] theorem clearMsg_cfg : (s.clearMsg).cfg = s.cfg := rfl
@[simp] theorem clearMsg_status : (s.clearMsg).status = s.status := rfl
@[simp] theorem clearMsg_res : (s.clearMsg).res = s.res := rfl
@[simp] theorem clearMsg_fg : (s.clearMsg).fg = s.fg := rfl
@[simp] theorem clearMsg_bg : (s.clearMsg).bg = s.bg := rfl
@[simp] theorem clearMsg_msglen : (s.clearMsg).msglen = 0 := rfl
@[simp] theorem clearMsg_schr : (s.clearMsg).schr = s.schr := rfl
@[simp] theorem clearMsg_scol : (s.clearMsg).scol = s.scol := rfl
@[simp] theorem clearMsg_pb : (s.clearMsg).pb = s.pb := rfl
@[simp] theorem clearMsg_gl : (s.clearMsg).gl = s.gl := rfl
@[simp] theorem clearMsg_msg : (s.clearMsg).msg = s.msg := rfl
@[simp] theorem clearMsg_held : (s.clearMsg).held = s.held := rfl
@[simp] theorem clearMsg_t0 : (s.clearMsg).t0 = s.t0 := rfl
@[simp] theorem clearMsg_n : (s.clearMsg).n = s.n := rfl
@[simp] theorem clearMsg_blank : (s.clearMsg).blank = s.blank := rfl
@[simp] theorem clearMsg_cmd : (s.clearMsg).cmd = s.cmd := rfl
@[simp] theorem clearMsg_todo : (s.clearMsg).todo = s.todo := rfl
@[simp] theorem clearMsg_fontIdx : (s.clearMsg).fontIdx = s.fontIdx := rfl
@[simp] theorem clearMsg_glyph : (s.clearMsg).glyph = s.glyph := rfl
@[simp] theorem clearMsg_plat : (s.clearMsg).plat = s.plat := rfl
@[simp] theorem clearMsg_mtime : (s.clearMsg).mtime = s.mtime := rfl
@[simp] theorem clearMsg_dev : (s.clearMsg).dev = s.dev := rfl
@[simp] theorem clearMsg_trace : (s.clearMsg).trace = s.trace := rfl
@[simp] theorem clearMsg_draws : (s.clearMsg).draws = s.draws := rfl

/-! ### `appendMsg` -/

@[simp] theorem appendMsg_cfg (ch : Byte) : (s.appendMsg ch).cfg = s.cfg := rfl
@[simp] theorem appendMsg_status (ch : Byte) : (s.appendMsg ch).status = s.status := rfl
@[simp] theorem appendMsg_res (ch : Byte) : (s.appendMsg ch).res = s.res := rfl
@[simp] theorem appendMsg_fg (ch : Byte) : (s.appendMsg ch).fg = s.fg := rfl
@[simp] theorem appendMsg_bg (ch : Byte) : (s.appendMsg ch).bg = s.bg := rfl
@[simp] theorem appendMsg_msglen (ch : Byte) : (s.appendMsg ch).msglen = s.msglen + 1 := rfl
@[simp] theorem appendMsg_schr (ch : Byte) : (s.appendMsg ch).schr = s.schr := rfl
@[simp] theorem appendMsg_scol (ch : Byte) : (s.appendMsg ch).scol = s.scol := rfl
@[simp] theorem appendMsg_pb (ch : Byte) : (s.appendMsg ch).pb = s.pb := rfl
@[simp] theorem appendMsg_gl (ch : Byte) : (s.appendMsg ch).gl = s.gl := rfl
@[simp] theorem appendMsg_msg (ch : Byte) : (s.appendMsg ch).msg = setCell s.msg s.msglen.toNat ch := rfl
@[simp] theorem appendMsg_held (ch : Byte) : (s.appendMsg ch).held = s.held := rfl
@[simp] theorem appendMsg_t0 (ch : Byte) : (s.appendMsg ch).t0 = s.t0 := rfl
@[simp] theorem appendMsg_n (ch : Byte) : (s.appendMsg ch).n = s.n := rfl
@[simp] theorem appendMsg_blank (ch : Byte) : (s.appendMsg ch).blank = s.blank := rfl
@[simp] theorem appendMsg_cmd (ch : Byte) : (s.appendMsg ch).cmd = s.cmd := rfl
@[simp] theorem appendMsg_todo (ch : Byte) : (s.appendMsg ch).todo = s.todo := rfl
@[simp] theorem appendMsg_fontIdx (ch : Byte) : (s.appendMsg ch).fontIdx = s.fontIdx := rfl
@[simp] theorem appendMsg_glyph (ch : Byte) : (s.appendMsg ch).glyph = s.glyph := rfl
@[simp] theorem appendMsg_plat (ch : Byte) : (s.appendMsg ch).plat = s.plat := rfl
@[simp] theorem appendMsg_mtime (ch : Byte) : (s.appendMsg ch).mtime = s.mtime := rfl
@[simp] theorem appendMsg_dev (ch : Byte) : (s.appendMsg ch).dev = s.dev := rfl
@[simp] theorem appendMsg_trace (ch : Byte) : (s.appendMsg ch).trace = s.trace := rfl
@[simp] theorem appendMsg_draws (ch : Byte) : (s.appendMsg ch).draws = s.draws := rfl

/-! ### `log` -/

@[simp] theorem log_cfg (e : Event) : (s.log e).cfg = s.cfg := rfl
@[simp] theorem log_status (e : Event) : (s.log e).status = s.status := rfl
@[simp] theorem log_res (e : Event) : (s.log e).res = s.res := rfl
@[simp] theorem log_fg (e : Event) : (s.log e).fg = s.fg := rfl
@[simp] theorem log_bg (e : Event) : (s.log e).bg = s.bg := rfl
@[simp] theorem log_msglen (e : Event) : (s.log e).msglen = s.msglen := rfl
@[simp] theorem log_schr (e : Event) : (s.log e).schr = s.schr := rfl
@[simp] theorem log_scol (e : Event) : (s.log e).scol = s.scol := rfl
@[simp] theorem log_pb (e : Event) : (s.log e).pb = s.pb := rfl
@[simp] theorem log_gl (e : Event) : (s.log e).gl = s.gl := rfl
@[simp] theorem log_msg (e : Event) : (s.log e).msg = s.msg := rfl
@[simp] theorem log_held (e : Event) : (s.log e).held = s.held := rfl
@[simp] theorem log_t0 (e : Event) : (s.log e).t0 = s.t0 := rfl
@[simp] theorem log_n (e : Event) : (s.log e).n = s.n := rfl
@[simp] theorem log_blank (e : Event) : (s.log e).blank = s.blank := rfl
@[simp] theorem log_cmd (e : Event) : (s.log e).cmd = s.cmd := rfl
@[simp] theorem log_todo (e : Event) : (s.log e).todo = s.todo := rfl
@[simp] theorem log_fontIdx (e : Event) : (s.log e).fontIdx = s.fontIdx := rfl
@[simp] theorem log_glyph (e : Event) : (s.log e).glyph = s.glyph := rfl
@[simp] theorem log_plat (e : Event) : (s.log e).plat = s.plat := rfl
@[simp] theorem log_mtime (e : Event) : (s.log e).mtime = s.mtime := rfl
@[simp] theorem log_dev (e : Event) : (s.log e).dev = s.dev := rfl
@[simp] theorem log_trace (e : Event) : (s.log e).trace = s.trace ++ [e] := rfl
@[simp] theorem log_draws (e : Event) : (s.log e).draws = s.draws := rfl

/-! ### `accept` -/

@[simp] theorem accept_cfg (i : Instr) : (s.accept i).cfg = s.cfg := rfl
@[simp] theorem accept_status (i : Instr) : (s.accept i).status = { s.status with busy := true } := rfl
@[simp] theorem accept_res (i : Instr) : (s.accept i).res = s.res := rfl
@[simp] theorem accept_fg (i : Instr) : (s.accept i).fg = s.fg := rfl
@[simp] theorem accept_bg (i : Instr) : (s.accept i).bg = s.bg := rfl
@[simp] theorem accept_msglen (i : Instr) : (s.accept i).msglen = s.msglen := rfl
@[simp] theorem accept_schr (i : Instr) : (s.accept i).schr = s.schr := rfl
@[simp] theorem accept_scol (i : Instr) : (s.accept i).scol = s.scol := rfl
@[simp] theorem accept_pb (i : Instr) : (s.accept i).pb = s.pb := rfl
@[simp] theorem accept_gl (i : Instr) : (s.accept i).gl = s.gl := rfl
@[simp] theorem accept_msg (i : Instr) : (s.accept i).msg = s.msg := rfl
@[simp] theorem accept_held (i : Instr) : (s.accept i).held = s.held := rfl
@[simp] theorem accept_t0 (i : Instr) : (s.accept i).t0 = s.t0 := rfl
@[simp] theorem accept_n (i : Instr) : (s.accept i).n = s.n := rfl
@[simp] theorem accept_blank (i : Instr) : (s.accept i).blank = s.blank := rfl
@[simp] theorem accept_cmd (i : Instr) : (s.accept i).cmd = some i := rfl
@[simp] theorem accept_todo (i : Instr) : (s.accept i).todo = s.todo := rfl
@[simp] theorem accept_fontIdx (i : Instr) : (s.accept i).fontIdx = s.fontIdx := rfl
@[simp] theorem accept_glyph (i : Instr) : (s.accept i).glyph = s.glyph := rfl
@[simp] theorem accept_plat (i : Instr) : (s.accept i).plat = s.plat := rfl
@[simp] theorem accept_mtime (i : Instr) : (s.accept i).mtime = s.mtime := rfl
@[simp] theorem accept_dev (i : Instr) : (s.accept i).dev = s.dev := rfl
@[simp] theorem accept_trace (i : Instr) : (s.accept i).trace = s.trace := rfl
@[simp] theorem accept_draws (i : Instr) : (s.accept i).draws = s.draws := rfl

/-! ### `finish` -/

@[simp] theorem finish_cfg : (s.finish).cfg = s.cfg := rfl
@[simp] theorem finish_status : (s.finish).status = { s.status with busy := false } := rfl
@[simp] theorem finish_res : (s.finish).res = s.res := rfl
@[simp] theorem finish_fg : (s.finish).fg = s.fg := rfl
@[simp] theorem finish_bg : (s.finish).bg = s.bg := rfl
@[simp] theorem finish_msglen : (s.finish).msglen = s.msglen := rfl
@[simp] theorem finish_schr : (s.finish).schr = s.schr := rfl
@[simp] theorem finish_scol : (s.finish).scol = s.scol := rfl
@[simp] theorem finish_pb : (s.finish).pb = s.pb := rfl
@[simp] theorem finish_gl : (s.finish).gl = s.gl := rfl
@[simp] theorem finish_msg : (s.finish).msg = s.msg := rfl
@[simp] theorem finish_held : (s.finish).held = s.held := rfl
@[simp] theorem finish_t0 : (s.finish).t0 = s.t0 := rfl
@[simp] theorem finish_n : (s.finish).n = s.n := rfl
@[simp] theorem finish_blank : (s.finish).blank = s.blank := rfl
@[simp] theorem finish_cmd : (s.finish).cmd = none := rfl
@[simp] theorem finish_todo : (s.finish).todo = [] := rfl
@[simp] theorem finish_fontIdx : (s.finish).fontIdx = s.fontIdx := rfl
@[simp] theorem finish_glyph : (s.finish).glyph = s.glyph := rfl
@[simp] theorem finish_plat : (s.finish).plat = s.plat := rfl
@[simp] theorem finish_mtime : (s.finish).mtime = s.mtime := rfl
@[simp] theorem finish_dev : (s.finish).dev = s.dev := rfl
@[simp] theorem finish_trace : (s.finish).trace = s.trace := rfl
@[simp] theorem finish_draws : (s.finish).draws = s.draws := rfl

/-! ### `beginLookup` -/

@[simp] theorem beginLookup_cfg (ch : Byte) : (s.beginLookup ch).cfg = s.cfg := rfl
@[simp] theorem beginLookup_status (ch : Byte) : (s.beginLookup ch).status = s.status := rfl
@[simp] theorem beginLookup_res (ch : Byte) : (s.beginLookup ch).res = s.res := rfl
@[simp] theorem beginLookup_fg (ch : Byte) : (s.beginLookup ch).fg = s.fg := rfl
@[simp] theorem beginLookup_bg (ch : Byte) : (s.beginLookup ch).bg = s.bg := rfl
@[simp] theorem beginLookup_msglen (ch : Byte) : (s.beginLookup ch).msglen = s.msglen := rfl
@[simp] theorem beginLookup_schr (ch : Byte) : (s.beginLookup ch).schr = s.schr := rfl
@[simp] theorem beginLookup_scol (ch : Byte) : (s.beginLookup ch).scol = s.scol := rfl
@[simp] theorem beginLookup_pb (ch : Byte) : (s.beginLookup ch).pb = s.pb := rfl
@[simp] theorem beginLookup_gl (ch : Byte) : (s.beginLookup ch).gl = s.gl := rfl
@[simp] theorem beginLookup_msg (ch : Byte) : (s.beginLookup ch).msg = s.msg := rfl
@[simp] theorem beginLookup_held (ch : Byte) : (s.beginLookup ch).held = s.held := rfl
@[simp] theorem beginLookup_t0 (ch : Byte) : (s.beginLookup ch).t0 = s.t0 := rfl
@[simp] theorem beginLookup_n (ch : Byte) : (s.beginLookup ch).n = s.n := rfl
@[simp] theorem beginLookup_blank (ch : Byte) : (s.beginLookup ch).blank = s.blank := rfl
@[simp] theorem beginLookup_cmd (ch : Byte) : (s.beginLookup ch).cmd = s.cmd := rfl
@[simp] theorem beginLookup_todo (ch : Byte) : (s.beginLookup ch).todo = s.todo := rfl
@[simp] theorem beginLookup_fontIdx (ch : Byte) : (s.beginLookup ch).fontIdx = glyphIndex s.cfg.alphabet ch := rfl
@[simp] theorem beginLookup_glyph (ch : Byte) : (s.beginLookup ch).glyph = tabulate 64 fun _ => false := rfl
@[simp] theorem beginLookup_plat (ch : Byte) : (s.beginLookup ch).plat = s.plat := rfl
@[simp] theorem beginLookup_mtime (ch : Byte) : (s.beginLookup ch).mtime = s.mtime := rfl
@[simp] theorem beginLookup_dev (ch : Byte) : (s.beginLookup ch).dev = s.dev := rfl
@[simp] theorem beginLookup_trace (ch : Byte) : (s.beginLookup ch).trace = s.trace := rfl
@[simp] theorem beginLookup_draws (ch : Byte) : (s.beginLookup ch).draws = s.draws := rfl

/-! ### `readChunk` -/

@[simp] theorem readChunk_cfg (row : Nat) : (s.readChunk row).cfg = s.cfg := rfl
@[simp] theorem readChunk_status (row : Nat) : (s.readChunk row).status = s.status := rfl
@[simp] theorem readChunk_res (row : Nat) : (s.readChunk row).res = s.res := rfl
@[simp] theorem readChunk_fg (row : Nat) : (s.readChunk row).fg = s.fg := rfl
@[simp] theorem readChunk_bg (row : Nat) : (s.readChunk row).bg = s.bg := rfl
@[simp] theorem readChunk_msglen (row : Nat) : (s.readChunk row).msglen = s.msglen := rfl
@[simp] theorem readChunk_schr (row : Nat) : (s.readChunk row).schr = s.schr := rfl
@[simp] theorem readChunk_scol (row : Nat) : (s.readChunk row).scol = s.scol := rfl
@[simp] theorem readChunk_pb (row : Nat) : (s.readChunk row).pb = s.pb := rfl
@[simp] theorem readChunk_gl (row : Nat) : (s.readChunk row).gl = s.gl := rfl
@[simp] theorem readChunk_msg (row : Nat) : (s.readChunk row).msg = s.msg := rfl
@[simp] theorem readChunk_held (row : Nat) : (s.readChunk row).held = s.held := rfl
@[simp] theorem readChunk_t0 (row : Nat) : (s.readChunk row).t0 = s.t0 := rfl
@[simp] theorem readChunk_n (row : Nat) : (s.readChunk row).n = s.n := rfl
@[simp] theorem readChunk_blank (row : Nat) : (s.readChunk row).blank = s.blank := rfl
@[simp] theorem readChunk_cmd (row : Nat) : (s.readChunk row).cmd = s.cmd := rfl
@[simp] theorem readChunk_todo (row : Nat) : (s.readChunk row).todo = s.todo := rfl
@[simp] theorem readChunk_fontIdx (row : Nat) : (s.readChunk row).fontIdx = s.fontIdx := rfl
@[simp] theorem readChunk_glyph (row : Nat) :
    (s.readChunk row).glyph =
      glyphWithChunk s.cfg.litByte s.glyph row (fontRead s.cfg.font (chunkAddr s.fontIdx row) chunkBytes) := rfl
@[simp] theorem readChunk_plat (row : Nat) : (s.readChunk row).plat = { s.plat with font := s.plat.font.later } := rfl
@[simp] theorem readChunk_mtime (row : Nat) : (s.readChunk row).mtime = s.mtime := rfl
@[simp] theorem readChunk_dev (row : Nat) : (s.readChunk row).dev = s.dev := rfl
@[simp] theorem readChunk_trace (row : Nat) :
    (s.readChunk row).trace = s.trace ++ [.fontRead (chunkAddr s.fontIdx row) true] := rfl
@[simp] theorem readChunk_draws (row : Nat) : (s.readChunk row).draws = s.draws := rfl

/-! ### `writeDevice` -/

@[simp] theorem writeDevice_cfg (off : Nat) (bs : List Byte) : (s.writeDevice off bs).cfg = s.cfg := rfl
@[simp] theorem writeDevice_status (off : Nat) (bs : List Byte) : (s.writeDevice off bs).status = s.status := rfl
@[simp] theorem writeDevice_res (off : Nat) (bs : List Byte) : (s.writeDevice off bs).res = s.res := rfl
@[simp] theorem writeDevice_fg (off : Nat) (bs : List Byte) : (s.writeDevice off bs).fg = s.fg := rfl
@[simp] theorem writeDevice_bg (off : Nat) (bs : List Byte) : (s.writeDevice off bs).bg = s.bg := rfl
@[simp] theorem writeDevice_msglen (off : Nat) (bs : List Byte) : (s.writeDevice off bs).msglen = s.msglen := rfl
@[simp] theorem writeDevice_schr (off : Nat) (bs : List Byte) : (s.writeDevice off bs).schr = s.schr := rfl
@[simp] theorem writeDevice_scol (off : Nat) (bs : List Byte) : (s.writeDevice off bs).scol = s.scol := rfl
@[simp] theorem writeDevice_pb (off : Nat) (bs : List Byte) : (s.writeDevice off bs).pb = s.pb := rfl
@[simp] theorem writeDevice_gl (off : Nat) (bs : List Byte) : (s.writeDevice off bs).gl = s.gl := rfl
@[simp] theorem writeDevice_msg (off : Nat) (bs : List Byte) : (s.writeDevice off bs).msg = s.msg := rfl
@[simp] theorem writeDevice_held (off : Nat) (bs : List Byte) : (s.writeDevice off bs).held = s.held := rfl
@[simp] theorem writeDevice_t0 (off : Nat) (bs : List Byte) : (s.writeDevice off bs).t0 = s.t0 := rfl
@[simp] theorem writeDevice_n (off : Nat) (bs : List Byte) : (s.writeDevice off bs).n = s.n := rfl
@[simp] theorem writeDevice_blank (off : Nat) (bs : List Byte) : (s.writeDevice off bs).blank = s.blank := rfl
@[simp] theorem writeDevice_cmd (off : Nat) (bs : List Byte) : (s.writeDevice off bs).cmd = s.cmd := rfl
@[simp] theorem writeDevice_todo (off : Nat) (bs : List Byte) : (s.writeDevice off bs).todo = s.todo := rfl
@[simp] theorem writeDevice_fontIdx (off : Nat) (bs : List Byte) : (s.writeDevice off bs).fontIdx = s.fontIdx := rfl
@[simp] theorem writeDevice_glyph (off : Nat) (bs : List Byte) : (s.writeDevice off bs).glyph = s.glyph := rfl
@[simp] theorem writeDevice_plat (off : Nat) (bs : List Byte) : (s.writeDevice off bs).plat = s.plat := rfl
@[simp] theorem writeDevice_mtime (off : Nat) (bs : List Byte) : (s.writeDevice off bs).mtime = s.mtime := rfl
@[simp] theorem writeDevice_dev (off : Nat) (bs : List Byte) :
    (s.writeDevice off bs).dev = Memory.writeBytes s.dev off bs := rfl
@[simp] theorem writeDevice_trace (off : Nat) (bs : List Byte) : (s.writeDevice off bs).trace = s.trace := rfl
@[simp] theorem writeDevice_draws (off : Nat) (bs : List Byte) : (s.writeDevice off bs).draws = s.draws := rfl

/-! ### `spoil` -/

@[simp] theorem spoil_cfg (off k : Nat) : (s.spoil off k).cfg = s.cfg := rfl
@[simp] theorem spoil_status (off k : Nat) : (s.spoil off k).status = s.status := rfl
@[simp] theorem spoil_res (off k : Nat) : (s.spoil off k).res = s.res := rfl
@[simp] theorem spoil_fg (off k : Nat) : (s.spoil off k).fg = s.fg := rfl
@[simp] theorem spoil_bg (off k : Nat) : (s.spoil off k).bg = s.bg := rfl
@[simp] theorem spoil_msglen (off k : Nat) : (s.spoil off k).msglen = s.msglen := rfl
@[simp] theorem spoil_schr (off k : Nat) : (s.spoil off k).schr = s.schr := rfl
@[simp] theorem spoil_scol (off k : Nat) : (s.spoil off k).scol = s.scol := rfl
@[simp] theorem spoil_pb (off k : Nat) : (s.spoil off k).pb = s.pb := rfl
@[simp] theorem spoil_gl (off k : Nat) : (s.spoil off k).gl = s.gl := rfl
@[simp] theorem spoil_msg (off k : Nat) : (s.spoil off k).msg = s.msg := rfl
@[simp] theorem spoil_held (off k : Nat) : (s.spoil off k).held = s.held := rfl
@[simp] theorem spoil_t0 (off k : Nat) : (s.spoil off k).t0 = s.t0 := rfl
@[simp] theorem spoil_n (off k : Nat) : (s.spoil off k).n = s.n := rfl
@[simp] theorem spoil_blank (off k : Nat) : (s.spoil off k).blank = s.blank := rfl
@[simp] theorem spoil_cmd (off k : Nat) : (s.spoil off k).cmd = s.cmd := rfl
@[simp] theorem spoil_todo (off k : Nat) : (s.spoil off k).todo = s.todo := rfl
@[simp] theorem spoil_fontIdx (off k : Nat) : (s.spoil off k).fontIdx = s.fontIdx := rfl
@[simp] theorem spoil_glyph (off k : Nat) : (s.spoil off k).glyph = s.glyph := rfl
@[simp] theorem spoil_plat (off k : Nat) : (s.spoil off k).plat = s.plat := rfl
@[simp] theorem spoil_mtime (off k : Nat) : (s.spoil off k).mtime = s.mtime := rfl
@[simp] theorem spoil_dev (off k : Nat) : (s.spoil off k).dev = Memory.writeBytes s.dev off (freeBytes s.draws k) := rfl
@[simp] theorem spoil_trace (off k : Nat) : (s.spoil off k).trace = s.trace := rfl
@[simp] theorem spoil_draws (off k : Nat) : (s.spoil off k).draws = s.draws + k := rfl

/-! ### `othersWrite` -/

@[simp] theorem othersWrite_cfg : (s.othersWrite).cfg = s.cfg := rfl
@[simp] theorem othersWrite_status : (s.othersWrite).status = s.status := rfl
@[simp] theorem othersWrite_res : (s.othersWrite).res = s.res := rfl
@[simp] theorem othersWrite_fg : (s.othersWrite).fg = s.fg := rfl
@[simp] theorem othersWrite_bg : (s.othersWrite).bg = s.bg := rfl
@[simp] theorem othersWrite_msglen : (s.othersWrite).msglen = s.msglen := rfl
@[simp] theorem othersWrite_schr : (s.othersWrite).schr = s.schr := rfl
@[simp] theorem othersWrite_scol : (s.othersWrite).scol = s.scol := rfl
@[simp] theorem othersWrite_pb : (s.othersWrite).pb = s.pb := rfl
@[simp] theorem othersWrite_gl : (s.othersWrite).gl = s.gl := rfl
@[simp] theorem othersWrite_msg : (s.othersWrite).msg = s.msg := rfl
@[simp] theorem othersWrite_held : (s.othersWrite).held = s.held := rfl
@[simp] theorem othersWrite_t0 : (s.othersWrite).t0 = s.t0 := rfl
@[simp] theorem othersWrite_n : (s.othersWrite).n = s.n := rfl
@[simp] theorem othersWrite_blank : (s.othersWrite).blank = s.blank := rfl
@[simp] theorem othersWrite_cmd : (s.othersWrite).cmd = s.cmd := rfl
@[simp] theorem othersWrite_todo : (s.othersWrite).todo = s.todo := rfl
@[simp] theorem othersWrite_fontIdx : (s.othersWrite).fontIdx = s.fontIdx := rfl
@[simp] theorem othersWrite_glyph : (s.othersWrite).glyph = s.glyph := rfl
@[simp] theorem othersWrite_plat : (s.othersWrite).plat = { s.plat with foreign := s.plat.foreign.later } := rfl
@[simp] theorem othersWrite_mtime : (s.othersWrite).mtime = s.mtime := rfl
@[simp] theorem othersWrite_dev : (s.othersWrite).dev = Memory.merge s.dev s.plat.foreign.now := rfl
@[simp] theorem othersWrite_trace : (s.othersWrite).trace = s.trace := rfl
@[simp] theorem othersWrite_draws : (s.othersWrite).draws = s.draws := rfl

/-! ### `takeDevice` -/

@[simp] theorem takeDevice_cfg : (s.takeDevice).cfg = s.cfg := rfl
@[simp] theorem takeDevice_status : (s.takeDevice).status = s.status := rfl
@[simp] theorem takeDevice_res : (s.takeDevice).res = s.res := rfl
@[simp] theorem takeDevice_fg : (s.takeDevice).fg = s.fg := rfl
@[simp] theorem takeDevice_bg : (s.takeDevice).bg = s.bg := rfl
@[simp] theorem takeDevice_msglen : (s.takeDevice).msglen = s.msglen := rfl
@[simp] theorem takeDevice_schr : (s.takeDevice).schr = s.schr := rfl
@[simp] theorem takeDevice_scol : (s.takeDevice).scol = s.scol := rfl
@[simp] theorem takeDevice_pb : (s.takeDevice).pb = s.pb := rfl
@[simp] theorem takeDevice_gl : (s.takeDevice).gl = s.gl := rfl
@[simp] theorem takeDevice_msg : (s.takeDevice).msg = s.msg := rfl
@[simp] theorem takeDevice_held : (s.takeDevice).held = true := rfl
@[simp] theorem takeDevice_t0 : (s.takeDevice).t0 = s.t0 := rfl
@[simp] theorem takeDevice_n : (s.takeDevice).n = s.n := rfl
@[simp] theorem takeDevice_blank : (s.takeDevice).blank = s.blank := rfl
@[simp] theorem takeDevice_cmd : (s.takeDevice).cmd = s.cmd := rfl
@[simp] theorem takeDevice_todo : (s.takeDevice).todo = s.todo := rfl
@[simp] theorem takeDevice_fontIdx : (s.takeDevice).fontIdx = s.fontIdx := rfl
@[simp] theorem takeDevice_glyph : (s.takeDevice).glyph = s.glyph := rfl
@[simp] theorem takeDevice_plat : (s.takeDevice).plat = { s.plat with foreign := s.plat.foreign.later } := rfl
@[simp] theorem takeDevice_mtime : (s.takeDevice).mtime = s.mtime := rfl
@[simp] theorem takeDevice_dev : (s.takeDevice).dev = Memory.merge s.dev s.plat.foreign.now := rfl
@[simp] theorem takeDevice_trace : (s.takeDevice).trace = s.trace := rfl
@[simp] theorem takeDevice_draws : (s.takeDevice).draws = s.draws := rfl

/-! ### `releaseDevice` -/

@[simp] theorem releaseDevice_cfg : (s.releaseDevice).cfg = s.cfg := rfl
@[simp] theorem releaseDevice_status : (s.releaseDevice).status = s.status := rfl
@[simp] theorem releaseDevice_res : (s.releaseDevice).res = s.res := rfl
@[simp] theorem releaseDevice_fg : (s.releaseDevice).fg = s.fg := rfl
@[simp] theorem releaseDevice_bg : (s.releaseDevice).bg = s.bg := rfl
@[simp] theorem releaseDevice_msglen : (s.releaseDevice).msglen = s.msglen := rfl
@[simp] theorem releaseDevice_schr : (s.releaseDevice).schr = s.schr := rfl
@[simp] theorem releaseDevice_scol : (s.releaseDevice).scol = s.scol := rfl
@[simp] theorem releaseDevice_pb : (s.releaseDevice).pb = s.pb := rfl
@[simp] theorem releaseDevice_gl : (s.releaseDevice).gl = s.gl := rfl
@[simp] theorem releaseDevice_msg : (s.releaseDevice).msg = s.msg := rfl
@[simp] theorem releaseDevice_held : (s.releaseDevice).held = false := rfl
@[simp] theorem releaseDevice_t0 : (s.releaseDevice).t0 = s.t0 := rfl
@[simp] theorem releaseDevice_n : (s.releaseDevice).n = s.n := rfl
@[simp] theorem releaseDevice_blank : (s.releaseDevice).blank = s.blank := rfl
@[simp] theorem releaseDevice_cmd : (s.releaseDevice).cmd = s.cmd := rfl
@[simp] theorem releaseDevice_todo : (s.releaseDevice).todo = s.todo := rfl
@[simp] theorem releaseDevice_fontIdx : (s.releaseDevice).fontIdx = s.fontIdx := rfl
@[simp] theorem releaseDevice_glyph : (s.releaseDevice).glyph = s.glyph := rfl
@[simp] theorem releaseDevice_plat : (s.releaseDevice).plat = { s.plat with foreign := s.plat.foreign.later } := rfl
@[simp] theorem releaseDevice_mtime : (s.releaseDevice).mtime = s.mtime := rfl
@[simp] theorem releaseDevice_dev : (s.releaseDevice).dev = Memory.merge s.dev s.plat.foreign.now := rfl
@[simp] theorem releaseDevice_trace : (s.releaseDevice).trace = s.trace ++ [.release] := rfl
@[simp] theorem releaseDevice_draws : (s.releaseDevice).draws = s.draws := rfl

/-! ### `sampledRst` -/

@[simp] theorem sampledRst_cfg : (s.sampledRst).cfg = s.cfg := rfl
@[simp] theorem sampledRst_status : (s.sampledRst).status = s.status := rfl
@[simp] theorem sampledRst_res : (s.sampledRst).res = s.res := rfl
@[simp] theorem sampledRst_fg : (s.sampledRst).fg = s.fg := rfl
@[simp] theorem sampledRst_bg : (s.sampledRst).bg = s.bg := rfl
@[simp] theorem sampledRst_msglen : (s.sampledRst).msglen = s.msglen := rfl
@[simp] theorem sampledRst_schr : (s.sampledRst).schr = s.schr := rfl
@[simp] theorem sampledRst_scol : (s.sampledRst).scol = s.scol := rfl
@[simp] theorem sampledRst_pb : (s.sampledRst).pb = s.pb := rfl
@[simp] theorem sampledRst_gl : (s.sampledRst).gl = s.gl := rfl
@[simp] theorem sampledRst_msg : (s.sampledRst).msg = s.msg := rfl
@[simp] theorem sampledRst_held : (s.sampledRst).held = s.held := rfl
@[simp] theorem sampledRst_t0 : (s.sampledRst).t0 = s.t0 := rfl
@[simp] theorem sampledRst_n : (s.sampledRst).n = s.n := rfl
@[simp] theorem sampledRst_blank : (s.sampledRst).blank = s.blank := rfl
@[simp] theorem sampledRst_cmd : (s.sampledRst).cmd = s.cmd := rfl
@[simp] theorem sampledRst_todo : (s.sampledRst).todo = s.todo := rfl
@[simp] theorem sampledRst_fontIdx : (s.sampledRst).fontIdx = s.fontIdx := rfl
@[simp] theorem sampledRst_glyph : (s.sampledRst).glyph = s.glyph := rfl
@[simp] theorem sampledRst_plat : (s.sampledRst).plat = { s.plat with rst := s.plat.rst.later } := rfl
@[simp] theorem sampledRst_mtime : (s.sampledRst).mtime = s.mtime := rfl
@[simp] theorem sampledRst_dev : (s.sampledRst).dev = s.dev := rfl
@[simp] theorem sampledRst_trace : (s.sampledRst).trace = s.trace := rfl
@[simp] theorem sampledRst_draws : (s.sampledRst).draws = s.draws := rfl

/-! ### `sampledCancel` -/

@[simp] theorem sampledCancel_cfg : (s.sampledCancel).cfg = s.cfg := rfl
@[simp] theorem sampledCancel_status : (s.sampledCancel).status = s.status := rfl
@[simp] theorem sampledCancel_res : (s.sampledCancel).res = s.res := rfl
@[simp] theorem sampledCancel_fg : (s.sampledCancel).fg = s.fg := rfl
@[simp] theorem sampledCancel_bg : (s.sampledCancel).bg = s.bg := rfl
@[simp] theorem sampledCancel_msglen : (s.sampledCancel).msglen = s.msglen := rfl
@[simp] theorem sampledCancel_schr : (s.sampledCancel).schr = s.schr := rfl
@[simp] theorem sampledCancel_scol : (s.sampledCancel).scol = s.scol := rfl
@[simp] theorem sampledCancel_pb : (s.sampledCancel).pb = s.pb := rfl
@[simp] theorem sampledCancel_gl : (s.sampledCancel).gl = s.gl := rfl
@[simp] theorem sampledCancel_msg : (s.sampledCancel).msg = s.msg := rfl
@[simp] theorem sampledCancel_held : (s.sampledCancel).held = s.held := rfl
@[simp] theorem sampledCancel_t0 : (s.sampledCancel).t0 = s.t0 := rfl
@[simp] theorem sampledCancel_n : (s.sampledCancel).n = s.n := rfl
@[simp] theorem sampledCancel_blank : (s.sampledCancel).blank = s.blank := rfl
@[simp] theorem sampledCancel_cmd : (s.sampledCancel).cmd = s.cmd := rfl
@[simp] theorem sampledCancel_todo : (s.sampledCancel).todo = s.todo := rfl
@[simp] theorem sampledCancel_fontIdx : (s.sampledCancel).fontIdx = s.fontIdx := rfl
@[simp] theorem sampledCancel_glyph : (s.sampledCancel).glyph = s.glyph := rfl
@[simp] theorem sampledCancel_plat : (s.sampledCancel).plat = { s.plat with cancel := s.plat.cancel.later } := rfl
@[simp] theorem sampledCancel_mtime : (s.sampledCancel).mtime = s.mtime := rfl
@[simp] theorem sampledCancel_dev : (s.sampledCancel).dev = s.dev := rfl
@[simp] theorem sampledCancel_trace : (s.sampledCancel).trace = s.trace := rfl
@[simp] theorem sampledCancel_draws : (s.sampledCancel).draws = s.draws := rfl

/-! ### `sampledPresent` -/

@[simp] theorem sampledPresent_cfg : (s.sampledPresent).cfg = s.cfg := rfl
@[simp] theorem sampledPresent_status : (s.sampledPresent).status = { s.status with nodev := !s.plat.present.now } := rfl
@[simp] theorem sampledPresent_res : (s.sampledPresent).res = s.res := rfl
@[simp] theorem sampledPresent_fg : (s.sampledPresent).fg = s.fg := rfl
@[simp] theorem sampledPresent_bg : (s.sampledPresent).bg = s.bg := rfl
@[simp] theorem sampledPresent_msglen : (s.sampledPresent).msglen = s.msglen := rfl
@[simp] theorem sampledPresent_schr : (s.sampledPresent).schr = s.schr := rfl
@[simp] theorem sampledPresent_scol : (s.sampledPresent).scol = s.scol := rfl
@[simp] theorem sampledPresent_pb : (s.sampledPresent).pb = s.pb := rfl
@[simp] theorem sampledPresent_gl : (s.sampledPresent).gl = s.gl := rfl
@[simp] theorem sampledPresent_msg : (s.sampledPresent).msg = s.msg := rfl
@[simp] theorem sampledPresent_held : (s.sampledPresent).held = s.held := rfl
@[simp] theorem sampledPresent_t0 : (s.sampledPresent).t0 = s.t0 := rfl
@[simp] theorem sampledPresent_n : (s.sampledPresent).n = s.n := rfl
@[simp] theorem sampledPresent_blank : (s.sampledPresent).blank = s.blank := rfl
@[simp] theorem sampledPresent_cmd : (s.sampledPresent).cmd = s.cmd := rfl
@[simp] theorem sampledPresent_todo : (s.sampledPresent).todo = s.todo := rfl
@[simp] theorem sampledPresent_fontIdx : (s.sampledPresent).fontIdx = s.fontIdx := rfl
@[simp] theorem sampledPresent_glyph : (s.sampledPresent).glyph = s.glyph := rfl
@[simp] theorem sampledPresent_plat : (s.sampledPresent).plat = { s.plat with present := s.plat.present.later } := rfl
@[simp] theorem sampledPresent_mtime : (s.sampledPresent).mtime = s.mtime := rfl
@[simp] theorem sampledPresent_dev : (s.sampledPresent).dev = s.dev := rfl
@[simp] theorem sampledPresent_trace : (s.sampledPresent).trace = s.trace := rfl
@[simp] theorem sampledPresent_draws : (s.sampledPresent).draws = s.draws := rfl

/-! ### `sampledAcquire` -/

@[simp] theorem sampledAcquire_cfg : (s.sampledAcquire).cfg = s.cfg := rfl
@[simp] theorem sampledAcquire_status : (s.sampledAcquire).status = s.status := rfl
@[simp] theorem sampledAcquire_res : (s.sampledAcquire).res = s.res := rfl
@[simp] theorem sampledAcquire_fg : (s.sampledAcquire).fg = s.fg := rfl
@[simp] theorem sampledAcquire_bg : (s.sampledAcquire).bg = s.bg := rfl
@[simp] theorem sampledAcquire_msglen : (s.sampledAcquire).msglen = s.msglen := rfl
@[simp] theorem sampledAcquire_schr : (s.sampledAcquire).schr = s.schr := rfl
@[simp] theorem sampledAcquire_scol : (s.sampledAcquire).scol = s.scol := rfl
@[simp] theorem sampledAcquire_pb : (s.sampledAcquire).pb = s.pb := rfl
@[simp] theorem sampledAcquire_gl : (s.sampledAcquire).gl = s.gl := rfl
@[simp] theorem sampledAcquire_msg : (s.sampledAcquire).msg = s.msg := rfl
@[simp] theorem sampledAcquire_held : (s.sampledAcquire).held = s.held := rfl
@[simp] theorem sampledAcquire_t0 : (s.sampledAcquire).t0 = s.t0 := rfl
@[simp] theorem sampledAcquire_n : (s.sampledAcquire).n = s.n := rfl
@[simp] theorem sampledAcquire_blank : (s.sampledAcquire).blank = s.blank := rfl
@[simp] theorem sampledAcquire_cmd : (s.sampledAcquire).cmd = s.cmd := rfl
@[simp] theorem sampledAcquire_todo : (s.sampledAcquire).todo = s.todo := rfl
@[simp] theorem sampledAcquire_fontIdx : (s.sampledAcquire).fontIdx = s.fontIdx := rfl
@[simp] theorem sampledAcquire_glyph : (s.sampledAcquire).glyph = s.glyph := rfl
@[simp] theorem sampledAcquire_plat : (s.sampledAcquire).plat = { s.plat with acquire := s.plat.acquire.later } := rfl
@[simp] theorem sampledAcquire_mtime : (s.sampledAcquire).mtime = s.mtime := rfl
@[simp] theorem sampledAcquire_dev : (s.sampledAcquire).dev = s.dev := rfl
@[simp] theorem sampledAcquire_trace : (s.sampledAcquire).trace = s.trace := rfl
@[simp] theorem sampledAcquire_draws : (s.sampledAcquire).draws = s.draws := rfl

/-! ### `sampledWrite` -/

@[simp] theorem sampledWrite_cfg : (s.sampledWrite).cfg = s.cfg := rfl
@[simp] theorem sampledWrite_status : (s.sampledWrite).status = s.status := rfl
@[simp] theorem sampledWrite_res : (s.sampledWrite).res = s.res := rfl
@[simp] theorem sampledWrite_fg : (s.sampledWrite).fg = s.fg := rfl
@[simp] theorem sampledWrite_bg : (s.sampledWrite).bg = s.bg := rfl
@[simp] theorem sampledWrite_msglen : (s.sampledWrite).msglen = s.msglen := rfl
@[simp] theorem sampledWrite_schr : (s.sampledWrite).schr = s.schr := rfl
@[simp] theorem sampledWrite_scol : (s.sampledWrite).scol = s.scol := rfl
@[simp] theorem sampledWrite_pb : (s.sampledWrite).pb = s.pb := rfl
@[simp] theorem sampledWrite_gl : (s.sampledWrite).gl = s.gl := rfl
@[simp] theorem sampledWrite_msg : (s.sampledWrite).msg = s.msg := rfl
@[simp] theorem sampledWrite_held : (s.sampledWrite).held = s.held := rfl
@[simp] theorem sampledWrite_t0 : (s.sampledWrite).t0 = s.t0 := rfl
@[simp] theorem sampledWrite_n : (s.sampledWrite).n = s.n := rfl
@[simp] theorem sampledWrite_blank : (s.sampledWrite).blank = s.blank := rfl
@[simp] theorem sampledWrite_cmd : (s.sampledWrite).cmd = s.cmd := rfl
@[simp] theorem sampledWrite_todo : (s.sampledWrite).todo = s.todo := rfl
@[simp] theorem sampledWrite_fontIdx : (s.sampledWrite).fontIdx = s.fontIdx := rfl
@[simp] theorem sampledWrite_glyph : (s.sampledWrite).glyph = s.glyph := rfl
@[simp] theorem sampledWrite_plat : (s.sampledWrite).plat = { s.plat with write := s.plat.write.later } := rfl
@[simp] theorem sampledWrite_mtime : (s.sampledWrite).mtime = s.mtime := rfl
@[simp] theorem sampledWrite_dev : (s.sampledWrite).dev = s.dev := rfl
@[simp] theorem sampledWrite_trace : (s.sampledWrite).trace = s.trace := rfl
@[simp] theorem sampledWrite_draws : (s.sampledWrite).draws = s.draws := rfl

/-! ### `sampledFont` -/

@[simp] theorem sampledFont_cfg : (s.sampledFont).cfg = s.cfg := rfl
@[simp] theorem sampledFont_status : (s.sampledFont).status = s.status := rfl
@[simp] theorem sampledFont_res : (s.sampledFont).res = s.res := rfl
@[simp] theorem sampledFont_fg : (s.sampledFont).fg = s.fg := rfl
@[simp] theorem sampledFont_bg : (s.sampledFont).bg = s.bg := rfl
@[simp] theorem sampledFont_msglen : (s.sampledFont).msglen = s.msglen := rfl
@[simp] theorem sampledFont_schr : (s.sampledFont).schr = s.schr := rfl
@[simp] theorem sampledFont_scol : (s.sampledFont).scol = s.scol := rfl
@[simp] theorem sampledFont_pb : (s.sampledFont).pb = s.pb := rfl
@[simp] theorem sampledFont_gl : (s.sampledFont).gl = s.gl := rfl
@[simp] theorem sampledFont_msg : (s.sampledFont).msg = s.msg := rfl
@[simp] theorem sampledFont_held : (s.sampledFont).held = s.held := rfl
@[simp] theorem sampledFont_t0 : (s.sampledFont).t0 = s.t0 := rfl
@[simp] theorem sampledFont_n : (s.sampledFont).n = s.n := rfl
@[simp] theorem sampledFont_blank : (s.sampledFont).blank = s.blank := rfl
@[simp] theorem sampledFont_cmd : (s.sampledFont).cmd = s.cmd := rfl
@[simp] theorem sampledFont_todo : (s.sampledFont).todo = s.todo := rfl
@[simp] theorem sampledFont_fontIdx : (s.sampledFont).fontIdx = s.fontIdx := rfl
@[simp] theorem sampledFont_glyph : (s.sampledFont).glyph = s.glyph := rfl
@[simp] theorem sampledFont_plat : (s.sampledFont).plat = { s.plat with font := s.plat.font.later } := rfl
@[simp] theorem sampledFont_mtime : (s.sampledFont).mtime = s.mtime := rfl
@[simp] theorem sampledFont_dev : (s.sampledFont).dev = s.dev := rfl
@[simp] theorem sampledFont_trace : (s.sampledFont).trace = s.trace := rfl
@[simp] theorem sampledFont_draws : (s.sampledFont).draws = s.draws := rfl

/-! ### `sampledEdge` -/

@[simp] theorem sampledEdge_cfg : (s.sampledEdge).cfg = s.cfg := rfl
@[simp] theorem sampledEdge_status : (s.sampledEdge).status = s.status := rfl
@[simp] theorem sampledEdge_res : (s.sampledEdge).res = s.res := rfl
@[simp] theorem sampledEdge_fg : (s.sampledEdge).fg = s.fg := rfl
@[simp] theorem sampledEdge_bg : (s.sampledEdge).bg = s.bg := rfl
@[simp] theorem sampledEdge_msglen : (s.sampledEdge).msglen = s.msglen := rfl
@[simp] theorem sampledEdge_schr : (s.sampledEdge).schr = s.schr := rfl
@[simp] theorem sampledEdge_scol : (s.sampledEdge).scol = s.scol := rfl
@[simp] theorem sampledEdge_pb : (s.sampledEdge).pb = s.pb := rfl
@[simp] theorem sampledEdge_gl : (s.sampledEdge).gl = s.gl := rfl
@[simp] theorem sampledEdge_msg : (s.sampledEdge).msg = s.msg := rfl
@[simp] theorem sampledEdge_held : (s.sampledEdge).held = s.held := rfl
@[simp] theorem sampledEdge_t0 : (s.sampledEdge).t0 = s.t0 := rfl
@[simp] theorem sampledEdge_n : (s.sampledEdge).n = s.n := rfl
@[simp] theorem sampledEdge_blank : (s.sampledEdge).blank = s.blank := rfl
@[simp] theorem sampledEdge_cmd : (s.sampledEdge).cmd = s.cmd := rfl
@[simp] theorem sampledEdge_todo : (s.sampledEdge).todo = s.todo := rfl
@[simp] theorem sampledEdge_fontIdx : (s.sampledEdge).fontIdx = s.fontIdx := rfl
@[simp] theorem sampledEdge_glyph : (s.sampledEdge).glyph = s.glyph := rfl
@[simp] theorem sampledEdge_plat : (s.sampledEdge).plat = { s.plat with edge := s.plat.edge.later } := rfl
@[simp] theorem sampledEdge_mtime : (s.sampledEdge).mtime = s.mtime := rfl
@[simp] theorem sampledEdge_dev : (s.sampledEdge).dev = s.dev := rfl
@[simp] theorem sampledEdge_trace : (s.sampledEdge).trace = s.trace := rfl
@[simp] theorem sampledEdge_draws : (s.sampledEdge).draws = s.draws := rfl

/-! ### `readMtime` -/

@[simp] theorem readMtime_cfg : (s.readMtime).cfg = s.cfg := rfl
@[simp] theorem readMtime_status : (s.readMtime).status = s.status := rfl
@[simp] theorem readMtime_res : (s.readMtime).res = s.res := rfl
@[simp] theorem readMtime_fg : (s.readMtime).fg = s.fg := rfl
@[simp] theorem readMtime_bg : (s.readMtime).bg = s.bg := rfl
@[simp] theorem readMtime_msglen : (s.readMtime).msglen = s.msglen := rfl
@[simp] theorem readMtime_schr : (s.readMtime).schr = s.schr := rfl
@[simp] theorem readMtime_scol : (s.readMtime).scol = s.scol := rfl
@[simp] theorem readMtime_pb : (s.readMtime).pb = s.pb := rfl
@[simp] theorem readMtime_gl : (s.readMtime).gl = s.gl := rfl
@[simp] theorem readMtime_msg : (s.readMtime).msg = s.msg := rfl
@[simp] theorem readMtime_held : (s.readMtime).held = s.held := rfl
@[simp] theorem readMtime_t0 : (s.readMtime).t0 = s.t0 := rfl
@[simp] theorem readMtime_n : (s.readMtime).n = s.n := rfl
@[simp] theorem readMtime_blank : (s.readMtime).blank = s.blank := rfl
@[simp] theorem readMtime_cmd : (s.readMtime).cmd = s.cmd := rfl
@[simp] theorem readMtime_todo : (s.readMtime).todo = s.todo := rfl
@[simp] theorem readMtime_fontIdx : (s.readMtime).fontIdx = s.fontIdx := rfl
@[simp] theorem readMtime_glyph : (s.readMtime).glyph = s.glyph := rfl
@[simp] theorem readMtime_plat : (s.readMtime).plat = { s.plat with ticks := s.plat.ticks.later } := rfl
@[simp] theorem readMtime_mtime : (s.readMtime).mtime = (s.mtime + s.plat.ticks.now) % 2 ^ s.cfg.mtimeBits := rfl
@[simp] theorem readMtime_dev : (s.readMtime).dev = s.dev := rfl
@[simp] theorem readMtime_trace : (s.readMtime).trace = s.trace := rfl
@[simp] theorem readMtime_draws : (s.readMtime).draws = s.draws := rfl

/-! ### `startPace` -/

@[simp] theorem startPace_cfg : (s.startPace).cfg = s.cfg := rfl
@[simp] theorem startPace_status : (s.startPace).status = s.status := rfl
@[simp] theorem startPace_res : (s.startPace).res = s.res := rfl
@[simp] theorem startPace_fg : (s.startPace).fg = s.fg := rfl
@[simp] theorem startPace_bg : (s.startPace).bg = s.bg := rfl
@[simp] theorem startPace_msglen : (s.startPace).msglen = s.msglen := rfl
@[simp] theorem startPace_schr : (s.startPace).schr = s.schr := rfl
@[simp] theorem startPace_scol : (s.startPace).scol = s.scol := rfl
@[simp] theorem startPace_pb : (s.startPace).pb = s.pb := rfl
@[simp] theorem startPace_gl : (s.startPace).gl = s.gl := rfl
@[simp] theorem startPace_msg : (s.startPace).msg = s.msg := rfl
@[simp] theorem startPace_held : (s.startPace).held = s.held := rfl
@[simp] theorem startPace_t0 : (s.startPace).t0 = (s.mtime + s.plat.ticks.now) % 2 ^ s.cfg.mtimeBits := rfl
@[simp] theorem startPace_n : (s.startPace).n = s.n := rfl
@[simp] theorem startPace_blank : (s.startPace).blank = s.blank := rfl
@[simp] theorem startPace_cmd : (s.startPace).cmd = s.cmd := rfl
@[simp] theorem startPace_todo : (s.startPace).todo = s.todo := rfl
@[simp] theorem startPace_fontIdx : (s.startPace).fontIdx = s.fontIdx := rfl
@[simp] theorem startPace_glyph : (s.startPace).glyph = s.glyph := rfl
@[simp] theorem startPace_plat : (s.startPace).plat = { s.plat with ticks := s.plat.ticks.later } := rfl
@[simp] theorem startPace_mtime : (s.startPace).mtime = (s.mtime + s.plat.ticks.now) % 2 ^ s.cfg.mtimeBits := rfl
@[simp] theorem startPace_dev : (s.startPace).dev = s.dev := rfl
@[simp] theorem startPace_trace : (s.startPace).trace = s.trace := rfl
@[simp] theorem startPace_draws : (s.startPace).draws = s.draws := rfl

/-! ### `begun` (R58, R220): `rst` is sampled, and the platform may have written a device that is not held -/

@[simp] theorem begun_cfg : (s.begun).cfg = s.cfg := by unfold State.begun; split <;> rfl
@[simp] theorem begun_status : (s.begun).status = s.status := by unfold State.begun; split <;> rfl
@[simp] theorem begun_res : (s.begun).res = s.res := by unfold State.begun; split <;> rfl
@[simp] theorem begun_fg : (s.begun).fg = s.fg := by unfold State.begun; split <;> rfl
@[simp] theorem begun_bg : (s.begun).bg = s.bg := by unfold State.begun; split <;> rfl
@[simp] theorem begun_msglen : (s.begun).msglen = s.msglen := by unfold State.begun; split <;> rfl
@[simp] theorem begun_schr : (s.begun).schr = s.schr := by unfold State.begun; split <;> rfl
@[simp] theorem begun_scol : (s.begun).scol = s.scol := by unfold State.begun; split <;> rfl
@[simp] theorem begun_pb : (s.begun).pb = s.pb := by unfold State.begun; split <;> rfl
@[simp] theorem begun_gl : (s.begun).gl = s.gl := by unfold State.begun; split <;> rfl
@[simp] theorem begun_msg : (s.begun).msg = s.msg := by unfold State.begun; split <;> rfl
@[simp] theorem begun_held : (s.begun).held = s.held := by unfold State.begun; split <;> rfl
@[simp] theorem begun_t0 : (s.begun).t0 = s.t0 := by unfold State.begun; split <;> rfl
@[simp] theorem begun_n : (s.begun).n = s.n := by unfold State.begun; split <;> rfl
@[simp] theorem begun_blank : (s.begun).blank = s.blank := by unfold State.begun; split <;> rfl
@[simp] theorem begun_cmd : (s.begun).cmd = s.cmd := by unfold State.begun; split <;> rfl
@[simp] theorem begun_todo : (s.begun).todo = s.todo := by unfold State.begun; split <;> rfl
@[simp] theorem begun_fontIdx : (s.begun).fontIdx = s.fontIdx := by unfold State.begun; split <;> rfl
@[simp] theorem begun_glyph : (s.begun).glyph = s.glyph := by unfold State.begun; split <;> rfl
@[simp] theorem begun_plat :
    (s.begun).plat =
      { s.plat with rst := s.plat.rst.later, foreign := if s.held then s.plat.foreign else s.plat.foreign.later } := by
  cases h : s.held <;> simp [State.begun, h]
@[simp] theorem begun_mtime : (s.begun).mtime = s.mtime := by unfold State.begun; split <;> rfl
@[simp] theorem begun_dev :
    (s.begun).dev = if s.held then s.dev else Memory.merge s.dev s.plat.foreign.now := by
  cases h : s.held <;> simp [State.begun, h]
@[simp] theorem begun_trace : (s.begun).trace = s.trace := by unfold State.begun; split <;> rfl
@[simp] theorem begun_draws : (s.begun).draws = s.draws := by unfold State.begun; split <;> rfl

/-- The start of a step changes nothing else. -/
theorem begun_shape :
    ∃ d fo, s.begun = { s with dev := d, plat := { s.plat with rst := s.plat.rst.later, foreign := fo } } := by
  unfold State.begun
  split <;> exact ⟨_, _, rfl⟩

/-! ### `raise` (R196): the flag, `ASTATE` for a `SCROLL`, and the end of the command; nothing else -/

@[simp] theorem raise_cfg (e : Abort) : (s.raise e).cfg = s.cfg := by
  unfold State.raise; dsimp only; split <;> rfl
@[simp] theorem raise_res (e : Abort) : (s.raise e).res = s.res := by
  unfold State.raise; dsimp only; split <;> rfl
@[simp] theorem raise_fg (e : Abort) : (s.raise e).fg = s.fg := by
  unfold State.raise; dsimp only; split <;> rfl
@[simp] theorem raise_bg (e : Abort) : (s.raise e).bg = s.bg := by
  unfold State.raise; dsimp only; split <;> rfl
@[simp] theorem raise_msglen (e : Abort) : (s.raise e).msglen = s.msglen := by
  unfold State.raise; dsimp only; split <;> rfl
@[simp] theorem raise_schr (e : Abort) : (s.raise e).schr = s.schr := by
  unfold State.raise; dsimp only; split <;> rfl
@[simp] theorem raise_scol (e : Abort) : (s.raise e).scol = s.scol := by
  unfold State.raise; dsimp only; split <;> rfl
@[simp] theorem raise_pb (e : Abort) : (s.raise e).pb = s.pb := by
  unfold State.raise; dsimp only; split <;> rfl
@[simp] theorem raise_gl (e : Abort) : (s.raise e).gl = s.gl := by
  unfold State.raise; dsimp only; split <;> rfl
@[simp] theorem raise_msg (e : Abort) : (s.raise e).msg = s.msg := by
  unfold State.raise; dsimp only; split <;> rfl
@[simp] theorem raise_held (e : Abort) : (s.raise e).held = s.held := by
  unfold State.raise; dsimp only; split <;> rfl
@[simp] theorem raise_t0 (e : Abort) : (s.raise e).t0 = s.t0 := by
  unfold State.raise; dsimp only; split <;> rfl
@[simp] theorem raise_n (e : Abort) : (s.raise e).n = s.n := by
  unfold State.raise; dsimp only; split <;> rfl
@[simp] theorem raise_blank (e : Abort) : (s.raise e).blank = s.blank := by
  unfold State.raise; dsimp only; split <;> rfl
@[simp] theorem raise_cmd (e : Abort) : (s.raise e).cmd = none := by
  unfold State.raise; dsimp only; split <;> rfl
@[simp] theorem raise_todo (e : Abort) : (s.raise e).todo = [] := by
  unfold State.raise; dsimp only; split <;> rfl
@[simp] theorem raise_fontIdx (e : Abort) : (s.raise e).fontIdx = s.fontIdx := by
  unfold State.raise; dsimp only; split <;> rfl
@[simp] theorem raise_glyph (e : Abort) : (s.raise e).glyph = s.glyph := by
  unfold State.raise; dsimp only; split <;> rfl
@[simp] theorem raise_plat (e : Abort) : (s.raise e).plat = s.plat := by
  unfold State.raise; dsimp only; split <;> rfl
@[simp] theorem raise_mtime (e : Abort) : (s.raise e).mtime = s.mtime := by
  unfold State.raise; dsimp only; split <;> rfl
@[simp] theorem raise_dev (e : Abort) : (s.raise e).dev = s.dev := by
  unfold State.raise; dsimp only; split <;> rfl
@[simp] theorem raise_trace (e : Abort) : (s.raise e).trace = s.trace := by
  unfold State.raise; dsimp only; split <;> rfl
@[simp] theorem raise_draws (e : Abort) : (s.raise e).draws = s.draws := by
  unfold State.raise; dsimp only; split <;> rfl

theorem raise_status (e : Abort) :
    (s.raise e).status =
      if s.scrolling then { s.status.raiseFlag e with astate := .idle, busy := false }
      else { s.status.raiseFlag e with busy := false } := by
  by_cases h : s.scrolling <;> simp_all [State.raise, State.scrolling, State.withStatus, State.withAState, State.finish]

@[simp] theorem raise_busy (e : Abort) : (s.raise e).status.busy = false := by
  rw [raise_status]; split <;> rfl

@[simp] theorem raise_flag (e : Abort) : (s.raise e).status.flag e = true := by
  rw [raise_status]; cases e <;> split <;> rfl

/-- The end of a command that a ready core accepted and that changed nothing is the state it began in (R193). -/
theorem finish_accept (i : Instr) (h : s.status.busy = false ∧ s.cmd = none ∧ s.todo = []) : (s.accept i).finish = s := by
  obtain ⟨h1, h2, h3⟩ := h
  rcases s with ⟨_, ⟨⟩⟩
  simp_all [State.accept, State.finish]

end Sys2Proof.Machine
end

