-- ==== Sys2Proof/Laws/Engine.lean ====
section
/-! SUPPORT. What a statement of a waiting command can do, said once; how a list of statements runs; and what each part does
when the platform answers. -/

namespace Sys2Proof.Machine

/-- The state a statement leaves, whatever it comes to. -/
def OpResult.state : OpResult → State
  | .done s => s
  | .raise _ s => s
  | .wait s _ => s

/-! ### The shape of each transaction -/

/-- A lookup changes the glyph latch, its own locals, the font answers and the history, and nothing else (R117, R119). -/
theorem readChunks_shape (rows : List Nat) (s : State) :
    ∃ g gl f tr, (readChunks rows s).state =
      { s with glyph := g, gl := gl, plat := { s.plat with font := f }, trace := tr } := by
  induction rows generalizing s with
  | nil => exact ⟨_, _, _, _, rfl⟩
  | cons row rows ih =>
    unfold readChunks
    split
    · exact ⟨_, _, _, _, rfl⟩
    · split
      · exact ⟨_, _, _, _, rfl⟩
      · obtain ⟨g, gl, f, tr, h⟩ := ih (s.readChunk row)
        exact ⟨g, gl, f, tr, h⟩

theorem lookupChar_shape (ch : Byte) (s : State) :
    ∃ i g gl f tr, (lookupChar ch s).state =
      { s with fontIdx := i, glyph := g, gl := gl, plat := { s.plat with font := f }, trace := tr } := by
  obtain ⟨g, gl, f, tr, h⟩ := readChunks_shape (chunksFrom 0) (s.beginLookup ch)
  exact ⟨_, g, gl, f, tr, h⟩

/-- With no clock edge a command goes on after a device event. -/
theorem atEdge_go {s : State} (h : s.NoEdge) (resume : Op) (go : State → OpResult) : atEdge resume go s = go s.sampledEdge :=
  if_neg (by simp [h.now])

@[simp] theorem flushEnd_state (ok : Bool) (s : State) : (flushEnd ok s).state = s := by
  cases ok <;> rfl

/-- A release ends the hold (R46). -/
@[simp] theorem flushRelease_state (ok : Bool) (s : State) : (flushRelease ok s).state = s.releaseDevice.sampledEdge := by
  unfold flushRelease atEdge
  split
  exacts [rfl, flushEnd_state ok _]

/-- A property that every update inside `Flush(off, n)` keeps, from the answer to its request on. -/
structure KeptByFlush (off n : Nat) (P : State → Prop) : Prop where
  edge : ∀ s, P s → P s.sampledEdge
  write : ∀ s, P s → P s.sampledWrite
  take : ∀ s, P s → P s.takeDevice
  release : ∀ s, P s → P s.releaseDevice
  log : ∀ s e, P s → P (s.log e)
  spoil : ∀ s, P s → P (s.spoil off n)
  store : ∀ s bs, bs.length = n → P s → P (s.writeDevice off bs)

/-- After a device event: at the edge, or in what the command does next. -/
theorem KeptByFlush.atEdge {off n : Nat} {P : State → Prop} (k : KeptByFlush off n P) (resume : Op) {go : State → OpResult}
    (hgo : ∀ s, P s → P (go s).state) {s : State} (h : P s) : P (atEdge resume go s).state := by
  unfold Machine.atEdge
  split
  exacts [k.edge s h, hgo _ (k.edge s h)]

theorem KeptByFlush.flushRelease {off n : Nat} {P : State → Prop} (k : KeptByFlush off n P) (ok : Bool) (s : State) (h : P s) :
    P (flushRelease ok s).state := by
  rw [flushRelease_state]
  exact k.edge _ (k.release s h)

theorem KeptByFlush.flushWrite {off n : Nat} {P : State → Prop} (k : KeptByFlush off n P) (s : State) (h : P s) :
    P (flushWrite off n s).state := by
  have hw := k.write s h
  unfold Machine.flushWrite
  dsimp only
  split
  · exact k.spoil _ hw
  · exact k.atEdge _ (k.flushRelease true) (k.log _ _ (k.store _ _ (by simp [pbBytes]) hw))
  · exact k.atEdge _ (k.flushRelease false) (k.log _ _ (k.spoil _ hw))

theorem KeptByFlush.flushGrant {off n : Nat} {P : State → Prop} (k : KeptByFlush off n P) {s : State} (h : P s.sampledAcquire) :
    P (flushGrant off n s).state := by
  unfold Machine.flushGrant
  split
  · exact h
  · exact k.atEdge _ k.flushWrite (k.log _ _ (k.take _ h))
  · exact k.atEdge _ (fun s h => by rw [flushEnd_state]; exact h) (k.log _ _ h)

/-- A statement from which `Flush(off, n)` goes on. -/
def Op.OfFlush (off n : Nat) : Op → Prop
  | .flushGrant a b | .flushHold a b | .flushWrite a b => a = off ∧ b = n
  | .flushRelease _ | .flushEnd _ => True
  | _ => False

/-- What a flush can come to: it is done, it raises `DevErr`, or it goes on from one of its own statements. -/
def OpResult.OfFlush (off n : Nat) : OpResult → Prop
  | .done _ => True
  | .raise e _ => e = .devErr
  | .wait _ r => r.OfFlush off n

theorem ofFlush_atEdge {off n : Nat} {resume : Op} (hr : resume.OfFlush off n) {go : State → OpResult}
    (hgo : ∀ s, (go s).OfFlush off n) (s : State) : (atEdge resume go s).OfFlush off n := by
  unfold atEdge
  split
  exacts [hr, hgo _]

theorem ofFlush_end (off n : Nat) (ok : Bool) (s : State) : (flushEnd ok s).OfFlush off n := by
  cases ok
  exacts [rfl, trivial]

theorem ofFlush_release (off n : Nat) (ok : Bool) (s : State) : (flushRelease ok s).OfFlush off n :=
  ofFlush_atEdge (resume := .flushEnd ok) trivial (ofFlush_end off n ok) _

theorem ofFlush_write (off n : Nat) (s : State) : (flushWrite off n s).OfFlush off n := by
  unfold flushWrite
  dsimp only
  split
  · exact ⟨rfl, rfl⟩
  · exact ofFlush_atEdge (resume := .flushRelease true) trivial (ofFlush_release off n true) _
  · exact ofFlush_atEdge (resume := .flushRelease false) trivial (ofFlush_release off n false) _

theorem ofFlush_grant (off n : Nat) (s : State) : (flushGrant off n s).OfFlush off n := by
  unfold flushGrant
  split
  · exact ⟨rfl, rfl⟩
  · exact ofFlush_atEdge (resume := .flushHold off n) ⟨rfl, rfl⟩ (ofFlush_write off n) _
  · exact ofFlush_atEdge (resume := .flushEnd false) trivial (ofFlush_end off n false) _

theorem ofFlush_start (off n : Nat) (s : State) : (flushStart off n s).OfFlush off n := by
  unfold flushStart
  split
  exacts [ofFlush_grant off n _, trivial]

/-- `t` is `s` but for the hold, the device, the answers to writes, the history and the count of free values. -/
def Held (s t : State) : Prop :=
  ∃ h w e fo d tr k, t =
    { s with held := h, plat := { s.plat with write := w, edge := e, foreign := fo }, dev := d, trace := tr, draws := k }

theorem Held.trans {s t u : State} (h : Held s t) (k : Held t u) : Held s u := by
  obtain ⟨_, _, _, _, _, _, _, rfl⟩ := h
  obtain ⟨_, _, _, _, _, _, _, rfl⟩ := k
  exact ⟨_, _, _, _, _, _, _, rfl⟩

theorem held_kept (s : State) (off n : Nat) : KeptByFlush off n (Held s) := by
  constructor
  all_goals intros
  all_goals first
    | exact Held.trans ‹_› ⟨_, _, _, _, _, _, _, rfl⟩

/-- A flush, wherever it goes on from, changes `NODEV`, the hold, the device, the platform's answers, the history and the count
of free values, and nothing else (R135). -/
theorem flushWrite_shape (off n : Nat) (s : State) :
    ∃ h w e fo d tr k, (flushWrite off n s).state =
      { s with held := h, plat := { s.plat with write := w, edge := e, foreign := fo }, dev := d, trace := tr, draws := k } :=
  (held_kept s off n).flushWrite s ⟨_, _, _, _, _, _, _, rfl⟩

theorem flushGrant_shape (off n : Nat) (s : State) :
    ∃ h a w e fo d tr k, (flushGrant off n s).state =
      { s with
        held := h
        plat := { s.plat with acquire := a, write := w, edge := e, foreign := fo }
        dev := d, trace := tr, draws := k } := by
  obtain ⟨h, w, e, fo, d, tr, k, eq⟩ :=
    (held_kept s.sampledAcquire off n).flushGrant (s := s) ⟨_, _, _, _, _, _, _, rfl⟩
  exact ⟨h, _, w, e, fo, d, tr, k, eq⟩

theorem flushStart_shape (off n : Nat) (s : State) :
    ∃ v h p a w e fo d tr k, (flushStart off n s).state =
      { s with
        status := { s.status with nodev := v }
        held := h
        plat := { s.plat with present := p, acquire := a, write := w, edge := e, foreign := fo }
        dev := d, trace := tr, draws := k } := by
  unfold flushStart
  split
  · obtain ⟨h, a, w, e, fo, d, tr, k, eq⟩ := flushGrant_shape off n s.sampledPresent
    exact ⟨_, h, _, a, w, e, fo, d, tr, k, eq⟩
  · exact ⟨_, _, _, _, _, _, _, _, _, _, rfl⟩

/-- A pacing wait changes `mtime`, `t0` and the history, and nothing else (R205). -/
theorem paceWait_shape (s : State) :
    ∃ m ti tr, (paceWait s).state = { s with mtime := m, plat := { s.plat with ticks := ti }, trace := tr } := by
  unfold paceWait
  split <;> exact ⟨_, _, _, rfl⟩

theorem paceStart_shape (s : State) :
    ∃ z m ti tr, (paceStart s).state = { s with t0 := z, mtime := m, plat := { s.plat with ticks := ti }, trace := tr } := by
  obtain ⟨m, ti, tr, e⟩ := paceWait_shape s.startPace
  exact ⟨_, m, ti, tr, e⟩

/-! ### What no statement touches -/

/-- The parts of the state that no statement of a waiting command changes. -/
structure SameCore (s t : State) : Prop where
  cfg : t.cfg = s.cfg
  res : t.res = s.res
  fg : t.fg = s.fg
  bg : t.bg = s.bg
  msglen : t.msglen = s.msglen
  msg : t.msg = s.msg
  cmd : t.cmd = s.cmd
  busy : t.status.busy = s.status.busy
  flags : ∀ e, t.status.flag e = s.status.flag e
  commands : t.plat.commands = s.plat.commands
  rst : t.plat.rst = s.plat.rst

theorem SameCore.rfl {s : State} : SameCore s s := ⟨Eq.refl _, Eq.refl _, Eq.refl _, Eq.refl _, Eq.refl _, Eq.refl _, Eq.refl
    _, Eq.refl _, fun _ => Eq.refl _, Eq.refl _, Eq.refl _⟩

theorem SameCore.trans {s t u : State} (h : SameCore s t) (k : SameCore t u) : SameCore s u :=
  ⟨k.cfg.trans h.cfg, k.res.trans h.res, k.fg.trans h.fg, k.bg.trans h.bg, k.msglen.trans h.msglen, k.msg.trans h.msg,
    k.cmd.trans h.cmd, k.busy.trans h.busy, fun e => (k.flags e).trans (h.flags e), k.commands.trans h.commands,
    k.rst.trans h.rst⟩

theorem flag_nodev (st : Status) (v : Bool) (e : Abort) : ({ st with nodev := v } : Status).flag e = st.flag e := by
  cases e <;> rfl

theorem flag_astate (st : Status) (a : AState) (e : Abort) : ({ st with astate := a } : Status).flag e = st.flag e := by
  cases e <;> rfl

/-- No statement touches the parameters, the host-written registers, the message, the command latch, `BUSY`, a sticky flag, the
words the host presents or `rst`. -/
theorem runOp_sameCore (op : Op) (s : State) : SameCore s (runOp op s).state := by
  have lk : ∀ ch, SameCore s (lookupChar ch s).state := by
    intro ch
    obtain ⟨i, g, gl, f, tr, h⟩ := lookupChar_shape ch s
    rw [h]; constructor <;> intros <;> rfl
  cases op with
  | setAState a => exact ⟨rfl, rfl, rfl, rfl, rfl, rfl, rfl, rfl, flag_astate _ _, rfl, rfl⟩
  | lookup ch => exact lk ch
  | lookupMsg =>
    simp only [runOp]
    split
    · exact lk _
    · exact .rfl
  | flush off n =>
    obtain ⟨v, h, p, a, w, ed, fo, d, tr, k, e⟩ := flushStart_shape off n s
    simp only [runOp, e]
    exact ⟨rfl, rfl, rfl, rfl, rfl, rfl, rfl, rfl, flag_nodev _ _, rfl, rfl⟩
  | flushGrant off n =>
    obtain ⟨h, a, w, ed, fo, d, tr, k, e⟩ := flushGrant_shape off n s
    simp only [runOp, e]
    constructor <;> intros <;> rfl
  | flushHold off n | flushWrite off n =>
    obtain ⟨h, w, ed, fo, d, tr, k, e⟩ := flushWrite_shape off n s
    simp only [runOp, e]
    constructor <;> intros <;> rfl
  | flushRelease ok =>
    simp only [runOp, flushRelease_state]
    constructor <;> intros <;> rfl
  | flushEnd ok =>
    simp only [runOp, flushEnd_state]
    constructor <;> intros <;> rfl
  | fontRow row =>
    obtain ⟨g, gl, f, tr, h⟩ := readChunks_shape (chunksFrom row) s
    simp only [runOp, h]
    constructor <;> intros <;> rfl
  | pace =>
    obtain ⟨z, m, ti, tr, h⟩ := paceStart_shape s
    simp only [runOp, h]
    constructor <;> intros <;> rfl
  | paceWait =>
    obtain ⟨m, ti, tr, h⟩ := paceWait_shape s
    simp only [runOp, h]
    constructor <;> intros <;> rfl
  | checkCancel =>
    simp only [runOp, checkCancel]
    split <;> (constructor <;> intros <;> rfl)
  | _ => constructor <;> intros <;> rfl

/-! ### How a list of statements runs -/

/-- The statements `ops` lead from `s` to `t`, each of them done. -/
inductive Steps : List Op → State → State → Prop where
  | nil (s : State) : Steps [] s s
  | cons {op : Op} {ops : List Op} {s t u : State} (h : runOp op s = .done t) (k : Steps ops t u) : Steps (op :: ops) s u

theorem Steps.append {a b : List Op} {s t u : State} (h : Steps a s t) (k : Steps b t u) : Steps (a ++ b) s u := by
  induction h with
  | nil => exact k
  | cons h _ ih => exact .cons h (ih k)

/-- Statements that are done leave the rest to run. -/
theorem Steps.run_append {a : List Op} {s t : State} (h : Steps a s t) (b : List Op) : run (a ++ b) s = run b t := by
  induction h with
  | nil => rfl
  | cons h _ ih => simp only [List.cons_append, run, h, ih]

theorem Steps.run {a : List Op} {s t : State} (h : Steps a s t) : run a s = t.finish := by
  have := h.run_append []
  rwa [List.append_nil] at this

theorem Steps.sameCore {a : List Op} {s t : State} (h : Steps a s t) : SameCore s t := by
  induction h with
  | nil => exact .rfl
  | @cons op _ s t u h _ ih =>
    have := runOp_sameCore op s
    rw [h] at this
    exact this.trans ih

/-- The ways a list of statements can end: all done; one raised, after those before it were done; one waits, after those before
it were done. -/
theorem run_cases (ops : List Op) (s : State) :
    (∃ t, Steps ops s t ∧ run ops s = t.finish) ∨
    (∃ pre op post t u e, ops = pre ++ op :: post ∧ Steps pre s t ∧ runOp op t = .raise e u ∧ run ops s = u.raise e) ∨
    (∃ pre op post t u r, ops = pre ++ op :: post ∧ Steps pre s t ∧ runOp op t = .wait u r ∧
      run ops s = { u with todo := r :: post }) := by
  induction ops generalizing s with
  | nil => exact .inl ⟨s, .nil s, rfl⟩
  | cons op ops ih =>
    cases h : runOp op s with
    | done t =>
      have hr : run (op :: ops) s = run ops t := by simp only [run, h]
      rcases ih t with ⟨u, hs, hu⟩ | ⟨pre, op', post, t', u, e, h1, h2, h3, h4⟩ | ⟨pre, op', post, t', u, r, h1, h2, h3, h4⟩
      · exact .inl ⟨u, .cons h hs, hr.trans hu⟩
      · exact .inr (.inl ⟨op :: pre, op', post, t', u, e, by simp [h1], .cons h h2, h3, hr.trans h4⟩)
      · exact .inr (.inr ⟨op :: pre, op', post, t', u, r, by simp [h1], .cons h h2, h3, hr.trans h4⟩)
    | raise e u => exact .inr (.inl ⟨[], op, ops, s, u, e, rfl, .nil s, h, by simp only [run, h]⟩)
    | wait u r => exact .inr (.inr ⟨[], op, ops, s, u, r, rfl, .nil s, h, by simp only [run, h]⟩)

/-- An invariant of done statements, with what it gives at each of the three ends, holds of the end of a list of statements.
(The induction over a command, once.) -/
theorem run_induct {P : State → Prop} {Q : State → Prop} {ops : List Op} {s : State}
    (hdone : ∀ op ∈ ops, ∀ s t, P s → runOp op s = .done t → P t)
    (hfinish : ∀ s, P s → Q s.finish)
    (hraise : ∀ op ∈ ops, ∀ s t e, P s → runOp op s = .raise e t → Q (t.raise e))
    (hwait : ∀ pre op post s t r, ops = pre ++ op :: post → P s → runOp op s = .wait t r → Q { t with todo := r :: post })
    (h : P s) : Q (run ops s) := by
  have steps : ∀ {pre : List Op} {s t : State}, (∀ op ∈ pre, op ∈ ops) → Steps pre s t → P s → P t := by
    intro pre s t hsub hst
    induction hst with
    | nil => exact id
    | @cons op _ _ _ _ h _ ih =>
      intro hp
      exact ih (fun o ho => hsub o (by simp [ho])) (hdone op (hsub op (by simp)) _ _ hp h)
  rcases run_cases ops s with ⟨t, h1, h2⟩ | ⟨pre, op, post, t, u, e, h1, h2, h3, h4⟩ | ⟨pre, op, post, t, u, r, h1, h2, h3, h4⟩
  · rw [h2]; exact hfinish t (steps (fun _ ho => ho) h1 h)
  · rw [h4]
    exact hraise op (by simp [h1]) t u e (steps (fun o ho => by simp [h1, ho]) h2 h) h3
  · rw [h4]
    exact hwait pre op post t u r h1 (steps (fun o ho => by simp [h1, ho]) h2 h) h3

/-! ### What each part does when the platform answers -/

/-- A granted and answered flush inside which no clock edge falls. -/
def State.flushed (s : State) (off n : Nat) : State :=
  ((((s.sampledPresent.sampledAcquire.takeDevice.log (.acquire true)).sampledEdge.sampledWrite).writeDevice off
    (pbBytes s.pb off n)).log (.write off (pbBytes s.pb off n) true)).sampledEdge.releaseDevice.sampledEdge

theorem flush_done {s : State} (h : s.DeviceAnswers) (hp : s.plat.present.now = true) (off n : Nat) :
    runOp (.flush off n) s = .done (s.flushed off n) := by
  obtain ⟨h1, h2, h3⟩ := h
  have ha : s.sampledPresent.plat.acquire.now = .ok := h1.now
  have e1 : (s.sampledPresent.sampledAcquire.takeDevice.log (.acquire true)).NoEdge := h3
  have hw : (s.sampledPresent.sampledAcquire.takeDevice.log (.acquire true)).sampledEdge.plat.write.now = .ok := h2.now
  have e2 : ((((s.sampledPresent.sampledAcquire.takeDevice.log (.acquire true)).sampledEdge.sampledWrite).writeDevice off
    (pbBytes s.pb off n)).log (.write off (pbBytes s.pb off n) true)).NoEdge := h3.later
  have e3 : ((((s.sampledPresent.sampledAcquire.takeDevice.log (.acquire true)).sampledEdge.sampledWrite).writeDevice off
    (pbBytes s.pb off n)).log (.write off (pbBytes s.pb off n) true)).sampledEdge.releaseDevice.NoEdge := h3.later.later
  simp only [runOp, flushStart, hp, if_true, flushGrant, ha]
  rw [atEdge_go e1]
  simp only [flushWrite, hw]
  exact (atEdge_go e2 _ _).trans (atEdge_go e3 _ _)

/-- With no device a flush only samples `dev_present` and writes `NODEV` (R139). -/
theorem flush_absent {s : State} (hp : s.plat.present.now = false) (off n : Nat) :
    runOp (.flush off n) s = .done s.sampledPresent := by
  simp [runOp, flushStart, hp]

theorem flush_done_or_skipped {s : State} (h : s.DeviceAnswers) (off n : Nat) :
    runOp (.flush off n) s = .done (if s.plat.present.now then s.flushed off n else s.sampledPresent) := by
  cases hp : s.plat.present.now
  · simp [flush_absent hp]
  · simp [flush_done h hp]

/-- The reads of the chunks `rows` when every one is answered. -/
def State.chunksRead (s : State) (rows : List Nat) : State := rows.foldl State.readChunk s

theorem readChunks_done : ∀ {rows : List Nat} {s : State}, s.plat.font.All (· = .ok) →
    (∀ row ∈ rows, chunkAddr s.fontIdx row + chunkBytes ≤ s.cfg.font.size) →
    readChunks rows s = .done ((s.chunksRead rows).withGl (glyphClosed (s.chunksRead rows).glyph))
  | [], s, _, _ => rfl
  | row :: rows, s, h, hb => by
    have h1 := h.now
    have hsz : ¬ s.cfg.font.size < chunkAddr s.fontIdx row + chunkBytes := Nat.not_lt.mpr (hb row (by simp))
    have ih := readChunks_done (rows := rows) (s := s.readChunk row) h.later
      (fun r hr => by simpa using hb r (by simp [hr]))
    simp only [readChunks, h1, reduceCtorEq, if_false, State.fontFails, hsz, decide_false, Bool.or_self, ih,
      Bool.false_eq_true]
    rfl

theorem glyphIndex_le (alphabet : List Byte) (ch : Byte) : glyphIndex alphabet ch ≤ 90 := by
  have clamped : ∀ v : Int, (clamp v 0 (maxIndex : Nat)).toNat ≤ 90 := by
    intro v
    unfold clamp maxIndex
    split_ifs <;> omega
  exact clamped _

theorem chunkAddr_bound {index row : Nat} (hi : index ≤ 90) : chunkAddr index row + chunkBytes ≤ 10378 := by
  simp only [chunkAddr, chunkBytes, fontBase, glyphStride]
  omega

/-- The latch after a lookup of a chunk's bytes is the glyph of the font image (R115). -/
theorem glyphClosed_chunks (s : State) :
    glyphClosed (s.chunksRead (chunksFrom 0)).glyph = fontGlyph s.cfg.litByte s.cfg.font s.fontIdx := by
  apply cells_ext false
  intro i hi
  rw [glyphClosed, fontGlyph, cellAt_tabulate _ hi, cellAt_tabulate _ hi]
  split
  · rename_i h40
    have hrows : chunksFrom 0 = [0, 1, 2, 3, 4] := by decide
    have hrow : i / 8 = 0 ∨ i / 8 = 1 ∨ i / 8 = 2 ∨ i / 8 = 3 ∨ i / 8 = 4 := by omega
    simp only [hrows, State.chunksRead, List.foldl_cons, List.foldl_nil, readChunk_glyph, readChunk_cfg, readChunk_fontIdx,
      glyphWithChunk]
    rcases hrow with h | h | h | h | h <;> simp [cellAt_tabulate, hi, h]
    omega
  · rfl

/-- `FontLookup` when every read is answered (R115): the state, with the glyph of the font image in the latch. -/
def State.lookedUp (s : State) (ch : Byte) : State :=
  ((s.beginLookup ch).chunksRead (chunksFrom 0)).withGl
    (fontGlyph s.cfg.litByte s.cfg.font (glyphIndex s.cfg.alphabet ch))

theorem lookupChar_done {s : State} (h : s.FontAnswers) (ch : Byte) : lookupChar ch s = .done (s.lookedUp ch) := by
  have hi := glyphIndex_le s.cfg.alphabet ch
  have := readChunks_done (rows := chunksFrom 0) (s := s.beginLookup ch) h.1
    (fun row _ => Nat.le_trans (chunkAddr_bound hi) h.2)
  rw [lookupChar, this, glyphClosed_chunks]
  rfl

/-- The difference of R205 is the time that passed, if less than one turn of the counter passed. -/
theorem wrapped_difference {x d m : Nat} (hd : d < m) : ((x % m + d) % m + m - x % m % m) % m = d := by
  have hm : 0 < m := by omega
  rw [Nat.mod_mod]
  have ha : x % m < m := Nat.mod_lt _ hm
  generalize x % m = a at ha
  rcases Nat.lt_or_ge (a + d) m with h | h
  · rw [Nat.mod_eq_of_lt h]
    have e : a + d + m - a = d + m := by omega
    rw [e, Nat.add_mod_right, Nat.mod_eq_of_lt hd]
  · rw [Nat.mod_eq_sub_mod h, Nat.mod_eq_of_lt (by omega : a + d - m < m)]
    have e : a + d - m + m - a = d := by omega
    rw [e, Nat.mod_eq_of_lt hd]

/-- A pacing wait ends when `mtime` advances (R205, R231). -/
def State.paced (s : State) : State := s.startPace.readMtime.log .pace

theorem pace_done {s : State} (h : s.Ticking) : runOp .pace s = .done s.paced := by
  obtain ⟨h1, h2⟩ := h.later.now
  have hel : s.startPace.readMtime.elapsed = s.startPace.plat.ticks.now := wrapped_difference h2
  have : s.startPace.cfg.paceTicks ≤ s.startPace.readMtime.elapsed := by rw [hel]; exact h1
  simp only [runOp, paceStart, paceWait, this, if_true, State.paced]

theorem cancel_done {s : State} (h : s.NotCancelled) : runOp .checkCancel s = .done s.sampledCancel := by
  simp [runOp, checkCancel, h.now]

end Sys2Proof.Machine
end

