-- ==== Sys2Proof/Laws/Meanings.lean ====
section
/-! SUPPORT. What a meaning can do, said once: a command is one atomic update (`Atomic`) or a list of statements
(`exec_cases`); what `raise` leaves (`Raised`); and how a property of the state comes through a whole command
(`run_keeps`). -/

namespace Sys2Proof.Machine

/-! ### Acceptance and end -/

theorem ready_finish_accept {s : State} (h : s.Ready) (i : Instr) : (s.accept i).finish = s := by
  obtain ⟨h1, h2, h3⟩ := h
  cases s with | mk cfg status => cases status; simp_all [State.accept, State.finish]

theorem ready_finish (s : State) : s.finish.Ready := ⟨rfl, rfl, rfl⟩

/-- A no-op of a ready core. -/
theorem command_id {s : State} (h : s.Ready) (i : Instr) : command i id s = .next s := by
  rw [command, id, ready_finish_accept h]

/-- A command of a ready core that writes `RES` and nothing else. -/
theorem command_withRes {s : State} (h : s.Ready) (i : Instr) (v : Half) :
    command i (·.withRes v) s = .next { s with res := v } :=
  congrArg (fun t : State => (.next { t with res := v } : Out)) (ready_finish_accept h i)

/-- A command of a ready core that writes `PB` and nothing else. -/
theorem command_withPb {s : State} (h : s.Ready) (i : Instr) (pb : Vector Half 64) :
    command i (·.withPb pb) s = .next { s with pb := pb } :=
  congrArg (fun t : State => (.next { t with pb := pb } : Out)) (ready_finish_accept h i)

/-! ### `raise` (R196) -/

/-- What the entry of an abort event leaves. -/
structure Raised (e : Abort) (s t : State) : Prop where
  cfg : t.cfg = s.cfg
  res : t.res = s.res
  fg : t.fg = s.fg
  bg : t.bg = s.bg
  msglen : t.msglen = s.msglen
  msg : t.msg = s.msg
  pb : t.pb = s.pb
  gl : t.gl = s.gl
  schr : t.schr = s.schr
  scol : t.scol = s.scol
  held : t.held = s.held
  dev : t.dev = s.dev
  plat : t.plat = s.plat
  trace : t.trace = s.trace
  nodev : t.status.nodev = s.status.nodev
  astate : t.status.astate = if s.scrolling then .idle else s.status.astate
  flag : t.status.flag e = true
  flags : ∀ f, s.status.flag f = true → t.status.flag f = true
  ready : t.Ready

theorem raised (e : Abort) (s : State) : Raised e s (s.raise e) := by
  have hs : (s.withStatus (s.status.raiseFlag e)).scrolling = s.scrolling := rfl
  simp only [State.raise, hs]
  cases hk : s.scrolling <;> simp only [if_true, if_false, Bool.false_eq_true]
  all_goals
    constructor
    all_goals first
      | rfl
      | exact ready_finish _
      | (cases e <;> rfl)
      | (simp only [*]; cases e <;> rfl)
      | (intro f hf; cases e <;> cases f <;> first | rfl | exact hf)

/-! ### A property that comes through a command -/

/-- A property that every statement, the end, every abort and a wait keep, a whole list of statements keeps. -/
theorem run_keeps {P : State → Prop} {ops : List Op} (hop : ∀ op ∈ ops, ∀ a, P a → P (runOp op a).state)
    (hfinish : ∀ a, P a → P a.finish) (hraise : ∀ a e, P a → P (a.raise e))
    (hwait : ∀ a todo, P a → P { a with todo := todo }) {s : State} (h : P s) : P (run ops s) :=
  run_induct (P := P) (Q := P)
    (fun op ho a b hp hb => by have := hop op ho a hp; rwa [hb] at this)
    hfinish
    (fun op ho a b e hp hb => by have := hop op ho a hp; rw [hb] at this; exact hraise _ _ this)
    (fun pre op post a b r e hp hb => by have := hop op (by simp [e]) a hp; rw [hb] at this; exact hwait _ _ this) h

theorem run_cfg (ops : List Op) (s : State) : (run ops s).cfg = s.cfg :=
  run_keeps (P := fun t => t.cfg = s.cfg) (fun op _ a h => (runOp_sameCore op a).cfg.trans h) (fun _ h => h)
    (fun a e h => (raised e a).cfg.trans h) (fun _ _ h => h) rfl

theorem run_commands (ops : List Op) (s : State) : (run ops s).plat.commands = s.plat.commands :=
  run_keeps (P := fun t => t.plat.commands = s.plat.commands) (fun op _ a h => (runOp_sameCore op a).commands.trans h)
    (fun _ h => h) (fun a e h => (congrArg (·.commands) (raised e a).plat).trans h) (fun _ _ h => h) rfl

/-! ### Which statement touches what -/

/-- The statements that read the font. -/
def Op.readsFont : Op → Bool
  | .lookup _ | .lookupMsg | .fontRow _ => true
  | _ => false

/-- The statements that reach the device. -/
def Op.usesDevice : Op → Bool
  | .flush _ _ | .flushGrant _ _ | .flushHold _ _ | .flushWrite _ _ | .flushRelease _ | .flushEnd _ => true
  | _ => false

/-- The statements that write `PB`. -/
def Op.writesPb : Op → Bool
  | .fillBg | .paint _ | .shift _ | .insert _ => true
  | _ => false

/-- The statements of a `SCROLL` alone: those that write `ASTATE`, `SCHR` or `SCOL`, and the cancellation check. -/
def Op.movesAnimator : Op → Bool
  | .setAState _ | .setSchr _ | .setScol _ | .checkCancel => true
  | _ => false

theorem runOp_gl {op : Op} (h : op.readsFont = false) (s : State) : (runOp op s).state.gl = s.gl := by
  cases op <;> first | rfl | (cases h; done) | skip
  case flush off n => obtain ⟨_, _, _, _, _, _, _, _, _, _, e⟩ := flushStart_shape off n s; simp only [runOp, e]
  case flushGrant off n => obtain ⟨_, _, _, _, _, _, _, _, e⟩ := flushGrant_shape off n s; simp only [runOp, e]
  case flushHold off n => obtain ⟨_, _, _, _, _, _, _, e⟩ := flushWrite_shape off n s; simp only [runOp, e]
  case flushWrite off n => obtain ⟨_, _, _, _, _, _, _, e⟩ := flushWrite_shape off n s; simp only [runOp, e]
  case flushRelease ok => simp [runOp]
  case flushEnd ok => simp [runOp]
  case pace => obtain ⟨_, _, _, _, e⟩ := paceStart_shape s; simp only [runOp, e]
  case paceWait => obtain ⟨_, _, _, e⟩ := paceWait_shape s; simp only [runOp, e]
  case checkCancel => simp only [runOp, checkCancel]; split <;> rfl

theorem runOp_device {op : Op} (h : op.usesDevice = false) (s : State) :
    (runOp op s).state.dev = s.dev ∧ (runOp op s).state.status.nodev = s.status.nodev ∧ (runOp op s).state.held = s.held := by
  cases op <;> first | exact ⟨rfl, rfl, rfl⟩ | (cases h; done) | skip
  case lookup ch => obtain ⟨_, _, _, _, _, e⟩ := lookupChar_shape ch s; simp only [runOp, e, and_self]
  case lookupMsg =>
    simp only [runOp]
    split
    · obtain ⟨_, _, _, _, _, e⟩ := lookupChar_shape (s.msgAt s.schr.toNat) s; simp only [e, and_self]
    · exact ⟨rfl, rfl, rfl⟩
  case fontRow row => obtain ⟨_, _, _, _, e⟩ := readChunks_shape (chunksFrom row) s; simp only [runOp, e, and_self]
  case pace => obtain ⟨_, _, _, _, e⟩ := paceStart_shape s; simp only [runOp, e, and_self]
  case paceWait => obtain ⟨_, _, _, e⟩ := paceWait_shape s; simp only [runOp, e, and_self]
  case checkCancel => simp only [runOp, checkCancel]; split <;> exact ⟨rfl, rfl, rfl⟩

theorem runOp_pb {op : Op} (h : op.writesPb = false) (s : State) : (runOp op s).state.pb = s.pb := by
  cases op <;> first | rfl | (cases h; done) | skip
  case lookup ch => obtain ⟨_, _, _, _, _, e⟩ := lookupChar_shape ch s; simp only [runOp, e]
  case lookupMsg =>
    simp only [runOp]
    split
    · obtain ⟨_, _, _, _, _, e⟩ := lookupChar_shape (s.msgAt s.schr.toNat) s; simp only [e]
    · rfl
  case fontRow row => obtain ⟨_, _, _, _, e⟩ := readChunks_shape (chunksFrom row) s; simp only [runOp, e]
  case flush off n => obtain ⟨_, _, _, _, _, _, _, _, _, _, e⟩ := flushStart_shape off n s; simp only [runOp, e]
  case flushGrant off n => obtain ⟨_, _, _, _, _, _, _, _, e⟩ := flushGrant_shape off n s; simp only [runOp, e]
  case flushHold off n => obtain ⟨_, _, _, _, _, _, _, e⟩ := flushWrite_shape off n s; simp only [runOp, e]
  case flushWrite off n => obtain ⟨_, _, _, _, _, _, _, e⟩ := flushWrite_shape off n s; simp only [runOp, e]
  case flushRelease ok => simp [runOp]
  case flushEnd ok => simp [runOp]
  case pace => obtain ⟨_, _, _, _, e⟩ := paceStart_shape s; simp only [runOp, e]
  case paceWait => obtain ⟨_, _, _, e⟩ := paceWait_shape s; simp only [runOp, e]
  case checkCancel => simp only [runOp, checkCancel]; split <;> rfl

theorem runOp_animator {op : Op} (h : op.movesAnimator = false) (s : State) :
    (runOp op s).state.schr = s.schr ∧ (runOp op s).state.scol = s.scol ∧
    (runOp op s).state.status.astate = s.status.astate := by
  cases op <;> first | exact ⟨rfl, rfl, rfl⟩ | (cases h; done) | skip
  case lookup ch => obtain ⟨_, _, _, _, _, e⟩ := lookupChar_shape ch s; simp only [runOp, e, and_self]
  case lookupMsg =>
    simp only [runOp]
    split
    · obtain ⟨_, _, _, _, _, e⟩ := lookupChar_shape (s.msgAt s.schr.toNat) s; simp only [e, and_self]
    · exact ⟨rfl, rfl, rfl⟩
  case fontRow row => obtain ⟨_, _, _, _, e⟩ := readChunks_shape (chunksFrom row) s; simp only [runOp, e, and_self]
  case flush off n => obtain ⟨_, _, _, _, _, _, _, _, _, _, e⟩ := flushStart_shape off n s; simp only [runOp, e, and_self]
  case flushGrant off n => obtain ⟨_, _, _, _, _, _, _, _, e⟩ := flushGrant_shape off n s; simp only [runOp, e, and_self]
  case flushHold off n => obtain ⟨_, _, _, _, _, _, _, e⟩ := flushWrite_shape off n s; simp only [runOp, e, and_self]
  case flushWrite off n => obtain ⟨_, _, _, _, _, _, _, e⟩ := flushWrite_shape off n s; simp only [runOp, e, and_self]
  case flushRelease ok => simp [runOp]
  case flushEnd ok => simp [runOp]
  case pace => obtain ⟨_, _, _, _, e⟩ := paceStart_shape s; simp only [runOp, e, and_self]
  case paceWait => obtain ⟨_, _, _, e⟩ := paceWait_shape s; simp only [runOp, e, and_self]

/-! ### Atomic commands -/

/-- What one atomic update by the command `i` leaves: everything, but for the parts its "written by" columns name; it looks
neither at `cancel` nor at the time; and it keeps `MSGLEN` within `MSG_MAX`. -/
structure Atomic (i : Instr) (f : State → State) (a : State) : Prop where
  cfg : (f a).cfg = a.cfg
  dev : (f a).dev = a.dev
  nodev : (f a).status.nodev = a.status.nodev
  held : (f a).held = a.held
  gl : (f a).gl = a.gl
  schr : (f a).schr = a.schr
  scol : (f a).scol = a.scol
  astate : (f a).status.astate = a.status.astate
  cmd : (f a).cmd = a.cmd
  todo : (f a).todo = a.todo
  plat : (f a).plat = a.plat
  trace : (f a).trace = a.trace
  cancel : ∀ c, f { a with plat := { a.plat with cancel := c } } = { f a with plat := { a.plat with cancel := c } }
  time : ∀ m z ti, f { a with mtime := m, t0 := z, plat := { a.plat with ticks := ti } } =
    { f a with mtime := m, t0 := z, plat := { a.plat with ticks := ti } }
  res : writesRes i = false → (f a).res = a.res
  fg : writesFg i = false → (f a).fg = a.fg
  bg : writesBg i = false → (f a).bg = a.bg
  msg : writesMsg i = false → (f a).msglen = a.msglen ∧ (f a).msg = a.msg
  pb : writesPb i = false → (f a).pb = a.pb
  status : isClrst i = false → (f a).status = a.status
  msgInv : a.MsgInv → (f a).MsgInv

theorem atomic_id (i : Instr) (a : State) : Atomic i id a := by
  constructor <;> intros <;> first | rfl | exact ⟨rfl, rfl⟩ | assumption

theorem atomic_withRes {i : Instr} (h : writesRes i = true) (g : State → Half)
    (hc : ∀ a c, g { a with plat := { a.plat with cancel := c } } = g a)
    (ht : ∀ a m z ti, g { a with mtime := m, t0 := z, plat := { a.plat with ticks := ti } } = g a) (a : State) :
    Atomic i (fun t => t.withRes (g t)) a := by
  constructor
  case cancel => intro c; exact congrArg (fun v => State.withRes { a with plat := { a.plat with cancel := c } } v) (hc a c)
  case time =>
    intro m z ti
    exact congrArg (fun v => State.withRes { a with mtime := m, t0 := z, plat := { a.plat with ticks := ti } } v) (ht a m z ti)
  case res => intro h'; rw [h] at h'; cases h'
  all_goals intros; first | rfl | exact ⟨rfl, rfl⟩ | assumption

theorem atomic_withPb {i : Instr} (h : writesPb i = true) (g : State → Vector Half 64)
    (hc : ∀ a c, g { a with plat := { a.plat with cancel := c } } = g a)
    (ht : ∀ a m z ti, g { a with mtime := m, t0 := z, plat := { a.plat with ticks := ti } } = g a) (a : State) :
    Atomic i (fun t => t.withPb (g t)) a := by
  constructor
  case cancel => intro c; exact congrArg (fun v => State.withPb { a with plat := { a.plat with cancel := c } } v) (hc a c)
  case time =>
    intro m z ti
    exact congrArg (fun v => State.withPb { a with mtime := m, t0 := z, plat := { a.plat with ticks := ti } } v) (ht a m z ti)
  case pb => intro h'; rw [h] at h'; cases h'
  all_goals intros; first | rfl | exact ⟨rfl, rfl⟩ | assumption

/-- The update of a command whose operand is checked is atomic if it is for every operand in the domain. -/
theorem atomic_checked {α : Type} {i : Instr} {f : α → State → State} (h : ∀ x a, Atomic i (f x) a) (operand : Option α)
    (a : State) : Atomic i (match operand with | some x => f x | none => id) a := by
  cases operand
  · exact atomic_id i a
  · exact h _ a

theorem atomic_checked_res {α : Type} {i : Instr} (h : writesRes i = true) (operand : Option α) (g : α → State → Half)
    (hc : ∀ x a c, g x { a with plat := { a.plat with cancel := c } } = g x a)
    (ht : ∀ x a m z ti, g x { a with mtime := m, t0 := z, plat := { a.plat with ticks := ti } } = g x a) (a : State) :
    Atomic i (match operand with | some x => fun t => t.withRes (g x t) | none => id) a :=
  atomic_checked (fun x => atomic_withRes h (g x) (hc x) (ht x)) operand a

theorem atomic_setPb {i : Instr} (h : writesPb i = true) (k : Nat) (v : Half) (a : State) : Atomic i (·.setPb k v) a :=
  atomic_withPb h (fun t => setCell t.pb k v) (fun _ _ => rfl) (fun _ _ _ _ => rfl) a

theorem atomic_pbset (x y : BitVec 4) (v : Half) (p : Nat × Nat) (a : State) :
    Atomic (.pbset x y v) (·.setPb (p.2 * 8 + p.1) v) a :=
  atomic_setPb rfl (p.2 * 8 + p.1) v a

theorem atomic_pbsetl (off : Byte) (v : Half) (p : Nat) (a : State) : Atomic (.pbsetl off v) (·.setPb p v) a :=
  atomic_setPb rfl p v a

theorem atomic_setfg (v : Half) (a : State) : Atomic (.setfg v) (·.withFg v) a := by
  constructor
  case fg => intro h; cases h
  all_goals intros; first | rfl | exact ⟨rfl, rfl⟩ | assumption

theorem atomic_setfgr (a : State) : Atomic .setfgr (fun t => t.withFg t.res) a := by
  constructor
  case fg => intro h; cases h
  all_goals intros; first | rfl | exact ⟨rfl, rfl⟩ | assumption

theorem atomic_setbg (v : Half) (a : State) : Atomic (.setbg v) (·.withBg v) a := by
  constructor
  case bg => intro h; cases h
  all_goals intros; first | rfl | exact ⟨rfl, rfl⟩ | assumption

theorem atomic_setbgr (a : State) : Atomic .setbgr (fun t => t.withBg t.res) a := by
  constructor
  case bg => intro h; cases h
  all_goals intros; first | rfl | exact ⟨rfl, rfl⟩ | assumption

theorem atomic_clrst (mask : Half) (a : State) : Atomic (.clrst mask) (fun t => t.withStatus (t.status.clear mask)) a := by
  constructor
  case status => intro h; cases h
  all_goals intros; first | rfl | exact ⟨rfl, rfl⟩ | assumption

theorem atomic_msgclr (a : State) : Atomic .msgclr (·.clearMsg) a := by
  constructor
  case msg => intro h; cases h
  case msgInv => intro h; exact ⟨Nat.zero_le _, h.2⟩
  all_goals intros; rfl

theorem atomic_msgput (ch : Byte) (a : State) :
    Atomic (.msgput ch) (fun t => if t.msglen.toNat = t.cfg.msgMax then t else t.appendMsg ch) a := by
  by_cases h : a.msglen.toNat = a.cfg.msgMax
  · constructor
    case msg => intro h; cases h
    all_goals intros; simp only [h, if_true]; try first | rfl | assumption
  · constructor
    case msg => intro h; cases h
    case msgInv =>
      intro hm
      obtain ⟨h1, h2⟩ := hm
      simp only [h, if_false]
      refine ⟨?_, h2⟩
      show (a.msglen + 1).toNat ≤ a.cfg.msgMax
      have : (1 : Byte).toNat = 1 := rfl
      rw [BitVec.toNat_add, this]
      omega
    all_goals intros; simp only [h, if_false]; rfl

/-! ### Every command -/

/-- A statement touches only what the tables say its command touches; it is no statement of a wait, writes in a shape of R47,
and moves the cursor within its range. -/
def Op.PartOf (op : Op) (i : Instr) : Prop :=
  (op.readsFont = true → usesFont i = true) ∧ (op.usesDevice = true → Machine.usesDevice i = true) ∧
  (op.writesPb = true → Machine.writesPb i = true) ∧ (op.movesAnimator = true → isScroll i = true) ∧
  op.isResume = false ∧ op.ShapeOk ∧ op.CursorOk

/-- The statements of a `SCROLL`. -/
theorem mem_scrollOps {o : Orient} {len : Nat} {op : Op} (h : op ∈ scrollOps o len) :
    op ∈ scrollStart ∨ (∃ k, k < len + 2 ∧ op = .setSchr k) ∨ op = .lookupMsg ∨ op = .setBlank ∨
    (∃ col, col < 6 ∧ op ∈ stepOps o col) ∨ op = .setAState .done := by
  simp only [scrollOps, charOps, List.mem_append, List.mem_flatMap, List.mem_range, List.mem_cons, List.not_mem_nil,
    or_false, trailingChars, colsPerChar] at h
  rcases h with (h | ⟨k, hk, (h | h | h) | ⟨col, hc, h⟩⟩) | h
  · exact .inl h
  · exact .inr (.inl ⟨k, hk, h⟩)
  · exact .inr (.inr (.inl h))
  · exact .inr (.inr (.inr (.inl h)))
  · exact .inr (.inr (.inr (.inr (.inl ⟨col, hc, h⟩))))
  · exact .inr (.inr (.inr (.inr (.inr h))))

theorem partOf_lookup {i : Instr} (h : usesFont i = true) (ch : Byte) : (Op.lookup ch).PartOf i :=
  ⟨fun _ => h, nofun, nofun, nofun, rfl, trivial, trivial⟩

theorem partOf_flush {i : Instr} (h : Machine.usesDevice i = true) {off n : Nat} (hs : writeShape off n) :
    (Op.flush off n).PartOf i :=
  ⟨nofun, fun _ => h, nofun, nofun, rfl, hs, trivial⟩

theorem partOf_fullFlush {i : Instr} (h : Machine.usesDevice i = true) : fullFlush.PartOf i :=
  partOf_flush h (.inl ⟨rfl, rfl⟩)

theorem partOf_cellFlush {i : Instr} (h : Machine.usesDevice i = true) {cell : Nat} (hc : cell < 64) :
    (cellFlush cell).PartOf i :=
  partOf_flush h (.inr ⟨cell, hc, rfl, rfl⟩)

theorem partOf_paint {i : Instr} (h : Machine.writesPb i = true) (o : Orient) : (Op.paint o).PartOf i :=
  ⟨nofun, nofun, fun _ => h, nofun, rfl, trivial, trivial⟩

/-- A statement of a `SCROLL`, whose tables name everything. -/
theorem partOf_scroll {o : Orient} {op : Op} (h : op.isResume = false) (hs : op.ShapeOk) (hc : op.CursorOk) :
    op.PartOf (.scroll o) :=
  ⟨fun _ => rfl, fun _ => rfl, fun _ => rfl, fun _ => rfl, h, hs, hc⟩

theorem scrollOps_partOf {o : Orient} {len : Nat} (hl : len ≤ 255) {op : Op} (h : op ∈ scrollOps o len) :
    op.PartOf (.scroll o) := by
  have hflush : fullFlush.PartOf (.scroll o) := partOf_fullFlush rfl
  rcases mem_scrollOps h with h | ⟨k, hk, rfl⟩ | rfl | rfl | ⟨col, hc, h⟩ | rfl
  · simp only [scrollStart, List.mem_cons, List.not_mem_nil, or_false] at h
    rcases h with rfl | rfl | rfl | rfl | rfl | rfl | rfl <;>
      first | exact hflush | exact partOf_scroll rfl trivial trivial | exact partOf_scroll rfl trivial (Nat.zero_le _)
  · exact partOf_scroll rfl trivial (show k ≤ 256 by omega)
  · exact partOf_scroll rfl trivial trivial
  · exact partOf_scroll rfl trivial trivial
  · simp only [stepOps, List.mem_cons, List.not_mem_nil, or_false] at h
    rcases h with rfl | rfl | rfl | rfl | rfl | rfl <;>
      first | exact hflush | exact partOf_scroll rfl trivial trivial | exact partOf_scroll rfl trivial (show col ≤ 5 by omega)
  · exact partOf_scroll rfl trivial trivial

/-- A statement that waits goes on from a statement of a wait, of the same write shape. -/
theorem wait_resume {op r : Op} {s t : State} (h : runOp op s = .wait t r) :
    r.isResume = true ∧ r.CursorOk ∧ (op.ShapeOk → r.ShapeOk) := by
  have rc : ∀ rows (s : State), readChunks rows s = .wait t r → r.isResume = true ∧ r.CursorOk ∧ r.ShapeOk := by
    intro rows
    induction rows with
    | nil => intro s h; simp [readChunks] at h
    | cons row rows ih =>
      intro s h
      simp only [readChunks] at h
      split at h
      · cases h; exact ⟨rfl, trivial, trivial⟩
      · split at h
        · cases h
        · exact ih _ h
  have fl : ∀ {off n} {x : OpResult}, x.OfFlush off n → x = .wait t r → r.isResume = true ∧ r.CursorOk ∧
      (writeShape off n → r.ShapeOk) := by
    rintro off n _ hx rfl
    cases r <;> first
      | exact ⟨rfl, trivial, fun _ => trivial⟩
      | exact hx.elim
      | (obtain ⟨rfl, rfl⟩ := hx; exact ⟨rfl, trivial, id⟩)
  have pw : ∀ s : State, paceWait s = .wait t r → r.isResume = true ∧ r.CursorOk ∧ r.ShapeOk := by
    intro s h
    simp only [paceWait] at h
    split at h <;> cases h
    exact ⟨rfl, trivial, trivial⟩
  have weaken {p q c : Prop} (h : p ∧ q ∧ c) {d : Prop} : p ∧ q ∧ (d → c) := ⟨h.1, h.2.1, fun _ => h.2.2⟩
  cases op <;> simp only [runOp] at h <;> try cases h
  case lookup => exact weaken (rc _ _ h)
  case lookupMsg =>
    split at h
    · exact weaken (rc _ _ h)
    · cases h
  case flush off n => exact fl (ofFlush_start off n s) h
  case pace => exact weaken (pw _ h)
  case paceWait => exact weaken (pw _ h)
  case checkCancel => simp only [checkCancel] at h; split at h <;> cases h
  case fontRow => exact weaken (rc _ _ h)
  case flushGrant off n => exact fl (ofFlush_grant off n s) h
  case flushHold off n => exact fl (ofFlush_write off n s) h
  case flushWrite off n => exact fl (ofFlush_write off n s) h
  case flushRelease ok => exact (fl (ofFlush_release 0 128 ok s) h).imp_right fun h' => ⟨h'.1, fun _ => h'.2 (.inl ⟨rfl, rfl⟩)⟩
  case flushEnd ok => cases ok <;> cases h

theorem cellIndex_lt {b : Byte} {i : Nat} (h : cellIndex b = some i) : i < 64 := by
  unfold cellIndex at h
  split at h <;> cases h
  omega

theorem pixelOffset_lt {x y : BitVec 4} {p : Nat × Nat} (h : coords x y = some p) (o : Orient) : pixelOffset p.1 p.2 o < 64 := by
  unfold coords at h
  split at h <;> cases h
  cases o <;> simp only [pixelOffset] <;> omega

/-- A command is one atomic update, or a list of statements (`SETPIX` after it has written its buffer cell). -/
theorem exec_cases (i : Instr) (s : State) :
    (∃ f : State → State, exec i s = command i f s ∧ ∀ a, Atomic i f a) ∨
    (∃ ops, exec i s = execOps i ops s ∧ ∀ op ∈ ops, op.PartOf i) ∨
    ∃ o x y v p, p < 64 ∧ i = .setpix o x y v ∧ exec i s = execOps i [cellFlush p] (s.setPb p v) := by
  cases i with
  | encrgb r g b => exact .inl ⟨_, rfl, atomic_withRes rfl (fun _ => pack r g b) (fun _ _ => rfl) (fun _ _ _ _ => rfl)⟩
  | encname n => exact .inl ⟨_, rfl, atomic_withRes rfl (fun _ => palette n) (fun _ _ => rfl) (fun _ _ _ _ => rfl)⟩
  | decode hi lo => exact .inl ⟨_, rfl, atomic_withRes rfl (fun _ => joinBytes hi lo) (fun _ _ => rfl) (fun _ _ _ _ => rfl)⟩
  | setfg v => exact .inl ⟨_, rfl, atomic_setfg v⟩
  | setbg v => exact .inl ⟨_, rfl, atomic_setbg v⟩
  | setfgr => exact .inl ⟨_, rfl, atomic_setfgr⟩
  | setbgr => exact .inl ⟨_, rfl, atomic_setbgr⟩
  | pixoff o x y =>
    exact .inl ⟨_, rfl, atomic_checked_res rfl (coords x y) (fun p _ => BitVec.ofNat 16 (pixelOffset p.1 p.2 o))
      (fun _ _ _ => rfl) (fun _ _ _ _ _ => rfl)⟩
  | glyoff o scan =>
    exact .inl ⟨_, rfl, atomic_checked_res rfl (cellIndex scan) (fun i t => glyphOffsetWord (glyphOffset t.cfg.g270 i o))
      (fun _ _ _ => rfl) (fun _ _ _ _ _ => rfl)⟩
  | glyidx ch =>
    exact .inl ⟨_, rfl, atomic_withRes rfl (fun t => BitVec.ofNat 16 (glyphIndex t.cfg.alphabet ch))
      (fun _ _ => rfl) (fun _ _ _ _ => rfl)⟩
  | glyaddr row ch =>
    exact .inl ⟨_, rfl, atomic_checked_res rfl (chunkRow row)
      (fun r t => BitVec.ofNat 16 (chunkAddr (glyphIndex t.cfg.alphabet ch) r)) (fun _ _ _ => rfl) (fun _ _ _ _ _ => rfl)⟩
  | lookup ch => exact .inr (.inl ⟨_, rfl, by simpa using partOf_lookup rfl ch⟩)
  | glybit g =>
    exact .inl ⟨_, rfl, atomic_checked_res rfl (cellIndex g) (fun i t => if t.glAt i then 1 else 0)
      (fun _ _ _ => rfl) (fun _ _ _ _ _ => rfl)⟩
  | pbset x y v => exact .inl ⟨_, rfl, atomic_checked (atomic_pbset x y v) (coords x y)⟩
  | pbsetl off v => exact .inl ⟨_, rfl, atomic_checked (atomic_pbsetl off v) (cellIndex off)⟩
  | pbfill v => exact .inl ⟨_, rfl, atomic_withPb rfl (fun _ => fillCells v) (fun _ _ => rfl) (fun _ _ _ _ => rfl)⟩
  | pbget off =>
    exact .inl ⟨_, rfl, atomic_checked_res rfl (cellIndex off) (fun i t => t.pbAt i)
      (fun _ _ _ => rfl) (fun _ _ _ _ _ => rfl)⟩
  | pbbyte idx =>
    exact .inl ⟨_, rfl, atomic_checked_res rfl (byteIndex idx) (fun i t => (pbByte t.pb i).setWidth 16)
      (fun _ _ _ => rfl) (fun _ _ _ _ _ => rfl)⟩
  | flush => exact .inr (.inl ⟨_, rfl, by simpa using partOf_fullFlush rfl⟩)
  | flush1 cell =>
    simp only [exec, execFlush1]
    split
    · exact .inr (.inl ⟨_, rfl, by simpa using partOf_cellFlush rfl (cellIndex_lt ‹_›)⟩)
    · exact .inl ⟨_, rfl, atomic_id _⟩
  | setpix o x y v =>
    simp only [exec, execSetpix]
    split
    · exact .inr (.inr ⟨_, _, _, _, _, pixelOffset_lt ‹_› o, rfl, rfl⟩)
    · exact .inl ⟨_, rfl, atomic_id _⟩
  | msgclr => exact .inl ⟨_, rfl, atomic_msgclr⟩
  | msgput ch => exact .inl ⟨_, rfl, atomic_msgput ch⟩
  | static o =>
    simp only [exec, execStatic]
    split
    · exact .inr (.inl ⟨_, rfl, by
        simpa [staticOps] using ⟨partOf_lookup rfl _, partOf_paint rfl o, partOf_fullFlush rfl⟩⟩)
    · exact .inl ⟨_, rfl, atomic_id _⟩
  | scroll o => exact .inr (.inl ⟨_, rfl, fun _ h => scrollOps_partOf (by have := s.msglen.isLt; omega) h⟩)
  | clrst mask => exact .inl ⟨_, rfl, atomic_clrst mask⟩

/-! ### The step -/

/-- What a property must survive for every step to keep it: the start of a step, a word taken from the host, a reset, the
resumption of a waiting command, a command accepted by a core that is not busy, and a word that is no command. -/
theorem step_keeps {Inv : State → Prop}
    (hbegun : ∀ s, Inv s → Inv s.begun)
    (hfetch : ∀ s ws, Inv s → Inv { s with plat := { s.plat with commands := ws } })
    (hreset : ∀ s, Inv s → Inv s.resetCore)
    (hresume : ∀ s, Inv s → s.status.busy = true → Inv s.resume)
    (hexec : ∀ i s t, Inv s → s.status.busy = false → exec i s = .next t → Inv t)
    (hillegal : ∀ s, Inv s → s.status.busy = false → Inv s.acceptIllegal)
    {s t : State} (h : Inv s) (hs : step s = .next t) : Inv t := by
  have h' : Inv s.begun := hbegun s h
  unfold step at hs
  split at hs
  · cases hs; exact hreset _ h'
  · split at hs
    · cases hs; exact hresume _ h' (by simpa using ‹s.status.busy = true›)
    · rename_i hb
      have hb : s.begun.status.busy = false := by simpa using hb
      split at hs
      · cases hs; exact h'
      · rename_i w u hu
        have hu' : ∃ ws, u = { s.begun with plat := { s.begun.plat with commands := ws } } := by
          unfold State.fetch at hu
          split at hu
          · cases hu
          · cases hu; exact ⟨_, rfl⟩
        obtain ⟨ws, rfl⟩ := hu'
        split at hs
        · exact hexec _ _ _ (hfetch _ ws h') hb hs
        · cases hs; exact hillegal _ (hfetch _ ws h') hb

end Sys2Proof.Machine
end

