-- ==== Sys2Proof/Laws/Memory.lean ====
section
/-! SUPPORT. The laws of the device list: a read inside and outside a write, and that every operation keeps the canonical
form. -/

namespace Sys2Proof.Machine


/-- The canonical form as a statement about pairs. -/
theorem rising_iff (m : List Host.Cell) : Memory.rising m = true ↔ m.Pairwise fun c d => c.1 < d.1 := by
  induction m with
  | nil => simp [Memory.rising]
  | cons c m ih =>
    cases m with
    | nil => simp [Memory.rising]
    | cons d m =>
      simp only [Memory.rising, Bool.and_eq_true, decide_eq_true_eq, ih, List.pairwise_cons]
      constructor
      · rintro ⟨h, hd, hp⟩
        refine ⟨?_, hd, hp⟩
        rintro e (_ | ⟨_, he⟩)
        · exact h
        · exact Nat.lt_trans h (hd _ he)
      · rintro ⟨h, hd, hp⟩
        exact ⟨h _ (by simp), hd, hp⟩

theorem wf_iff (m : List Host.Cell) :
    Memory.wf m = true ↔ (m.Pairwise fun c d => c.1 < d.1) ∧ ∀ c ∈ m, c.1 < devBytes := by
  simp [Memory.wf, rising_iff]

theorem mem_cellsFrom {c : Host.Cell} : ∀ {a : Nat} {bs : List Byte}, c ∈ Memory.cellsFrom a bs → a ≤ c.1 ∧ c.1 < a + bs.length
  | a, [], h => by simp [Memory.cellsFrom] at h
  | a, b :: bs, h => by
    simp only [Memory.cellsFrom, List.mem_cons] at h
    rcases h with rfl | h
    · simp
    · have := mem_cellsFrom h
      simp only [List.length_cons]
      omega

theorem cellsFrom_pairwise : ∀ (a : Nat) (bs : List Byte), (Memory.cellsFrom a bs).Pairwise fun c d => c.1 < d.1
  | _, [] => by simp [Memory.cellsFrom]
  | a, b :: bs => by
    simp only [Memory.cellsFrom, List.pairwise_cons]
    exact ⟨fun c hc => (mem_cellsFrom hc).1, cellsFrom_pairwise _ _⟩

theorem read_append (m m' : List Host.Cell) (a : Nat) :
    Memory.read (m ++ m') a = (Memory.read m a).or (Memory.read m' a) := by
  induction m with
  | nil => simp [Memory.read]
  | cons c m ih =>
    simp only [List.cons_append, Memory.read]
    split <;> simp [ih]

theorem read_filter (m : List Host.Cell) (p : Nat → Bool) (a : Nat) :
    Memory.read (m.filter fun c => p c.1) a = if p a then Memory.read m a else none := by
  induction m with
  | nil => simp [Memory.read]
  | cons c m ih =>
    by_cases hp : p c.1 <;> by_cases hc : c.1 = a
    · subst hc; simp [Memory.read, hp]
    · simp [Memory.read, hp, hc, ih]
    · subst hc; simp [hp, ih]
    · simp [Memory.read, hp, hc, ih]

theorem read_cellsFrom : ∀ (a : Nat) (bs : List Byte) (x : Nat),
    Memory.read (Memory.cellsFrom a bs) x = if a ≤ x then bs[x - a]? else none
  | a, [], x => by simp [Memory.cellsFrom, Memory.read]
  | a, b :: bs, x => by
    simp only [Memory.cellsFrom, Memory.read, read_cellsFrom (a + 1) bs x]
    by_cases h : a = x
    · simp [h]
    · by_cases hle : a ≤ x
      · have h1 : a + 1 ≤ x := by omega
        have h2 : x - a = x - (a + 1) + 1 := by omega
        simp [h, hle, h1, h2]
      · have h1 : ¬ a + 1 ≤ x := by omega
        simp [h, hle, h1]

/-- A byte of the written range reads as the byte written there. -/
theorem read_writeBytes_mem (m : List Host.Cell) {a x : Nat} {bs : List Byte} (h : a ≤ x) (h' : x < a + bs.length) :
    Memory.read (Memory.writeBytes m a bs) x = bs[x - a]? := by
  have e1 := read_filter m (fun y => decide (y < a)) x
  have e2 := read_cellsFrom a bs x
  have hx : ¬ x < a := by omega
  have hi : x - a < bs.length := by omega
  simp only [hx, decide_false, if_pos h, Bool.false_eq_true, if_false] at e1 e2
  rw [Memory.writeBytes, read_append, read_append, e1, e2]
  simp [hi]

/-- A byte outside the written range reads as before (R45). -/
theorem read_writeBytes_ne (m : List Host.Cell) {a x : Nat} {bs : List Byte} (h : x < a ∨ a + bs.length ≤ x) :
    Memory.read (Memory.writeBytes m a bs) x = Memory.read m x := by
  have e1 := read_filter m (fun y => decide (y < a)) x
  have e2 := read_cellsFrom a bs x
  have e3 := read_filter m (fun y => decide (a + bs.length ≤ y)) x
  rw [Memory.writeBytes, read_append, read_append, e1, e2, e3]
  rcases h with h | h
  · have h1 : ¬ a ≤ x := by omega
    have h2 : ¬ a + bs.length ≤ x := by omega
    simp [h, h1, h2]
  · have h1 : ¬ x < a := by omega
    have h2 : bs.length ≤ x - a := by omega
    simp [h, h1, h2]

/-- A write inside the 128 bytes keeps the canonical form. -/
theorem wf_writeBytes {m : List Host.Cell} {a : Nat} {bs : List Byte} (hm : Memory.wf m = true) (h : a + bs.length ≤ devBytes) :
    Memory.wf (Memory.writeBytes m a bs) = true := by
  rw [wf_iff] at hm ⊢
  obtain ⟨hp, hb⟩ := hm
  constructor
  · rw [Memory.writeBytes, List.pairwise_append, List.pairwise_append]
    refine ⟨⟨hp.filter _, cellsFrom_pairwise _ _, ?_⟩, hp.filter _, ?_⟩
    · intro c hc d hd
      have h1 := (List.mem_filter.mp hc).2
      have h2 := mem_cellsFrom hd
      simp only [decide_eq_true_eq] at h1
      omega
    · intro c hc d hd
      have h2 := (List.mem_filter.mp hd).2
      simp only [decide_eq_true_eq] at h2
      rcases List.mem_append.mp hc with hc | hc
      · have h1 := (List.mem_filter.mp hc).2
        simp only [decide_eq_true_eq] at h1
        omega
      · have h1 := mem_cellsFrom hc
        omega
  · intro c hc
    rw [Memory.writeBytes, List.mem_append, List.mem_append] at hc
    rcases hc with (hc | hc) | hc
    · exact hb c (List.mem_filter.mp hc).1
    · have := mem_cellsFrom hc
      omega
    · exact hb c (List.mem_filter.mp hc).1

/-- What others write keeps the canonical form (R58). -/
theorem wf_merge : ∀ {m cs : List Host.Cell}, Memory.wf m = true → Memory.wf (Memory.merge m cs) = true
  | _, [], h => h
  | m, c :: cs, h => by
    rw [Memory.merge]
    apply wf_merge
    split
    · exact wf_writeBytes h (by simp only [List.length_singleton]; omega)
    · exact h

/-- A byte that others do not write reads as before. -/
theorem read_merge_ne : ∀ {m cs : List Host.Cell} {a : Nat}, (∀ c ∈ cs, c.1 ≠ a) →
    Memory.read (Memory.merge m cs) a = Memory.read m a
  | _, [], _, _ => rfl
  | m, c :: cs, a, h => by
    rw [Memory.merge, read_merge_ne fun d hd => h d (by simp [hd])]
    split
    · have : c.1 ≠ a := h c (by simp)
      exact read_writeBytes_ne _ (by simp only [List.length_singleton]; omega)
    · rfl

@[simp] theorem length_freeBytes (draws n : Nat) : (freeBytes draws n).length = n := by simp [freeBytes]

@[simp] theorem length_pbBytes (pb : Vector Half 64) (off n : Nat) : (pbBytes pb off n).length = n := by simp [pbBytes]

/-- Byte `x` of the range of a write of `pb_bytes()[off .. off+n-1]` is `pb_bytes()[x]` (R130, R135). -/
theorem read_write_pbBytes (m : List Host.Cell) (pb : Vector Half 64) {off n x : Nat} (h : off ≤ x) (h' : x < off + n) :
    Memory.read (Memory.writeBytes m off (pbBytes pb off n)) x = some (pbByte pb x) := by
  have hi : x - off < n := by omega
  have e : off + (x - off) = x := by omega
  rw [read_writeBytes_mem m h (by simpa using h')]
  simp [pbBytes, hi, e]

end Sys2Proof.Machine
end

