-- ==== Sys2Proof/Laws/Device.lean ====
section
/-! SUPPORT. What an answered flush leaves in the device and in the history, and when the latch holds a character's glyph. -/

namespace Sys2Proof.Machine

/-- The latch holds a character's glyph if it is the glyph of the font image (R115). -/
theorem holdsGlyph_of {s : State} {ch : Byte}
    (h : s.gl = fontGlyph s.cfg.litByte s.cfg.font (glyphIndex s.cfg.alphabet ch)) : s.HoldsGlyph ch := by
  refine ⟨?_, ?_⟩
  · intro row col hr hc
    unfold State.glAt
    rw [h, fontGlyph, cellAt_tabulate _ (by omega), if_pos (by omega)]
    have h1 : (row * 8 + col) / 8 = row := by omega
    have h2 : (row * 8 + col) % 8 = col := by omega
    rw [h1, h2]
    unfold chunkLit fontRead
    have hlo : 2 * col + litOffset s.cfg.litByte < chunkBytes := by
      have : litOffset s.cfg.litByte ≤ 1 := by cases s.cfg.litByte <;> decide
      simp only [chunkBytes]; omega
    have : (List.map (fun k => fontByte s.cfg.font (chunkAddr (glyphIndex s.cfg.alphabet ch) row + k)) (List.range
        chunkBytes)).getD (2 * col + litOffset s.cfg.litByte) 0 = fontByte s.cfg.font (chunkAddr (glyphIndex s.cfg.alphabet ch)
            row + (2 * col + litOffset s.cfg.litByte)) := by
      rw [List.getD_eq_getElem?_getD]; simp [hlo]
    rw [this, ← Nat.add_assoc]
    show (_ == litValue) = decide (_ = litValue)
    rfl
  · intro g hg
    unfold State.glAt
    rw [h, fontGlyph, cellAt_tabulate_ite]
    split
    · rw [if_neg (by omega)]
    · rfl

theorem highByte_ext (v : Half) : highByte v = v.extractLsb' 8 8 := by
  apply BitVec.eq_of_toNat_eq
  have := v.isLt
  simp [highByte, BitVec.extractLsb'_toNat, Nat.shiftRight_eq_div_pow]
theorem lowByte_ext (v : Half) : lowByte v = v.extractLsb' 0 8 := by
  apply BitVec.eq_of_toNat_eq
  have := v.isLt
  simp [lowByte, BitVec.extractLsb'_toNat, Nat.shiftRight_eq_div_pow]

/-! ### What others leave alone (R58) -/

/-- A device byte that others leave alone is as it was after they wrote, and is left alone by what they write later. -/
theorem othersWrite_devAt {s : State} {a : Nat} (h : s.Untouched a) :
    s.othersWrite.devAt a = s.devAt a ∧ s.othersWrite.Untouched a := by
  refine ⟨?_, h.later⟩
  unfold State.devAt
  rw [othersWrite_dev, read_merge_ne h.now]

/-- The same of the start of a step. -/
theorem begun_devAt {s : State} {a : Nat} (h : s.Untouched a) : s.begun.devAt a = s.devAt a ∧ s.begun.Untouched a := by
  unfold State.begun
  split
  · exact ⟨rfl, h⟩
  · exact othersWrite_devAt (s := s.sampledRst) h

/-! ### What a statement does to the device -/

/-- A device byte outside the range that a statement may write. -/
def Op.Spares (a : Nat) : Op → Prop
  | .flush off n | .flushGrant off n | .flushHold off n | .flushWrite off n => a < off ∨ off + n ≤ a
  | _ => True

/-- What is true of all that others will still write stays true of it, whatever the statement comes to. -/
theorem runOp_foreign {p : List Host.Cell → Prop} (op : Op) {s : State} (h : s.plat.foreign.All p) :
    (runOp op s).state.plat.foreign.All p := by
  have rc : ∀ rows (s : State), s.plat.foreign.All p → (readChunks rows s).state.plat.foreign.All p := by
    intro rows s h
    obtain ⟨g, gl, f, tr, e⟩ := readChunks_shape rows s
    rw [e]; exact h
  have kept : ∀ off n, KeptByFlush off n fun s => s.plat.foreign.All p := fun off n =>
    ⟨fun _ h => h, fun _ h => h, fun _ h => h.later, fun _ h => h.later, fun _ _ h => h, fun _ h => h, fun _ _ _ h => h⟩
  cases op with
  | lookup ch => exact rc _ (s.beginLookup ch) h
  | lookupMsg =>
    simp only [runOp]
    split
    · exact rc _ (s.beginLookup _) h
    · exact h
  | fontRow row => exact rc _ _ h
  | flush off n =>
    simp only [runOp, flushStart]
    split
    · exact (kept off n).flushGrant (s := s.sampledPresent) h
    · exact h
  | flushGrant off n => exact (kept off n).flushGrant (s := s) h
  | flushHold off n | flushWrite off n => exact (kept off n).flushWrite s h
  | flushRelease ok => exact (kept 0 0).flushRelease ok s h
  | flushEnd ok => simp only [runOp, flushEnd_state]; exact h
  | pace =>
    obtain ⟨z, m, ti, tr, e⟩ := paceStart_shape s
    simp only [runOp, e]; exact h
  | paceWait =>
    obtain ⟨m, ti, tr, e⟩ := paceWait_shape s
    simp only [runOp, e]; exact h
  | checkCancel => simp only [runOp, checkCancel]; split <;> exact h
  | _ => exact h

/-- A statement leaves a device byte as it was if it is outside the statement's range and others leave it alone (R45, R58). -/
theorem runOp_devAt {a : Nat} (op : Op) {s : State} (hs : op.Spares a) (h : s.Untouched a) :
    (runOp op s).state.devAt a = s.devAt a := by
  have same : ∀ {s t : State}, t.dev = s.dev → t.devAt a = s.devAt a := by
    intro s t e
    unfold State.devAt
    rw [e]
  have rc : ∀ rows (s : State), (readChunks rows s).state.devAt a = s.devAt a := by
    intro rows s
    obtain ⟨g, gl, f, tr, e⟩ := readChunks_shape rows s
    rw [e]; exact same rfl
  have kept : ∀ off n (v : Option Byte), (a < off ∨ off + n ≤ a) →
      KeptByFlush off n fun s => s.Untouched a ∧ s.devAt a = v := by
    intro off n v ho
    have others : ∀ s : State, s.Untouched a ∧ s.devAt a = v → s.othersWrite.Untouched a ∧ s.othersWrite.devAt a = v := by
      rintro s ⟨h, e⟩
      have := othersWrite_devAt h
      exact ⟨this.2, this.1.trans e⟩
    have write : ∀ (s : State) (bs : List Byte), bs.length = n → s.devAt a = v → (s.writeDevice off bs).devAt a = v := by
      intro s bs hn e
      rw [← e]
      unfold State.devAt
      rw [writeDevice_dev, read_writeBytes_ne _ (by rw [hn]; exact ho)]
    exact ⟨fun _ h => h, fun _ h => h, others, others, fun _ _ h => h,
      fun s h => ⟨h.1, write s _ (length_freeBytes s.draws n) h.2⟩, fun s bs hn h => ⟨h.1, write s bs hn h.2⟩⟩
  cases op with
  | lookup ch => exact rc _ (s.beginLookup ch)
  | lookupMsg =>
    simp only [runOp]
    split
    · exact rc _ (s.beginLookup _)
    · rfl
  | fontRow row => exact rc _ _
  | flush off n =>
    simp only [runOp, flushStart]
    split
    · exact ((kept off n _ hs).flushGrant (s := s.sampledPresent) ⟨h, rfl⟩).2
    · exact same rfl
  | flushGrant off n => exact ((kept off n _ hs).flushGrant (s := s) ⟨h, rfl⟩).2
  | flushHold off n | flushWrite off n => exact ((kept off n _ hs).flushWrite s ⟨h, rfl⟩).2
  | flushRelease ok => exact ((kept 0 0 _ (.inr (Nat.zero_le a))).flushRelease ok s ⟨h, rfl⟩).2
  | flushEnd ok => simp only [runOp, flushEnd_state]
  | pace =>
    obtain ⟨z, m, ti, tr, e⟩ := paceStart_shape s
    simp only [runOp, e]; exact same rfl
  | paceWait =>
    obtain ⟨m, ti, tr, e⟩ := paceWait_shape s
    simp only [runOp, e]; exact same rfl
  | checkCancel => simp only [runOp, checkCancel]; split <;> exact same rfl
  | _ => exact same rfl

/-! ### An answered flush -/

theorem flushed_dev (s : State) (off n : Nat) :
    (s.flushed off n).dev = Memory.merge (Memory.writeBytes (Memory.merge s.dev s.plat.foreign.now) off (pbBytes s.pb off n))
      s.plat.foreign.later.now := rfl

theorem flushed_foreign (s : State) (off n : Nat) : (s.flushed off n).plat.foreign = s.plat.foreign.later.later := rfl

/-- A byte of the range of a flush that others leave alone is the buffer's (R41, R135, R143). -/
theorem flushed_in (s : State) {off n a : Nat} (h : off ≤ a) (h' : a < off + n) (h128 : a < 128) (hu : s.Untouched a) :
    (s.flushed off n).devAt a = some (pbByte s.pb a) := by
  unfold State.devAt
  rw [if_pos (show a < devBytes from h128), flushed_dev, read_merge_ne hu.later.now]
  exact read_write_pbBytes _ _ h h'

/-- A flush shows every cell of its range, but for bytes that others write (R41, R135, R143). -/
theorem flushed_shows (s : State) {off n k : Nat} (h : off ≤ 2 * k) (h' : 2 * k + 2 ≤ off + n) (hk : k < 64)
    (hu : s.Untouched (2 * k)) (hu' : s.Untouched (2 * k + 1)) : (s.flushed off n).ShowsCell k (s.pbAt k) := by
  refine ⟨?_, ?_⟩
  · rw [flushed_in s (by omega) (by omega) (by omega) hu]
    unfold pbByte
    rw [if_pos (by omega), highByte_ext]
    have : 2 * k / 2 = k := by omega
    rw [this]; rfl
  · rw [flushed_in s (by omega) (by omega) (by omega) hu']
    unfold pbByte
    rw [if_neg (by omega), lowByte_ext]
    have : (2 * k + 1) / 2 = k := by omega
    rw [this]; rfl

/-- Whether the device shows the buffer is a matter of the two alone. -/
theorem shownIn_of {s t u : State} (hd : u.dev = t.dev) (hp : u.pb = t.pb) (h : s.ShownIn t) : s.ShownIn u := by
  intro k hk h1 h2
  have := h k hk h1 h2
  unfold State.ShowsCell State.devAt State.pbAt at *
  rw [hd, hp]
  exact this

/-- What is shown to one who knows more of what others leave alone is shown. -/
theorem shownIn_mono {s t u : State} (hf : ∀ a, s.Untouched a → t.Untouched a) (h : t.ShownIn u) : s.ShownIn u :=
  fun k hk h1 h2 => h k hk (hf _ h1) (hf _ h2)

theorem flushed_shownIn (s : State) : s.ShownIn (s.flushed 0 128) := fun k hk h1 h2 =>
  flushed_shows s (off := 0) (n := 128) (by omega) (by omega) hk h1 h2

/-- A flush leaves every device byte outside its range that others leave alone as it was (R45). -/
theorem flushed_out (s : State) {off n a : Nat} (h : a < off ∨ off + n ≤ a) (hu : s.Untouched a) :
    (s.flushed off n).devAt a = s.devAt a := by
  unfold State.devAt
  rw [flushed_dev, read_merge_ne hu.later.now, read_writeBytes_ne, read_merge_ne hu.now]
  simpa using h

theorem flushed_trace (s : State) (off n : Nat) :
    (s.flushed off n).trace = s.trace ++ [.acquire true, .write off (pbBytes s.pb off n) true, .release] := by
  show ((s.trace ++ [_]) ++ [_]) ++ [_] = _
  simp

end Sys2Proof.Machine
end

