-- ==== Sys2Proof/Laws/Waiting.lean ====
section
/-! SUPPORT. A command that goes on after a wait: its statements stay those of the command, what is true of it at its acceptance
and survives a resumption is true of it throughout (`Executes.keeps`), and why no wait lasts for ever on a fair platform. -/

namespace Sys2Proof.Machine

/-! ### The statements left are the command's -/

/-- A statement, waiting or not, touches only what the tables say the command `i` touches. -/
def Op.Within (i : Instr) (op : Op) : Prop :=
  (op.readsFont = true → usesFont i = true) ∧ (op.usesDevice = true → Machine.usesDevice i = true) ∧
  (op.writesPb = true → Machine.writesPb i = true) ∧ (op.movesAnimator = true → isScroll i = true)

theorem Op.PartOf.within {op : Op} {i : Instr} (h : op.PartOf i) : op.Within i := ⟨h.1, h.2.1, h.2.2.1, h.2.2.2.1⟩

/-- A statement that waits goes on from a statement that touches no more. -/
theorem wait_within {i : Instr} {op r : Op} {s t : State} (ho : op.Within i) (h : runOp op s = .wait t r) : r.Within i := by
  have font : ∀ {rows : List Nat} {s : State}, usesFont i = true → readChunks rows s = .wait t r → r.Within i := by
    intro rows
    induction rows with
    | nil => intro s _ h; simp [readChunks] at h
    | cons row rows ih =>
      intro s hf h
      simp only [readChunks] at h
      split at h
      · cases h; exact ⟨fun _ => hf, nofun, nofun, nofun⟩
      · split at h
        · cases h
        · exact ih hf h
  have fl : ∀ {off n} {x : OpResult}, Machine.usesDevice i = true → x.OfFlush off n → x = .wait t r → r.Within i := by
    rintro off n _ hd hx rfl
    cases r <;> first | exact hx.elim | exact ⟨nofun, fun _ => hd, nofun, nofun⟩
  have pw : ∀ {s : State}, paceWait s = .wait t r → r.Within i := by
    intro s h
    simp only [paceWait] at h
    split at h <;> cases h
    exact ⟨nofun, nofun, nofun, nofun⟩
  obtain ⟨h1, h2, -, -⟩ := ho
  cases op <;> simp only [runOp] at h <;> try cases h
  case lookup => exact font (h1 rfl) h
  case lookupMsg =>
    split at h
    · exact font (h1 rfl) h
    · cases h
  case flush off n => exact fl (h2 rfl) (ofFlush_start off n s) h
  case pace => exact pw h
  case paceWait => exact pw h
  case checkCancel => simp only [checkCancel] at h; split at h <;> cases h
  case fontRow => exact font (h1 rfl) h
  case flushGrant off n => exact fl (h2 rfl) (ofFlush_grant off n s) h
  case flushHold off n => exact fl (h2 rfl) (ofFlush_write off n s) h
  case flushWrite off n => exact fl (h2 rfl) (ofFlush_write off n s) h
  case flushRelease ok => exact fl (h2 rfl) (ofFlush_release 0 0 ok s) h
  case flushEnd ok => exact fl (h2 rfl) (ofFlush_end 0 0 ok s) h

/-- What is left of a list of statements of a command is made of statements of the command. -/
theorem run_within {i : Instr} {ops : List Op} (ho : ∀ op ∈ ops, op.Within i) (s : State) :
    ∀ op ∈ (run ops s).todo, op.Within i := by
  rcases run_cases ops s with ⟨t, -, e⟩ | ⟨_, _, _, _, u, a, -, -, -, e⟩ | ⟨pre, op, post, t, u, r, h1, -, h3, e⟩ <;> rw [e]
  · intro op h; cases h
  · rw [(raised a u).ready.2.2]; intro op h; cases h
  · intro op' h
    rcases List.mem_cons.mp h with rfl | h
    · exact wait_within (ho op (by simp [h1])) h3
    · exact ho op' (by simp [h1, h])

/-- A list of statements ends the command, or leaves it waiting. -/
theorem run_latch (ops : List Op) (s : State) :
    (run ops s).Ready ∨ ((run ops s).status.busy = s.status.busy ∧ (run ops s).cmd = s.cmd) := by
  rcases run_cases ops s with ⟨t, -, e⟩ | ⟨_, _, _, _, u, a, -, -, -, e⟩ | ⟨pre, op, post, t, u, r, -, h2, h3, e⟩ <;> rw [e]
  · exact .inl (ready_finish t)
  · exact .inl (raised a u).ready
  · have h := h2.sameCore.trans (show SameCore t u by have := runOp_sameCore op t; rwa [h3] at this)
    exact .inr ⟨h.busy, h.cmd⟩

/-- What an accepted command leaves to do are statements of it, and only if it waits. -/
theorem exec_waits {i : Instr} {s t : State} (h : exec i s = .next t) :
    (∀ op ∈ t.todo, op.Within i) ∧ (t.Ready ∨ t.cmd = some i) := by
  have ops : ∀ {ops : List Op} {u : State}, (∀ op ∈ ops, op.PartOf i) → u.cmd = some i →
      (∀ op ∈ (run ops u).todo, op.Within i) ∧ ((run ops u).Ready ∨ (run ops u).cmd = some i) := fun hp hc =>
    ⟨run_within (fun op ho => (hp op ho).within) _, (run_latch _ _).imp id fun k => k.2.trans hc⟩
  rcases exec_cases i s with ⟨f, k, -⟩ | ⟨l, k, hp⟩ | ⟨o, x, y, v, p, hp, rfl, k⟩ <;> rw [k] at h <;> cases h
  · exact ⟨fun op h => (nomatch h), .inl (ready_finish _)⟩
  · exact ops hp rfl
  · exact ops (by simpa using partOf_cellFlush rfl hp) rfl

/-! ### From the acceptance on -/

/-- What acceptance gives and every resumption keeps, a command has throughout. -/
theorem Executes.keeps {i : Instr} {P : State → Prop} {k : Nat} {s t : State} (hexec : ∀ t, exec i s = .next t → P t)
    (hresume : ∀ u, P u → u.status.busy = true → P u.begun.resume) (h : Executes i k s t) : P t := by
  induction k generalizing t with
  | zero => exact hexec t h
  | succ k ih =>
    obtain ⟨u, h1, h2, h3, h4⟩ := h
    have := hresume u (ih h1) h2
    unfold step at h4
    rw [h3, h2] at h4
    cases h4
    exact this

/-- Throughout a command the statements left are its own, and it is the command that waits. -/
theorem Executes.waits {i : Instr} {k : Nat} {s t : State} (h : Executes i k s t) :
    (∀ op ∈ t.todo, op.Within i) ∧ (t.Ready ∨ t.cmd = some i) := by
  refine h.keeps (P := fun t => (∀ op ∈ t.todo, op.Within i) ∧ (t.Ready ∨ t.cmd = some i)) (fun t => exec_waits) ?_
  rintro u ⟨h1, h2⟩ hb
  have hc : u.begun.cmd = some i := by
    rw [begun_cmd]
    exact h2.resolve_left fun hr => by rw [hr.1] at hb; cases hb
  exact ⟨run_within (by rw [begun_todo]; exact h1) _, (run_latch _ _).imp id fun k => k.2.trans hc⟩

/-! ### No wait lasts for ever on a fair platform (R231) -/

/-- A counter that advances by a steady amount below one turn comes to any distance up to half a turn. -/
theorem pace_comes {m d p : Nat} (hd : 0 < d) (hdm : d < m) (hp : 2 * p ≤ m) (e : Nat) : ∃ n, p ≤ (e + n * d) % m := by
  obtain ⟨q, hq⟩ : ∃ q, e = q * m + e % m := ⟨e / m, by rw [Nat.mul_comm]; exact (Nat.div_add_mod e m).symm⟩
  have he : e % m < m := Nat.mod_lt _ (by omega)
  generalize e % m = r at hq he
  subst hq
  rcases Nat.lt_or_ge r p with h | h
  · rcases Nat.lt_or_ge m (2 * d) with h2 | h2
    · -- every advance takes the counter back by `m - d`, below zero in the end
      obtain ⟨c, rfl⟩ : ∃ c, m = d + c := ⟨m - d, by omega⟩
      have hc : 0 < c := by omega
      have h3 : r < (r / c + 1) * c := by have := Nat.lt_div_mul_add (a := r) hc; rw [Nat.add_mul]; omega
      have h4 : (r / c + 1) * c ≤ r + c := by have := Nat.div_mul_le_self r c; rw [Nat.add_mul]; omega
      refine ⟨r / c + 1, ?_⟩
      generalize hn : r / c = n at h3 h4
      have e1 : q * (d + c) + r + (n + 1) * d = (d + (r + c - (n + 1) * c)) + (d + c) * (q + n) := by
        have : (n + 1) * c = n * c + c := by ring
        have e2 : (n + 1) * d = n * d + d := by ring
        have e3 : (d + c) * (q + n) = q * (d + c) + n * d + n * c := by ring
        omega
      rw [e1, Nat.add_mul_mod_self_left, Nat.mod_eq_of_lt (by omega)]
      omega
    · -- every advance is at most half a turn, and the first at or past `p` does not wrap
      have h3 := Nat.div_mul_le_self (p - r - 1) d
      have h4 : p - r - 1 < (p - r - 1) / d * d + d := Nat.lt_div_mul_add hd
      refine ⟨(p - r - 1) / d + 1, ?_⟩
      generalize (p - r - 1) / d = n at h3 h4
      have e1 : q * m + r + (n + 1) * d = (r + n * d + d) + m * q := by ring
      rw [e1, Nat.add_mul_mod_self_left, Nat.mod_eq_of_lt (by omega)]
      omega
  · exact ⟨0, by rw [Nat.zero_mul, Nat.add_zero, Nat.add_comm, Nat.add_mul_mod_self_right, Nat.mod_eq_of_lt he]; exact h⟩

/-- A platform stays fair. -/
theorem fair_of {s t : State} (h : s.Fair) (hc : t.cfg = s.cfg) (hr : t.plat.rst.All (· = false))
    (ha : t.plat.acquire.rest = s.plat.acquire.rest) (hw : t.plat.write.rest = s.plat.write.rest)
    (hf : t.plat.font.rest = s.plat.font.rest) (ht : t.plat.ticks.rest = s.plat.ticks.rest) : t.Fair := by
  obtain ⟨-, h2, h3, h4, h5, h6, h7⟩ := h
  refine ⟨hr, ?_, ?_, ?_, ?_, ?_, ?_⟩
  all_goals first | rw [hc] | skip
  all_goals first | rw [ha] | rw [hw] | rw [hf] | rw [ht] | skip
  all_goals assumption

theorem fair_begun {s : State} (h : s.Fair) : s.begun.Fair := by
  unfold State.begun
  split <;> exact fair_of h rfl h.1.later rfl rfl rfl rfl

/-! What a script is for ever, no statement changes. -/

theorem readChunks_rest (rows : List Nat) (s : State) : (readChunks rows s).state.plat.font.rest = s.plat.font.rest := by
  induction rows generalizing s with
  | nil => rfl
  | cons row rows ih =>
    simp only [readChunks]
    split
    · rfl
    · split
      · rfl
      · exact ih (s.readChunk row)

theorem rest_kept (off n : Nat) (w : Answer) : KeptByFlush off n fun s => s.plat.write.rest = w :=
  ⟨fun _ h => h, fun _ h => h, fun _ h => h, fun _ h => h, fun _ _ h => h, fun _ h => h, fun _ _ _ h => h⟩

theorem flushWrite_rest (off n : Nat) (s : State) : (flushWrite off n s).state.plat.write.rest = s.plat.write.rest :=
  (rest_kept off n _).flushWrite s rfl

theorem flushGrant_rest (off n : Nat) (s : State) : (flushGrant off n s).state.plat.write.rest = s.plat.write.rest ∧
    (flushGrant off n s).state.plat.acquire.rest = s.plat.acquire.rest :=
  (show KeptByFlush off n fun t => t.plat.write.rest = s.plat.write.rest ∧ t.plat.acquire.rest = s.plat.acquire.rest from
    ⟨fun _ h => h, fun _ h => h, fun _ h => h, fun _ h => h, fun _ _ h => h, fun _ h => h, fun _ _ _ h => h⟩).flushGrant
    ⟨rfl, rfl⟩

theorem paceWait_rest (s : State) : (paceWait s).state.plat.ticks.rest = s.plat.ticks.rest := by
  simp only [paceWait]; split <;> rfl

theorem fair_runOp (op : Op) {s : State} (h : s.Fair) : (runOp op s).state.Fair := by
  have rc : ∀ rows (s : State), s.Fair → (readChunks rows s).state.Fair := by
    intro rows s h
    have r := readChunks_rest rows s
    obtain ⟨g, gl, f, tr, e⟩ := readChunks_shape rows s
    rw [e] at r ⊢; exact fair_of h rfl h.1 rfl rfl r rfl
  have fw : ∀ off n (s : State), s.Fair → (flushWrite off n s).state.Fair := by
    intro off n s h
    have r := flushWrite_rest off n s
    obtain ⟨_, w, ed, fo, d, tr, k, e⟩ := flushWrite_shape off n s
    rw [e] at r ⊢; exact fair_of h rfl h.1 rfl r rfl rfl
  have fg : ∀ off n (s : State), s.Fair → (flushGrant off n s).state.Fair := by
    intro off n s h
    obtain ⟨r, r2⟩ := flushGrant_rest off n s
    obtain ⟨_, a, w, ed, fo, d, tr, k, e⟩ := flushGrant_shape off n s
    rw [e] at r r2 ⊢; exact fair_of h rfl h.1 r2 r rfl rfl
  have pw : ∀ (s : State), s.Fair → (paceWait s).state.Fair := by
    intro s h
    have r := paceWait_rest s
    obtain ⟨m, ti, tr, e⟩ := paceWait_shape s
    rw [e] at r ⊢; exact fair_of h rfl h.1 rfl rfl rfl r
  cases op with
  | lookup ch => exact rc _ (s.beginLookup ch) h
  | lookupMsg =>
    simp only [runOp]
    split
    · exact rc _ (s.beginLookup _) h
    · exact h
  | fontRow row => exact rc _ _ h
  | flush off n =>
    simp only [runOp, flushStart]
    split
    · exact fg off n s.sampledPresent h
    · exact h
  | flushGrant off n => exact fg off n s h
  | flushHold off n | flushWrite off n => exact fw off n s h
  | flushRelease ok => simp only [runOp, flushRelease_state]; exact h
  | flushEnd ok => simp only [runOp, flushEnd_state]; exact h
  | pace => exact pw s.startPace h
  | paceWait => exact pw s h
  | checkCancel => simp only [runOp, checkCancel]; split <;> exact h
  | _ => exact h

/-- Whatever a list of statements comes to, the platform stays fair. -/
theorem fair_run (ops : List Op) {s : State} (h : s.Fair) : (run ops s).Fair :=
  run_keeps (P := State.Fair) (fun op _ a h => fair_runOp op h) (fun a h => h)
    (fun a e h => by
      have r := raised e a
      exact fair_of h r.cfg (by rw [r.plat]; exact h.1) (by rw [r.plat]) (by rw [r.plat]) (by rw [r.plat]) (by rw [r.plat]))
    (fun a todo h => h) h

/-- The difference of R205, taken modulo a power of two. -/
theorem elapsed_eq (s : State) : (s.elapsed : Int) = ((s.mtime : Int) - s.t0) % 2 ^ s.cfg.mtimeBits := by
  unfold State.elapsed
  have hM : ((2 ^ s.cfg.mtimeBits : Nat) : Int) = 2 ^ s.cfg.mtimeBits := by push_cast; rfl
  have hz := Nat.mod_lt s.t0 (show 0 < 2 ^ s.cfg.mtimeBits by positivity)
  rw [← hM]
  generalize 2 ^ s.cfg.mtimeBits = M at *
  rw [Int.natCast_mod, Nat.cast_sub (by omega)]
  push_cast
  rw [show (s.mtime : Int) + M - s.t0 % M = (s.mtime - s.t0 % M) + M by ring, Int.add_emod_right, Int.sub_emod,
    Int.emod_emod_of_dvd _ (dvd_refl _), ← Int.sub_emod]

/-- The time that passed at the next reading of `mtime` (R205). -/
theorem elapsed_read (s : State) (h : 0 < 2 ^ s.cfg.mtimeBits) :
    s.readMtime.elapsed = (s.elapsed + s.plat.ticks.now) % 2 ^ s.cfg.mtimeBits := by
  unfold State.elapsed State.readMtime
  dsimp only
  generalize 2 ^ s.cfg.mtimeBits = M at *
  have h0 : s.t0 % M < M := Nat.mod_lt _ h
  generalize s.t0 % M = z at *
  generalize s.plat.ticks.now = d
  obtain ⟨c, hc⟩ : ∃ c, M = z + c := ⟨M - z, by omega⟩
  have e1 : (s.mtime + d) % M + M - z = (s.mtime + d) % M + c := by omega
  have e2 : s.mtime + M - z = s.mtime + c := by omega
  rw [e1, e2, Nat.mod_add_mod, Nat.mod_add_mod]
  congr 1; omega

/-- On a fair platform a busy core goes on with its command. -/
theorem step_busy {s : State} (h : s.Fair) (hb : s.status.busy = true) : step s = .next (run s.todo s.begun) := by
  unfold step; rw [h.1.now, hb]; simp [State.resume]

end Sys2Proof.Machine
end

