-- ==== Sys2Proof/Laws/Animator.lean ====
section
/-! SUPPORT. Where a `SCROLL` is `Painting` and where `Scrolling` (R150, R156): what its initial flush can come to, that the
history only grows, what the statements after that flush come to, and who writes `NODEV` (R44). -/

namespace Sys2Proof.Machine

/-! ### The history only grows -/

/-- `t` comes after `s`, its history `s`'s with more behind it. -/
def Grown (s t : State) : Prop := s.trace <+: t.trace

theorem Grown.trans {s t u : State} (h : Grown s t) (k : Grown t u) : Grown s u := List.IsPrefix.trans h k

theorem grown_of_eq {s t : State} (h : t.trace = s.trace) : Grown s t := by rw [Grown, h]

theorem grown_kept (s : State) (off n : Nat) : KeptByFlush off n (Grown s) :=
  ⟨fun _ h => h, fun _ h => h, fun _ h => h, fun _ h => h.trans (List.prefix_append _ _),
    fun _ _ h => h.trans (List.prefix_append _ _), fun _ h => h, fun _ _ _ h => h⟩

theorem readChunks_grown (rows : List Nat) (s : State) : Grown s (readChunks rows s).state := by
  induction rows generalizing s with
  | nil => exact List.prefix_refl _
  | cons row rows ih =>
    simp only [readChunks]
    split
    · exact List.prefix_refl _
    · split
      · exact List.prefix_append _ _
      · exact Grown.trans (t := s.readChunk row) (List.prefix_append _ _) (ih _)

theorem paceWait_grown (s : State) : Grown s (paceWait s).state := by
  simp only [paceWait]
  split
  exacts [List.prefix_append _ _, List.prefix_refl _]

/-- Whatever a statement comes to, nothing of the history is lost (R57). -/
theorem runOp_grown (op : Op) (s : State) : Grown s (runOp op s).state := by
  cases op with
  | lookup ch => exact readChunks_grown _ (s.beginLookup ch)
  | lookupMsg =>
    simp only [runOp]
    split
    exacts [readChunks_grown _ (s.beginLookup _), List.prefix_refl _]
  | fontRow row => exact readChunks_grown _ s
  | flush off n =>
    simp only [runOp, flushStart]
    split
    exacts [(grown_kept s off n).flushGrant (s := s.sampledPresent) (List.prefix_refl _), List.prefix_refl _]
  | flushGrant off n => exact (grown_kept s off n).flushGrant (List.prefix_refl _)
  | flushHold off n | flushWrite off n => exact (grown_kept s off n).flushWrite s (List.prefix_refl _)
  | flushRelease ok => exact (grown_kept s 0 0).flushRelease ok s (List.prefix_refl _)
  | flushEnd ok => simp only [runOp, flushEnd_state]; exact List.prefix_refl _
  | pace => exact paceWait_grown s.startPace
  | paceWait => exact paceWait_grown s
  | checkCancel => simp only [runOp, checkCancel]; split <;> exact List.prefix_refl _
  | _ => exact List.prefix_refl _

/-! ### The initial flush -/

/-- A full flush of `frame` that began when the history was `tr`, at the point from which `op` goes on. -/
def AtFlush (frame : List Byte) (tr : List Event) (op : Op) (s : State) : Prop :=
  pbBytes s.pb 0 128 = frame ∧ ∃ new, s.trace = tr ++ new ∧ EventsUpTo frame op new

/-- What such a flush can come to: it waits at a later point of it, or it has written its frame and released the device, or it
raises `DevErr`. -/
def OpResult.AtFlush (frame : List Byte) (tr : List Event) : OpResult → Prop
  | .done t => t.trace = tr ++ [.acquire true, .write 0 frame true, .release]
  | .raise e _ => e = .devErr
  | .wait t r => Machine.AtFlush frame tr r t

theorem AtFlush.inFlush {frame : List Byte} {tr : List Event} {op : Op} {s : State} (h : AtFlush frame tr op s) :
    op.inFlush = true := by
  obtain ⟨-, new, -, h⟩ := h
  cases op <;> first | rfl | exact h.elim

theorem atEdge_atFlush {frame : List Byte} {tr : List Event} {resume : Op} {go : State → OpResult}
    (hgo : ∀ s, AtFlush frame tr resume s → (go s).AtFlush frame tr) {s : State} (h : AtFlush frame tr resume s) :
    (atEdge resume go s).AtFlush frame tr := by
  unfold atEdge
  split
  exacts [h, hgo _ h]

variable {frame : List Byte} {tr : List Event} {s : State}

theorem flushEnd_atFlush {ok : Bool} (h : AtFlush frame tr (.flushEnd ok) s) : (flushEnd ok s).AtFlush frame tr := by
  obtain ⟨-, new, h1, h2⟩ := h
  cases ok
  · rfl
  · rw [show new = _ from h2] at h1; exact h1

theorem flushRelease_atFlush {ok : Bool} (h : AtFlush frame tr (.flushRelease ok) s) :
    (flushRelease ok s).AtFlush frame tr := by
  obtain ⟨h0, new, h1, h2⟩ := h
  refine atEdge_atFlush (fun _ => flushEnd_atFlush) ⟨h0, new ++ [.release], ?_, ?_⟩
  · rw [releaseDevice_trace, h1, List.append_assoc]
  · rw [show new = _ from h2]
    cases ok
    exacts [.inr rfl, rfl]

theorem flushWrite_atFlush (h : AtFlush frame tr (.flushWrite 0 128) s) : (flushWrite 0 128 s).AtFlush frame tr := by
  obtain ⟨h0, new, h1, h2⟩ := h
  obtain ⟨-, -, rfl⟩ := h2
  have wrote : ∀ {u : State} (ok : Bool), u.pb = s.pb → u.trace = s.trace →
      AtFlush frame tr (.flushRelease ok) (u.log (.write 0 (pbBytes s.pb 0 128) ok)) := fun {u} ok hp ht =>
    ⟨(congrArg (pbBytes · 0 128) hp).trans h0, [.acquire true, .write 0 frame ok],
      by rw [log_trace, ht, h1, h0, List.append_assoc]; rfl, rfl⟩
  unfold flushWrite
  dsimp only
  split
  · exact ⟨h0, _, h1, rfl, rfl, rfl⟩
  · exact atEdge_atFlush (fun _ => flushRelease_atFlush) (wrote true rfl rfl)
  · exact atEdge_atFlush (fun _ => flushRelease_atFlush) (wrote false rfl rfl)

theorem flushGrant_atFlush (h : AtFlush frame tr (.flushGrant 0 128) s) : (flushGrant 0 128 s).AtFlush frame tr := by
  obtain ⟨h0, new, h1, h2⟩ := h
  obtain ⟨-, -, rfl⟩ := h2
  rw [List.append_nil] at h1
  unfold flushGrant
  split
  · exact ⟨h0, [], by rw [List.append_nil]; exact h1, rfl, rfl, rfl⟩
  · exact atEdge_atFlush (resume := .flushHold 0 128) (fun _ h => flushWrite_atFlush h)
      ⟨h0, [.acquire true], by rw [log_trace, takeDevice_trace, sampledAcquire_trace, h1], rfl, rfl, rfl⟩
  · exact atEdge_atFlush (fun _ => flushEnd_atFlush)
      ⟨h0, [.acquire false], by rw [log_trace, sampledAcquire_trace, h1], .inl rfl⟩

/-- A full flush that finds a device begins. -/
theorem flushStart_atFlush (h : s.plat.present.now = true) :
    (flushStart 0 128 s).AtFlush (pbBytes s.pb 0 128) s.trace := by
  unfold flushStart
  rw [if_pos h]
  exact flushGrant_atFlush ⟨rfl, [], (List.append_nil _).symm, rfl, rfl, rfl⟩

/-- A full flush goes on from where it waited. -/
theorem runOp_atFlush {op : Op} (h : AtFlush frame tr op s) : (runOp op s).AtFlush frame tr := by
  cases op <;> first | exact (h.2.choose_spec.2).elim | skip
  case flushGrant off n => obtain ⟨_, _, _, rfl, rfl, _⟩ := id h; exact flushGrant_atFlush h
  case flushHold off n => obtain ⟨_, _, _, rfl, rfl, _⟩ := id h; exact flushWrite_atFlush h
  case flushWrite off n => obtain ⟨_, _, _, rfl, rfl, _⟩ := id h; exact flushWrite_atFlush h
  case flushRelease ok => exact flushRelease_atFlush h
  case flushEnd ok => exact flushEnd_atFlush h

/-! ### Later flushes -/

/-- Who waits at the end of a flush has just logged a transaction of it. -/
def OpResult.EndsLogged (s : State) : OpResult → Prop
  | .wait t (.flushEnd _) => ∃ e new, t.trace = s.trace ++ e :: new
  | _ => True

theorem endsLogged_of {x : OpResult} (h : ∀ t ok, x = .wait t (.flushEnd ok) → ∃ e new, t.trace = s.trace ++ e :: new) :
    x.EndsLogged s := by
  unfold OpResult.EndsLogged
  split
  · exact h _ _ rfl
  · trivial

theorem atEdge_endsLogged {resume : Op} {go : State → OpResult} {u : State}
    (h : ∃ e new, u.trace = s.trace ++ e :: new)
    (hgo : ∀ u : State, (∃ e new, u.trace = s.trace ++ e :: new) → (go u).EndsLogged s) : (atEdge resume go u).EndsLogged s := by
  unfold atEdge
  split
  · exact endsLogged_of fun t ok e => by cases e; exact h
  · exact hgo _ h

theorem flushEnd_endsLogged (ok : Bool) (u : State) : (flushEnd ok u).EndsLogged s := by
  cases ok <;> trivial

/-- One more transaction after some others. -/
theorem logged_append {l : List Event} (h : s.trace <+: l) (e : Event) : ∃ e' new, l ++ [e] = s.trace ++ e' :: new := by
  obtain ⟨m, rfl⟩ := h
  cases m with
  | nil => exact ⟨e, [], by simp⟩
  | cons a m => exact ⟨a, m ++ [e], by simp⟩

theorem flushRelease_endsLogged (ok : Bool) {u : State} (h : s.trace <+: u.trace) : (flushRelease ok u).EndsLogged s :=
  atEdge_endsLogged (logged_append h .release) fun _ _ => flushEnd_endsLogged ok _

theorem flushWrite_endsLogged (off n : Nat) {u : State} (h : s.trace <+: u.trace) : (flushWrite off n u).EndsLogged s := by
  unfold flushWrite
  dsimp only
  split
  · trivial
  · exact atEdge_endsLogged (logged_append h _) fun _ ⟨_, _, e⟩ => flushRelease_endsLogged true ⟨_, e.symm⟩
  · exact atEdge_endsLogged (logged_append h _) fun _ ⟨_, _, e⟩ => flushRelease_endsLogged false ⟨_, e.symm⟩

theorem flushGrant_endsLogged (off n : Nat) {u : State} (h : s.trace <+: u.trace) : (flushGrant off n u).EndsLogged s := by
  unfold flushGrant
  split
  · trivial
  · exact atEdge_endsLogged (logged_append h _) fun _ ⟨_, _, e⟩ => flushWrite_endsLogged off n ⟨_, e.symm⟩
  · exact atEdge_endsLogged (logged_append h _) fun _ _ => flushEnd_endsLogged false _

/-- A statement that waits at the end of a flush has logged a transaction. -/
theorem wait_flushEnd {op : Op} {t : State} {ok : Bool} (h : runOp op s = .wait t (.flushEnd ok)) :
    ∃ e new, t.trace = s.trace ++ e :: new := by
  have done : (runOp op s).EndsLogged s → ∃ e new, t.trace = s.trace ++ e :: new := fun k => by rwa [h] at k
  have rc : ∀ (rows : List Nat) (u : State), readChunks rows u ≠ .wait t (.flushEnd ok) := by
    intro rows
    induction rows with
    | nil => intro u k; cases k
    | cons row rows ih =>
      intro u k
      simp only [readChunks] at k
      split at k
      · cases k
      · split at k
        · cases k
        · exact ih _ k
  have pw : ∀ u : State, paceWait u ≠ .wait t (.flushEnd ok) := by
    intro u k
    simp only [paceWait] at k
    split at k <;> cases k
  cases op with
  | flush off n =>
    refine done ?_
    simp only [runOp, flushStart]
    split
    exacts [flushGrant_endsLogged off n (u := s.sampledPresent) (List.prefix_refl _), trivial]
  | flushGrant off n => exact done (flushGrant_endsLogged off n (List.prefix_refl _))
  | flushHold off n | flushWrite off n => exact done (flushWrite_endsLogged off n (List.prefix_refl _))
  | flushRelease ok => exact done (flushRelease_endsLogged ok (List.prefix_refl _))
  | flushEnd ok' => exact done (flushEnd_endsLogged ok' s)
  | lookup ch => exact (rc _ _ h).elim
  | lookupMsg =>
    simp only [runOp] at h
    split at h
    · exact (rc _ _ h).elim
    · cases h
  | fontRow row => exact (rc _ _ h).elim
  | pace => exact (pw _ h).elim
  | paceWait => exact (pw _ h).elim
  | checkCancel => simp only [runOp, checkCancel] at h; split at h <;> cases h
  | _ => cases h

/-! ### One statement and the rest -/

theorem run_done {op : Op} {t : State} (h : runOp op s = .done t) (rest : List Op) : run (op :: rest) s = run rest t := by
  simp only [run, h]

theorem run_raise {op : Op} {e : Abort} {t : State} (h : runOp op s = .raise e t) (rest : List Op) :
    run (op :: rest) s = t.raise e := by
  simp only [run, h]

theorem run_wait {op r : Op} {t : State} (h : runOp op s = .wait t r) (rest : List Op) :
    run (op :: rest) s = { t with todo := r :: rest } := by
  simp only [run, h]

/-! ### How the statements of a `SCROLL` end -/

/-- The statements of a `SCROLL` after its initial flush has returned. -/
def scrollRest (o : Orient) (len : Nat) : List Op :=
  .latchLen :: (List.range (len + trailingChars)).flatMap (charOps o) ++ [.setAState .done]

/-- `SCROLL` up to its initial flush, that flush, and the rest (R156). -/
theorem scrollOps_eq (o : Orient) (len : Nat) :
    scrollOps o len = [.setAState .painting, .setSchr 0, .setScol 0, .fillBg] ++ fullFlush :: .setAState .scrolling ::
      scrollRest o len := rfl

theorem scrollRest_onlyDone (o : Orient) (len : Nat) : OnlyDoneAtTheEnd (scrollRest o len) := by
  unfold OnlyDoneAtTheEnd scrollRest
  refine ⟨List.getLast?_concat, fun a h => ?_⟩
  rw [List.dropLast_concat] at h
  simp only [List.mem_cons, reduceCtorEq, List.mem_flatMap, List.mem_range, charOps, stepOps, List.mem_append,
    fullFlush, List.not_mem_nil, or_false, and_false, exists_false] at h

/-- The rest of such a list, if it is not empty, is such a list. -/
theorem OnlyDoneAtTheEnd.tail {op : Op} {rest : List Op} (h : OnlyDoneAtTheEnd (op :: rest)) (hr : rest ≠ []) :
    OnlyDoneAtTheEnd rest := by
  obtain ⟨h1, h2⟩ := h
  rw [List.getLast?_cons_of_ne_nil hr] at h1
  rw [List.dropLast_cons_of_ne_nil hr] at h2
  exact ⟨h1, fun a ha => h2 a (List.mem_cons_of_mem _ ha)⟩

/-- Such a list in which the first statement goes on as `r` is such a list. -/
theorem OnlyDoneAtTheEnd.resume {r : Op} {rest : List Op} (h : OnlyDoneAtTheEnd rest) (hr : r.isResume = true) :
    OnlyDoneAtTheEnd (r :: rest) := by
  obtain ⟨h1, h2⟩ := h
  have hn : rest ≠ [] := by rintro rfl; cases h1
  refine ⟨by rw [List.getLast?_cons_of_ne_nil hn]; exact h1, fun a ha => ?_⟩
  rw [List.dropLast_cons_of_ne_nil hn] at ha
  rcases List.mem_cons.mp ha with rfl | ha
  · cases hr
  · exact h2 a ha

/-- Only its own statement writes `ASTATE`. -/
theorem runOp_astate {op : Op} (h : ∀ a, .setAState a ≠ op) (s : State) :
    (runOp op s).state.status.astate = s.status.astate := by
  cases op
  case setAState a => exact (h a rfl).elim
  case setSchr k => rfl
  case setScol c => rfl
  case checkCancel => simp only [runOp, checkCancel]; split <;> rfl
  all_goals exact (runOp_animator rfl s).2.2

/-- What the statements of a `SCROLL` after its initial flush come to (R150, R156): they end in `Done`; or one raises an event;
or one waits, in `Scrolling`, and at the end of a flush only if that flush has logged a transaction. -/
theorem run_scrolling : ∀ {ops : List Op} {s : State}, OnlyDoneAtTheEnd ops → s.status.astate = .scrolling →
    (∃ t, run ops s = t.finish ∧ t.status.astate = .done ∧ SameCore s t) ∨
    (∃ t e, run ops s = t.raise e ∧ SameCore s t ∧ ∃ op ∈ ops, ∃ u, runOp op u = .raise e t) ∨
    ∃ t r post, run ops s = { t with todo := r :: post } ∧ t.status.astate = .scrolling ∧ OnlyDoneAtTheEnd (r :: post) ∧
      SameCore s t ∧ Grown s t ∧ ∀ ok, r = .flushEnd ok → ∃ e new, t.trace = s.trace ++ e :: new
  | [], s, h, _ => by cases h.1
  | op :: rest, s, h, ha => by
    have core := runOp_sameCore op s
    have grown := runOp_grown op s
    by_cases hr : rest = []
    · subst hr
      obtain rfl : op = .setAState .done := by simpa using h.1
      exact .inl ⟨s.withAState .done, rfl, rfl, core⟩
    have hop : ∀ a, .setAState a ≠ op := fun a e => h.2 a (by rw [List.dropLast_cons_of_ne_nil hr, e]; simp)
    have hast := (runOp_astate hop s).trans ha
    cases hx : runOp op s with
    | done u =>
      rw [hx] at core grown hast
      rw [run_done hx rest]
      rcases run_scrolling (h.tail hr) hast with
        ⟨t, h1, h2, h3⟩ | ⟨t, a, h1, h2, o, ho, w⟩ | ⟨t, r, post, h1, h2, h3, h4, h5, h6⟩
      · exact .inl ⟨t, h1, h2, core.trans h3⟩
      · exact .inr (.inl ⟨t, a, h1, core.trans h2, o, List.mem_cons_of_mem _ ho, w⟩)
      · refine .inr (.inr ⟨t, r, post, h1, h2, h3, core.trans h4, grown.trans h5, fun ok hk => ?_⟩)
        obtain ⟨e, new, k⟩ := h6 ok hk
        obtain ⟨m, hm⟩ := grown
        change s.trace ++ m = u.trace at hm
        change t.trace = u.trace ++ e :: new at k
        rw [k, ← hm]
        cases m with
        | nil => exact ⟨e, new, by simp⟩
        | cons a m => exact ⟨a, m ++ e :: new, by simp⟩
    | raise e u => rw [hx] at core; exact .inr (.inl ⟨u, e, run_raise hx rest, core, op, List.mem_cons_self, s, hx⟩)
    | wait u r =>
      rw [hx] at core grown hast
      refine .inr (.inr ⟨u, r, rest, run_wait hx rest, hast, (h.tail hr).resume (wait_resume hx).1, core, grown, ?_⟩)
      rintro ok rfl
      exact wait_flushEnd hx

/-- The flush of a command, wherever it goes on from, leaves the buffer, the cursor and `STATUS` (R135). -/
theorem runOp_inFlush {op : Op} (h : op.inFlush = true) (s : State) :
    (runOp op s).state.pb = s.pb ∧ (runOp op s).state.schr = s.schr ∧ (runOp op s).state.scol = s.scol ∧
    (runOp op s).state.status = s.status := by
  cases op <;> first | (cases h; done) | skip
  case flushGrant off n => obtain ⟨_, _, _, _, _, _, _, _, e⟩ := flushGrant_shape off n s; simp only [runOp, e, and_self]
  case flushHold off n => obtain ⟨_, _, _, _, _, _, _, e⟩ := flushWrite_shape off n s; simp only [runOp, e, and_self]
  case flushWrite off n => obtain ⟨_, _, _, _, _, _, _, e⟩ := flushWrite_shape off n s; simp only [runOp, e, and_self]
  case flushRelease ok => simp [runOp]
  case flushEnd ok => simp [runOp]

/-- A flush that waits again goes on from a statement of a flush. -/
theorem wait_inFlush {op r : Op} {s t : State} (h : op.inFlush = true) (hw : runOp op s = .wait t r) : r.inFlush = true := by
  have fl : ∀ {off n} {x : OpResult}, x.OfFlush off n → x = .wait t r → r.inFlush = true := by
    rintro off n _ hx rfl
    cases r <;> first | rfl | exact hx.elim
  cases op <;> first | (cases h; done) | skip
  case flushGrant off n => exact fl (ofFlush_grant off n s) hw
  case flushHold off n => exact fl (ofFlush_write off n s) hw
  case flushWrite off n => exact fl (ofFlush_write off n s) hw
  case flushRelease ok => exact fl (ofFlush_release 0 0 ok s) hw
  case flushEnd ok => exact fl (ofFlush_end 0 0 ok s) hw

/-! ### `NODEV` (R44) -/

/-- Only a flush that begins looks at `dev_present` and writes `NODEV`. -/
theorem runOp_nodev {op : Op} (h : ∀ off n, op ≠ .flush off n) (s : State) :
    (runOp op s).state.plat.present = s.plat.present ∧ (runOp op s).state.status.nodev = s.status.nodev := by
  cases op
  case flush off n => exact (h off n rfl).elim
  case lookup ch => obtain ⟨_, _, _, _, _, e⟩ := lookupChar_shape ch s; simp only [runOp, e, and_self]
  case lookupMsg =>
    simp only [runOp]
    split
    · obtain ⟨_, _, _, _, _, e⟩ := lookupChar_shape (s.msgAt s.schr.toNat) s; simp only [e, and_self]
    · exact ⟨rfl, rfl⟩
  case fontRow row => obtain ⟨_, _, _, _, e⟩ := readChunks_shape (chunksFrom row) s; simp only [runOp, e, and_self]
  case flushGrant off n => obtain ⟨_, _, _, _, _, _, _, _, e⟩ := flushGrant_shape off n s; simp only [runOp, e, and_self]
  case flushHold off n => obtain ⟨_, _, _, _, _, _, _, e⟩ := flushWrite_shape off n s; simp only [runOp, e, and_self]
  case flushWrite off n => obtain ⟨_, _, _, _, _, _, _, e⟩ := flushWrite_shape off n s; simp only [runOp, e, and_self]
  case flushRelease ok => simp [runOp]
  case flushEnd ok => simp [runOp]
  case pace => obtain ⟨_, _, _, _, e⟩ := paceStart_shape s; simp only [runOp, e, and_self]
  case paceWait => obtain ⟨_, _, _, e⟩ := paceWait_shape s; simp only [runOp, e, and_self]
  case checkCancel => simp only [runOp, checkCancel]; split <;> exact ⟨rfl, rfl⟩
  all_goals exact ⟨rfl, rfl⟩

/-- A flush that begins looks at `dev_present` once, and `NODEV` says whether it found no device (R44). -/
theorem flush_nodev (off n : Nat) (s : State) :
    (runOp (.flush off n) s).state.plat.present = s.plat.present.later ∧
    (runOp (.flush off n) s).state.status.nodev = !s.plat.present.now := by
  simp only [runOp, flushStart]
  split
  · obtain ⟨_, _, _, _, _, _, _, _, e⟩ := flushGrant_shape off n s.sampledPresent; rw [e]; exact ⟨rfl, rfl⟩
  · exact ⟨rfl, rfl⟩

/-- Where `dev_present` is `p` for ever and `NODEV` says so, both stay. -/
def NodevIs (p : Bool) (s : State) : Prop := s.plat.present.All (· = p) ∧ s.status.nodev = !p

theorem NodevIs.runOp {p : Bool} {s : State} (h : NodevIs p s) (op : Op) : NodevIs p (runOp op s).state := by
  unfold NodevIs
  by_cases hf : ∃ off n, op = .flush off n
  · obtain ⟨off, n, rfl⟩ := hf
    rw [(flush_nodev off n s).1, (flush_nodev off n s).2, h.1.now]
    exact ⟨h.1.later, rfl⟩
  · obtain ⟨h1, h2⟩ := runOp_nodev (fun off n e => hf ⟨off, n, e⟩) s
    rw [h1, h2]; exact h

theorem NodevIs.run {p : Bool} {s : State} (h : NodevIs p s) (ops : List Op) : NodevIs p (run ops s) :=
  run_keeps (P := NodevIs p) (fun op _ _ k => k.runOp op) (fun _ k => k)
    (fun a e k => by unfold NodevIs; rw [(raised e a).plat, (raised e a).nodev]; exact k) (fun _ _ k => k) h

end Sys2Proof.Machine
end

