-- ==== Sys2Proof/Laws/Encoding.lean ====
section
/-! SUPPORT. The fields of a word put together by `packWord`, a word as its fields, and the orientation codes. -/

namespace Sys2Proof

variable (op : BitVec 6) (o : BitVec 2) (a : Byte) (imm : Half)

@[simp] theorem opField_packWord : opField (packWord op o a imm) = op :=
  (BitVec.extractLsb'_append_eq_of_le (by decide)).trans ((BitVec.extractLsb'_append_eq_of_le (by decide)).trans
      ((BitVec.extractLsb'_append_eq_of_le (by decide)).trans BitVec.extractLsb'_eq_self))

@[simp] theorem oField_packWord : oField (packWord op o a imm) = o :=
  (BitVec.extractLsb'_append_eq_of_le (by decide)).trans ((BitVec.extractLsb'_append_eq_of_le (by decide)).trans
      BitVec.extractLsb'_append_eq_right)

@[simp] theorem aField_packWord : aField (packWord op o a imm) = a :=
  (BitVec.extractLsb'_append_eq_of_le (by decide)).trans BitVec.extractLsb'_append_eq_right

@[simp] theorem immField_packWord : immField (packWord op o a imm) = imm :=
  BitVec.extractLsb'_append_eq_right

@[simp] theorem xField_packWord (x y : BitVec 4) : xField (packWord op o (x ++ y) imm) = x :=
  (BitVec.extractLsb'_append_eq_of_le (by decide)).trans ((BitVec.extractLsb'_append_eq_of_add_le (by decide)).trans
      BitVec.extractLsb'_append_eq_left)

@[simp] theorem yField_packWord (x y : BitVec 4) : yField (packWord op o (x ++ y) imm) = y :=
  (BitVec.extractLsb'_append_eq_of_le (by decide)).trans ((BitVec.extractLsb'_append_eq_of_add_le (by decide)).trans
      BitVec.extractLsb'_append_eq_right)

@[simp] theorem bField_packWord (b c : Byte) : bField (packWord op o a (b ++ c)) = b :=
  (BitVec.extractLsb'_append_eq_of_add_le (by decide)).trans BitVec.extractLsb'_append_eq_left

@[simp] theorem cField_packWord (b c : Byte) : cField (packWord op o a (b ++ c)) = c :=
  (BitVec.extractLsb'_append_eq_of_add_le (by decide)).trans BitVec.extractLsb'_append_eq_right

/-- The two views of bits 23:16 and of bits 15:0 (R71). -/
theorem xField_append_yField (w : Word) : xField w ++ yField w = aField w :=
  BitVec.extractLsb'_append_extractLsb'_eq_extractLsb' (by decide)

theorem bField_append_cField (w : Word) : bField w ++ cField w = immField w :=
  BitVec.extractLsb'_append_extractLsb'_eq_extractLsb' (by decide)

/-- A word is its fields (R71: no bit of it is outside them). -/
theorem packWord_fields (w : Word) : packWord (opField w) (oField w) (aField w) (immField w) = w := by
  simp only [packWord, opField, oField, aField, immField]
  rw [BitVec.extractLsb'_append_extractLsb'_eq_extractLsb' (by decide),
    BitVec.extractLsb'_append_extractLsb'_eq_extractLsb' (by decide),
    BitVec.extractLsb'_append_extractLsb'_eq_extractLsb' (by decide)]
  exact BitVec.extractLsb'_eq_self

/-- A mask acts field by field. -/
theorem packWord_and (op' : BitVec 6) (o' : BitVec 2) (a' : Byte) (imm' : Half) :
    packWord op o a imm &&& packWord op' o' a' imm' =
      packWord (op &&& op') (o &&& o') (a &&& a') (imm &&& imm') := by
  unfold packWord
  exact (BitVec.and_append).trans (congrArg (· ++ (imm &&& imm'))
    (BitVec.and_append.trans (congrArg (· ++ (a &&& a')) BitVec.and_append)))

@[simp] theorem ofCode_code (o : Orient) : Orient.ofCode o.code = o := by cases o <;> decide

@[simp] theorem code_ofCode (c : BitVec 2) : (Orient.ofCode c).code = c := by
  revert c; decide

end Sys2Proof
end

