-- ==== Sys2Proof/Laws/PerInstr.lean ====
section
/-! SUPPORT. The family `EncodeCanonical`: the word of a command has its row's `op` (R76) and 0 in every bit its format does not
read (R81 "Unused bits are assembled as 0"). One lemma per constructor of `Instr`. -/

namespace Sys2Proof.Laws.EncodeCanonical

/-- The `op` of a command's row of R76. -/
def opcode : Instr → Nat
  | .encrgb _ _ _ => 0x01
  | .encname _ => 0x02
  | .decode _ _ => 0x03
  | .setfg _ => 0x04
  | .setbg _ => 0x05
  | .setfgr => 0x06
  | .setbgr => 0x07
  | .pixoff _ _ _ => 0x08
  | .glyoff _ _ => 0x09
  | .glyidx _ => 0x10
  | .glyaddr _ _ => 0x11
  | .lookup _ => 0x12
  | .glybit _ => 0x13
  | .pbset _ _ _ => 0x18
  | .pbsetl _ _ => 0x19
  | .pbfill _ => 0x1A
  | .pbget _ => 0x1B
  | .pbbyte _ => 0x1C
  | .flush => 0x20
  | .flush1 _ => 0x21
  | .setpix _ _ _ _ => 0x22
  | .msgclr => 0x28
  | .msgput _ => 0x29
  | .static _ => 0x2A
  | .scroll _ => 0x2B
  | .clrst _ => 0x30

def Statement (i : Instr) : Prop := (opField (encode i)).toNat = opcode i ∧ encode i &&& formatMask i = encode i

/-- A word put together by fields lies in a mask if each field does. -/
theorem masked {op : BitVec 6} {o o' : BitVec 2} {a a' : Byte} {imm imm' : Half} (ho : o &&& o' = o) (ha : a &&& a' = a)
    (hi : imm &&& imm' = imm) : packWord op o a imm &&& packWord 0x3F o' a' imm' = packWord op o a imm := by
  have hop : op &&& 0x3F = op := BitVec.and_allOnes (x := op)
  rw [packWord_and, hop, ho, ha, hi]

theorem low_byte (c : Byte) : (0#8 ++ c) &&& (0x00FF : Half) = 0#8 ++ c :=
  (BitVec.and_append (x₁ := 0#8) (y₁ := c) (x₂ := 0#8) (y₂ := 0xFF#8)).trans
    (by rw [BitVec.and_self, show c &&& 0xFF#8 = c from BitVec.and_allOnes])

theorem encrgb (r : Byte) (g : Byte) (b : Byte) : Statement (.encrgb r g b) :=
  ⟨by simp [encode, opcode], masked (o' := 0) (a' := 0xFF) (imm' := 0xFFFF) BitVec.and_zero BitVec.and_allOnes
      (BitVec.and_allOnes)⟩

theorem encname (n : Byte) : Statement (.encname n) :=
  ⟨by simp [encode, opcode], masked (o' := 0) (a' := 0x00) (imm' := 0x00FF) BitVec.and_zero BitVec.and_zero (low_byte _)⟩

theorem decode (hi : Byte) (lo : Byte) : Statement (.decode hi lo) :=
  ⟨by simp [encode, opcode], masked (o' := 0) (a' := 0x00) (imm' := 0xFFFF) BitVec.and_zero BitVec.and_zero (BitVec.and_allOnes)⟩

theorem setfg (v : Half) : Statement (.setfg v) :=
  ⟨by simp [encode, opcode], masked (o' := 0) (a' := 0x00) (imm' := 0xFFFF) BitVec.and_zero BitVec.and_zero (BitVec.and_allOnes)⟩

theorem setbg (v : Half) : Statement (.setbg v) :=
  ⟨by simp [encode, opcode], masked (o' := 0) (a' := 0x00) (imm' := 0xFFFF) BitVec.and_zero BitVec.and_zero (BitVec.and_allOnes)⟩

theorem setfgr : Statement .setfgr :=
  ⟨by simp [encode, opcode], masked (o' := 0) (a' := 0x00) (imm' := 0x0000) BitVec.and_zero BitVec.and_zero (BitVec.and_zero)⟩

theorem setbgr : Statement .setbgr :=
  ⟨by simp [encode, opcode], masked (o' := 0) (a' := 0x00) (imm' := 0x0000) BitVec.and_zero BitVec.and_zero (BitVec.and_zero)⟩

theorem pixoff (o : Orient) (x : BitVec 4) (y : BitVec 4) : Statement (.pixoff o x y) :=
  ⟨by simp [encode, opcode], masked (o' := 3) (a' := 0xFF) (imm' := 0x0000) BitVec.and_allOnes BitVec.and_allOnes
      (BitVec.and_zero)⟩

theorem glyoff (o : Orient) (i : Byte) : Statement (.glyoff o i) :=
  ⟨by simp [encode, opcode], masked (o' := 3) (a' := 0x00) (imm' := 0x00FF) BitVec.and_allOnes BitVec.and_zero (low_byte _)⟩

theorem glyidx (ch : Byte) : Statement (.glyidx ch) :=
  ⟨by simp [encode, opcode], masked (o' := 0) (a' := 0x00) (imm' := 0x00FF) BitVec.and_zero BitVec.and_zero (low_byte _)⟩

theorem glyaddr (row : Byte) (ch : Byte) : Statement (.glyaddr row ch) :=
  ⟨by simp [encode, opcode], masked (o' := 0) (a' := 0x00) (imm' := 0xFFFF) BitVec.and_zero BitVec.and_zero (BitVec.and_allOnes)⟩

theorem lookup (ch : Byte) : Statement (.lookup ch) :=
  ⟨by simp [encode, opcode], masked (o' := 0) (a' := 0x00) (imm' := 0x00FF) BitVec.and_zero BitVec.and_zero (low_byte _)⟩

theorem glybit (g : Byte) : Statement (.glybit g) :=
  ⟨by simp [encode, opcode], masked (o' := 0) (a' := 0x00) (imm' := 0x00FF) BitVec.and_zero BitVec.and_zero (low_byte _)⟩

theorem pbset (x : BitVec 4) (y : BitVec 4) (v : Half) : Statement (.pbset x y v) :=
  ⟨by simp [encode, opcode], masked (o' := 0) (a' := 0xFF) (imm' := 0xFFFF) BitVec.and_zero BitVec.and_allOnes
      (BitVec.and_allOnes)⟩

theorem pbsetl (i : Byte) (v : Half) : Statement (.pbsetl i v) :=
  ⟨by simp [encode, opcode], masked (o' := 0) (a' := 0xFF) (imm' := 0xFFFF) BitVec.and_zero BitVec.and_allOnes
      (BitVec.and_allOnes)⟩

theorem pbfill (v : Half) : Statement (.pbfill v) :=
  ⟨by simp [encode, opcode], masked (o' := 0) (a' := 0x00) (imm' := 0xFFFF) BitVec.and_zero BitVec.and_zero (BitVec.and_allOnes)⟩

theorem pbget (i : Byte) : Statement (.pbget i) :=
  ⟨by simp [encode, opcode], masked (o' := 0) (a' := 0x00) (imm' := 0x00FF) BitVec.and_zero BitVec.and_zero (low_byte _)⟩

theorem pbbyte (i : Byte) : Statement (.pbbyte i) :=
  ⟨by simp [encode, opcode], masked (o' := 0) (a' := 0x00) (imm' := 0x00FF) BitVec.and_zero BitVec.and_zero (low_byte _)⟩

theorem flush : Statement .flush :=
  ⟨by simp [encode, opcode], masked (o' := 0) (a' := 0x00) (imm' := 0x0000) BitVec.and_zero BitVec.and_zero (BitVec.and_zero)⟩

theorem flush1 (i : Byte) : Statement (.flush1 i) :=
  ⟨by simp [encode, opcode], masked (o' := 0) (a' := 0x00) (imm' := 0x00FF) BitVec.and_zero BitVec.and_zero (low_byte _)⟩

theorem setpix (o : Orient) (x : BitVec 4) (y : BitVec 4) (v : Half) : Statement (.setpix o x y v) :=
  ⟨by simp [encode, opcode], masked (o' := 3) (a' := 0xFF) (imm' := 0xFFFF) BitVec.and_allOnes BitVec.and_allOnes
      (BitVec.and_allOnes)⟩

theorem msgclr : Statement .msgclr :=
  ⟨by simp [encode, opcode], masked (o' := 0) (a' := 0x00) (imm' := 0x0000) BitVec.and_zero BitVec.and_zero (BitVec.and_zero)⟩

theorem msgput (ch : Byte) : Statement (.msgput ch) :=
  ⟨by simp [encode, opcode], masked (o' := 0) (a' := 0x00) (imm' := 0x00FF) BitVec.and_zero BitVec.and_zero (low_byte _)⟩

theorem static (o : Orient) : Statement (.static o) :=
  ⟨by simp [encode, opcode], masked (o' := 3) (a' := 0x00) (imm' := 0x0000) BitVec.and_allOnes BitVec.and_zero (BitVec.and_zero)⟩

theorem scroll (o : Orient) : Statement (.scroll o) :=
  ⟨by simp [encode, opcode], masked (o' := 3) (a' := 0x00) (imm' := 0x0000) BitVec.and_allOnes BitVec.and_zero (BitVec.and_zero)⟩

theorem clrst (m : Half) : Statement (.clrst m) :=
  ⟨by simp [encode, opcode], masked (o' := 0) (a' := 0x00) (imm' := 0xFFFF) BitVec.and_zero BitVec.and_zero (BitVec.and_allOnes)⟩

end Sys2Proof.Laws.EncodeCanonical
end

