-- ==== Sys2Proof/Laws/Prompt.lean ====
section
/-! SUPPORT. A command that waits and the same command before a platform that answers at once (`State.prompt`): statement by
statement they come to the same, but for the counter, the inputs sampled, the count of free values, and the device bytes that
others write or that a failed write left unspecified (`Finally.prompted`). -/

namespace Sys2Proof.Machine

/-! ### From the acceptance to the end, through every wait -/

/-- The statements `ops`, begun in `s`, come to the end of the command in `t`, however often they wait. -/
inductive Finally : List Op → State → State → Prop where
  | nil (s : State) : Finally [] s s.finish
  | done {op : Op} {ops : List Op} {s t u : State} (h : runOp op s = .done t) (k : Finally ops t u) : Finally (op :: ops) s u
  | raise {op : Op} {ops : List Op} {s : State} {e : Abort} {t : State}
      (h : runOp op s = .raise e t) : Finally (op :: ops) s (t.raise e)
  | wait {op r : Op} {ops : List Op} {s t u : State} (h : runOp op s = .wait t r)
      (k : Finally (r :: ops) ({ t with todo := r :: ops } : State).begun u) :
      Finally (op :: ops) s u

/-- What one step of a command comes to is its end, or a wait from which it goes on. -/
theorem run_finally : ∀ {ops : List Op} {s : State}, s.status.busy = true →
    ((run ops s).status.busy = false → Finally ops s (run ops s)) ∧
    ∀ t, (run ops s).status.busy = true → Finally (run ops s).todo (run ops s).begun t → Finally ops s t
  | [], s, _ => ⟨fun _ => .nil s, fun t h => by cases h⟩
  | op :: ops, s, hb => by
    have hc := runOp_sameCore op s
    simp only [run]
    cases e : runOp op s with
    | done u =>
      rw [e] at hc
      have ih := run_finally (ops := ops) (s := u) (hc.busy.trans hb)
      exact ⟨fun h => .done e (ih.1 h), fun t h k => .done e (ih.2 t h k)⟩
    | raise a u => exact ⟨fun _ => .raise e, fun t h => by rw [(raised a u).ready.1] at h; cases h⟩
    | wait u r =>
      rw [e] at hc
      refine ⟨fun h => ?_, fun t _ k => .wait e k⟩
      have := hc.busy.trans hb
      exact absurd (h.symm.trans this) (by simp)

/-- A command that has ended came to its end statement by statement. -/
theorem Executes.finally {i : Instr} {k : Nat} {s t u : State} {ops : List Op} (he : exec i s = .next (run ops u))
    (hb : u.status.busy = true) (h : Executes i k s t) :
    (t.status.busy = false → Finally ops u t) ∧ ∀ v, t.status.busy = true → Finally t.todo t.begun v → Finally ops u v := by
  induction k generalizing t with
  | zero =>
    have : t = run ops u := by have : exec i s = .next t := h; rw [he] at this; cases this; rfl
    subst this
    exact run_finally hb
  | succ k ih =>
    obtain ⟨w, h1, h2, h3, h4⟩ := h
    have h5 : t = run w.todo w.begun := by
      unfold step at h4; rw [h3, h2] at h4; cases h4; simp [State.resume]
    subst h5
    have := run_finally (ops := w.todo) (s := w.begun) (by rw [begun_status]; exact h2)
    exact ⟨fun h => (ih h1).2 _ h2 (this.1 h), fun v h k => (ih h1).2 _ h2 (this.2 v h k)⟩

/-! ### One device byte that others leave alone -/

/-- A write whose range holds `a` failed after the first `L` events of the history. -/
def FailedAt (a L : Nat) (tr : List Event) : Prop :=
  ∃ off bytes, Event.write off bytes false ∈ tr.drop L ∧ off ≤ a ∧ a < off + bytes.length

theorem failedAt_append {a L : Nat} {tr new : List Event} (hL : L ≤ tr.length) (h : FailedAt a L tr) :
    FailedAt a L (tr ++ new) := by
  obtain ⟨off, b, h1, h2⟩ := h
  refine ⟨off, b, ?_, h2⟩
  rw [List.drop_append_of_le_length hL]
  exact List.mem_append_left _ h1

/-- Others leave byte `a` alone in both states, and it is the same in both unless a write of it failed. -/
def SameByte (a L : Nat) (s u : State) : Prop :=
  s.Untouched a ∧ u.Untouched a ∧ L ≤ s.trace.length ∧
    (s.devAt a = u.devAt a ∨ FailedAt a L s.trace)

/-- The same, or `a` is in the range `off, n`, of which a write is under way. -/
def SameBut (a L off n : Nat) (s u : State) : Prop :=
  s.Untouched a ∧ u.Untouched a ∧ L ≤ s.trace.length ∧
    (s.devAt a = u.devAt a ∨ FailedAt a L s.trace ∨ (off ≤ a ∧ a < off + n))

theorem SameByte.log {a L : Nat} {s u : State} (h : SameByte a L s u) (e e' : Event) : SameByte a L (s.log e) (u.log e') := by
  obtain ⟨h1, h2, h3, h4⟩ := h
  refine ⟨h1, h2, by show L ≤ (s.trace ++ [e]).length; simp; omega, h4.imp id (failedAt_append h3)⟩

theorem SameByte.others {a L : Nat} {s u : State} (h : SameByte a L s u) : SameByte a L s.othersWrite u.othersWrite := by
  obtain ⟨h1, h2, h3, h4⟩ := h
  have := othersWrite_devAt h1
  have k := othersWrite_devAt h2
  exact ⟨this.2, k.2, h3, by rw [this.1, k.1]; exact h4⟩

theorem SameByte.left {a L : Nat} {s u : State} (h : SameByte a L s u) : SameByte a L s.othersWrite u := by
  obtain ⟨h1, h2, h3, h4⟩ := h
  have := othersWrite_devAt h1
  exact ⟨this.2, h2, h3, by rw [this.1]; exact h4⟩

theorem SameBut.left {a L off n : Nat} {s u : State} (h : SameBut a L off n s u) : SameBut a L off n s.othersWrite u := by
  obtain ⟨h1, h2, h3, h4⟩ := h
  have := othersWrite_devAt h1
  exact ⟨this.2, h2, h3, by rw [this.1]; exact h4⟩

theorem write_devAt (s : State) (off : Nat) (bs : List Byte) (a : Nat) (h : a < off ∨ off + bs.length ≤ a) :
    (s.writeDevice off bs).devAt a = s.devAt a := by
  unfold State.devAt
  rw [writeDevice_dev, read_writeBytes_ne _ h]

theorem write_devAt_in (s u : State) (off : Nat) (bs : List Byte) (a : Nat) (h : off ≤ a) (h2 : a < off + bs.length) :
    (s.writeDevice off bs).devAt a = (u.writeDevice off bs).devAt a := by
  unfold State.devAt
  rw [writeDevice_dev, writeDevice_dev, read_writeBytes_mem _ h h2, read_writeBytes_mem _ h h2]

/-! ### The same state before a prompt platform -/

/-- `u` is `s` before a prompt platform: its answers are those of `s` without the silences. The counter, the device, what others
write to it and `rst` are left open. -/
def Prompted (s u : State) : Prop :=
  ∃ m z d k td r f, u = { s with
    mtime := m, t0 := z, dev := d, draws := k, todo := td
    plat := { s.plat with
      rst := r, acquire := s.plat.acquire.prompt, write := s.plat.write.prompt, font := s.plat.font.prompt
      edge := ⟨[], false⟩, ticks := ⟨[], s.cfg.paceTicks⟩, foreign := f } }

/-- A silence is no answer of the prompt platform. -/
theorem prompt_silent {sc : Script Answer} (h : sc.now = .silent) : sc.later.prompt = sc.prompt := by
  obtain ⟨l, r⟩ := sc
  cases l with
  | nil => rfl
  | cons a l =>
    have : a = .silent := h
    subst this; rfl

/-- Any other answer is its next one. -/
theorem prompt_now {sc : Script Answer} (h : sc.now ≠ .silent) :
    sc.prompt.now = sc.now ∧ sc.prompt.later = sc.later.prompt := by
  obtain ⟨l, r⟩ := sc
  cases l with
  | nil => exact ⟨rfl, rfl⟩
  | cons a l =>
    have : a ≠ .silent := h
    unfold Script.prompt Script.now Script.later
    simp [this]

variable {a L : Nat}

/-- The two states differ in nothing that a statement can come to depend on, and agree in byte `a`. -/
def Alike (a L : Nat) (s u : State) : Prop := Prompted s u ∧ SameByte a L s u

/-- The same where statement `op` comes next: of a write under way its range is left open, and of a pace the prompt counter has
not moved since `t0` was latched. -/
def PromptedAt (a L : Nat) (op : Op) (s u : State) : Prop :=
  Prompted s u ∧
  (match op with
    | .flushWrite off n => SameBut a L off n s u
    | _ => SameByte a L s u) ∧
  (op = .paceWait → u.t0 = u.mtime ∧ u.mtime < 2 ^ u.cfg.mtimeBits)

/-- The result `y` of the prompt run follows `x`: it is done, or raises, alike; where `x` waits, `y` is what the statement at
which `x` waits comes to. -/
def Follows (a L : Nat) (x : OpResult) (y : OpResult) : Prop :=
  match x with
  | .done t => ∃ v, y = .done v ∧ Alike a L t v
  | .raise e t => ∃ v, y = .raise e v ∧ Alike a L t v
  | .wait t r => ∃ w, PromptedAt a L r t w ∧ y = runOp r w

/-! ### Every statement keeps the two alike -/

theorem alike_readChunks (rows : List Nat) : ∀ {s u : State}, Alike a L s u → (∃ n, rows = chunksFrom n) →
    Follows a L (readChunks rows s) (readChunks rows u) := by
  induction rows with
  | nil =>
    rintro s _ ⟨⟨m, z, d, k, td, r, f, rfl⟩, hS⟩ -
    exact ⟨_, rfl, ⟨m, z, d, k, td, r, f, rfl⟩, hS⟩
  | cons row rows ih =>
    intro s u h hr
    obtain ⟨n, hn⟩ := hr
    have hn0 : row = n ∧ rows = chunksFrom (n+1) := by
      unfold chunksFrom at hn ⊢
      rw [← List.tail_drop, ← hn]
      refine ⟨?_, rfl⟩
      have := congrArg List.head? hn
      simp [glyphChunks] at this
      obtain ⟨h1, h2⟩ := List.getElem?_eq_some_iff.mp this.symm
      simpa using h2.symm
    obtain ⟨rfl, hrows⟩ := hn0
    by_cases hs : s.plat.font.now = .silent
    · simp only [readChunks, hs, if_true, Follows]
      refine ⟨u, ⟨?_, h.2, nofun⟩, ?_⟩
      · obtain ⟨⟨m, z, d, k, td, r, f, rfl⟩, -⟩ := h
        refine ⟨m, z, d, k, td, r, f, ?_⟩
        simp only [State.sampledFont, prompt_silent hs]
      · show _ = readChunks (chunksFrom row) u
        rw [← hn]; simp only [readChunks]
    · obtain ⟨⟨m, z, d, k, td, r, f, rfl⟩, hS⟩ := h
      obtain ⟨h1, h2⟩ := prompt_now hs
      simp only [readChunks, hs, if_false, h1]
      have hf : ∀ a, ({ s with
          mtime := m, t0 := z, dev := d, draws := k, todo := td
          plat := { s.plat with
            rst := r, acquire := s.plat.acquire.prompt, write := s.plat.write.prompt, font := s.plat.font.prompt
            edge := ⟨[], false⟩, ticks := ⟨[], s.cfg.paceTicks⟩, foreign := f } } : State).fontFails a = s.fontFails a := by
        intro a; simp only [State.fontFails, h1]
      simp only [hf]
      split
      · exact ⟨_, rfl, ⟨m, z, d, k, td, r, f, by simp only [State.sampledFont, State.log, h2]⟩,
          hS.log (.fontRead (chunkAddr s.fontIdx row) false) (.fontRead (chunkAddr s.fontIdx row) false)⟩
      · exact ih (s := s.readChunk row) ⟨⟨m, z, d, k, td, r, f, by simp only [State.readChunk, State.sampledFont, h2]⟩,
          hS.log (.fontRead (chunkAddr s.fontIdx row) true) (.fontRead (chunkAddr s.fontIdx row) true)⟩ ⟨_, hrows⟩

theorem alike_end (ok : Bool) {s u : State} (h : Alike a L s u) : Follows a L (flushEnd ok s) (flushEnd ok u) := by
  cases ok
  · exact ⟨_, rfl, h⟩
  · exact ⟨_, rfl, h⟩

theorem atEdge_alike {s u : State} (h : Alike a L s u) (resume : Op) (go : State → OpResult)
    (hp : resume ≠ .paceWait ∧ ∀ off n, resume ≠ .flushWrite off n) (hgo : ∀ w, runOp resume w = go w)
    (hf : ∀ {s u}, Alike a L s u → Follows a L (go s) (go u)) : Follows a L (atEdge resume go s) (atEdge resume go u) := by
  have h1 : Alike a L s.sampledEdge u.sampledEdge := by
    obtain ⟨⟨m, z, d, k, td, r, f, rfl⟩, hS⟩ := h
    exact ⟨⟨m, z, d, k, td, r, f, rfl⟩, hS⟩
  have h2 : u.plat.edge.now = false := by obtain ⟨⟨m, z, d, k, td, r, f, rfl⟩, -⟩ := h; rfl
  have h3 : atEdge resume go u = go u.sampledEdge := by unfold atEdge; simp [h2]
  rw [h3]; unfold atEdge
  split
  · refine ⟨_, ⟨h1.1, ?_, fun h => absurd h hp.1⟩, (hgo _).symm⟩
    cases resume <;> first | exact h1.2 | exact absurd rfl (hp.2 _ _)
  · exact hf h1

theorem alike_release (ok : Bool) {s u : State} (h : Alike a L s u) : Follows a L (flushRelease ok s) (flushRelease ok u) := by
  refine atEdge_alike ⟨?_, ?_⟩ _ _ ⟨nofun, nofun⟩ (fun _ => rfl) (alike_end ok)
  · obtain ⟨⟨m, z, d, k, td, r, f, rfl⟩, hS⟩ := h
    exact ⟨m, z, _, k, td, r, _, rfl⟩
  · exact (SameByte.others h.2).log .release .release

theorem Prompted.write {s u : State} (h : Prompted s u) (off : Nat) (bs : List Byte) :
    Prompted (s.writeDevice off bs) (u.writeDevice off bs) := by
  obtain ⟨m, z, d, k, td, r, f, rfl⟩ := h
  exact ⟨m, z, _, k, td, r, f, rfl⟩

theorem Prompted.spoil {s u : State} (h : Prompted s u) (off n : Nat) : Prompted (s.spoil off n) (u.spoil off n) := by
  obtain ⟨m, z, d, k, td, r, f, rfl⟩ := h
  exact ⟨m, z, _, _, td, r, f, rfl⟩

theorem Prompted.log {s u : State} (h : Prompted s u) (e : Event) : Prompted (s.log e) (u.log e) := by
  obtain ⟨m, z, d, k, td, r, f, rfl⟩ := h
  exact ⟨m, z, _, _, td, r, f, rfl⟩

/-- A write that is answered ends the difference in its range. -/
theorem wrote_same {off n : Nat} {s u : State} (h : SameBut a L off n s u) (bs : List Byte) (hl : bs.length = n) (e : Event) :
    SameByte a L ((s.writeDevice off bs).log e) ((u.writeDevice off bs).log e) := by
  obtain ⟨h1, h2, h3, g4⟩ := h
  refine ⟨h1, h2, by show L ≤ (s.trace ++ [e]).length; simp; omega, ?_⟩
  by_cases hr : off ≤ a ∧ a < off + n
  · exact .inl (write_devAt_in s u off bs a hr.1 (by rw [hl]; exact hr.2))
  · rcases g4 with g | g | g
    · exact .inl ((write_devAt s off bs a (by omega)).trans (g.trans (write_devAt u off bs a (by omega)).symm))
    · exact .inr (failedAt_append h3 g)
    · exact absurd g hr

/-- A write that fails leaves its range open for good. -/
theorem spoilt_same {off n : Nat} {s u : State} (h : SameBut a L off n s u) (bs : List Byte) (hl : bs.length = n) :
    SameByte a L ((s.spoil off n).log (.write off bs false)) ((u.spoil off n).log (.write off bs false)) := by
  obtain ⟨h1, h2, h3, g4⟩ := h
  refine ⟨h1, h2, by show L ≤ (s.trace ++ [_]).length; simp; omega, ?_⟩
  by_cases hr : off ≤ a ∧ a < off + n
  · refine .inr ⟨off, bs, ?_, hr.1, by rw [hl]; exact hr.2⟩
    show _ ∈ (s.trace ++ [_]).drop L
    rw [List.drop_append_of_le_length h3]; simp
  · have e1 : ∀ x : State, (x.spoil off n).devAt a = x.devAt a := fun x =>
      write_devAt x off _ a (by rw [length_freeBytes]; omega)
    rcases g4 with g | g | g
    · exact .inl ((e1 s).trans (g.trans (e1 u).symm))
    · exact .inr (failedAt_append h3 g)
    · exact absurd g hr

theorem alike_write (off n : Nat) {s u : State} (hA : Prompted s u) (hH : SameBut a L off n s u) :
    Follows a L (flushWrite off n s) (flushWrite off n u) := by
  by_cases hs : s.plat.write.now = .silent
  · have : flushWrite off n s = .wait (s.sampledWrite.spoil off n) (.flushWrite off n) := by simp only [flushWrite, hs]
    rw [this]
    refine ⟨u, ⟨?_, ?_, nofun⟩, rfl⟩
    · obtain ⟨m, z, d, k, td, r, f, rfl⟩ := hA
      refine ⟨m, z, d, k, td, r, f, ?_⟩
      simp only [State.sampledWrite, State.spoil, prompt_silent hs]
    · obtain ⟨h1, h2, h3, h4⟩ := hH
      refine ⟨h1, h2, h3, ?_⟩
      by_cases hr : off ≤ a ∧ a < off + n
      · exact .inr (.inr hr)
      · have : (s.sampledWrite.spoil off n).devAt a = s.devAt a :=
          write_devAt s.sampledWrite off _ a (by rw [length_freeBytes]; omega)
        rw [this]; exact h4
  · obtain ⟨h1, h2⟩ := prompt_now hs
    have hu : u.plat.write.now = s.plat.write.now := by
      obtain ⟨m, z, d, k, td, r, f, rfl⟩ := hA; exact h1
    have h3 : Prompted s.sampledWrite u.sampledWrite := by
      obtain ⟨m, z, d, k, td, r, f, rfl⟩ := hA
      exact ⟨m, z, d, k, td, r, f, by simp only [State.sampledWrite, h2]⟩
    have hpb : u.pb = s.pb := by obtain ⟨m, z, d, k, td, r, f, rfl⟩ := hA; rfl
    have hH' : SameBut a L off n s.sampledWrite u.sampledWrite := hH
    unfold flushWrite
    simp only [hu, hpb]
    generalize s.sampledWrite = s' at *
    generalize u.sampledWrite = u' at *
    cases hw : s.plat.write.now
    · exact atEdge_alike ⟨(h3.write _ _).log _, wrote_same hH' _ (length_pbBytes _ _ _) _⟩ _ _ ⟨nofun, nofun⟩ (fun _ => rfl)
        (alike_release true)
    · exact atEdge_alike ⟨(h3.spoil _ _).log _, spoilt_same hH' _ (length_pbBytes _ _ _)⟩ _ _ ⟨nofun, nofun⟩ (fun _ => rfl)
        (alike_release false)
    · exact absurd hw hs

theorem SameBut.of_same {off n : Nat} {s u : State} (h : SameByte a L s u) : SameBut a L off n s u :=
  ⟨h.1, h.2.1, h.2.2.1, h.2.2.2.imp id .inl⟩

theorem alike_grant (off n : Nat) {s u : State} (h : Alike a L s u) :
    Follows a L (flushGrant off n s) (flushGrant off n u) := by
  by_cases hs : s.plat.acquire.now = .silent
  · have : flushGrant off n s = .wait s.sampledAcquire (.flushGrant off n) := by simp only [flushGrant, hs]
    rw [this]
    refine ⟨u, ⟨?_, h.2, nofun⟩, rfl⟩
    obtain ⟨⟨m, z, d, k, td, r, f, rfl⟩, -⟩ := h
    refine ⟨m, z, d, k, td, r, f, ?_⟩
    simp only [State.sampledAcquire, prompt_silent hs]
  · obtain ⟨h1, h2⟩ := prompt_now hs
    have hu : u.plat.acquire.now = s.plat.acquire.now := by
      obtain ⟨⟨m, z, d, k, td, r, f, rfl⟩, -⟩ := h; exact h1
    have h3 : Prompted s.sampledAcquire u.sampledAcquire := by
      obtain ⟨⟨m, z, d, k, td, r, f, rfl⟩, -⟩ := h
      exact ⟨m, z, d, k, td, r, f, by simp only [State.sampledAcquire, h2]⟩
    unfold flushGrant
    simp only [hu]
    cases hw : s.plat.acquire.now
    · refine atEdge_alike ⟨?_, ?_⟩ _ _ ⟨nofun, nofun⟩ (fun _ => rfl)
        (fun h => alike_write off n h.1 (SameBut.of_same h.2))
      · obtain ⟨m, z, d, k, td, r, f, e⟩ := h3
        rw [e]
        exact ⟨m, z, _, k, td, r, _, rfl⟩
      · exact (SameByte.others (s := s) (u := u) h.2).log (.acquire true) (.acquire true)
    · refine atEdge_alike ⟨?_, ?_⟩ _ _ ⟨nofun, nofun⟩ (fun _ => rfl) (alike_end false)
      · obtain ⟨m, z, d, k, td, r, f, e⟩ := h3
        rw [e]
        exact ⟨m, z, _, _, td, r, _, rfl⟩
      · exact h.2.log (.acquire false) (.acquire false)
    · exact absurd hw hs

/-- The prompt counter has advanced by `PACE_TICKS` at the first comparison. -/
theorem alike_paceWait {s u : State} (h : Alike a L s u) (hp : u.t0 = u.mtime ∧ u.mtime < 2 ^ u.cfg.mtimeBits) :
    Follows a L (paceWait s) (paceWait u) := by
  obtain ⟨ht, hm⟩ := hp
  obtain ⟨h, hS⟩ := h
  unfold paceWait
  split
  · rename_i hle
    have hlt : s.cfg.paceTicks < 2 ^ s.cfg.mtimeBits := lt_of_le_of_lt hle (Nat.mod_lt _ (by positivity))
    have hu : u.readMtime.elapsed = u.cfg.paceTicks := by
      obtain ⟨m, z, d, k, td, r, f, rfl⟩ := h
      simp only at ht hm
      subst ht
      unfold State.elapsed State.readMtime
      simp only [Script.now]
      rw [Nat.mod_eq_of_lt hm]
      generalize 2 ^ s.cfg.mtimeBits = M at *
      generalize s.cfg.paceTicks = p at *
      rcases Nat.lt_or_ge (z + p) M with h1 | h1
      · rw [Nat.mod_eq_of_lt h1]
        have : z + p + M - z = p + M := by omega
        rw [this, Nat.add_mod_right, Nat.mod_eq_of_lt hlt]
      · have e : (z + p) % M = z + p - M := by
          rw [Nat.mod_eq_sub_mod h1, Nat.mod_eq_of_lt (by omega)]
        rw [e]
        have : z + p - M + M - z = p := by omega
        rw [this, Nat.mod_eq_of_lt hlt]
    rw [if_pos (by rw [hu])]
    refine ⟨_, rfl, ?_, hS.log .pace .pace⟩
    obtain ⟨m, z, d, k, td, r, f, rfl⟩ := h
    exact ⟨_, z, d, k, td, r, f, rfl⟩
  · refine ⟨u, ⟨?_, hS, fun _ => ⟨ht, hm⟩⟩, rfl⟩
    obtain ⟨m, z, d, k, td, r, f, rfl⟩ := h
    exact ⟨_, z, d, k, td, r, f, rfl⟩

theorem alike_pace {s u : State} (h : Alike a L s u) : Follows a L (paceStart s) (paceStart u) := by
  refine alike_paceWait ⟨?_, h.2⟩ ⟨rfl, Nat.mod_lt _ (by positivity)⟩
  obtain ⟨⟨m, z, d, k, td, r, f, rfl⟩, -⟩ := h
  exact ⟨_, _, d, k, td, r, f, rfl⟩

theorem alike_lookup (ch : Byte) {s u : State} (h : Alike a L s u) : Follows a L (lookupChar ch s) (lookupChar ch u) := by
  refine alike_readChunks _ ⟨?_, h.2⟩ ⟨0, rfl⟩
  obtain ⟨⟨m, z, d, k, td, r, f, rfl⟩, -⟩ := h
  exact ⟨_, _, d, k, td, r, f, rfl⟩

theorem alike_op (op : Op) {s u : State} (h : PromptedAt a L op s u) : Follows a L (runOp op s) (runOp op u) := by
  have ha : (∀ off n, op ≠ .flushWrite off n) → Alike a L s u := by
    intro hn; refine ⟨h.1, ?_⟩
    have := h.2.1
    cases op <;> first | exact this | exact absurd rfl (hn _ _)
  cases op <;> simp only [runOp]
  case flushWrite => exact alike_write _ _ h.1 h.2.1
  all_goals replace ha := ha nofun
  case lookup => exact alike_lookup _ ha
  case lookupMsg =>
    have e : u.schr = s.schr ∧ u.n = s.n ∧ u.msgAt u.schr.toNat = s.msgAt s.schr.toNat := by
      obtain ⟨⟨m, z, d, k, td, r, f, rfl⟩, -⟩ := ha; exact ⟨rfl, rfl, rfl⟩
    rw [e.2.2, e.1, e.2.1]
    split
    · exact alike_lookup _ ha
    · exact ⟨_, rfl, ha⟩
  case flush off n =>
    have e : u.plat.present.now = s.plat.present.now := by
      obtain ⟨⟨m, z, d, k, td, r, f, rfl⟩, -⟩ := ha; rfl
    have h2 : Alike a L s.sampledPresent u.sampledPresent := by
      obtain ⟨⟨m, z, d, k, td, r, f, rfl⟩, hS⟩ := ha; exact ⟨⟨m, z, d, k, td, r, f, rfl⟩, hS⟩
    unfold flushStart; rw [e]
    split
    · exact alike_grant _ _ h2
    · exact ⟨_, rfl, h2⟩
  case pace => exact alike_pace ha
  case paceWait => exact alike_paceWait ha (h.2.2 rfl)
  case checkCancel =>
    have e : u.plat.cancel.now = s.plat.cancel.now := by
      obtain ⟨⟨m, z, d, k, td, r, f, rfl⟩, -⟩ := ha; rfl
    have h2 : Alike a L s.sampledCancel u.sampledCancel := by
      obtain ⟨⟨m, z, d, k, td, r, f, rfl⟩, hS⟩ := ha; exact ⟨⟨m, z, d, k, td, r, f, rfl⟩, hS⟩
    unfold checkCancel; rw [e]
    split
    · exact ⟨_, rfl, h2⟩
    · exact ⟨_, rfl, h2⟩
  case fontRow row => exact alike_readChunks _ ha ⟨row, rfl⟩
  case flushGrant => exact alike_grant _ _ ha
  case flushHold => exact alike_write _ _ ha.1 (SameBut.of_same ha.2)
  case flushRelease => exact alike_release _ ha
  case flushEnd => exact alike_end _ ha
  all_goals
    obtain ⟨⟨m, z, d, k, td, r, f, rfl⟩, hS⟩ := ha
    exact ⟨_, rfl, ⟨m, z, d, k, td, r, f, rfl⟩, hS⟩

theorem prompted_begun {s u : State} (h : Prompted s u) (td : List Op) :
    Prompted ({ s with todo := td } : State).begun u := by
  obtain ⟨m, z, d, k, td, r, f, rfl⟩ := h
  unfold State.begun
  split
  · exact ⟨m, z, d, k, td, r, f, rfl⟩
  · exact ⟨m, z, d, k, td, r, f, rfl⟩

theorem SameByte.begun {s u : State} (h : SameByte a L s u) (td : List Op) :
    SameByte a L ({ s with todo := td } : State).begun u := by
  unfold State.begun
  split
  exacts [h, SameByte.left (s := ({ s with todo := td } : State).sampledRst) h]

theorem SameBut.begun {off n : Nat} {s u : State} (h : SameBut a L off n s u) (td : List Op) :
    SameBut a L off n ({ s with todo := td } : State).begun u := by
  unfold State.begun
  split
  exacts [h, SameBut.left (s := ({ s with todo := td } : State).sampledRst) h]

/-- A command that comes to its end in `t`, waits included, ends in the one step before a prompt platform, in a like state. -/
theorem Finally.prompted {ops : List Op} {s t : State} (h : Finally ops s t) :
    ∀ u, (∀ op ∈ ops.head?, PromptedAt a L op s u) → (ops = [] → Alike a L s u) → (∀ op ∈ ops.tail, op.isResume = false) →
    Alike a L t (run ops u) ∧ (run ops u).Ready := by
  induction h with
  | nil s =>
    rintro u - h -
    obtain ⟨⟨m, z, d, k, td, r, f, rfl⟩, hS⟩ := h rfl
    exact ⟨⟨⟨m, z, d, k, [], r, f, rfl⟩, hS⟩, ready_finish _⟩
  | @done op ops s t v h k ih =>
    intro u hc _ ht
    have := alike_op op (hc op rfl)
    rw [h] at this
    obtain ⟨w, e, ha⟩ := this
    simp only [run, e]
    refine ih w ?_ (fun _ => ha) (fun o ho => ht o (List.mem_of_mem_tail ho))
    intro o ho
    have : o.isResume = false := ht o (by cases ops <;> simp_all)
    refine ⟨ha.1, ?_, fun h => by subst h; cases this⟩
    cases o <;> first | exact ha.2 | cases this
  | @raise op ops s e t h =>
    intro u hc _ ht
    have := alike_op op (hc op rfl)
    rw [h] at this
    obtain ⟨w, e', ha⟩ := this
    simp only [run, e']
    refine ⟨⟨?_, ?_⟩, (raised e w).ready⟩
    · obtain ⟨⟨m, z, d, k, td, r, f, rfl⟩, -⟩ := ha
      by_cases hsc : t.scrolling = true
      · refine ⟨m, z, d, k, [], r, f, ?_⟩
        unfold State.raise State.scrolling State.withStatus at *
        simp only [hsc]
        rfl
      · refine ⟨m, z, d, k, [], r, f, ?_⟩
        unfold State.raise State.scrolling State.withStatus at *
        simp only [hsc]
        rfl
    · have e1 := raised e w
      have e2 := raised e t
      have := ha.2
      unfold SameByte State.Untouched State.devAt at *
      rw [e1.plat, e2.plat, e1.dev, e2.dev, e2.trace]
      exact this
  | @wait op r ops s t v h k ih =>
    intro u hc _ ht
    have := alike_op op (hc op rfl)
    rw [h] at this
    obtain ⟨w, ⟨ha, hb, hp⟩, e⟩ := this
    have sameAt : ∀ {r' : Op} {td : List Op},
        (match r' with | .flushWrite off n => SameBut a L off n t w | _ => SameByte a L t w) →
        match r' with
        | .flushWrite off n => SameBut a L off n ({ t with todo := td } : State).begun w
        | _ => SameByte a L ({ t with todo := td } : State).begun w := by
      intro r' td h
      cases r' <;> first | exact SameByte.begun h td | exact SameBut.begun h td
    have e2 : run (op :: ops) u = run (r :: ops) w := by simp only [run, e]
    rw [e2]
    exact ih w (fun o ho => by cases ho; exact ⟨prompted_begun ha _, sameAt hb, hp⟩) nofun ht

/-- The same of a command, from its acceptance on. -/
theorem Executes.prompted {i : Instr} {k : Nat} {s t u w : State} {ops : List Op} (he : exec i s = .next (run ops u))
    (hb : u.status.busy = true) (h : Executes i k s t) (hr : t.Ready) (hA : Alike a L u w)
    (hops : ∀ op ∈ ops, op.isResume = false) : Alike a L t (run ops w) ∧ (run ops w).Ready := by
  refine (((h.finally he hb).1 hr.1).prompted) w ?_ (fun _ => hA) (fun o ho => hops o (List.mem_of_mem_tail ho))
  intro o ho
  have : o.isResume = false := hops o (List.mem_of_mem_head? ho)
  refine ⟨hA.1, ?_, fun h => by subst h; cases this⟩
  cases o <;> first | exact hA.2 | cases this

end Sys2Proof.Machine
end

