-- ==== Sys2Proof/Laws/Scroll.lean ====
section
/-! SUPPORT. `SCROLL` when the platform answers: what each statement, each step, each character and the start of the animation
leave, and that twelve blank steps clear the buffer. -/

namespace Sys2Proof.Machine

/-! ### Statements that are all answered -/

/-- The platform answers everything with success and `mtime` advances. -/
def State.Answered (s : State) : Prop := s.FontAnswers ∧ s.DeviceAnswers ∧ s.Ticking

/-- The same, and `cancel` stays 0. -/
def State.Calm (s : State) : Prop := s.FontAnswers ∧ s.DeviceAnswers ∧ s.Ticking ∧ s.NotCancelled

/-- The state after the statements `ops`, whatever each comes to. -/
def after (ops : List Op) (s : State) : State := ops.foldl (fun t op => (runOp op t).state) s

@[simp] theorem after_nil (s : State) : after [] s = s := rfl
@[simp] theorem after_cons (op : Op) (ops : List Op) (s : State) : after (op :: ops) s = after ops (runOp op s).state := rfl
theorem after_append (a b : List Op) (s : State) : after (a ++ b) s = after b (after a s) := List.foldl_append

/-- What is true of all that others will still write stays true of it. -/
theorem after_foreign {p : List Host.Cell → Prop} (ops : List Op) {s : State} (h : s.plat.foreign.All p) :
    (after ops s).plat.foreign.All p := by
  induction ops generalizing s with
  | nil => exact h
  | cons op ops ih => exact ih (runOp_foreign op h)

/-- The statement is a flush that begins. -/
def Op.beginsFlush : Op → Bool
  | .flush _ _ => true
  | _ => false

theorem beginsFlush_of {op : Op} (h : op.beginsFlush = true) : ∃ off n, op = .flush off n := by
  cases op <;> first | exact ⟨_, _, rfl⟩ | cases h

/-- Each flush that begins looks at `dev_present` once, and nothing else looks at it (R44). -/
theorem after_present (ops : List Op) (s : State) (j : Nat) :
    (after ops s).plat.present.nth j = s.plat.present.nth (ops.countP Op.beginsFlush + j) := by
  induction ops generalizing s with
  | nil => rw [after_nil, List.countP_nil, Nat.zero_add]
  | cons op ops ih =>
    rw [after_cons, ih, List.countP_cons]
    by_cases hf : ∃ off n, op = .flush off n
    · obtain ⟨off, n, rfl⟩ := hf
      rw [(flush_nodev off n s).1, Script.nth_later]
      exact congrArg _ (Nat.add_right_comm _ _ _)
    · rw [(runOp_nodev (fun off n e => hf ⟨off, n, e⟩) s).1, if_neg fun k => hf (beginsFlush_of k)]
      rfl

/-- After some flushes `NODEV` is what the last of them found (R44). -/
theorem after_nodev {ops : List Op} {s : State} {j : Nat} (h : ops.countP Op.beginsFlush = j + 1) :
    (after ops s).status.nodev = !s.plat.present.nth j := by
  induction ops using List.reverseRecOn generalizing j with
  | nil => cases h
  | append_singleton ops op ih =>
    rw [List.countP_append, List.countP_singleton] at h
    rw [after_append]
    by_cases hf : ∃ off n, op = .flush off n
    · obtain ⟨off, n, rfl⟩ := hf
      have hj : ops.countP Op.beginsFlush = j := Nat.succ.inj h
      rw [after_cons, after_nil, (flush_nodev off n _).2, ← Script.nth_zero, after_present, hj, Nat.add_zero]
    · rw [if_neg fun k => hf (beginsFlush_of k)] at h
      rw [after_cons, after_nil, (runOp_nodev (fun off n e => hf ⟨off, n, e⟩) _).2]
      exact ih h

/-- A character of the animation makes six flushes, and the whole `1 + 6*(n + 2)` of them (R140). -/
theorem flushes_chars (o : Orient) (ks : List Nat) : (ks.flatMap (charOps o)).countP Op.beginsFlush = 6 * ks.length := by
  induction ks with
  | nil => rfl
  | cons k ks ih =>
    rw [List.flatMap_cons, List.countP_append, ih, show (charOps o k).countP Op.beginsFlush = 6 from rfl, List.length_cons]
    omega

theorem flushes_scroll (o : Orient) (len : Nat) : (scrollOps o len).countP Op.beginsFlush = 6 * (len + 2) + 1 := by
  unfold scrollOps
  rw [List.countP_append, List.countP_append, flushes_chars, List.length_range,
    show scrollStart.countP Op.beginsFlush = 1 from rfl, show [Op.setAState .done].countP Op.beginsFlush = 0 from rfl]
  simp only [trailingChars]
  omega

theorem answered_of {s t : State} (h : s.Answered) (hc : t.cfg = s.cfg)
    (hf : t.plat.font = s.plat.font ∨ t.plat.font.All (· = .ok))
    (ha : t.plat.acquire = s.plat.acquire ∨ t.plat.acquire = s.plat.acquire.later)
    (hw : t.plat.write = s.plat.write ∨ t.plat.write = s.plat.write.later)
    (he : t.plat.edge = s.plat.edge ∨ t.plat.edge = s.plat.edge.later.later.later)
    (ht : t.plat.ticks = s.plat.ticks ∨ t.plat.ticks = s.plat.ticks.later.later) : t.Answered := by
  obtain ⟨⟨f1, f2⟩, ⟨d1, d2, d3⟩, k⟩ := h
  refine ⟨⟨?_, by rw [hc]; exact f2⟩, ⟨?_, ?_, ?_⟩, ?_⟩
  · rcases hf with hf | hf
    · rw [hf]; exact f1
    · exact hf
  · rcases ha with h | h <;> rw [h]
    exacts [d1, d1.later]
  · rcases hw with h | h <;> rw [h]
    exacts [d2, d2.later]
  · unfold State.NoEdge
    rcases he with h | h <;> rw [h]
    exacts [d3, d3.later.later.later]
  · unfold State.Ticking; rw [hc]
    rcases ht with h | h <;> rw [h]
    exacts [k, k.later.later]

theorem calm_iff (s : State) : s.Calm ↔ s.Answered ∧ s.NotCancelled := by
  unfold State.Calm State.Answered
  tauto

theorem calm_same {s t : State} (h : s.Calm) (hc : t.cfg = s.cfg) (hp : t.plat = s.plat) : t.Calm := by
  unfold State.Calm State.FontAnswers State.DeviceAnswers State.NoEdge State.Ticking State.NotCancelled at *
  rw [hc, hp]; exact h

theorem chunksRead_font {s : State} (h : s.plat.font.All (· = .ok)) (rows : List Nat) : (s.chunksRead rows).plat.font.All (· =
    .ok) := by
  unfold State.chunksRead
  induction rows generalizing s with
  | nil => exact h
  | cons r rs ih => exact ih (s := s.readChunk r) h.later

theorem chunksRead_shape (s : State) (rows : List Nat) :
    ∃ g f tr, s.chunksRead rows = { s with glyph := g, plat := { s.plat with font := f }, trace := tr } := by
  unfold State.chunksRead
  induction rows generalizing s with
  | nil => exact ⟨_, _, _, rfl⟩
  | cons r rs ih =>
    obtain ⟨g, f, tr, e⟩ := ih (s.readChunk r)
    exact ⟨g, f, tr, by rw [List.foldl_cons, e]; rfl⟩

theorem chunksRead_trace (s : State) (rows : List Nat) : (s.chunksRead rows).trace = s.trace ++ rows.map (fun row => .fontRead
    (chunkAddr s.fontIdx row) true) := by
  unfold State.chunksRead
  induction rows generalizing s with
  | nil => simp
  | cons r rs ih =>
    rw [List.foldl_cons, ih (s.readChunk r)]
    show (s.trace ++ [Event.fontRead (chunkAddr s.fontIdx r) true]) ++ _ = _
    simp

/-- What an answered lookup leaves (R115). -/
theorem lookedUp_shape (s : State) (ch) (h : s.plat.font.All (· = .ok)) :
    ∃ i g f, f.All (· = .ok) ∧ s.lookedUp ch =
      { s with
        fontIdx := i
        glyph := g
        gl := fontGlyph s.cfg.litByte s.cfg.font (glyphIndex s.cfg.alphabet ch)
        plat := { s.plat with font := f }
        trace := s.trace ++ lookupReads s.cfg.alphabet ch } := by
  obtain ⟨g, f, tr, e⟩ := chunksRead_shape (s.beginLookup ch) (chunksFrom 0)
  have hf := chunksRead_font (s := s.beginLookup ch) h (chunksFrom 0)
  have ht := chunksRead_trace (s.beginLookup ch) (chunksFrom 0)
  rw [e] at hf ht
  refine ⟨glyphIndex s.cfg.alphabet ch, g, f, hf, ?_⟩
  rw [State.lookedUp, e]
  have ht : tr = s.trace ++ lookupReads s.cfg.alphabet ch := ht
  rw [ht]; rfl

/-- Where everything is answered every statement but the cancellation check is done, and leaves `cancel` alone. -/
theorem answered_op {op : Op} (hop : op.isResume = false) (hne : op ≠ .checkCancel) {s : State} (h : s.Answered) :
    runOp op s = .done (runOp op s).state ∧ (runOp op s).state.Answered ∧ (runOp op s).state.plat.cancel = s.plat.cancel := by
  have lk : ∀ ch, runOp (.lookup ch) s = .done (s.lookedUp ch) ∧ (s.lookedUp ch).Answered ∧
      (s.lookedUp ch).plat.cancel = s.plat.cancel := by
    intro ch
    obtain ⟨i, g, f, hf, e⟩ := lookedUp_shape s ch h.1.1
    refine ⟨lookupChar_done h.1 ch, ?_⟩
    rw [e]
    exact ⟨⟨⟨hf, h.1.2⟩, h.2⟩, rfl⟩
  have done_of : ∀ {op : Op} {t : State}, (runOp op s = .done t ∧ t.Answered ∧ t.plat.cancel = s.plat.cancel) →
      runOp op s = .done (runOp op s).state ∧ (runOp op s).state.Answered ∧ (runOp op s).state.plat.cancel = s.plat.cancel := by
    rintro op t ⟨h1, h2⟩
    rw [h1]; exact ⟨rfl, h2⟩
  cases op <;> first | (cases hop; done) | skip
  case lookup ch => exact done_of (lk ch)
  case lookupMsg =>
    by_cases hlt : s.schr.toNat < s.n.toNat
    · have e : runOp .lookupMsg s = runOp (.lookup (s.msgAt s.schr.toNat)) s := by simp only [runOp, if_pos hlt]
      rw [e]; exact done_of (lk (s.msgAt s.schr.toNat))
    · exact done_of (t := s) ⟨by simp only [runOp, if_neg hlt], h, rfl⟩
  case flush off n =>
    refine done_of ⟨flush_done_or_skipped h.2.1 off n, ?_⟩
    split
    · refine ⟨answered_of h ?_ (.inl ?_) (.inr ?_) (.inr ?_) (.inr ?_) (.inl ?_), ?_⟩ <;> simp [State.flushed]
    · exact ⟨answered_of h rfl (.inl rfl) (.inl rfl) (.inl rfl) (.inl rfl) (.inl rfl), rfl⟩
  case pace => exact done_of ⟨pace_done h.2.2, answered_of h rfl (.inl rfl) (.inl rfl) (.inl rfl) (.inl rfl) (.inr rfl), rfl⟩
  case checkCancel => exact absurd rfl hne
  all_goals exact ⟨rfl, answered_of h rfl (.inl rfl) (.inl rfl) (.inl rfl) (.inl rfl) (.inl rfl), rfl⟩

/-- On a calm platform every statement is done. -/
theorem calm_op {op : Op} (hop : op.isResume = false) {s : State} (h : s.Calm) :
    runOp op s = .done (runOp op s).state ∧ (runOp op s).state.Calm := by
  obtain ⟨h1, h2⟩ := (calm_iff s).mp h
  by_cases hne : op = .checkCancel
  · subst hne
    rw [cancel_done h2]
    exact ⟨rfl, (calm_iff _).mpr ⟨answered_of h1 rfl (.inl rfl) (.inl rfl) (.inl rfl) (.inl rfl) (.inl rfl), h2.later⟩⟩
  · obtain ⟨a, b, c⟩ := answered_op hop hne h1
    refine ⟨a, (calm_iff _).mpr ⟨b, ?_⟩⟩
    unfold State.NotCancelled
    rw [c]; exact h2

/-- The statements in front of the first cancellation check run, and leave `cancel` alone. -/
theorem answered_run {ops : List Op} (hops : ∀ op ∈ ops, op.isResume = false ∧ op ≠ .checkCancel) (rest : List Op) {s : State}
    (h : s.Answered) :
    run (ops ++ rest) s = run rest (after ops s) ∧ (after ops s).Answered ∧ (after ops s).plat.cancel = s.plat.cancel := by
  induction ops generalizing s with
  | nil => exact ⟨rfl, h, rfl⟩
  | cons op ops ih =>
    obtain ⟨a, b, c⟩ := answered_op (hops op (by simp)).1 (hops op (by simp)).2 h
    obtain ⟨d, e, f⟩ := ih (fun o ho => hops o (by simp [ho])) b
    refine ⟨?_, e, f.trans c⟩
    simp only [List.cons_append, run]
    rw [a]; exact d

/-- On a calm platform a whole list of statements runs to the end of the command. -/
theorem calm_run {ops : List Op} (hops : ∀ op ∈ ops, op.isResume = false) {s : State} (h : s.Calm) :
    run ops s = (after ops s).finish ∧ (after ops s).Calm := by
  induction ops generalizing s with
  | nil => exact ⟨rfl, h⟩
  | cons op ops ih =>
    obtain ⟨h1, h2⟩ := calm_op (hops op (by simp)) h
    simp only [run]
    rw [h1]
    exact ih (fun o ho => hops o (by simp [ho])) h2

/-! ### One step (R161) -/

/-- What one step of the animation leaves. -/
structure Stepped (o : Orient) (col : Nat) (s t : State) : Prop where
  calm : t.Calm
  core : SameCore s t
  pb : t.pb = insertCells o (BitVec.ofNat 3 col).toNat s.blank s.fg s.bg s.gl (shiftCells o s.pb)
  gl : t.gl = s.gl
  n : t.n = s.n
  blank : t.blank = s.blank
  schr : t.schr = s.schr
  scol : t.scol = BitVec.ofNat 3 col
  astate : t.status.astate = s.status.astate
  held : s.held = false → t.held = false
  present : t.plat.present = s.plat.present.later
  trace : t.trace = s.trace ++ (if s.plat.present.now then [.acquire true, .write 0 (pbBytes t.pb 0 128) true, .release] else
      []) ++ [.pace]
  dev : s.plat.present.now = false → t.dev = s.dev
  shows : s.plat.present.now = true → s.ShownIn t

/-- The state after the `Shift` and `Insert` of a step. -/
def State.moved (s : State) (o : Orient) (col : Nat) : State :=
  { s with
    scol := BitVec.ofNat 3 col
    pb := insertCells o (BitVec.ofNat 3 col).toNat s.blank s.fg s.bg s.gl (shiftCells o s.pb) }

/-- The state after a whole step. -/
def State.stepDone (s : State) (o : Orient) (col : Nat) : State :=
  (if s.plat.present.now then (s.moved o col).flushed 0 128 else (s.moved o col).sampledPresent).paced.sampledCancel

theorem after_stepOps (o : Orient) (col : Nat) {s : State} (h : s.Calm) :
    after (stepOps o col) s = s.stepDone o col ∧ (s.stepDone o col).Calm := by
  have h1 : (s.moved o col).Calm := calm_same h rfl rfl
  have e1 : after (stepOps o col) s = after [fullFlush, .pace, .checkCancel] (s.moved o col) := rfl
  have f := flush_done_or_skipped h1.2.1 0 128
  have h2 := (calm_op (op := .flush 0 128) rfl h1).2
  rw [f] at h2
  have p := pace_done h2.2.2.1
  have h3 := (calm_op (op := .pace) rfl h2).2
  rw [p] at h3
  have c := cancel_done h3.2.2.2
  have h4 := (calm_op (op := .checkCancel) rfl h3).2
  rw [c] at h4
  refine ⟨?_, h4⟩
  rw [e1, after_cons, show runOp fullFlush (s.moved o col) = _ from f, after_cons]
  show (runOp .checkCancel (runOp .pace (OpResult.done _).state).state).state = _
  rw [p, c]
  rfl

theorem stepped (o : Orient) (col : Nat) {s : State} (h : s.Calm) : Stepped o col s (after (stepOps o col) s) := by
  obtain ⟨e, hc⟩ := after_stepOps o col h
  have core : SameCore s (after (stepOps o col) s) := by
    have go : ∀ (ops : List Op) (s : State), SameCore s (after ops s) := by
      intro ops
      induction ops with
      | nil => intro s; exact .rfl
      | cons op ops ih => intro s; exact (runOp_sameCore op s).trans (ih _)
    exact go _ _
  rw [e] at core ⊢
  refine ⟨hc, core, ?_, ?_, ?_, ?_, ?_, ?_, ?_, ?_, ?_, ?_, ?_, ?_⟩ <;>
    cases hq : s.plat.present.now <;>
    simp [State.stepDone, hq, State.moved, State.paced, State.flushed, State.startPace]
  exact shownIn_of rfl rfl (flushed_shownIn (s.moved o col))

/-! ### Steps with one glyph (R156 to R158) -/

/-- The latch and the blank flag stand for the glyph `g` (`none`: a blank character). -/
def Shows (g : Option (Vector Bool 64)) (s : State) : Prop :=
  match g with
  | some gl => s.blank = false ∧ s.gl = gl
  | none => s.blank = true

theorem stepFrame_of {g} {s : State} (h : Shows g s) (o : Orient) (col : Nat) : insertCells o col s.blank s.fg s.bg s.gl
    (shiftCells o s.pb) = stepFrame o s.fg s.bg g col s.pb := by
  cases g with
  | some gl => obtain ⟨h1, h2⟩ := h; unfold stepFrame; rw [h1, h2]
  | none =>
    have h1 : s.blank = true := h
    unfold stepFrame; rw [h1]
    unfold insertCells
    congr 1

theorem shownFrames_append (a b : List Event) : shownFrames (a ++ b) = shownFrames a ++ shownFrames b := List.filterMap_append

/-- What steps of the animation leave. -/
structure Ran (o : Orient) (steps : List (Option (Vector Bool 64) × Nat)) (s t : State) : Prop where
  calm : t.Calm
  core : SameCore s t
  n : t.n = s.n
  astate : t.status.astate = s.status.astate
  held : s.held = false → t.held = false
  pb : t.pb = steps.foldl (fun pb st => stepFrame o s.fg s.bg st.1 st.2 pb) s.pb
  shown : s.plat.present.All (· = true) → t.plat.present.All (· = true) ∧ ∃ new, t.trace = s.trace ++ new ∧
    shownFrames new = (framesFrom o s.fg s.bg steps s.pb).map (fun pb => pbBytes pb 0 128) ∧
    new.countP Event.isWrite = steps.length ∧ new.count .pace = steps.length ∧ new.countP Event.isFontRead = 0
  unseen : s.plat.present.All (· = false) → t.plat.present.All (· = false) ∧ t.dev = s.dev
  shows : s.plat.present.All (· = true) → steps ≠ [] → s.ShownIn t

theorem ran (o : Orient) (g) : ∀ (cs : List Nat) (_ : ∀ c ∈ cs, c < 8) (s : State), s.Calm → Shows g s →
    Ran o (cs.map (g, ·)) s (after (cs.flatMap (stepOps o)) s) ∧ (after (cs.flatMap (stepOps o)) s).gl = s.gl ∧
    (after (cs.flatMap (stepOps o)) s).schr = s.schr ∧ ∀ c, cs.getLast? = some c → (after (cs.flatMap (stepOps o)) s).scol =
        BitVec.ofNat 3 c
  | [], _, s, h, hg => ⟨⟨h, .rfl, rfl, rfl, id, rfl, fun hp => ⟨hp, [], by simp, rfl, rfl, rfl, rfl⟩, fun hp => ⟨hp, rfl⟩,
      fun _ h => absurd rfl h⟩, rfl, rfl, by simp⟩
  | c :: cs, hc, s, h, hg => by
    have st := stepped o c h
    have e : after ((c :: cs).flatMap (stepOps o)) s = after (cs.flatMap (stepOps o)) (after (stepOps o c) s) := by
      rw [List.flatMap_cons, after_append]
    rw [e]
    have hc8 : (BitVec.ofNat 3 c).toNat = c := by rw [BitVec.toNat_ofNat]; have := hc c (by simp); omega
    have hu : ∀ a, s.Untouched a → (after (stepOps o c) s).Untouched a := fun _ => after_foreign _
    generalize after (stepOps o c) s = u at st hu
    have hgu : Shows g u := by
      cases g with
      | some gl => exact ⟨st.blank.trans hg.1, st.gl.trans hg.2⟩
      | none => exact st.blank.trans hg
    obtain ⟨r, r1, r2, r3⟩ := ran o g cs (fun c h => hc c (by simp [h])) u st.calm hgu
    have hpb : u.pb = stepFrame o s.fg s.bg g c s.pb := by rw [st.pb, hc8, stepFrame_of hg]
    have hfg := st.core.fg
    have hbg := st.core.bg
    refine ⟨⟨r.calm, st.core.trans r.core, r.n.trans st.n, r.astate.trans st.astate, fun hh => r.held (st.held hh), ?_,
      fun hp => ?_, fun hp => ?_, fun hp _ => ?_⟩, r1.trans st.gl, r2.trans st.schr, ?_⟩
    · rw [r.pb, hpb, hfg, hbg]; rfl
    · have hpu : u.plat.present.All (· = true) := by rw [st.present]; exact hp.later
      obtain ⟨a, new, b1, b2, b3, b4, b5⟩ := r.shown hpu
      have ht := st.trace
      rw [hp.now] at ht
      simp only [if_true] at ht
      refine ⟨a, [.acquire true, .write 0 (pbBytes u.pb 0 128) true, .release, .pace] ++ new, ?_, ?_, ?_, ?_, ?_⟩
      · rw [b1, ht]; simp
      · rw [shownFrames_append, b2, hfg, hbg, hpb]
        rfl
      · rw [List.countP_append, b3]
        have : List.countP Event.isWrite [.acquire true, .write 0 (pbBytes u.pb 0 128) true, .release, .pace] = 1 := rfl
        rw [this]; simp; omega
      · rw [List.count_append, b4]
        have : List.count Event.pace [.acquire true, .write 0 (pbBytes u.pb 0 128) true, .release, .pace] = 1 := rfl
        rw [this]; simp; omega
      · rw [List.countP_append, b5]; simp [Event.isFontRead]
    · have hpu : u.plat.present.All (· = false) := by rw [st.present]; exact hp.later
      obtain ⟨a, b⟩ := r.unseen hpu
      exact ⟨a, b.trans (st.dev hp.now)⟩
    · cases cs with
      | nil => exact st.shows hp.now
      | cons c2 cs => exact shownIn_mono hu (r.shows (by rw [st.present]; exact hp.later) (by simp))
    · intro d hd
      cases cs with
      | nil =>
        have : c = d := by simpa using hd
        subst this; exact st.scol
      | cons c2 cs => exact r3 d (by rwa [List.getLast?_cons_cons] at hd)


/-! ### Characters -/

/-- The glyph that character `k` of the animation shows (R156, R159). -/
def glyphOf (s : State) (k : Nat) : Option (Vector Bool 64) :=
  if k < s.msglen.toNat then some (fontGlyph s.cfg.litByte s.cfg.font (glyphIndex s.cfg.alphabet (s.msgAt k))) else none

theorem glyphOf_core {s t : State} (h : SameCore s t) (k) : glyphOf t k = glyphOf s k := by
  unfold glyphOf State.msgAt
  rw [h.msglen, h.cfg, h.msg]

/-- What one character of the animation leaves (R156, R160). -/
theorem charRan (o : Orient) (k : Nat) (hk : k < 512) (s : State) (h : s.Calm) (hn : s.n = s.msglen) :
    let t := after (charOps o k) s
    let g := glyphOf s k
    t.Calm ∧ SameCore s t ∧ t.n = s.n ∧ t.status.astate = s.status.astate ∧ (s.held = false → t.held = false) ∧
    t.pb = ((List.range 6).map (g, ·)).foldl (fun pb st => stepFrame o s.fg s.bg st.1 st.2 pb) s.pb ∧
    t.gl = g.getD s.gl ∧ t.schr = BitVec.ofNat 9 k ∧ t.scol = 5 ∧
    (s.plat.present.All (· = true) → t.plat.present.All (· = true) ∧ ∃ new, t.trace = s.trace ++ new ∧
    shownFrames new = (framesFrom o s.fg s.bg ((List.range 6).map (g, ·)) s.pb).map (fun pb => pbBytes pb 0 128) ∧
    new.countP Event.isWrite = 6 ∧ new.count .pace = 6 ∧ new.countP Event.isFontRead = if k < s.msglen.toNat then 5 else 0) ∧
    (s.plat.present.All (· = false) → t.plat.present.All (· = false) ∧ t.dev = s.dev) ∧
    (s.plat.present.All (· = true) → s.ShownIn t) := by
  dsimp only
  let s1 : State := { s with schr := BitVec.ofNat 9 k }
  have hs1 : s1.schr.toNat = k := by show (BitVec.ofNat 9 k).toNat = k; rw [BitVec.toNat_ofNat]; omega
  have h1 : s1.Calm := calm_same h rfl rfl
  -- lookup
  obtain ⟨s2, hs2, h2, d2⟩ :
      ∃ s2, (runOp .lookupMsg s1).state = s2 ∧ s2.Calm ∧ ∃ i g f tr, s2 =
        { s1 with
          fontIdx := i
          glyph := g
          gl := (glyphOf s k).getD s.gl
          plat := { s1.plat with font := f }
          trace := s.trace ++ tr } ∧
        shownFrames tr = [] ∧ tr.countP Event.isWrite = 0 ∧ tr.count .pace = 0 ∧
        tr.countP Event.isFontRead = if k < s.msglen.toNat then 5 else 0 := by
    have sm := (calm_op (op := .lookupMsg) rfl h1).2
    refine ⟨_, rfl, sm, ?_⟩
    by_cases hlt : k < s.msglen.toNat
    · have hc : s1.schr.toNat < s1.n.toNat := by rw [hs1]; show k < s.n.toNat; rw [hn]; exact hlt
      have e : runOp .lookupMsg s1 = .done (s1.lookedUp (s.msgAt k)) := by
        simp only [runOp, if_pos hc]
        rw [hs1]
        exact lookupChar_done h1.1 _
      obtain ⟨i, g, f, hf, e2⟩ := lookedUp_shape s1 (s.msgAt k) h1.1.1
      rw [e]
      refine ⟨i, g, f, lookupReads s.cfg.alphabet (s.msgAt k), ?_, rfl, rfl, rfl, ?_⟩
      · show s1.lookedUp _ = _
        rw [e2]
        unfold glyphOf
        rw [if_pos hlt]; rfl
      · rw [if_pos hlt]; rfl
    · have hc : ¬ s1.schr.toNat < s1.n.toNat := by rw [hs1]; show ¬ k < s.n.toNat; rw [hn]; exact hlt
      have e : runOp .lookupMsg s1 = .done s1 := by simp only [runOp, if_neg hc]
      rw [e]
      refine ⟨s1.fontIdx, s1.glyph, s1.plat.font, [], ?_, rfl, rfl, rfl, ?_⟩
      · unfold glyphOf
        rw [if_neg hlt]; simp; rfl
      · rw [if_neg hlt]; rfl
  obtain ⟨i, gg, f, tr, e2, q1, q2, q3, q4⟩ := d2
  let s3 : State := { s2 with blank := !decide (k < s.msglen.toNat) }
  have h3 : s3.Calm := calm_same h2 rfl rfl
  have hb : (runOp .setBlank s2).state = s3 := by
    have : s2.schr.toNat = k ∧ s2.n = s.msglen := by rw [e2]; exact ⟨hs1, hn⟩
    have e : decide (s2.schr.toNat < s2.n.toNat) = decide (k < s.msglen.toNat) := by rw [this.1, this.2]
    show ({ s2 with blank := !decide (s2.schr.toNat < s2.n.toNat) } : State) = s3
    rw [e]
  have e : after (charOps o k) s = after ((List.range 6).flatMap (stepOps o)) s3 := by
    unfold charOps
    rw [after_append]
    congr 1
    show (runOp .setBlank (runOp .lookupMsg s1).state).state = s3
    rw [hs2, hb]
  rw [e]
  have hg : Shows (glyphOf s k) s3 := by
    have hgl : s3.gl = (glyphOf s k).getD s.gl := by show s2.gl = _; rw [e2]
    unfold glyphOf at hgl ⊢
    by_cases hlt : k < s.msglen.toNat
    · rw [if_pos hlt] at hgl ⊢
      exact ⟨by show (!decide _) = false; simp [hlt], hgl⟩
    · rw [if_neg hlt] at hgl ⊢
      show (!decide _) = true; simp [hlt]
  obtain ⟨r, r1, r2, r3⟩ := ran o (glyphOf s k) (List.range 6) (by intro c hc; simp at hc; omega) s3 h3 hg
  have k0 : SameCore s s3 := by
    show SameCore s { s2 with blank := !decide (k < s.msglen.toNat) }
    rw [e2]; constructor <;> intros <;> rfl
  have f1 : s3.pb = s.pb ∧ s3.fg = s.fg ∧ s3.bg = s.bg ∧ s3.n = s.n ∧ s3.status = s.status ∧ s3.held = s.held ∧ s3.schr =
      BitVec.ofNat 9 k ∧ s3.gl = (glyphOf s k).getD s.gl ∧ s3.plat.present = s.plat.present ∧ s3.trace = s.trace ++ tr ∧
      s3.dev = s.dev ∧ s3.plat.foreign = s.plat.foreign := by
    show ({ s2 with blank := !decide (k < s.msglen.toNat) } : State).pb = _ ∧ _
    simp only [s3]
    rw [e2]; exact ⟨rfl, rfl, rfl, rfl, rfl, rfl, rfl, rfl, rfl, rfl, rfl, rfl⟩
  obtain ⟨g1, g2, g3, g4, g5, g6, g7, g8, g9, g10, g11, g12⟩ := f1
  refine ⟨r.calm, k0.trans r.core, r.n.trans g4, r.astate.trans (by rw [g5]), fun hh => r.held (g6.trans hh), ?_, r1.trans g8,
      r2.trans g7, r3 5 rfl, fun hp => ?_, fun hp => ?_,
    fun hp => shownIn_mono (fun a ha => by unfold State.Untouched; rw [g12]; exact ha)
      (r.shows (by rw [g9]; exact hp) (by simp))⟩
  · rw [r.pb, g1, g2, g3]
  · obtain ⟨a, new, b1, b2, b3, b4, b5⟩ := r.shown (by rw [g9]; exact hp)
    refine ⟨a, tr ++ new, ?_, ?_, ?_, ?_, ?_⟩
    · rw [b1, g10]; simp
    · rw [shownFrames_append, q1, b2, g1, g2, g3]; rfl
    · rw [List.countP_append, q2, b3]; rfl
    · rw [List.count_append, q3, b4]; rfl
    · rw [List.countP_append, q4, b5]; rfl
  · obtain ⟨a, b⟩ := r.unseen (by rw [g9]; exact hp)
    exact ⟨a, b.trans g11⟩


theorem framesFrom_append (o fg bg) : ∀ (a b : List (Option (Vector Bool 64) × Nat)) (pb), framesFrom o fg bg (a ++ b) pb =
    framesFrom o fg bg a pb ++ framesFrom o fg bg b (a.foldl (fun pb st => stepFrame o fg bg st.1 st.2 pb) pb)
  | [], _, _ => rfl
  | (g, c) :: a, b, pb => by
    simp only [List.cons_append, framesFrom, List.foldl_cons]
    rw [framesFrom_append o fg bg a b]

/-- What characters of the animation leave. -/
structure CharsRan (o : Orient) (ks : List Nat) (s t : State) : Prop where
  calm : t.Calm
  core : SameCore s t
  n : t.n = s.n
  astate : t.status.astate = s.status.astate
  held : s.held = false → t.held = false
  pb : t.pb = (scrollSteps (ks.map (glyphOf s))).foldl (fun pb st => stepFrame o s.fg s.bg st.1 st.2 pb) s.pb
  gl : t.gl = ks.foldl (fun gl k => (glyphOf s k).getD gl) s.gl
  schr : ∀ k, ks.getLast? = some k → t.schr = BitVec.ofNat 9 k
  scol : ks ≠ [] → t.scol = 5
  shown : s.plat.present.All (· = true) → t.plat.present.All (· = true) ∧ ∃ new, t.trace = s.trace ++ new ∧
    shownFrames new = (framesFrom o s.fg s.bg (scrollSteps (ks.map (glyphOf s))) s.pb).map (fun pb => pbBytes pb 0 128) ∧
    new.countP Event.isWrite = 6 * ks.length ∧ new.count .pace = 6 * ks.length ∧ new.countP Event.isFontRead = 5 * ks.countP (·
        < s.msglen.toNat)
  unseen : s.plat.present.All (· = false) → t.plat.present.All (· = false) ∧ t.dev = s.dev
  shows : s.plat.present.All (· = true) → ks ≠ [] → s.ShownIn t

theorem charsRan (o : Orient) : ∀ (ks : List Nat) (_ : ∀ k ∈ ks, k < 512) (s : State), s.Calm → s.n = s.msglen → CharsRan o ks
    s (after (ks.flatMap (charOps o)) s)
  | [], _, s, h, hn => ⟨h, .rfl, rfl, rfl, id, rfl, rfl, by simp, by simp, fun hp => ⟨hp, [], by simp, rfl, rfl, rfl, rfl⟩, fun
      hp => ⟨hp, rfl⟩,
    fun _ h => absurd rfl h⟩
  | k :: ks, hk, s, h, hn => by
    obtain ⟨c1, c2, c3, c4, c5, c6, c7, c8, c9, c10, c11, c12⟩ := charRan o k (hk k (by simp)) s h hn
    have e : after ((k :: ks).flatMap (charOps o)) s = after (ks.flatMap (charOps o)) (after (charOps o k) s) := by
      rw [List.flatMap_cons, after_append]
    rw [e]
    have hu : ∀ a, s.Untouched a → (after (charOps o k) s).Untouched a := fun _ => after_foreign _
    generalize after (charOps o k) s = u at *
    have hnu : u.n = u.msglen := by rw [c3, hn, c2.msglen]
    have r := charsRan o ks (fun k h => hk k (by simp [h])) u c1 hnu
    have hfg := c2.fg
    have hbg := c2.bg
    have hglf : (fun k => glyphOf u k) = fun k => glyphOf s k := funext (glyphOf_core c2)
    have hsteps : scrollSteps ((k :: ks).map (glyphOf s)) = (List.range 6).map (glyphOf s k, ·) ++ scrollSteps (ks.map (glyphOf
        s)) := rfl
    have hmap : ks.map (glyphOf u) = ks.map (glyphOf s) := by
      apply List.map_congr_left; intro x _; exact glyphOf_core c2 x
    constructor
    · exact r.calm
    · exact c2.trans r.core
    · exact r.n.trans c3
    · exact r.astate.trans c4
    · exact fun hh => r.held (c5 hh)
    · rw [r.pb, hsteps, List.foldl_append, hfg, hbg, hmap, c6]
    · rw [r.gl, List.foldl_cons, c7]
      congr 1
      funext gl x
      rw [glyphOf_core c2]
    · intro k2 hl
      cases ks with
      | nil =>
        have : k = k2 := by simpa using hl
        subst this; exact c8
      | cons k3 ks => exact r.schr k2 (by rwa [List.getLast?_cons_cons] at hl)
    · intro _
      cases ks with
      | nil => exact c9
      | cons k3 ks => exact r.scol (by simp)
    · intro hp
      obtain ⟨a, new1, b1, b2, b3, b4, b5⟩ := c10 hp
      obtain ⟨a', new2, d1, d2, d3, d4, d5⟩ := r.shown a
      refine ⟨a', new1 ++ new2, ?_, ?_, ?_, ?_, ?_⟩
      · rw [d1, b1, List.append_assoc]
      · rw [shownFrames_append, b2, d2, hsteps, framesFrom_append, List.map_append, hfg, hbg, hmap, c6]
      · rw [List.countP_append, b3, d3]; simp only [List.length_cons]; omega
      · rw [List.count_append, b4, d4]; simp only [List.length_cons]; omega
      · rw [List.countP_append, b5, d5, c2.msglen, List.countP_cons]
        simp only [decide_eq_true_eq]
        split <;> omega
    · intro hp
      obtain ⟨a, b⟩ := c11 hp
      obtain ⟨a', b'⟩ := r.unseen a
      exact ⟨a', b'.trans b⟩
    · intro hp _
      cases ks with
      | nil => exact c12 hp
      | cons k3 ks => exact shownIn_mono hu (r.shows (c10 hp).1 (by simp))

/-! ### Blank steps clear the buffer (R159, R163) -/

/-- The cells that `j` blank steps have cleared. -/
def region (o : Orient) (j i : Nat) : Prop :=
  match o with
  | .deg0 => 8 ≤ i % 8 + j
  | .deg90 => 8 ≤ i / 8 + j
  | .deg180 => i % 8 < j
  | .deg270 => i / 8 < j

theorem blank_step (o : Orient) (fg bg : Half) (c j : Nat) (pb : Vector Half 64) (h : ∀ i, i < 64 → region o j i → cellAt 0 pb
    i = bg) :
    ∀ i, i < 64 → region o (j+1) i → cellAt 0 (stepFrame o fg bg none c pb) i = bg := by
  intro i hi hr
  unfold stepFrame insertCells
  dsimp only
  rw [cellAt_tabulate _ hi]
  have sh : insertCell o c i = none → cellAt 0 (shiftCells o pb) i = bg := by
    intro hn
    unfold shiftCells
    rw [cellAt_tabulate _ hi]
    cases o <;> simp only [insertCell] at hn <;> split at hn <;> first | (cases hn; done) | skip
    all_goals simp only [region] at hr h; dsimp only
    · rw [if_pos (by omega)]; exact h _ (by omega) (by omega)
    · rw [if_pos (by omega)]; exact h _ (by omega) (by omega)
    · rw [if_pos (by omega)]; exact h _ (by omega) (by omega)
    · rw [if_pos (by omega)]; exact h _ (by omega) (by omega)
  cases hn : insertCell o c i with
  | none => exact sh hn
  | some g => rfl

theorem blank_steps (o : Orient) (fg bg : Half) : ∀ (cs : List Nat) (j : Nat) (pb : Vector Half 64) (_ : ∀ i, i < 64 → region o
    j i → cellAt 0 pb i = bg),
    ∀ i, i < 64 → region o (j + cs.length) i → cellAt 0 ((cs.map fun c => ((none : Option (Vector Bool 64)), c)).foldl (fun pb
        st => stepFrame o fg bg st.1 st.2 pb) pb) i = bg
  | [], _, _, h, i, hi, hr => h i hi hr
  | c :: cs, j, pb, h, i, hi, hr => by
    rw [List.map_cons, List.foldl_cons]
    refine blank_steps o fg bg cs (j+1) _ (blank_step o fg bg c j pb h) i hi ?_
    rw [List.length_cons] at hr
    have : j + (cs.length + 1) = j + 1 + cs.length := by omega
    rw [← this]; exact hr

theorem region_all (o : Orient) (i : Nat) (hi : i < 64) : region o 12 i := by
  cases o <;> simp only [region] <;> omega

theorem region_none (o : Orient) (i : Nat) (hi : i < 64) : ¬ region o 0 i := by
  cases o <;> simp only [region] <;> omega

/-! ### The start and the whole of an animation -/

/-- What a `SCROLL` has done before its first character (R156). -/
theorem scroll_start (s : State) (h : s.Calm) : ∃ t, after scrollStart s = t ∧ t.Calm ∧ SameCore s t ∧ t.n = s.msglen ∧
    t.status.astate = .scrolling ∧ t.pb = fillCells s.bg ∧ t.gl = s.gl ∧ (s.held = false → t.held = false) ∧
   (s.plat.present.All (· = true) → t.plat.present.All (· = true) ∧ t.trace = s.trace ++ [.acquire true, .write 0 (pbBytes
       (fillCells s.bg) 0 128) true, .release]) ∧
   (s.plat.present.All (· = false) → t.plat.present.All (· = false) ∧ t.dev = s.dev) := by
  let s1 : State := { s with status := { s.status with astate := .painting }, schr := 0, scol := 0, pb := fillCells s.bg }
  have h1 : s1.Calm := calm_same h rfl rfl
  have f2 := (calm_op (op := .flush 0 128) rfl h1).2
  have f3 := flush_done_or_skipped h1.2.1 0 128
  rw [f3] at f2
  obtain ⟨s2, hs2⟩ : ∃ s2, s2 = (if s1.plat.present.now then s1.flushed 0 128 else s1.sampledPresent) := ⟨_, rfl⟩
  have f4 : (runOp fullFlush s1).state = s2 := by rw [hs2]; show (runOp (.flush 0 128) s1).state = _; rw [f3]; rfl
  have f2 : s2.Calm := by rw [hs2]; exact f2
  have k0 : SameCore s s1 := ⟨rfl, rfl, rfl, rfl, rfl, rfl, rfl, rfl, flag_astate _ _, rfl, rfl⟩
  have k1 : SameCore s1 s2 := by rw [← f4]; exact runOp_sameCore _ _
  have k2 : SameCore s2 { s2 with status := { s2.status with astate := .scrolling }, n := s2.msglen } := ⟨rfl, rfl, rfl, rfl,
      rfl, rfl, rfl, rfl, flag_astate _ _, rfl, rfl⟩
  have hp : s1.plat.present.now = s.plat.present.now := rfl
  rw [hp] at hs2
  refine ⟨{ s2 with status := { s2.status with astate := .scrolling }, n := s2.msglen }, ?_, ?_, k0.trans (k1.trans k2), ?_,
      rfl, ?_⟩
  · show after [fullFlush, .setAState .scrolling, .latchLen] s1 = _
    rw [after_cons, f4]; rfl
  · exact calm_same f2 rfl rfl
  · exact k1.msglen
  · cases hq : s.plat.present.now <;> rw [hq] at hs2 <;> simp only [if_true, if_false, Bool.false_eq_true] at hs2 <;> subst hs2
    · refine ⟨rfl, rfl, id, fun hp => ?_, fun hp => ⟨hp.later, rfl⟩⟩
      have := hp.now; rw [hq] at this; cases this
    · refine ⟨rfl, rfl, fun _ => rfl, fun hp => ⟨hp.later, ?_⟩, fun hp => ?_⟩
      · show ((s.trace ++ [_]) ++ [_]) ++ [_] = _
        simp; rfl
      · have := hp.now; rw [hq] at this; cases this

theorem scrollOps_begin {o : Orient} {len : Nat} (hl : len ≤ 255) {op : Op} (h : op ∈ scrollOps o len) : op.isResume = false :=
  (scrollOps_partOf hl h).2.2.2.2.1

theorem range_two (n : Nat) : List.range (n + 2) = List.range n ++ [n, n+1] := by
  rw [List.range_succ, List.range_succ]; simp

theorem glyphs_eq (s : State) : (List.range (s.msglen.toNat + 2)).map (glyphOf s) = s.scrollGlyphs := by
  rw [range_two, List.map_append]
  unfold State.scrollGlyphs
  congr 1
  · apply List.map_congr_left
    intro k hk
    have : k < s.msglen.toNat := by simpa using hk
    unfold glyphOf; rw [if_pos this]
  · simp [glyphOf]

theorem gl_fold (s : State) (gl) : ∀ n, n ≤ s.msglen.toNat → (List.range n).foldl (fun gl k => (glyphOf s k).getD gl) gl =
    match n with | 0 => gl | k+1 => fontGlyph s.cfg.litByte s.cfg.font (glyphIndex s.cfg.alphabet (s.msgAt k))
  | 0, _ => rfl
  | k+1, h => by
    rw [List.range_succ, List.foldl_append]
    simp only [List.foldl_cons, List.foldl_nil]
    unfold glyphOf
    rw [if_pos (by omega)]; rfl

end Sys2Proof.Machine
end

