-- ==== Sys2Proof/Tests/Slice0.lean ====
section
/-! SUPPORT. Tests, each of one step. The expected values are those of 95_test_vectors.md (the section is named at each group) or
of the rule cited; the words are the ones printed there. -/

namespace Sys2Proof.Tests

open Sys2Proof.Machine

/-! ### Helpers -/

/-- The test font `TF` of section 2.3: the 80 bytes of index 65 (`A`). -/
def testFont : Font where
  size := 10378
  bytes := (List.range 80).map fun k =>
    let a := 8298 + k
    (a, if (8300 ≤ a ∧ a ≤ 8311) ∨ (8322 ≤ a ∧ a ≤ 8323) ∨ (8328 ≤ a ∧ a ≤ 8329) ∨ (8338 ≤ a ∧ a ≤ 8339)
        ∨ (8344 ≤ a ∧ a ≤ 8345) ∨ (8354 ≤ a ∧ a ≤ 8355) ∨ (8360 ≤ a ∧ a ≤ 8361) ∨ (8364 ≤ a ∧ a ≤ 8375)
      then 0xFF else 0x00)

/-- A ready core with the test font, `PB` all 0 and `RES = 0x7777`. -/
def start : State :=
  { State.reset with
    cfg := { defaultConfig with font := testFont }
    res := 0x7777
    pb := tabulate 64 fun _ => 0
    msg := tabulate 255 fun _ => 0 }

/-- The same with the message "A" and red on off. -/
def startA : State := { start with msg := tabulate 255 fun _ => 0x41, msglen := 1, fg := 0x00E0 }

/-- The state after the one step that runs the word `w`. -/
def after (w : Nat) (s : State) : State :=
  match step (s.withFetchWord 32 w) with
  | .next t => t
  | _ => s

/-- The buffer cells that hold `c`. -/
def cellsOf (c : Half) (s : State) : List Nat := (List.range 64).filter fun i => s.pbAt i == c

/-- The lit cells of the glyph latch. -/
def litCells (s : State) : List Nat := (List.range 64).filter s.glAt

/-! ### Decoding: the words written out from the fields of R71 and the opcodes of R76 -/

theorem test_decode_ABC : decode 0b000001_00_11100000_11011111_00100001 = .ok (.encrgb 224 223 33) := by decide
theorem test_decode_C : decode 0b000010_00_00000000_00000000_00000101 = .ok (.encname 5) := by decide
theorem test_decode_BC : decode 0b000011_00_00000000_00011100_11100111 = .ok (.decode 0x1C 0xE7) := by decide
theorem test_decode_I : decode 0b000100_00_00000000_0000000011100000 = .ok (.setfg 0x00E0) := by decide
theorem test_decode_setbg : decode 0x14001C00 = .ok (.setbg 0x1C00) := by decide
theorem test_decode_N : decode 0x18000000 = .ok .setfgr ∧ decode 0x1C000000 = .ok .setbgr := by decide
theorem test_decode_OXY : decode 0b001000_01_0010_0101_0000000000000000 = .ok (.pixoff .deg90 2 5) := by decide
theorem test_decode_OC : decode 0b001001_11_00000000_00000000_00011000 = .ok (.glyoff .deg270 24) := by decide
theorem test_decode_glyph :
    decode 0x40000041 = .ok (.glyidx 0x41) ∧ decode 0x44000441 = .ok (.glyaddr 4 0x41) ∧
    decode 0x48000041 = .ok (.lookup 0x41) ∧ decode 0x4C00000C = .ok (.glybit 12) := by decide
theorem test_decode_XYI : decode 0b011000_00_0011_0100_0000000011100000 = .ok (.pbset 3 4 0x00E0) := by decide
theorem test_decode_AI : decode 0b011001_00_00111111_0001110000000111 = .ok (.pbsetl 63 0x1C07) := by decide
theorem test_decode_buffer :
    decode 0x6800ABCD = .ok (.pbfill 0xABCD) ∧ decode 0x6C000023 = .ok (.pbget 35) ∧
    decode 0x70000046 = .ok (.pbbyte 70) := by decide
theorem test_decode_display : decode 0x80000000 = .ok .flush ∧ decode 0x84000023 = .ok (.flush1 35) := by decide
theorem test_decode_OXYI : decode 0b100010_10_0010_0101_0000000011100000 = .ok (.setpix .deg180 2 5 0x00E0) := by decide
theorem test_decode_render :
    decode 0xA0000000 = .ok .msgclr ∧ decode 0xA4000041 = .ok (.msgput 0x41) ∧
    decode 0xAB000000 = .ok (.static .deg270) ∧ decode 0xAE000000 = .ok (.scroll .deg180) := by decide
theorem test_decode_clrst : decode 0xC0000078 = .ok (.clrst 0x0078) := by decide
theorem test_decode_ignored_bits : decode 0x07FF0000 = .ok (.encrgb 255 0 0) := by decide
theorem test_decode_reserved :
    decode 0 = .error (.reservedOp 0) ∧ decode 0xFFFFFFFF = .error (.reservedOp 0x3F) ∧
    decode 0x28000000 = .error (.reservedOp 0x0A) := by decide

/-! ### WellFormed: one ill-formed term for each check -/

theorem test_domain_pixoff : (Instr.pixoff .deg0 8 0).inDomain = false := by decide
theorem test_domain_glyoff : (Instr.glyoff .deg0 64).inDomain = false := by decide
theorem test_domain_glyaddr : (Instr.glyaddr 5 0x41).inDomain = false := by decide
theorem test_domain_glybit : (Instr.glybit 64).inDomain = false := by decide
theorem test_domain_pbset : (Instr.pbset 0 9 0xFFFF).inDomain = false := by decide
theorem test_domain_pbsetl : (Instr.pbsetl 64 0).inDomain = false := by decide
theorem test_domain_pbget : (Instr.pbget 64).inDomain = false := by decide
theorem test_domain_pbbyte : (Instr.pbbyte 128).inDomain = false := by decide
theorem test_domain_flush1 : (Instr.flush1 64).inDomain = false := by decide
theorem test_domain_setpix : (Instr.setpix .deg0 0 8 0).inDomain = false := by decide
theorem test_config_default : defaultConfig.wellFormed = true := by decide +kernel
theorem test_config_font_short : ({ defaultConfig with font := ⟨10377, []⟩ } : Config).fontOk = false := by decide
theorem test_config_font_order :
    ({ defaultConfig with font := ⟨10378, [(5, 0), (4, 0)]⟩ } : Config).fontOk = false := by decide
theorem test_config_font_outside : ({ defaultConfig with font := ⟨10378, [(10378, 0)]⟩ } : Config).fontOk = false := by
  decide
theorem test_config_alphabet_twice : ({ defaultConfig with alphabet := [0x41, 0x41] } : Config).alphabetOk = false := by
  decide
theorem test_config_msgMax : ({ defaultConfig with msgMax := 0 } : Config).msgMaxOk = false ∧
    ({ defaultConfig with msgMax := 256 } : Config).msgMaxOk = false := by decide
theorem test_config_pace : ({ defaultConfig with mtimeBits := 8, paceTicks := 128 } : Config).paceOk = false ∧
    ({ defaultConfig with mtimeBits := 7 } : Config).paceOk = false := by decide

/-! ### ColorCodec (section 2.1) -/

theorem test_encrgb : (after 0x04E0DF21 start).res = 0x04E6 ∧ (after 0x041F1F1F start).res = 0 := by decide
theorem test_encname : (after 0x08000005 start).res = 0x1C07 ∧ (after 0x080000FF start).res = 0 := by decide
theorem test_decode_command : (after 0x0C001CE7 start).res = 0x1CE7 ∧ (after 0x0C00FFFF start).res = 0xFFFF := by decide
theorem test_setfg : (after 0x100000E0 start).fg = 0x00E0 ∧ (after 0x100000E0 start).res = 0x7777 := by decide
theorem test_setbg : (after 0x14001C00 start).bg = 0x1C00 ∧ (after 0x14001C00 start).fg = 0x1CE7 := by decide
theorem test_setfgr : (after 0x18000000 start).fg = 0x7777 := by decide
theorem test_setbgr : (after 0x1C000000 start).bg = 0x7777 := by decide

/-! ### OrientationMapper (section 2.2) -/

theorem test_pixoff : (after 0x21250000 start).res = 18 ∧ (after 0x23250000 start).res = 45 := by decide
theorem test_pixoff_noop : (after 0x20800000 start).res = 0x7777 ∧ (after 0x200F0000 start).res = 0x7777 := by decide
theorem test_glyoff : (after 0x2400000C start).res = 38 ∧ (after 0x26000003 start).res = 32 := by decide
theorem test_glyoff_270 : (after 0x27000018 start).res = 39 ∧ (after 0x27000019 start).res = 0x8000 := by decide

/-! ### GlyphStore (section 2.3) -/

theorem test_glyidx : (after 0x40000041 start).res = 65 ∧ (after 0x4000005C start).res = 90 := by decide
theorem test_glyaddr : (after 0x44000038 start).res = 8842 ∧ (after 0x44000541 start).res = 0x7777 := by decide
theorem test_lookup :
    litCells (after 0x48000041 start) = [1, 2, 3, 4, 5, 6, 12, 15, 20, 23, 28, 31, 33, 34, 35, 36, 37, 38] := by
  decide +kernel
theorem test_lookup_fails :
    let t := after 0x48000041 { start with plat := { start.plat with font := ⟨[.ok, .failed], .ok⟩ } }
    t.trace = [.fontRead 8362 true, .fontRead 8346 false] ∧ t.status.word = 0x08 ∧ litCells t = [] := by
  decide +kernel
theorem test_glybit :
    (after 0x4C00000C { start with gl := tabulate 64 fun i => i == 12 }).res = 1 ∧
    (after 0x4C000040 start).res = 0x7777 := by decide

/-! ### PixelBuffer (section 2.4) -/

theorem test_pbset : cellsOf 0x00E0 (after 0x603400E0 start) = [35] := by decide +kernel
theorem test_pbset_noop : cellsOf 0 (after 0x6080FFFF start) = List.range 64 := by decide +kernel
theorem test_pbsetl : cellsOf 0x1C07 (after 0x643F1C07 start) = [63] := by decide +kernel
theorem test_pbfill : cellsOf 0xABCD (after 0x6800ABCD start) = List.range 64 := by decide +kernel
theorem test_pbget : (after 0x6C00000A { start with pb := fillCells 0x1CE7 }).res = 0x1CE7 := by decide
theorem test_pbbyte :
    (after 0x70000047 { start with pb := fillCells 0x00E0 }).res = 0xE0 ∧ (after 0x70000080 start).res = 0x7777 := by
  decide

/-! ### DisplayWriter (section 2.5) -/

theorem test_flush :
    (after 0x80000000 { start with pb := fillCells 0x1C07 }).trace =
      [.acquire true, .write 0 ((List.range 128).map fun k => if k % 2 = 0 then 0x1C else 0x07) true, .release] := by
  decide +kernel
theorem test_flush_acquire_fails :
    let t := after 0x80000000 { start with plat := { start.plat with acquire := ⟨[.failed], .ok⟩ } }
    t.trace = [.acquire false] ∧ t.status.word = 0x10 := by decide +kernel
theorem test_flush1 :
    (after 0x84000023 { start with pb := fillCells 0x00E0 }).dev = [(70, 0x00), (71, 0xE0)] ∧
    (after 0x84000040 start).trace = [] := by decide +kernel
theorem test_flush1_absent :
    let t := after 0x84000003 { start with plat := { start.plat with present := ⟨[], false⟩ } }
    t.trace = [] ∧ t.status.word = 0x80 := by decide +kernel
theorem test_setpix :
    (after 0x892500E0 start).pbAt 18 = 0x00E0 ∧ (after 0x892500E0 start).dev = [(36, 0x00), (37, 0xE0)] := by
  decide +kernel
theorem test_setpix_write_fails :
    let t := after 0x88000007 { start with plat := { start.plat with write := ⟨[.failed], .ok⟩ } }
    t.pbAt 0 = 7 ∧ t.status.word = 0x10 ∧ t.held = false := by decide +kernel

/-! ### Rendering and system (sections 2.6 and 3) -/

theorem test_msgclr : (after 0xA0000000 startA).msglen = 0 := by decide
theorem test_msgput :
    (after 0xA4000041 start).msgAt 0 = 0x41 ∧ (after 0xA4000041 start).msglen = 1 ∧
    (after 0xA4000042 { start with msglen := 255 }).msglen = 255 := by decide +kernel
/-- P2. -/
theorem test_static :
    cellsOf 0x00E0 (after 0xA8000000 startA) =
      [1, 2, 3, 8, 12, 16, 20, 24, 25, 26, 27, 28, 32, 36, 40, 44, 48, 52] := by decide +kernel
/-- P8 (a). -/
theorem test_static_two : (after 0xA8000000 { startA with msglen := 2 }).trace = [] := by decide +kernel
/-- P3: the counts and the end state, `STATUS` while frame 0 is written and while a step is paced; P7: `STATUS` with no device. -/
theorem test_scroll :
    let t := after 0xAC000000 startA
    t.status.word = 0x06 ∧ t.schr = 2 ∧ t.scol = 5 ∧ t.trace.length = 19 * 3 + 18 + 5 ∧ t.pbAt 27 = 0 ∧
    (after 0xAC000000 { startA with plat := { startA.plat with write := ⟨[.silent], .ok⟩ } }).status.word = 0x03 ∧
    (after 0xAC000000 { startA with plat := { startA.plat with ticks := ⟨[], 0⟩ } }).status.word = 0x05 ∧
    (after 0xAC000000 { startA with plat := { startA.plat with present := ⟨[], false⟩ } }).status.word = 0x86 := by decide +kernel
/-- P5: the write of step 3 fails. -/
theorem test_scroll_write_fails :
    let t := after 0xAC000000 { startA with plat := { startA.plat with write := ⟨[.ok, .ok, .ok, .failed], .ok⟩ } }
    t.status.word = 0x10 ∧ t.schr = 0 ∧ t.scol = 2 ∧ cellsOf 0x00E0 t = [6, 7, 13, 21, 29, 30, 31, 37, 45, 53] := by
  decide +kernel
theorem test_clrst :
    (after 0xC0000008 { start with status := ⟨false, .idle, true, true, true, true, false⟩ }).status.word = 0x70 ∧
    (after 0xC000FFFF { start with status := ⟨false, .done, false, false, false, false, true⟩ }).status.word = 0x86 := by
  decide
/-- P10. -/
theorem test_illegal : (after 0 start).status.word = 0x20 ∧ (after 0xFFFFFFFF start).status.word = 0x20 := by decide

/-! ### Waiting (R84, R231) and reset (R220) -/

/-- A flush whose write is not answered waits with `BUSY = 1` and the device held. -/
theorem test_waiting :
    let t := after 0x80000000 { start with plat := { start.plat with write := ⟨[.silent], .ok⟩ } }
    t.status.word = 0x01 ∧ t.held = true ∧ t.todo = [.flushWrite 0 128] := by decide +kernel
/-- R222: a clock edge after the answered write finds the device held; a reset there ends the command with no release. -/
theorem test_edge_after_write :
    let t := after 0x84000000 { start with plat := { start.plat with edge := ⟨[false, true], false⟩ } }
    t.status.word = 0x01 ∧ t.held = true ∧ t.trace = [.acquire true, .write 0 [0, 0] true] ∧
    t.resetCore.trace = [.acquire true, .write 0 [0, 0] true, .reset] ∧ t.resetCore.held = false ∧
    t.resume.trace = [.acquire true, .write 0 [0, 0] true, .release] := by decide +kernel
/-- R58, R233: another master writes a device that the core does not hold, and cannot write one that it holds. -/
theorem test_others_write :
    let s : State := { start with plat := { start.plat with foreign := ⟨[[(5, 0xAB)]], []⟩ } }
    s.begun.devAt 5 = some 0xAB ∧ ({ s with held := true } : State).begun.devAt 5 = none := by decide
/-- `rst` has priority over acceptance. -/
theorem test_reset :
    let t := step { startA with plat := { startA.plat with rst := ⟨[true], false⟩, commands := [0x100000E0] } }
    (match t with | .next u => decide (u.fg = 0x1CE7 ∧ u.msglen = 0 ∧ u.plat.commands = [0x100000E0]) | _ => false) = true := by
  decide

/-! ### Assembler (R81, R82) -/

theorem test_asm : assembleWords .pixoff [.num 90, .num 2, .num 5] = some [0x21250000] ∧
    assembleWords .setfg [.color .red] = some [0x100000E0] := by decide
theorem test_asm_pseudo :
    assembleWords .print [.num 0, .text [0x41]] = some [0xA0000000, 0xA4000041, 0xAC000000] ∧
    assembleWords .clrerr [] = some [0xC0000078] := by decide
theorem test_asm_refuses : assemble .pixoff [.num 45, .num 2, .num 5] = none ∧ assemble .pbset [.num 16, .num 0, .num 0] = none
    := by
  decide

end Sys2Proof.Tests
end

