-- ==== Sys2Proof/Tests/Witnesses.lean ====
section
/-! SUPPORT. For every statement with hypotheses, a concrete state and operands that meet all of them together (one theorem a
statement, named after it); where a statement has several clauses, one case for each clause, at the boundary of its range. -/

namespace Sys2Proof.Tests

open Sys2Proof.Machine

/-! ### States -/

/-- A script that never changes meets a condition its value meets. -/
theorem all_const {α : Type} {p : α → Prop} {a : α} (h : p a) : Script.All p ⟨[], a⟩ := ⟨fun _ hx => (nomatch hx), h⟩

theorem start_ready : start.Ready := ⟨rfl, rfl, rfl⟩
theorem start_device : start.DeviceAnswers := ⟨all_const rfl, all_const rfl, all_const rfl⟩
theorem start_font : start.FontAnswers := ⟨all_const rfl, Nat.le_refl _⟩
theorem start_ticking : start.Ticking := all_const (by decide)
theorem start_notCancelled : start.NotCancelled := all_const rfl

/-- `start` with no display device. -/
def noDevice : State := { start with plat := { start.plat with present := ⟨[], false⟩ } }

/-- `start` in the middle of the flush of cell 35, which waits for the answer to its write. -/
def writing : State :=
  { start with
    status := { start.status with busy := true }
    cmd := some (.flush1 35)
    todo := [.flushWrite 70 2]
    held := true }

/-- `startA` in the middle of a scroll, which waits in the pace of its last step. -/
def pacing : State :=
  { startA with
    status := { startA.status with busy := true, astate := .scrolling }
    cmd := some (.scroll .deg0)
    todo := [.paceWait, .checkCancel, .setAState .done]
    schr := 2
    scol := 5 }

/-- `startA` in the initial flush of a scroll, whose request is not answered. -/
def painting : State :=
  { startA with
    status := { startA.status with busy := true, astate := .painting }
    cmd := some (.scroll .deg0)
    todo := [.flushGrant 0 128, .setAState .scrolling, .latchLen, .setAState .done]
    pb := fillCells startA.bg }

/-- The word `w` presented to a state. -/
def presented (w : Word) (s : State) : State := { s with plat := { s.plat with commands := [w] } }

/-- `rst` high at the next step. -/
def withRst (s : State) : State := { s with plat := { s.plat with rst := ⟨[true], false⟩ } }

/-- `startA` before a platform that is silent before each answer, with clock edges inside a flush: it answers a request `a`, a
write `w`. -/
def waiting (a w : Answer) : State :=
  { startA with
    plat := { startA.plat with
      acquire := ⟨[.silent, a], .silent⟩, write := ⟨[.silent, w], .silent⟩, font := ⟨[.silent], .ok⟩
      edge := ⟨[true, true], false⟩ } }

theorem waiting_answers : (waiting .ok .ok).DeviceWillAnswer ∧ (waiting .ok .ok).FontWillAnswer :=
  ⟨⟨rfl, rfl⟩, ⟨by decide, by decide⟩, by decide⟩

/-! ### Encoding -/

theorem witness_DecodeInvertsEncode : decode 0x0C001CE7 = .ok (.decode 0x1C 0xE7) ∧
    0x0C001CE7 &&& ~~~formatMask (.decode 0x1C 0xE7) = 0 := by decide
theorem witness_IgnoredBitsHaveNoInfluence : decode 0x10FF00E0 = .ok (.setfg 0x00E0) ∧
    0x10FF00E0 &&& formatMask (.setfg 0x00E0) = (0x130000E0 : Word) &&& formatMask (.setfg 0x00E0) ∧
    opField 0x10FF00E0 = opField 0x13000000 := by decide
theorem witness_ReservedWordSetsIllcmdOnly : (presented 0xFFFFFFFF start).Ready ∧
    (presented 0xFFFFFFFF start).plat.rst.now = false ∧ (opField 0xFFFFFFFF).toNat ∈ reservedOps ∧
    (opField 0).toNat ∈ reservedOps ∧ (opField 0xC4000000).toNat ∈ reservedOps :=
  ⟨⟨rfl, rfl, rfl⟩, rfl, by decide, by decide, by decide⟩
theorem witness_PseudoCommandsExpand : (ColorName.white, (0x1CE7 : Half)) ∈ ([(.off, 0x0000), (.white, 0x1CE7)] : List _) ∧
    (270, Orient.deg270) ∈ ([(0, .deg0), (270, .deg270)] : List (Nat × Orient)) ∧ 15 < 16 ∧ 255 < 256 := by decide

/-! ### The step -/

theorem witness_StepRunsTheDecodedCommand :
    (presented 0x100000E0 start).plat.rst.now = false ∧ (presented 0x100000E0 start).status.busy = false ∧
    (presented 0x100000E0 start).plat.commands = [0x100000E0] ∧ decode 0x100000E0 = .ok (.setfg 0x00E0) ∧
    start.plat.commands = [] ∧ start.status.busy = false ∧ start.plat.rst.now = false ∧
    writing.status.busy = true ∧ writing.plat.rst.now = false := by decide
theorem witness_BusyCoreTakesNoWord : ∃ t, (presented 0x100000E0 writing).plat.rst.now = false ∧
    (presented 0x100000E0 writing).status.busy = true ∧ step (presented 0x100000E0 writing) = .next t := ⟨_, rfl, rfl, rfl⟩
theorem witness_RstTakesPriority : (withRst (presented 0x100000E0 pacing)).plat.rst.now = true := rfl
theorem witness_RstSparesTheRestOfTheDevice : (∃ t, (withRst writing).plat.rst.now = true ∧ step (withRst writing) = .next t ∧
      (withRst writing).Untouched 69 ∧ (withRst writing).Untouched 72 ∧ (withRst writing).todo = .flushWrite 70 2 :: []) ∧
    ∃ t, (withRst pacing).plat.rst.now = true ∧ step (withRst pacing) = .next t ∧ (withRst pacing).Untouched 70 ∧
      (withRst pacing).devWe = false :=
  ⟨⟨_, rfl, rfl, all_const (by decide), all_const (by decide), rfl⟩, ⟨_, rfl, rfl, all_const (by decide), rfl⟩⟩
/-- `start` with `rst` high, a request answered `a`, a write answered `w`, and clock edges `e` after the device events. -/
def edgy (a w : Answer) (e : List Bool) : State :=
  { start with
    plat := { start.plat with rst := ⟨[], true⟩, acquire := ⟨[], a⟩, write := ⟨[], w⟩, edge := ⟨e, false⟩ } }

/-- No event, a write under way, and an edge after each event, of a flush that succeeds, of one whose write fails and of one
whose request fails. -/
theorem witness_RstSparesTheRestOfTheDevice_prefixes :
    (∀ a w e, (edgy a w e).Ready ∧ (edgy a w e).held = false ∧ (edgy a w e).plat.present.now = true ∧
      (edgy a w e).plat.rst.now = true) ∧ (63 : Byte).toNat ≤ 63 ∧
    (edgy .silent .ok []).PausesAfter 0 128 0 ∧ (edgy .ok .silent []).PausesAfter 126 2 1 ∧
    (edgy .ok .silent [true]).PausesAfter 0 128 1 ∧ (edgy .ok .ok [false, true]).PausesAfter 0 128 2 ∧
    (edgy .ok .failed [false, false, true]).PausesAfter 126 2 3 ∧ (edgy .failed .silent [true]).PausesAfter 126 2 1 :=
  ⟨fun _ _ _ => ⟨⟨rfl, rfl, rfl⟩, rfl, rfl, rfl⟩, by decide, .inl ⟨rfl, rfl⟩, .inr (.inl ⟨rfl, rfl, rfl, rfl⟩),
    .inr (.inr ⟨0, [], rfl, by decide, by decide, by decide, rfl⟩),
    .inr (.inr ⟨1, [], rfl, by decide, by decide, by decide, rfl⟩),
    .inr (.inr ⟨2, [], rfl, by decide, by decide, by decide, rfl⟩),
    .inr (.inr ⟨0, [], rfl, by decide, by decide, by decide, rfl⟩)⟩
theorem witness_StarvedCoreHangs :
    ({ writing with plat := { writing.plat with write := ⟨[], .silent⟩ } } : State).Starved ∧
    ({ writing with todo := [.flushGrant 70 2], held := false, plat := { writing.plat with acquire := ⟨[], .silent⟩ } } :
        State).Starved ∧
    ({ writing with todo := [.fontRow 4], held := false, plat := { writing.plat with font := ⟨[], .silent⟩ } } : State).Starved ∧
    ({ pacing with plat := { pacing.plat with ticks := ⟨[], 0⟩ } } : State).Starved :=
  ⟨⟨rfl, all_const rfl, all_const rfl⟩, ⟨rfl, all_const rfl, all_const rfl⟩, ⟨rfl, all_const rfl, by decide, all_const rfl⟩,
    ⟨rfl, all_const rfl, all_const rfl, by decide, by decide⟩⟩
/-- A `SCROLL` before a counter that stands still, in the step that accepts it and three steps later. -/
theorem witness_StarvedCoreHangs_pace :
    let s : State := { startA with plat := { startA.plat with ticks := ⟨[], 0⟩ } }
    s.plat.ticks.All (· = 0) ∧ 0 < s.cfg.paceTicks ∧ (∃ t, Executes (.scroll .deg0) 0 s t) ∧
    ∃ t, Executes (.scroll .deg0) 3 s t :=
  ⟨all_const rfl, by decide, ⟨_, rfl⟩, ⟨_, _, ⟨_, ⟨_, rfl, by decide +kernel, by decide +kernel, rfl⟩, by decide +kernel,
    by decide +kernel, rfl⟩, by decide +kernel, by decide +kernel, rfl⟩⟩
/-- For the device write: two bytes outside the range of the write under way. -/
theorem witness_StarvedCoreHangs_device :
    let s : State := { writing with plat := { writing.plat with write := ⟨[], .silent⟩, foreign := ⟨[[(70, 1)], []], [(3, 4)]⟩ } }
    s.Starved ∧ s.Untouched 69 ∧ s.Untouched 72 ∧ s.todo = [.flushWrite 70 2] ∧ 69 < 70 ∧ 70 + 2 ≤ 72 :=
  ⟨⟨rfl, all_const rfl, all_const rfl⟩, by constructor <;> decide, by constructor <;> decide, rfl, by decide, by decide⟩

/-- A platform that is silent twice before each answer, and whose `mtime` stands still at first and then goes back by one tick
of the counter's turn at each reading. -/
def slow : Platform :=
  { start.plat with
    acquire := ⟨[.silent, .silent], .failed⟩
    write := ⟨[.silent, .silent], .ok⟩
    font := ⟨[.silent, .silent], .ok⟩
    ticks := ⟨[0, 0], 4294967295⟩ }

theorem witness_AnsweredCommandsEnd :
    ({ start with plat := slow } : State).Fair ∧
    (({ pacing with plat := slow } : State).Fair ∧ pacing.status.busy = true) ∧ start.NeverSilent ∧ start.Ticking :=
  ⟨⟨all_const rfl, by decide, by decide, by decide, by decide, by decide, by decide⟩,
    ⟨⟨all_const rfl, by decide, by decide, by decide, by decide, by decide, by decide⟩, rfl⟩,
    ⟨all_const (by decide), all_const (by decide), all_const (by decide), all_const rfl⟩, start_ticking⟩

/-! ### Whole-machine rules -/

theorem witness_NoOpsChangeNothing : start.Ready ∧ (Instr.pbget 64).inDomain = false ∧
    ({ start with msglen := 255 } : State).Ready ∧ (255 : Byte).toNat = start.cfg.msgMax ∧
    start.msglen.toNat ≠ 1 := ⟨start_ready, by decide, ⟨rfl, rfl, rfl⟩, by decide, by decide⟩
theorem witness_OnlyNamedCommandsWrite : (∃ t, exec (.flush1 63) start = .next t) ∧ (∃ t, exec (.setfg 1) start = .next t) ∧
    writesRes (.flush1 63) = false ∧ writesFg (.flush1 63) = false ∧ writesBg (.flush1 63) = false ∧
    writesMsg (.flush1 63) = false ∧ isScroll (.flush1 63) = false ∧ writesPb (.flush1 63) = false ∧
    usesFont (.flush1 63) = false ∧ usesDevice (.setfg 1) = false ∧ mayRaise (.flush1 63) .fontErr = false ∧
    isClrst (.flush1 63) = false ∧ start.Untouched 0 :=
  ⟨⟨_, rfl⟩, ⟨_, rfl⟩, rfl, rfl, rfl, rfl, rfl, rfl, rfl, rfl, rfl, rfl, all_const (by decide)⟩
/-- A command that waits at its acceptance and is done one step later. -/
theorem witness_OnlyNamedCommandsWrite_waiting :
    ∃ t, Executes (.lookup 0x41) 1 { start with plat := { start.plat with font := ⟨[.silent], .ok⟩ } } t :=
  ⟨_, _, rfl, rfl, rfl, rfl⟩
theorem witness_StickyFlagsStay : ∃ t, step { writing with status := { writing.status with illcmd := true } } = .next t ∧
    writing.plat.rst.now = false ∧ ({ writing.status with illcmd := true } : Status).flag .illCmd = true ∧
    writing.status.busy = true := ⟨_, rfl, rfl, rfl, rfl⟩
theorem witness_ParametersNeverChange : ∃ t, step (presented 0x6800ABCD start) = .next t := ⟨_, rfl⟩
theorem witness_CancelConcernsOnlyScroll : ∃ t, isScroll .flush = false ∧
    Executes .flush 1 { start with plat := { start.plat with acquire := ⟨[.silent], .ok⟩ } } t := ⟨_, rfl, _, rfl, rfl, rfl, rfl⟩
theorem witness_ResultsDoNotDependOnTime : ∃ t, start.Ticking ∧
    ({ start with mtime := 4000000000, t0 := 7, plat := { start.plat with ticks := ⟨[], 250⟩ } } : State).Ticking ∧
    exec .flush start = .next t := ⟨_, start_ticking, all_const (by decide), rfl⟩
/-- A flush that waited five times; and one whose write came to fail, with the bytes next to its range. -/
theorem witness_ResultsDoNotDependOnTime_waits :
    (∃ t, Executes .flush 4 (waiting .ok .ok) t ∧ t.Ready ∧ (waiting .ok .ok).Untouched 127 ∧
      ∀ off bytes, .write off bytes false ∉ t.trace.drop (waiting .ok .ok).trace.length) ∧
    ∃ t, Executes (.flush1 35) 4 (waiting .ok .failed) t ∧ t.Ready ∧ t.trace.drop (waiting .ok .failed).trace.length =
      [.acquire true, .write 70 (pbBytes t.pb 70 2) false, .release] ∧ 69 < 70 ∧ 70 + 2 ≤ 72 :=
  ⟨⟨_, ⟨_, ⟨_, ⟨_, ⟨_, rfl, rfl, rfl, rfl⟩, rfl, rfl, rfl⟩, rfl, rfl, rfl⟩, rfl, rfl, rfl⟩, ⟨rfl, rfl, rfl⟩,
      all_const (by decide), by
        intro off bytes h
        have h : _ ∈ [Event.acquire true, .write 0 (pbBytes startA.pb 0 128) true, .release] := h
        simp at h⟩,
    ⟨_, ⟨_, ⟨_, ⟨_, ⟨_, rfl, rfl, rfl, rfl⟩, rfl, rfl, rfl⟩, rfl, rfl, rfl⟩, rfl, rfl, rfl⟩, ⟨rfl, rfl, rfl⟩, rfl,
      by decide, by decide⟩⟩
theorem witness_ReadPortShowsRegisters : 7 ≤ (7 : BitVec 4).toNat ∧ 7 ≤ (15 : BitVec 4).toNat := by decide

/-! ### Invariants: a state in the middle of a command, and a step from it -/

theorem witness_StepKeepsHeldInv : ∃ t, writing.HeldInv ∧ step writing = .next t :=
  ⟨_, ⟨fun h => (nomatch h), rfl, fun _ h => (nomatch h)⟩, rfl⟩
theorem gl_start (g : Nat) : start.glAt g = false := by
  unfold State.glAt start State.reset
  dsimp only
  rw [cellAt_tabulate_ite]
  split <;> rfl
theorem witness_StepKeepsGlyphInv : ∃ t, (presented 0x48000041 start).GlyphInv ∧ step (presented 0x48000041 start) = .next t :=
  ⟨_, fun g _ => gl_start g, rfl⟩
theorem witness_StepKeepsDeviceInv :
    ∃ t, ({ writing with dev := [(0, 1), (127, 2)] } : State).DeviceInv ∧
      step { writing with dev := [(0, 1), (127, 2)] } = .next t :=
  ⟨_, ⟨by decide, by
    intro op h
    have : op = .flushWrite 70 2 := by simpa [writing] using h
    subst this
    exact .inr ⟨35, by decide, rfl, rfl⟩⟩, rfl⟩
theorem witness_StepKeepsCursorInv : ∃ t, pacing.CursorInv ∧ step pacing = .next t :=
  ⟨_, ⟨by decide, by decide, by
    intro op h
    have : op = .paceWait ∨ op = .checkCancel ∨ op = .setAState .done := by simpa [pacing] using h
    rcases this with h | h | h <;> subst h <;> exact trivial⟩, rfl⟩
theorem witness_StepKeepsMsgInv : ∃ t, (presented 0xA4000041 { start with msglen := 255 }).MsgInv ∧
    step (presented 0xA4000041 { start with msglen := 255 }) = .next t := ⟨_, ⟨by decide, by decide⟩, rfl⟩
/-- A `SCROLL` that waits in a pace, and one that waits for the answer to its first request. -/
theorem witness_StepKeepsAnimatorInv :
    (∃ t, pacing.AnimatorInv ∧ step pacing = .next t) ∧ ∃ t, painting.AnimatorInv ∧ step painting = .next t := by
  refine ⟨⟨_, ⟨fun h => (nomatch h), ?_⟩, rfl⟩, ⟨_, ⟨fun h => (nomatch h), ?_⟩, rfl⟩⟩
  · rw [if_pos (show pacing.scrolling = true from rfl)]
    refine .inr ⟨rfl, rfl, fun a h => ?_⟩
    simp [pacing] at h
  · rw [if_pos (show painting.scrolling = true from rfl)]
    refine .inl ⟨rfl, rfl, rfl, rfl, _, _, rfl, rfl, rfl, fun a h => ?_⟩
    simp at h

/-! ### Simple commands: a word of each opcode, and the operands at the boundary of each clause -/

theorem witness_EncrgbPacksTheChannels : opField 0x04FF0000 = 0x01 ∧ start.Ready := ⟨by decide, start_ready⟩
theorem witness_EncnameReadsThePalette : opField 0x08000005 = 0x02 ∧ start.Ready := ⟨by decide, start_ready⟩
theorem witness_DecodeJoinsTwoBytes : opField 0x0C001CE7 = 0x03 ∧ start.Ready := ⟨by decide, start_ready⟩
theorem witness_ColourRegisterCommands : opField 0x100000E0 = 0x04 ∧ opField 0x14001C00 = 0x05 ∧ opField 0x18000000 = 0x06 ∧
    opField 0x1C000000 = 0x07 ∧ start.Ready := ⟨by decide, by decide, by decide, by decide, start_ready⟩
theorem witness_PixelOffsetIsABijection : 7 ≤ 7 ∧ 63 < 64 ∧ pixelOffset 7 7 .deg0 = 63 := by decide
theorem witness_PixoffWritesTheOffset : opField 0x21250000 = 0x08 ∧ start.Ready ∧ (7 : BitVec 4).toNat ≤ 7 ∧
    7 < (8 : BitVec 4).toNat := ⟨by decide, start_ready, by decide, by decide⟩
theorem witness_GlyphOffsetReachesTheGlyph : 4 < 8 ∧ 3 < 8 ∧ 7 < 8 ∧
    glyphOffset .literal 63 .deg180 = some 7 ∧ Orient.deg180 ≠ .deg270 ∧
    glyphOffset .rotated 24 .deg270 = some 39 := by decide
theorem witness_GlyoffWritesCellOrNone : opField 0x2400000C = 0x09 ∧ start.Ready ∧ (63 : Byte).toNat ≤ 63 ∧
    63 < (64 : Byte).toNat ∧ glyphOffset start.cfg.g270 63 .deg0 = none ∧ glyphOffset start.cfg.g270 63 .deg180 = some 7 :=
  ⟨by decide, start_ready, by decide⟩
theorem witness_GlyidxClampsThePosition : opField 0x40000041 = 0x10 ∧ start.Ready ∧
    (start.cfg.alphabet[0]? = some 0x20 ∧ ∀ q, q < 0 → start.cfg.alphabet[q]? ≠ some 0x20) ∧
    (start.cfg.alphabet[89]? = some 0x7E ∧ ∀ q, q < 89 → start.cfg.alphabet[q]? ≠ some 0x7E) ∧
    (0x5C : Byte) ∉ start.cfg.alphabet := ⟨by decide, start_ready, by decide, by decide +kernel, by decide +kernel⟩
theorem witness_GlyaddrWritesTheChunkOffset : opField 0x44000041 = 0x11 ∧ start.Ready ∧ (4 : Byte).toNat ≤ 4 ∧
    4 < (5 : Byte).toNat := ⟨by decide, start_ready, by decide, by decide⟩
theorem witness_GlybitReadsTheLatch : opField 0x4C00000C = 0x13 ∧ start.Ready ∧ start.GlyphInv ∧ (63 : Byte).toNat ≤ 63 ∧
    40 ≤ (40 : Byte).toNat ∧ (40 : Byte).toNat ≤ 63 ∧ 63 < (64 : Byte).toNat :=
  ⟨by decide, start_ready, fun g _ => gl_start g, by decide⟩
theorem witness_PbsetWritesOneCell : opField 0x603400E0 = 0x18 ∧ opField 0x643F1C07 = 0x19 ∧ start.Ready ∧
    (7 : BitVec 4).toNat ≤ 7 ∧ 7 < (8 : BitVec 4).toNat ∧ (63 : Byte).toNat ≤ 63 ∧ 63 < (64 : Byte).toNat :=
  ⟨by decide, by decide, start_ready, by decide⟩
theorem witness_PbfillWritesEveryCell : opField 0x6800ABCD = 0x1A ∧ start.Ready := ⟨by decide, start_ready⟩
theorem witness_BufferReads : opField 0x6C000023 = 0x1B ∧ opField 0x70000046 = 0x1C ∧ start.Ready ∧ (63 : Byte).toNat ≤ 63 ∧
    63 < (64 : Byte).toNat ∧ (127 : Byte).toNat ≤ 127 ∧ 127 < (128 : Byte).toNat := ⟨by decide, by decide, start_ready, by decide⟩
theorem witness_ClrstClearsMaskedFlags : opField 0xC0000078 = 0x30 ∧ start.Ready := ⟨by decide, start_ready⟩
theorem witness_MessageCommands : opField 0xA0000000 = 0x28 ∧ opField 0xA4000041 = 0x29 ∧
    (({ start with msglen := 254 } : State).Ready ∧ ({ start with msglen := 254 } : State).MsgInv ∧
      (254 : Byte).toNat ≠ start.cfg.msgMax) ∧
    ({ start with msglen := 255 } : State).Ready ∧ ({ start with msglen := 255 } : State).MsgInv ∧
      (255 : Byte).toNat = start.cfg.msgMax :=
  ⟨by decide, by decide, ⟨⟨rfl, rfl, rfl⟩, ⟨by decide, by decide⟩, by decide⟩, ⟨rfl, rfl, rfl⟩, ⟨by decide, by decide⟩, by decide⟩

/-! ### Font and device -/

theorem witness_LookupLoadsTheGlyph : opField 0x48000041 = 0x12 ∧ (start.Ready ∧ start.FontAnswers) ∧ (waiting .ok .ok).Ready ∧
    (waiting .ok .ok).FontWillAnswer ∧ ∃ t, Executes (.lookup 0x41) 1 (waiting .ok .ok) t ∧ t.Ready :=
  ⟨by decide, ⟨start_ready, start_font⟩, ⟨rfl, rfl, rfl⟩, waiting_answers.2, ⟨_, ⟨_, rfl, rfl, rfl, rfl⟩, ⟨rfl, rfl, rfl⟩⟩⟩
/-- The first and the last read that can fail, for `LOOKUP` and for `STATIC`; and a read past the end of a short image. -/
theorem witness_FontFailureKeepsGlyphAndBuffer :
    let s : Nat → State := fun k => { startA with plat := { startA.plat with font := ⟨List.replicate k .ok ++ [.failed], .ok⟩ } }
    let short : State :=
      { startA with
        cfg := { startA.cfg with font := { startA.cfg.font with size := 3098 } }
        plat := { startA.plat with font := ⟨[.ok], .ok⟩ } }
    ((s 0).Ready ∧ (s 0).LookupFails 0x41 0 .failed ∧ (s 0).plat.font.next = List.replicate 0 .ok ++ .failed :: []) ∧
    ((s 4).Ready ∧ (s 4).LookupFails 0x41 4 .failed ∧ (s 4).plat.font.next = List.replicate 4 .ok ++ .failed :: []) ∧
    (short.Ready ∧ short.LookupFails 0x41 0 .ok ∧ short.plat.font.next = List.replicate 0 .ok ++ .ok :: []) ∧
    startA.msglen.toNat = 1 ∧ startA.msgAt 0 = 0x41 :=
  ⟨⟨⟨rfl, rfl, rfl⟩, .inl ⟨rfl, by decide, by unfold State.GlyphInImage; decide +kernel⟩, rfl⟩,
    ⟨⟨rfl, rfl, rfl⟩, .inl ⟨rfl, by decide, by unfold State.GlyphInImage; decide +kernel⟩, rfl⟩,
    ⟨⟨rfl, rfl, rfl⟩, .inr ⟨by decide, rfl, by unfold State.GlyphInImage; decide +kernel⟩, rfl⟩, by decide, by decide +kernel⟩

/-- `startA` with a message of two characters, of which the lookup of character `k` fails at its chunk `r`. -/
def fontFailing (k r : Nat) : State :=
  { startA with
    msglen := 2
    plat := { startA.plat with font := ⟨List.replicate (5 * k + r) .ok ++ [.failed], .ok⟩ } }

/-- The same in a `SCROLL`, at the first read of the first character and at the last read of the last. -/
theorem witness_FontFailureKeepsGlyphAndBuffer_scroll :
    (∀ s ∈ [fontFailing 0 0, fontFailing 1 4], s.Ready ∧ s.DeviceAnswers ∧ s.Ticking ∧ s.NotCancelled ∧ 1 < s.msglen.toNat ∧
      s.plat.present.All (· = true) ∧ s.held = false ∧ s.Untouched 0) ∧
    (fontFailing 0 0).LookupFails ((fontFailing 0 0).msgAt 0) 0 .failed ∧
    (fontFailing 0 0).plat.font.next = List.replicate (5 * 0 + 0) .ok ++ .failed :: [] ∧
    (fontFailing 1 4).GlyphInImage ((fontFailing 1 4).msgAt 0) ∧
    (fontFailing 1 4).LookupFails ((fontFailing 1 4).msgAt 1) 4 .failed ∧
    (fontFailing 1 4).plat.font.next = List.replicate (5 * 1 + 4) .ok ++ .failed :: [] := by
  have fits : ∀ (s : State) ch, s.cfg.font.size = 10378 → s.GlyphInImage ch := by
    intro s ch h
    unfold State.GlyphInImage
    rw [h]
    exact chunkAddr_bound (glyphIndex_le _ _)
  refine ⟨?_, .inl ⟨rfl, by decide, fits _ _ rfl⟩, rfl, fits _ _ rfl, .inl ⟨rfl, by decide, fits _ _ rfl⟩, rfl⟩
  intro s hs
  rcases List.mem_cons.mp hs with rfl | hs
  · exact ⟨⟨rfl, rfl, rfl⟩, start_device, start_ticking, start_notCancelled, by decide, all_const rfl, rfl, all_const (by decide)⟩
  · rw [List.mem_singleton.mp hs]
    exact ⟨⟨rfl, rfl, rfl⟩, start_device, start_ticking, start_notCancelled, by decide, all_const rfl, rfl, all_const (by decide)⟩

theorem witness_FlushShowsTheBuffer : opField 0x80000000 = 0x20 ∧
    (start.Ready ∧ start.DeviceAnswers ∧ start.plat.present.now = true) ∧
    noDevice.Ready ∧ noDevice.plat.present.now = false :=
  ⟨by decide, ⟨start_ready, start_device, rfl⟩, ⟨rfl, rfl, rfl⟩, rfl⟩
/-- Of a command that waits: its request, its write, and an edge after its grant and one after its write. -/
theorem witness_FlushShowsTheBuffer_waiting : (waiting .ok .ok).Ready ∧ (waiting .ok .ok).DeviceWillAnswer ∧
    (waiting .ok .ok).plat.present.now = true ∧ ∃ t, Executes .flush 4 (waiting .ok .ok) t ∧ t.Ready :=
  ⟨⟨rfl, rfl, rfl⟩, waiting_answers.1, rfl,
    ⟨_, ⟨_, ⟨_, ⟨_, ⟨_, rfl, rfl, rfl, rfl⟩, rfl, rfl, rfl⟩, rfl, rfl, rfl⟩, rfl, rfl, rfl⟩, ⟨rfl, rfl, rfl⟩⟩⟩
theorem witness_Flush1ShowsOneCell : opField 0x8400003F = 0x21 ∧
    start.Ready ∧ start.DeviceAnswers ∧ start.plat.present.now = true ∧
    noDevice.plat.present.now = false ∧ (63 : Byte).toNat ≤ 63 ∧ 63 < (64 : Byte).toNat :=
  ⟨by decide, start_ready, start_device, rfl, rfl, by decide, by decide⟩
theorem witness_Flush1ShowsOneCell_waiting : (waiting .ok .ok).Ready ∧ (waiting .ok .ok).DeviceWillAnswer ∧
    (waiting .ok .ok).plat.present.now = true ∧ ∃ t, Executes (.flush1 63) 4 (waiting .ok .ok) t ∧ t.Ready :=
  ⟨⟨rfl, rfl, rfl⟩, waiting_answers.1, rfl,
    ⟨_, ⟨_, ⟨_, ⟨_, ⟨_, rfl, rfl, rfl, rfl⟩, rfl, rfl, rfl⟩, rfl, rfl, rfl⟩, rfl, rfl, rfl⟩, ⟨rfl, rfl, rfl⟩⟩⟩
theorem witness_SetpixWritesAndShowsOneCell : opField 0x892500E0 = 0x22 ∧
    start.Ready ∧ start.DeviceAnswers ∧ start.plat.present.now = true ∧
    noDevice.Ready ∧ noDevice.plat.present.now = false ∧ (7 : BitVec 4).toNat ≤ 7 ∧ 7 < (8 : BitVec 4).toNat :=
  ⟨by decide, start_ready, start_device, rfl, ⟨rfl, rfl, rfl⟩, rfl, by decide, by decide⟩
theorem witness_SetpixWritesAndShowsOneCell_waiting : (waiting .ok .ok).Ready ∧ (waiting .ok .ok).DeviceWillAnswer ∧
    (waiting .ok .ok).plat.present.now = true ∧ ∃ t, Executes (.setpix .deg90 7 7 5) 4 (waiting .ok .ok) t ∧ t.Ready :=
  ⟨⟨rfl, rfl, rfl⟩, waiting_answers.1, rfl,
    ⟨_, ⟨_, ⟨_, ⟨_, ⟨_, rfl, rfl, rfl, rfl⟩, rfl, rfl, rfl⟩, rfl, rfl, rfl⟩, rfl, rfl, rfl⟩, ⟨rfl, rfl, rfl⟩⟩⟩
/-- A failed request, and a failed write, of `FLUSH`, `FLUSH1`, `SETPIX` and `STATIC`. -/
theorem witness_FlushFailureSetsDeverr :
    let r : State := { startA with plat := { startA.plat with acquire := ⟨[.failed], .ok⟩ } }
    let w : State := { startA with plat := { startA.plat with write := ⟨[.failed], .ok⟩ } }
    (r.Ready ∧ r.DeviceFails ∧ r.plat.acquire.now = .failed ∧ r.FontAnswers ∧ r.msglen.toNat = 1) ∧
    (w.Ready ∧ w.DeviceFails ∧ w.plat.acquire.now = .ok ∧ w.FontAnswers ∧ w.msglen.toNat = 1 ∧ w.Untouched 0) ∧
    (63 : Byte).toNat ≤ 63 ∧ (7 : BitVec 4).toNat ≤ 7 :=
  ⟨⟨⟨rfl, rfl, rfl⟩, ⟨all_const rfl, rfl, .inl rfl⟩, rfl, start_font, by decide⟩,
    ⟨⟨rfl, rfl, rfl⟩, ⟨all_const rfl, rfl, .inr ⟨rfl, rfl⟩⟩, rfl, start_font, by decide, all_const (by decide)⟩,
    by decide, by decide⟩

/-- `startA` in which device request number `m` fails, and in which device write number `m` fails. -/
def requestFailing (m : Nat) : State :=
  { startA with plat := { startA.plat with acquire := ⟨List.replicate m .ok ++ [.failed], .ok⟩ } }
def writeFailing (m : Nat) : State :=
  { startA with plat := { startA.plat with write := ⟨List.replicate m .ok ++ [.failed], .ok⟩ } }

/-- In a `SCROLL` of one character: the first and the last flush, by its request and by its write. -/
theorem witness_FlushFailureSetsDeverr_scroll : ∀ m ∈ [0, 18],
    ((requestFailing m).Ready ∧ (requestFailing m).FontAnswers ∧ (requestFailing m).Ticking ∧ (requestFailing m).NotCancelled ∧
      (requestFailing m).NoEdge ∧ (requestFailing m).plat.present.All (· = true) ∧ m ≤ 6 * ((requestFailing m).msglen.toNat + 2) ∧
      (requestFailing m).plat.acquire.next = List.replicate m .ok ++ .failed :: [] ∧
      (requestFailing m).plat.write.All (· = .ok) ∧ (requestFailing m).held = false) ∧
    (writeFailing m).Ready ∧ (writeFailing m).FontAnswers ∧ (writeFailing m).Ticking ∧ (writeFailing m).NotCancelled ∧
      (writeFailing m).NoEdge ∧ (writeFailing m).plat.present.All (· = true) ∧ m ≤ 6 * ((writeFailing m).msglen.toNat + 2) ∧
      (writeFailing m).plat.write.next = List.replicate m .ok ++ .failed :: [] ∧
      (writeFailing m).plat.acquire.All (· = .ok) := by
  intro m hm
  have hle : m ≤ 6 * ((1 : Byte).toNat + 2) := by
    have : (1 : Byte).toNat = 1 := rfl
    simp only [List.mem_cons, List.not_mem_nil, or_false] at hm
    omega
  exact ⟨⟨⟨rfl, rfl, rfl⟩, start_font, start_ticking, start_notCancelled, all_const rfl, all_const rfl, hle, rfl, all_const rfl,
      rfl⟩,
    ⟨rfl, rfl, rfl⟩, start_font, start_ticking, start_notCancelled, all_const rfl, all_const rfl, hle, rfl, all_const rfl⟩

/-! ### Rendering -/

theorem witness_StaticPaintsTheLetter : opField 0xAB000000 = 0x2A ∧
    startA.Ready ∧ startA.FontAnswers ∧ startA.DeviceAnswers ∧ startA.msglen.toNat = 1 ∧
    startA.plat.present.now = true :=
  ⟨by decide, ⟨rfl, rfl, rfl⟩, start_font, start_device, by decide, rfl⟩
/-- A `STATIC` that waits for its font, its request, an edge, its write, and an edge. -/
theorem witness_StaticPaintsTheLetter_waiting : (waiting .ok .ok).Ready ∧ (waiting .ok .ok).msglen.toNat = 1 ∧
    (waiting .ok .ok).FontWillAnswer ∧ ((waiting .ok .ok).plat.present.now = true → (waiting .ok .ok).DeviceWillAnswer) ∧
    ∃ t, Executes (.static .deg0) 5 (waiting .ok .ok) t ∧ t.Ready :=
  ⟨⟨rfl, rfl, rfl⟩, by decide, waiting_answers.2, fun _ => waiting_answers.1,
    ⟨_, ⟨_, ⟨_, ⟨_, ⟨_, ⟨_, rfl, rfl, rfl, rfl⟩, rfl, rfl, rfl⟩, rfl, rfl, rfl⟩, rfl, rfl, rfl⟩, rfl, rfl, rfl⟩, ⟨rfl, rfl, rfl⟩⟩⟩
theorem witness_ShiftAndInsertMoveTheBuffer : 7 < 8 ∧ 6 ≤ 6 ∧ 1 ≤ 7 ∧ ∀ g, 40 ≤ g → cellAt false start.gl g = false :=
  ⟨by decide, by decide, by decide, fun g _ => gl_start g⟩
theorem witness_ScrollStepEightIsTheStaticLetter : Orient.deg180 ≠ .deg270 ∧ ∀ g, 40 ≤ g → cellAt false start.gl g = false :=
  ⟨by decide, fun g _ => gl_start g⟩
/-- A message of one character and an empty one, with and without a device. -/
theorem witness_ScrollRunsToDone : opField 0xAE000000 = 0x2B ∧
    (startA.Ready ∧ startA.FontAnswers ∧ startA.DeviceAnswers ∧ startA.Ticking ∧ startA.NotCancelled ∧
      startA.msglen.toNat = 0 + 1 ∧ startA.plat.present.All (· = true) ∧ startA.held = false) ∧
    noDevice.Ready ∧ noDevice.FontAnswers ∧ noDevice.DeviceAnswers ∧ noDevice.Ticking ∧ noDevice.NotCancelled ∧
      noDevice.msglen.toNat = 0 ∧ noDevice.plat.present.All (· = false) :=
  ⟨by decide, ⟨⟨rfl, rfl, rfl⟩, start_font, start_device, start_ticking, start_notCancelled, by decide, all_const rfl, rfl⟩,
    ⟨rfl, rfl, rfl⟩, ⟨all_const rfl, Nat.le_refl _⟩, ⟨all_const rfl, all_const rfl, all_const rfl⟩, all_const (by decide),
    all_const rfl, by decide, all_const rfl⟩
theorem witness_ScrollShowsTheFrames : startA.Ready ∧ startA.FontAnswers ∧ startA.DeviceAnswers ∧ startA.Ticking ∧
    startA.NotCancelled ∧ startA.plat.present.All (· = true) :=
  ⟨⟨rfl, rfl, rfl⟩, start_font, start_device, start_ticking, start_notCancelled, all_const rfl⟩
theorem witness_CancelStopsAfterOneStep :
    let s : State := { startA with plat := { startA.plat with cancel := ⟨[], true⟩ } }
    s.Ready ∧ s.FontAnswers ∧ s.DeviceAnswers ∧ s.Ticking ∧ s.plat.cancel.nth 0 = true ∧ s.plat.present.All (· = true) ∧
    noDevice.plat.present.All (· = false) :=
  ⟨⟨rfl, rfl, rfl⟩, start_font, start_device, start_ticking, rfl, all_const rfl, all_const rfl⟩

/-- `startA` whose `cancel` is 1 at its sample `m` alone. -/
def cancelled (m : Nat) : State :=
  { startA with plat := { startA.plat with cancel := ⟨List.replicate m false ++ [true], false⟩ } }

/-- At the last check of the first character, the first of the next, and the last of all; and one check later, which is none. -/
theorem witness_CancelStopsAfterOneStep_later :
    (∀ m ∈ [5, 6, 17], (cancelled m).Ready ∧ (cancelled m).FontAnswers ∧ (cancelled m).DeviceAnswers ∧ (cancelled m).Ticking ∧
      m < 6 * ((cancelled m).msglen.toNat + 2) ∧ (∀ j, j < m → (cancelled m).plat.cancel.nth j = false) ∧
      (cancelled m).plat.cancel.nth m = true ∧ (cancelled m).plat.present.All (· = true) ∧ (cancelled m).held = false) ∧
    (∀ j, j < 6 * ((cancelled 18).msglen.toNat + 2) → (cancelled 18).plat.cancel.nth j = false) ∧
    min (5 / 6 + 1) (cancelled 5).msglen.toNat = 0 + 1 ∧ min (17 / 6 + 1) (0 : Byte).toNat = 0 ∧ (cancelled 5).Untouched 0 := by
  refine ⟨?_, by decide, by decide, by decide, all_const (by decide)⟩
  intro m hm
  refine ⟨⟨rfl, rfl, rfl⟩, start_font, start_device, start_ticking, ?_, ?_, ?_, all_const rfl, rfl⟩ <;>
    (revert m; decide)
theorem witness_ScrollFailsAtTheFirstFrame :
    let s : State := { startA with plat := { startA.plat with acquire := ⟨[.failed], .ok⟩ } }
    s.Ready ∧ s.NoEdge ∧ s.plat.present.now = true ∧ s.plat.acquire.now = .failed := ⟨⟨rfl, rfl, rfl⟩, all_const rfl, rfl, rfl⟩
/-- The ends: done, aborted, waiting in `Painting`, and done after that wait; with a device throughout. -/
theorem witness_ScrollEndsDoneOrAborted :
    (∃ t, Executes (.scroll .deg0) 0 startA t) ∧
    (∃ t, Executes (.scroll .deg0) 0 { startA with plat := { startA.plat with acquire := ⟨[.failed], .ok⟩ } } t) ∧
    (∃ t, Executes (.scroll .deg0) 0 { startA with plat := { startA.plat with acquire := ⟨[.silent], .ok⟩ } } t) ∧
    (∃ t, Executes (.scroll .deg0) 1 { startA with plat := { startA.plat with acquire := ⟨[.silent], .ok⟩ } } t) ∧
    startA.plat.present.All (· = true) :=
  ⟨⟨_, rfl⟩, ⟨_, rfl⟩, ⟨_, rfl⟩, ⟨_, _, rfl, rfl, rfl, rfl⟩, all_const rfl⟩
/-- Where `Painting` and `Scrolling` meet: at the edge after the release of the initial flush, and one step later at the first
font read; and with no device, which goes to `Scrolling` at once. -/
theorem witness_ScrollEndsDoneOrAborted_states :
    let s : State := { startA with
      plat := { startA.plat with edge := ⟨[false, false, true], false⟩, font := ⟨[.silent], .ok⟩ } }
    let u : State := { startA with plat := { startA.plat with present := ⟨[], false⟩, font := ⟨[.silent], .ok⟩ } }
    (∃ t, Executes (.scroll .deg0) 0 s t ∧
      s.InitialFlush t [.acquire true, .write 0 (pbBytes (fillCells s.bg) 0 128) true, .release]) ∧
    (∃ t, Executes (.scroll .deg0) 1 s t ∧ t.todo.head? = some (.fontRow 0)) ∧
    (∃ t, Executes (.scroll .deg0) 0 u t ∧ t.todo.head? = some (.fontRow 0)) ∧ u.plat.present.All (· = false) :=
  ⟨⟨_, rfl, rfl, _, _, rfl, rfl⟩, ⟨_, ⟨_, rfl, rfl, rfl, rfl⟩, rfl⟩, ⟨_, rfl, rfl⟩, all_const rfl⟩

end Sys2Proof.Tests
end

section
/-! PROOFS. The reasoning rules of the family 10_state: what an accepted command, an abort event and a step can come to, each
said once, and how a property of the state comes through a whole step. -/

namespace Sys2Proof.Machine

/-! ### What a step and a command come to -/

theorem Op.PartOf.not_resume {op : Op} {i : Instr} (h : op.PartOf i) : op.isResume = false := by
  obtain ⟨-, -, -, -, hr, -⟩ := h
  exact hr

theorem Op.PartOf.cursorOk {op : Op} {i : Instr} (h : op.PartOf i) : op.CursorOk := by
  obtain ⟨-, -, -, -, -, -, hc⟩ := h
  exact hc

/-- What an accepted command answers: one atomic update, or what its statements come to, run on a state in which only a command
that writes `PB` has written it already (`SETPIX`, R138). -/
theorem exec_next {i : Instr} {s t : State} (h : exec i s = .next t) :
    (∃ f : State → State, (∀ a, Atomic i f a) ∧ t = (f (s.accept i)).finish) ∨
    ∃ ops pb, (∀ op ∈ ops, op.PartOf i) ∧ (writesPb i = false → pb = s.pb) ∧ t = run ops ((s.withPb pb).accept i) := by
  rcases exec_cases i s with ⟨f, e, ha⟩ | ⟨ops, e, hp⟩ | ⟨o, x, y, v, p, hp, rfl, e⟩ <;> rw [e] at h <;> cases h
  · exact .inl ⟨f, ha, rfl⟩
  · exact .inr ⟨ops, s.pb, hp, fun _ => rfl, rfl⟩
  · exact .inr ⟨_, setCell s.pb p v, by simpa using partOf_cellFlush rfl hp, nofun, rfl⟩

/-- What a step without `rst` comes to: a busy core goes on with its command; a ready one does nothing, accepts the command that
the presented word decodes to, or accepts a word that is none. -/
theorem step_next {s t : State} (hr : s.plat.rst.now = false) (h : step s = .next t) :
    (s.status.busy = true ∧ t = s.begun.resume) ∨
    (s.status.busy = false ∧ (t = s.begun ∨ ∃ w ws, s.plat.commands = w :: ws ∧
      ((∃ i, decode w = .ok i ∧ exec i { s.begun with plat := { s.begun.plat with commands := ws } } = .next t) ∨
        t = ({ s.begun with plat := { s.begun.plat with commands := ws } } : State).acceptIllegal))) := by
  unfold step at h
  rw [hr, if_neg (by simp)] at h
  cases hb : s.status.busy <;> simp only [hb, if_true, if_false, Bool.false_eq_true] at h
  · refine .inr ⟨rfl, ?_⟩
    cases hc : s.plat.commands with
    | nil =>
      simp only [State.fetch, begun_plat, hc] at h
      cases h
      exact .inl rfl
    | cons w ws =>
      simp only [State.fetch, begun_plat, hc] at h
      refine .inr ⟨w, ws, rfl, ?_⟩
      rw [begun_plat]
      split at h
      · exact .inl ⟨_, ‹_›, h⟩
      · cases h; exact .inr rfl
  · cases h; exact .inl ⟨rfl, rfl⟩

/-! ### Abort events (R196, R198) -/

/-- An abort event leaves the flags of the other events as they were. -/
theorem raise_flag_of_ne (s : State) {e f : Abort} (h : f ≠ e) : (s.raise e).status.flag f = s.status.flag f := by
  rw [raise_status]
  cases e <;> cases f <;> first | exact (h rfl).elim | (split <;> rfl)

/-- Only a `SCROLL` has its `ASTATE` moved by an abort event. -/
theorem raise_astate_of_not_scroll {s : State} {i : Instr} (e : Abort) (hc : s.cmd = some i) (hi : isScroll i = false) :
    (s.raise e).status.astate = s.status.astate := by
  have hs : s.scrolling = false := by
    unfold State.scrolling
    rw [hc]
    cases i <;> first | rfl | cases hi
  rw [(raised e s).astate, hs, if_neg (by simp)]

theorem readChunks_raise {rows : List Nat} {s t : State} {e : Abort} (h : readChunks rows s = .raise e t) : e = .fontErr := by
  induction rows generalizing s with
  | nil => cases h
  | cons row rows ih =>
    simp only [readChunks] at h
    split at h
    · cases h
    · split at h
      · cases h; rfl
      · exact ih h

/-- A statement raises only an event that R198 allows the command it belongs to. -/
theorem runOp_mayRaise {i : Instr} {op : Op} {s t : State} {e : Abort} (ho : op.Within i) (h : runOp op s = .raise e t) :
    mayRaise i e = true := by
  obtain ⟨hfont, hdev, -, hanim⟩ := ho
  have font : ∀ {rows : List Nat} {s : State}, usesFont i = true → readChunks rows s = .raise e t → mayRaise i e = true := by
    intro rows s hf h
    rw [readChunks_raise h]
    exact hf
  have flush : ∀ {off n : Nat} {x : OpResult}, usesDevice i = true → x.OfFlush off n → x = .raise e t →
      mayRaise i e = true := by
    rintro off n _ hd hx rfl
    rw [show e = .devErr from hx]
    exact hd
  cases op <;> simp only [runOp] at h <;> try cases h
  case lookup => exact font (hfont rfl) h
  case lookupMsg =>
    split at h
    · exact font (hfont rfl) h
    · cases h
  case fontRow => exact font (hfont rfl) h
  case flush off n => exact flush (hdev rfl) (ofFlush_start off n s) h
  case flushGrant off n => exact flush (hdev rfl) (ofFlush_grant off n s) h
  case flushHold off n => exact flush (hdev rfl) (ofFlush_write off n s) h
  case flushWrite off n => exact flush (hdev rfl) (ofFlush_write off n s) h
  case flushRelease ok => exact flush (hdev rfl) (ofFlush_release 0 0 ok s) h
  case flushEnd ok => exact flush (hdev rfl) (ofFlush_end 0 0 ok s) h
  case checkCancel =>
    simp only [checkCancel] at h
    split at h <;> cases h
    exact hanim rfl
  case pace => simp only [paceStart, paceWait] at h; split at h <;> cases h
  case paceWait => simp only [paceWait] at h; split at h <;> cases h

/-! ### A property that comes through a command, or through every step -/

/-- What every statement of a list keeps, with what it gives at the end, at an abort event that a statement of the list raised,
and at a wait of one. -/
theorem run_ends {P Q : State → Prop} {ops : List Op} {s : State}
    (hop : ∀ op ∈ ops, ∀ a, P a → P (runOp op a).state)
    (hfinish : ∀ a, P a → Q a.finish)
    (hraise : ∀ op ∈ ops, ∀ a b e, runOp op a = .raise e b → P b → Q (b.raise e))
    (hwait : ∀ pre op post a b r, ops = pre ++ op :: post → runOp op a = .wait b r → P b → Q { b with todo := r :: post })
    (h : P s) : Q (run ops s) := by
  have kept : ∀ op ∈ ops, ∀ a x, P a → runOp op a = x → P x.state := by
    rintro op ho a _ h rfl
    exact hop op ho a h
  exact run_induct (P := P) (fun op ho a b h hb => kept op ho a _ h hb) hfinish
    (fun op ho a b e h hb => hraise op ho a b e hb (kept op ho a _ h hb))
    (fun pre op post a b r hops h hb => hwait pre op post a b r hops hb (kept op (by simp [hops]) a _ h hb)) h

/-- What a property that does not look at the statements left has to survive for every step to keep it: the start of a step, a
reset, an atomic update, a statement, and the updates around a command. -/
theorem step_keeps_of_updates {P : State → Prop}
    (hbegun : ∀ s, P s → P s.begun)
    (hfetch : ∀ s ws, P s → P { s with plat := { s.plat with commands := ws } })
    (hreset : ∀ s, P s → P s.resetCore)
    (haccept : ∀ s b c, P s → P { s with status := { s.status with busy := b }, cmd := c })
    (hpb : ∀ s pb, P s → P (s.withPb pb))
    (hatomic : ∀ i f s, Atomic i f s → P s → P (f s))
    (hop : ∀ op s, P s → P (runOp op s).state)
    (hraise : ∀ s e, P s → P (s.raise e))
    (htodo : ∀ s todo, P s → P { s with todo := todo })
    {s t : State} (h : P s) (hs : step s = .next t) : P t := by
  have hfinish : ∀ s, P s → P s.finish := fun s h => htodo _ [] (haccept s false none h)
  have hrun : ∀ ops s, P s → P (run ops s) := fun ops s => run_keeps (fun op _ a => hop op a) hfinish hraise htodo
  refine step_keeps hbegun hfetch hreset (fun s h _ => hrun _ s h) ?_
    (fun s h _ => hraise _ .illCmd (haccept s true none h)) h hs
  intro i s t h _ ht
  rcases exec_next ht with ⟨f, ha, rfl⟩ | ⟨ops, pb, -, -, rfl⟩
  · exact hfinish _ (hatomic i f _ (ha _) (haccept s true (some i) h))
  · exact hrun ops _ (haccept _ true (some i) (hpb s pb h))

end Sys2Proof.Machine
end

section
/-! PROOFS. The device is held only inside a flush (R25 a, R46, R140). -/

namespace Sys2Proof.Machine

/-- What a statement comes to holds the device exactly if it waits at a statement between the grant and the release of a
flush. -/
def OpResult.HeldRight : OpResult → Prop
  | .done t => t.held = false
  | .raise _ t => t.held = false
  | .wait t r => t.held = r.holds

theorem readChunks_heldRight (rows : List Nat) {s : State} (h : s.held = false) : (readChunks rows s).HeldRight := by
  induction rows generalizing s with
  | nil => exact h
  | cons row rows ih =>
    unfold readChunks
    split
    · exact h
    · split
      · exact h
      · exact ih (s := s.readChunk row) h

theorem paceWait_heldRight {s : State} (h : s.held = false) : (paceWait s).HeldRight := by
  unfold paceWait
  split <;> exact h

theorem atEdge_heldRight {resume : Op} {go : State → OpResult} {s : State} (h : s.held = resume.holds)
    (hgo : ∀ s : State, s.held = resume.holds → (go s).HeldRight) : (atEdge resume go s).HeldRight := by
  unfold atEdge
  split
  exacts [h, hgo _ h]

theorem flushEnd_heldRight (ok : Bool) {s : State} (h : s.held = false) : (flushEnd ok s).HeldRight := by
  cases ok <;> exact h

/-- The release ends the hold, whatever came before (R46). -/
theorem flushRelease_heldRight (ok : Bool) (s : State) : (flushRelease ok s).HeldRight :=
  atEdge_heldRight rfl fun _ h => flushEnd_heldRight ok h

theorem flushWrite_heldRight (off n : Nat) {s : State} (h : s.held = true) : (flushWrite off n s).HeldRight := by
  unfold flushWrite
  dsimp only
  split
  · exact h
  · exact atEdge_heldRight h fun s _ => flushRelease_heldRight true s
  · exact atEdge_heldRight h fun s _ => flushRelease_heldRight false s

theorem flushGrant_heldRight (off n : Nat) {s : State} (h : s.held = false) : (flushGrant off n s).HeldRight := by
  unfold flushGrant
  split
  · exact h
  · exact atEdge_heldRight rfl fun _ h => flushWrite_heldRight off n h
  · exact atEdge_heldRight h fun _ h => flushEnd_heldRight false h

theorem runOp_heldRight {op : Op} {s : State} (h : s.held = op.holds) : (runOp op s).HeldRight := by
  cases op with
  | lookup ch => exact readChunks_heldRight _ (s := s.beginLookup ch) h
  | lookupMsg =>
    simp only [runOp]
    split
    exacts [readChunks_heldRight _ (s := s.beginLookup _) h, h]
  | fontRow row => exact readChunks_heldRight _ h
  | flush off n =>
    simp only [runOp, flushStart]
    split
    exacts [flushGrant_heldRight off n (s := s.sampledPresent) h, h]
  | flushGrant off n => exact flushGrant_heldRight off n h
  | flushHold off n | flushWrite off n => exact flushWrite_heldRight off n h
  | flushRelease ok => exact flushRelease_heldRight ok s
  | flushEnd ok => exact flushEnd_heldRight ok h
  | pace => exact paceWait_heldRight (s := s.startPace) h
  | paceWait => exact paceWait_heldRight h
  | checkCancel => simp only [runOp, checkCancel]; split <;> exact h
  | _ => exact h

/-- Only a statement of a wait is one between the grant and the release. -/
theorem holds_of_not_resume {op : Op} (h : op.isResume = false) : op.holds = false := by
  cases op <;> first | rfl | cases h

theorem head_holds_of_not_resume {ops : List Op} (h : ∀ op ∈ ops, op.isResume = false) : ops.head?.any Op.holds = false := by
  cases ops with
  | nil => rfl
  | cons op ops => exact holds_of_not_resume (h op List.mem_cons_self)

theorem heldInv_of_ready {s : State} (h : s.Ready) (hh : s.held = false) : s.HeldInv := by
  obtain ⟨-, hcmd, htodo⟩ := h
  exact ⟨fun _ => ⟨hcmd, htodo⟩, by rw [hh, htodo]; rfl, by rw [htodo]; nofun⟩

/-- A ready core holds nothing. -/
theorem State.HeldInv.not_held {s : State} (h : s.HeldInv) (hb : s.status.busy = false) : s.held = false := by
  obtain ⟨hready, hheld, -⟩ := h
  rw [hheld, (hready hb).2]
  rfl

/-- The statements of a busy core that begin with the device held rightly end, or wait, with it held rightly. -/
theorem run_heldInv : ∀ {ops : List Op} {s : State}, s.status.busy = true → s.held = ops.head?.any Op.holds →
    (∀ op ∈ ops.tail, op.isResume = false) → (run ops s).HeldInv
  | [], s, _, hh, _ => heldInv_of_ready (ready_finish s) hh
  | op :: rest, s, hb, hh, ht => by
    have right : (runOp op s).HeldRight := runOp_heldRight hh
    have busy := (runOp_sameCore op s).busy.trans hb
    cases hx : runOp op s with
    | done t =>
      rw [hx] at right busy
      rw [run_done hx rest]
      exact run_heldInv busy (Eq.trans right (head_holds_of_not_resume ht).symm)
        fun o ho => ht o (List.mem_of_mem_tail ho)
    | raise e t =>
      rw [hx] at right
      rw [run_raise hx rest]
      exact heldInv_of_ready (raised e t).ready ((raise_held t e).trans right)
    | wait t r =>
      rw [hx] at right busy
      rw [run_wait hx rest]
      exact ⟨fun hf => (Bool.false_ne_true (hf.symm.trans busy)).elim, right, ht⟩

theorem exec_heldInv {i : Instr} {s t : State} (hh : s.held = false) (h : exec i s = .next t) : t.HeldInv := by
  rcases exec_next h with ⟨f, ha, rfl⟩ | ⟨ops, pb, hp, -, rfl⟩
  · exact heldInv_of_ready (ready_finish _) ((ha _).held.trans hh)
  · have hres : ∀ op ∈ ops, op.isResume = false := fun op ho => (hp op ho).not_resume
    exact run_heldInv rfl (hh.trans (head_holds_of_not_resume hres).symm) fun op ho => hres op (List.mem_of_mem_tail ho)

/-- Settles O21: a statement that begins with the device held rightly ends or waits so, and the statements behind the first are
none of a wait. -/
theorem stepKeepsHeldInv : Obligations.StepKeepsHeldInv := by
  intro s t h hs
  refine step_keeps (Inv := State.HeldInv) ?_ (fun _ _ h => h) (fun s _ => heldInv_of_ready ⟨rfl, rfl, rfl⟩ rfl) ?_ ?_ ?_ h hs
  · intro s h
    unfold State.HeldInv at h ⊢
    simpa using h
  · rintro s ⟨-, hheld, htail⟩ hb
    exact run_heldInv hb hheld htail
  · intro i s t h hb ht
    exact exec_heldInv (h.not_held hb) ht
  · intro s h hb
    exact heldInv_of_ready (raised _ _).ready ((raise_held _ _).trans (h.not_held hb))

end Sys2Proof.Machine
end

section
/-! PROOFS. Who writes what, waits included (R10, R11, R18 to R20, R24, R198), and what no step changes (R11, R30, R203). -/

namespace Sys2Proof.Machine

/-! ### Only the named commands write -/

/-- Of a command `i` that has come from `s` to `t`: it wrote only what the "written by" columns of its tables name, and left
alone every device byte that it may not write and that others leave alone, as they will go on to do. -/
structure NamedWrites (i : Instr) (s t : State) : Prop where
  res : writesRes i = false → t.res = s.res
  fg : writesFg i = false → t.fg = s.fg
  bg : writesBg i = false → t.bg = s.bg
  msg : writesMsg i = false → t.msglen = s.msglen ∧ t.msg = s.msg
  animator : isScroll i = false → t.schr = s.schr ∧ t.scol = s.scol ∧ t.status.astate = s.status.astate
  pb : writesPb i = false → t.pb = s.pb
  gl : usesFont i = false → t.gl = s.gl
  hold : usesDevice i = false → t.status.nodev = s.status.nodev ∧ t.held = s.held
  dev : usesDevice i = false → ∀ a, s.Untouched a → t.devAt a = s.devAt a ∧ t.Untouched a
  flags : isClrst i = false → ∀ e, mayRaise i e = false → t.status.flag e = s.status.flag e

namespace NamedWrites

variable {i : Instr} {s t u : State}

theorem refl (i : Instr) (s : State) : NamedWrites i s s :=
  ⟨fun _ => rfl, fun _ => rfl, fun _ => rfl, fun _ => ⟨rfl, rfl⟩, fun _ => ⟨rfl, rfl, rfl⟩, fun _ => rfl, fun _ => rfl,
    fun _ => ⟨rfl, rfl⟩, fun _ _ ha => ⟨rfl, ha⟩, fun _ _ _ => rfl⟩

theorem trans (h : NamedWrites i s t) (k : NamedWrites i t u) : NamedWrites i s u where
  res hi := (k.res hi).trans (h.res hi)
  fg hi := (k.fg hi).trans (h.fg hi)
  bg hi := (k.bg hi).trans (h.bg hi)
  msg hi := ⟨(k.msg hi).1.trans (h.msg hi).1, (k.msg hi).2.trans (h.msg hi).2⟩
  animator hi := by
    obtain ⟨h1, h2, h3⟩ := h.animator hi
    obtain ⟨k1, k2, k3⟩ := k.animator hi
    exact ⟨k1.trans h1, k2.trans h2, k3.trans h3⟩
  pb hi := (k.pb hi).trans (h.pb hi)
  gl hi := (k.gl hi).trans (h.gl hi)
  hold hi := ⟨(k.hold hi).1.trans (h.hold hi).1, (k.hold hi).2.trans (h.hold hi).2⟩
  dev hi a ha := by
    obtain ⟨h1, h2⟩ := h.dev hi a ha
    obtain ⟨k1, k2⟩ := k.dev hi a h2
    exact ⟨k1.trans h1, k2⟩
  flags hi e he := (k.flags hi e he).trans (h.flags hi e he)

/-- The start of a step writes nothing but device bytes of others (R58). -/
theorem begun (i : Instr) (s : State) : NamedWrites i s s.begun := by
  constructor
  case dev => exact fun _ a ha => begun_devAt ha
  all_goals intros; simp

theorem accept (i : Instr) (s : State) : NamedWrites i s (s.accept i) :=
  { refl i s with flags := fun _ e _ => by cases e <;> rfl }

theorem finish (i : Instr) (s : State) : NamedWrites i s s.finish :=
  { refl i s with flags := fun _ e _ => by cases e <;> rfl }

theorem withPb {pb : Vector Half 64} (h : writesPb i = false → pb = s.pb) : NamedWrites i s (s.withPb pb) :=
  { refl i s with pb := h }

theorem withTodo (i : Instr) (s : State) (todo : List Op) : NamedWrites i s { s with todo := todo } :=
  { refl i s with }

theorem of_atomic {f : State → State} (h : Atomic i f s) : NamedWrites i s (f s) where
  res := h.res
  fg := h.fg
  bg := h.bg
  msg := h.msg
  animator _ := ⟨h.schr, h.scol, h.astate⟩
  pb := h.pb
  gl _ := h.gl
  hold _ := ⟨h.nodev, h.held⟩
  dev _ a ha := by
    unfold State.devAt State.Untouched
    rw [h.dev, h.plat]
    exact ⟨rfl, ha⟩
  flags hi e _ := by rw [h.status hi]

/-- A statement of the command, whatever it comes to. -/
theorem of_runOp {op : Op} (ho : op.Within i) (s : State) : NamedWrites i s (runOp op s).state := by
  obtain ⟨hfont, hdev, hpb, hanim⟩ := ho
  have off : ∀ {b c : Bool}, (b = true → c = true) → c = false → b = false := by decide
  have core := runOp_sameCore op s
  refine ⟨fun _ => core.res, fun _ => core.fg, fun _ => core.bg, fun _ => ⟨core.msglen, core.msg⟩,
    fun h => runOp_animator (off hanim h) s, fun h => runOp_pb (off hpb h) s, fun h => runOp_gl (off hfont h) s, ?_, ?_,
    fun _ e _ => core.flags e⟩
  · intro h
    exact (runOp_device (off hdev h) s).2
  · intro h a ha
    refine ⟨?_, runOp_foreign op ha⟩
    unfold State.devAt
    rw [(runOp_device (off hdev h) s).1]

/-- An event that the command may raise (R198). -/
theorem of_raise {e : Abort} (hc : s.cmd = some i) (he : mayRaise i e = true) : NamedWrites i s (s.raise e) where
  res _ := raise_res s e
  fg _ := raise_fg s e
  bg _ := raise_bg s e
  msg _ := ⟨raise_msglen s e, raise_msg s e⟩
  animator hi := ⟨raise_schr s e, raise_scol s e, raise_astate_of_not_scroll e hc hi⟩
  pb _ := raise_pb s e
  gl _ := raise_gl s e
  hold _ := ⟨(raised e s).nodev, raise_held s e⟩
  dev _ a ha := by
    unfold State.devAt State.Untouched
    rw [raise_dev, raise_plat]
    exact ⟨rfl, ha⟩
  flags _ f hf := raise_flag_of_ne s (by rintro rfl; rw [he] at hf; cases hf)

/-- The statements of the command, from its acceptance or from a wait on. -/
theorem of_run {ops : List Op} (ho : ∀ op ∈ ops, op.Within i) (hc : s.cmd = some i) : NamedWrites i s (run ops s) := by
  refine run_ends (P := fun t => NamedWrites i s t ∧ t.cmd = some i) ?_ (fun a h => h.1.trans (finish i a)) ?_ ?_
    ⟨refl i s, hc⟩
  · rintro op hm a ⟨h, hc⟩
    exact ⟨h.trans (of_runOp (ho op hm) a), (runOp_sameCore op a).cmd.trans hc⟩
  · rintro op hm a b e hb ⟨h, hc⟩
    exact h.trans (of_raise hc (runOp_mayRaise (ho op hm) hb))
  · rintro pre op post a b r - - ⟨h, -⟩
    exact h.trans (withTodo i b _)

theorem of_exec (h : exec i s = .next t) : NamedWrites i s t := by
  rcases exec_next h with ⟨f, ha, rfl⟩ | ⟨ops, pb, hp, hpb, rfl⟩
  · exact ((accept i s).trans (of_atomic (ha _))).trans (finish i _)
  · exact ((withPb hpb).trans (accept i _)).trans (of_run (fun op ho => (hp op ho).within) rfl)

end NamedWrites

/-- The step that accepts a command and every later step of it write only what the tables name. -/
theorem Executes.namedWrites {i : Instr} {k : Nat} {s t : State} (h : Executes i k s t) : NamedWrites i s t := by
  induction k generalizing t with
  | zero => exact NamedWrites.of_exec h
  | succ k ih =>
    obtain ⟨u, hu, hb, hr, hs⟩ := h
    obtain ⟨hwithin, hready | hcmd⟩ := hu.waits
    · rw [hready.1] at hb; cases hb
    · rcases step_next hr hs with ⟨-, rfl⟩ | ⟨hb', -⟩
      · refine ((ih hu).trans (NamedWrites.begun i u)).trans (NamedWrites.of_run ?_ ((begun_cmd u).trans hcmd))
        rwa [begun_todo]
      · rw [hb] at hb'; cases hb'

/-- Settles O15: the parts of `NamedWrites`, kept by the acceptance, by every statement of the command and by every wait. -/
theorem onlyNamedCommandsWrite : Obligations.OnlyNamedCommandsWrite := by
  intro i k s t h
  have w := h.namedWrites
  exact ⟨w.res, w.fg, w.bg, w.msg, w.animator, w.pb, w.gl,
    fun hi => ⟨(w.hold hi).1, (w.hold hi).2, fun a ha => (w.dev hi a ha).1⟩, fun e he hi => w.flags hi e he⟩

/-! ### Sticky flags and parameters -/

theorem run_flag {ops : List Op} {s : State} {e : Abort} (h : s.status.flag e = true) : (run ops s).status.flag e = true :=
  run_keeps (P := fun t => t.status.flag e = true) (fun op _ a h => ((runOp_sameCore op a).flags e).trans h)
    (fun _ h => by cases e <;> exact h) (fun a f h => (raised f a).flags e h) (fun _ _ h => h) h

/-- No accepted command but a `CLRST` clears a sticky flag. -/
theorem exec_flag {i : Instr} {s t : State} {e : Abort} (hi : isClrst i = false) (h : s.status.flag e = true)
    (ht : exec i s = .next t) : t.status.flag e = true := by
  rcases exec_next ht with ⟨f, ha, rfl⟩ | ⟨ops, pb, -, -, rfl⟩
  · have : (f (s.accept i)).status.flag e = true := by
      rw [(ha _).status hi]
      cases e <;> exact h
    cases e <;> exact this
  · exact run_flag (by cases e <;> exact h)

/-- Settles O16: neither a statement, nor an abort event, nor an atomic update other than `CLRST`'s clears a flag. -/
theorem stickyFlagsStay : Obligations.StickyFlagsStay := by
  intro s t e hr hs h hclr
  have hbegun : s.begun.status.flag e = true := by rwa [begun_status]
  rcases step_next hr hs with ⟨-, rfl⟩ | ⟨hb, rfl | ⟨w, ws, hw, ⟨i, hd, ht⟩ | rfl⟩⟩
  · exact run_flag hbegun
  · exact hbegun
  · refine exec_flag (hclr w ws i hb hw hd) ?_ ht
    exact hbegun
  · exact (raised .illCmd _).flags e (by cases e <;> exact hbegun)

theorem resetCore_cfg (s : State) : s.resetCore.cfg = s.cfg := by
  show s.abandonWrite.cfg = s.cfg
  unfold State.abandonWrite
  split
  · split <;> rfl
  · rfl

/-- Settles O17: no update of a step writes the parameters. -/
theorem parametersNeverChange : Obligations.ParametersNeverChange := by
  intro s t hs
  exact step_keeps_of_updates (P := fun u => u.cfg = s.cfg) (fun u h => (begun_cfg u).trans h) (fun _ _ h => h)
    (fun u h => (resetCore_cfg u).trans h) (fun _ _ _ h => h) (fun _ _ h => h) (fun _ _ _ ha h => ha.cfg.trans h)
    (fun op u h => (runOp_sameCore op u).cfg.trans h) (fun u e h => (raise_cfg u e).trans h) (fun _ _ h => h) rfl hs

end Sys2Proof.Machine
end

section
/-! PROOFS. The invariants of single registers and arrays (R15 to R17, R19), and the state after reset and on the read port
(R10, R11, R31). -/

namespace Sys2Proof.Machine

/-! ### Glyph cells 40 to 63 (R19, R115) -/

theorem cellAt_glyphClosed_of_le (g : Vector Bool 64) {i : Nat} (h : 40 ≤ i) : cellAt false (glyphClosed g) i = false := by
  rw [glyphClosed, cellAt_tabulate_ite, if_neg (show ¬ i < 40 by omega), ite_self]

theorem reset_glAt (g : Nat) : State.reset.glAt g = false := by
  unfold State.glAt
  rw [show State.reset.gl = tabulate 64 fun _ => false from rfl, cellAt_tabulate_ite, ite_self]

theorem glyphInv_reset : State.reset.GlyphInv := fun g _ => reset_glAt g

/-- A lookup loads `GL` whole, with the background cells closed, or leaves it (R115, R119). -/
theorem readChunks_glyphInv (rows : List Nat) {s : State} (h : s.GlyphInv) : (readChunks rows s).state.GlyphInv := by
  induction rows generalizing s with
  | nil => exact fun g hg => cellAt_glyphClosed_of_le s.glyph hg
  | cons row rows ih =>
    unfold readChunks
    split
    · exact h
    · split
      · exact h
      · exact ih (s := s.readChunk row) h

theorem glyphInv_of_gl {s t : State} (e : t.gl = s.gl) (h : s.GlyphInv) : t.GlyphInv := by
  unfold State.GlyphInv State.glAt at *
  rwa [e]

theorem runOp_glyphInv (op : Op) {s : State} (h : s.GlyphInv) : (runOp op s).state.GlyphInv := by
  cases op with
  | lookup ch => exact readChunks_glyphInv _ (s := s.beginLookup ch) h
  | lookupMsg =>
    simp only [runOp]
    split
    exacts [readChunks_glyphInv _ (s := s.beginLookup _) h, h]
  | fontRow row => exact readChunks_glyphInv _ h
  | _ => exact glyphInv_of_gl (runOp_gl rfl s) h

/-- Settles O22: only a lookup writes `GL`, and it closes the cells from 40 on. -/
theorem stepKeepsGlyphInv : Obligations.StepKeepsGlyphInv := fun _ _ =>
  step_keeps_of_updates (fun s h => glyphInv_of_gl (begun_gl s) h) (fun _ _ h => h) (fun _ _ => glyphInv_reset)
    (fun _ _ _ h => h) (fun _ _ h => h) (fun _ _ _ ha h => glyphInv_of_gl ha.gl h) (fun op _ h => runOp_glyphInv op h)
    (fun s e h => glyphInv_of_gl (raise_gl s e) h) (fun _ _ h => h)

/-! ### `MSGLEN` (R15) -/

theorem msgInv_of_eq {s t : State} (hc : t.cfg = s.cfg) (hm : t.msglen = s.msglen) (h : s.MsgInv) : t.MsgInv := by
  unfold State.MsgInv at *
  rwa [hc, hm]

/-- A reset empties the message and leaves `MSG_MAX` (R30, R31). -/
theorem resetCore_msgInv {s : State} (h : s.MsgInv) : s.resetCore.MsgInv :=
  ⟨Nat.zero_le _, by rw [resetCore_cfg]; exact h.2⟩

/-- Settles O25: only an atomic update writes `MSGLEN`, and `MSGPUT`'s stops at `MSG_MAX`. -/
theorem stepKeepsMsgInv : Obligations.StepKeepsMsgInv := fun _ _ =>
  step_keeps_of_updates (fun s h => msgInv_of_eq (begun_cfg s) (begun_msglen s) h) (fun _ _ h => h)
    (fun _ h => resetCore_msgInv h) (fun _ _ _ h => h) (fun _ _ h => h) (fun _ _ _ ha h => ha.msgInv h)
    (fun op s h => msgInv_of_eq (runOp_sameCore op s).cfg (runOp_sameCore op s).msglen h)
    (fun s e h => msgInv_of_eq (raise_cfg s e) (raise_msglen s e) h) (fun _ _ h => h)

/-! ### The cursor (R16, R17) -/

/-- The cursor is in its range, whatever is left to do. -/
def State.CursorInRange (s : State) : Prop := s.schr.toNat ≤ 256 ∧ s.scol.toNat ≤ 5

theorem cursorInv_iff {s : State} : s.CursorInv ↔ s.CursorInRange ∧ ∀ op ∈ s.todo, op.CursorOk := and_assoc.symm

theorem cursorInv_of_ready {s : State} (hr : s.Ready) (h : s.CursorInRange) : s.CursorInv := by
  refine cursorInv_iff.mpr ⟨h, ?_⟩
  rw [hr.2.2]
  nofun

theorem cursorInRange_of_eq {s t : State} (hr : t.schr = s.schr) (hl : t.scol = s.scol) (h : s.CursorInRange) :
    t.CursorInRange := by
  unfold State.CursorInRange at *
  rwa [hr, hl]

theorem runOp_cursorInRange {op : Op} (ho : op.CursorOk) {s : State} (h : s.CursorInRange) :
    (runOp op s).state.CursorInRange := by
  have still : op.movesAnimator = false → (runOp op s).state.CursorInRange := fun hm =>
    cursorInRange_of_eq (runOp_animator hm s).1 (runOp_animator hm s).2.1 h
  cases op with
  | setAState a => exact h
  | setSchr k =>
    refine ⟨?_, h.2⟩
    have hk : k ≤ 256 := ho
    show (BitVec.ofNat 9 k).toNat ≤ 256
    rw [BitVec.toNat_ofNat]
    omega
  | setScol c =>
    refine ⟨h.1, ?_⟩
    have hc : c ≤ 5 := ho
    show (BitVec.ofNat 3 c).toNat ≤ 5
    rw [BitVec.toNat_ofNat]
    omega
  | checkCancel => simp only [runOp, checkCancel]; split <;> exact h
  | _ => exact still rfl

/-- Statements that keep the ranges, on a cursor in its range, end or wait so. -/
theorem run_cursorInv {ops : List Op} (ho : ∀ op ∈ ops, op.CursorOk) {s : State} (h : s.CursorInRange) :
    (run ops s).CursorInv := by
  refine run_ends (P := State.CursorInRange) (fun op hm _ => runOp_cursorInRange (ho op hm)) (fun a => cursorInv_of_ready (ready_finish a)) ?_ ?_ h
  · intro op _ a b e _ h
    exact cursorInv_of_ready (raised e b).ready (cursorInRange_of_eq (raise_schr b e) (raise_scol b e) h)
  · intro pre op post a b r hops hb h
    obtain ⟨-, hr, -⟩ := wait_resume hb
    refine cursorInv_iff.mpr ⟨h, fun o hm => ?_⟩
    rcases List.mem_cons.mp hm with rfl | hm
    exacts [hr, ho o (by simp [hops, hm])]

theorem exec_cursorInv {i : Instr} {s t : State} (h : s.CursorInRange) (ht : exec i s = .next t) : t.CursorInv := by
  rcases exec_next ht with ⟨f, ha, rfl⟩ | ⟨ops, pb, hp, -, rfl⟩
  · exact cursorInv_of_ready (ready_finish _) (cursorInRange_of_eq (s := s.accept i) (ha _).schr (ha _).scol h)
  · exact run_cursorInv (fun op hm => (hp op hm).cursorOk) h

/-- Settles O24: the cursor statements of a command stay in the ranges, and so does what is left of them at a wait. -/
theorem stepKeepsCursorInv : Obligations.StepKeepsCursorInv := by
  intro s t h hs
  refine step_keeps (Inv := State.CursorInv) ?_ (fun _ _ h => h) (fun _ _ => ⟨Nat.zero_le _, Nat.zero_le _, nofun⟩) ?_ ?_ ?_ h hs
  · intro s h
    unfold State.CursorInv at h ⊢
    simpa using h
  · intro s h _
    obtain ⟨hrange, hops⟩ := cursorInv_iff.mp h
    exact run_cursorInv hops hrange
  · intro i s t h _ ht
    exact exec_cursorInv (cursorInv_iff.mp h).1 ht
  · intro s h _
    exact cursorInv_of_ready (raised .illCmd _).ready
      (cursorInRange_of_eq (raise_schr _ _) (raise_scol _ _) (cursorInv_iff.mp h).1)

/-! ### Reset (R31) and the read port (R10, R11) -/

/-- Settles O9: each register and output is read off the reset state, and `GL` has no lit cell. -/
theorem resetValues : Obligations.ResetValues :=
  ⟨by decide, rfl, rfl, rfl, rfl, rfl, rfl, rfl, reset_glAt, rfl, rfl, rfl, rfl, rfl, rfl⟩

/-- Settles O27: at reset nothing is held, waits or is known of the device, and the registers the invariants bound are 0. -/
theorem resetMeetsTheInvariants : Obligations.ResetMeetsTheInvariants := by
  refine ⟨heldInv_of_ready ⟨rfl, rfl, rfl⟩ rfl, glyphInv_reset, ⟨rfl, nofun⟩, ⟨by decide, by decide, nofun⟩,
    ⟨by decide, by decide⟩, fun _ => ⟨rfl, rfl⟩, ?_⟩
  rw [if_neg (show ¬ State.reset.scrolling = true by decide)]
  exact ⟨fun h => h.elim nofun nofun, fun _ h => nomatch h⟩

/-- The fields of `STATUS` at their bits (R11): each of the 256 words is checked. -/
theorem word_bits (st : Status) :
    st.word.getLsbD 0 = st.busy ∧ st.word.extractLsb' 1 2 = st.astate.code ∧ st.word.getLsbD 3 = st.fonterr ∧
    st.word.getLsbD 4 = st.deverr ∧ st.word.getLsbD 5 = st.illcmd ∧ st.word.getLsbD 6 = st.cancelled ∧
    st.word.getLsbD 7 = st.nodev := by
  obtain ⟨busy, astate, fonterr, deverr, illcmd, cancelled, nodev⟩ := st
  cases astate <;> (revert busy fonterr deverr illcmd cancelled nodev; decide)

/-- The addresses 7 to 15 read as 0 (R10). -/
theorem readReg_of_le (s : State) {a : BitVec 4} (h : 7 ≤ a.toNat) : s.readReg a = 0 := by
  unfold State.readReg
  split <;> first | omega | rfl

/-- Settles O20: a narrower register keeps its value when it is zero-extended, and the fields of `STATUS` are its bits. -/
theorem readPortShowsRegisters : Obligations.ReadPortShowsRegisters := by
  intro s
  have extended : ∀ {w : Nat} (v : BitVec w), w ≤ 16 → (v.setWidth 16).toNat = v.toNat := fun v h =>
    BitVec.toNat_setWidth_of_le h
  obtain ⟨hbusy, hastate, hfonterr, hdeverr, hillcmd, hcancelled, hnodev⟩ := word_bits s.status
  refine ⟨extended _ (by decide), rfl, rfl, rfl, extended _ (by decide), extended _ (by decide), extended _ (by decide),
    fun _ => readReg_of_le s, hbusy, ?_, hfonterr, hdeverr, hillcmd, hcancelled, hnodev⟩
  rw [hastate]
  cases s.status.astate <;> rfl

end Sys2Proof.Machine
end

section
/-! PROOFS. The device's bytes stay canonical, and a write has one of its two shapes (R40, R47). -/

namespace Sys2Proof.Machine

/-! ### What keeps the device list canonical -/

/-- A write of either shape lies inside the 128 bytes (R40, R47). -/
theorem writeShape_le {off n : Nat} (h : writeShape off n) : off + n ≤ devBytes := by
  rcases h with ⟨rfl, rfl⟩ | ⟨cell, hc, rfl, rfl⟩
  · exact Nat.le_refl _
  · show 2 * cell + 2 ≤ 128
    omega

theorem spoil_wf {s : State} {off n : Nat} (ho : writeShape off n) (h : Memory.wf s.dev = true) :
    Memory.wf (s.spoil off n).dev = true :=
  wf_writeBytes h (by simpa using writeShape_le ho)

/-- Every update inside a flush of either shape keeps the device list canonical. -/
theorem wf_kept {off n : Nat} (ho : writeShape off n) : KeptByFlush off n fun s => Memory.wf s.dev = true :=
  ⟨fun _ h => h, fun _ h => h, fun _ h => wf_merge h, fun _ h => wf_merge h, fun _ _ h => h, fun _ h => spoil_wf ho h,
    fun _ _ hn h => wf_writeBytes h (by rw [hn]; exact writeShape_le ho)⟩

theorem begun_wf {s : State} (h : Memory.wf s.dev = true) : Memory.wf s.begun.dev = true := by
  rw [begun_dev]
  split
  exacts [h, wf_merge h]

/-- A statement that writes in a shape of R47 keeps the device list canonical. -/
theorem runOp_wf {op : Op} (ho : op.ShapeOk) {s : State} (h : Memory.wf s.dev = true) :
    Memory.wf (runOp op s).state.dev = true := by
  have still : op.usesDevice = false → Memory.wf (runOp op s).state.dev = true := fun hd => by
    rwa [(runOp_device hd s).1]
  cases op with
  | flush off n =>
    simp only [runOp, flushStart]
    split
    exacts [(wf_kept ho).flushGrant (s := s.sampledPresent) h, h]
  | flushGrant off n => exact (wf_kept ho).flushGrant h
  | flushHold off n | flushWrite off n => exact (wf_kept ho).flushWrite s h
  | flushRelease ok =>
    simp only [runOp, flushRelease_state]
    exact wf_merge h
  | flushEnd ok =>
    simp only [runOp, flushEnd_state]
    exact h
  | _ => exact still rfl

/-! ### The invariant through a command and a step -/

theorem Op.PartOf.shapeOk {op : Op} {i : Instr} (h : op.PartOf i) : op.ShapeOk := by
  obtain ⟨-, -, -, -, -, hs, -⟩ := h
  exact hs

theorem deviceInv_of_ready {s : State} (hr : s.Ready) (h : Memory.wf s.dev = true) : s.DeviceInv := by
  obtain ⟨-, -, htodo⟩ := hr
  refine ⟨h, ?_⟩
  rw [htodo]
  nofun

/-- Statements that write in a shape of R47 end, or wait, with the device list canonical and such statements left. -/
theorem run_deviceInv {ops : List Op} (ho : ∀ op ∈ ops, op.ShapeOk) {s : State} (h : Memory.wf s.dev = true) :
    (run ops s).DeviceInv := by
  refine run_ends (P := fun s => Memory.wf s.dev = true) (fun op hm _ => runOp_wf (ho op hm))
    (fun a => deviceInv_of_ready (ready_finish a)) ?_ ?_ h
  · intro op _ a b e _ h
    exact deviceInv_of_ready (raised e b).ready (by rwa [raise_dev])
  · intro pre op post a b r hops hb h
    obtain ⟨-, -, hr⟩ := wait_resume hb
    refine ⟨h, fun o hm => ?_⟩
    rcases List.mem_cons.mp hm with rfl | hm
    exacts [hr (ho op (by simp [hops])), ho o (by simp [hops, hm])]

theorem exec_deviceInv {i : Instr} {s t : State} (h : Memory.wf s.dev = true) (ht : exec i s = .next t) : t.DeviceInv := by
  rcases exec_next ht with ⟨f, ha, rfl⟩ | ⟨ops, pb, hp, -, rfl⟩
  · refine deviceInv_of_ready (ready_finish _) ?_
    rwa [finish_dev, (ha _).dev]
  · exact run_deviceInv (fun op hm => (hp op hm).shapeOk) h

/-- A reset abandons a write in progress, which has a shape of R47, and has nothing left to do (R222). -/
theorem resetCore_deviceInv {s : State} (h : s.DeviceInv) : s.resetCore.DeviceInv := by
  obtain ⟨hwf, hops⟩ := h
  have habandon : Memory.wf s.abandonWrite.dev = true := by
    unfold State.abandonWrite
    split
    · rename_i off n rest htodo
      split
      · exact spoil_wf (hops (.flushWrite off n) (by simp [htodo])) hwf
      · exact hwf
    · exact hwf
  exact deviceInv_of_ready ⟨rfl, rfl, rfl⟩ habandon

/-- Settles O23: a write of either shape lies inside the 128 bytes and keeps the device list canonical, as does what others
write; and a statement that waits goes on from one of the same shape. -/
theorem stepKeepsDeviceInv : Obligations.StepKeepsDeviceInv := by
  intro s t h hs
  refine step_keeps (Inv := State.DeviceInv) ?_ (fun _ _ h => h) (fun _ h => resetCore_deviceInv h) ?_ ?_ ?_ h hs
  · rintro s ⟨hwf, hops⟩
    exact ⟨begun_wf hwf, by rwa [begun_todo]⟩
  · rintro s ⟨hwf, hops⟩ _
    exact run_deviceInv hops hwf
  · rintro i s t ⟨hwf, -⟩ _ ht
    exact exec_deviceInv hwf ht
  · rintro s ⟨hwf, -⟩ _
    refine deviceInv_of_ready (raised .illCmd _).ready ?_
    rwa [State.acceptIllegal, raise_dev]

end Sys2Proof.Machine
end

section
/-! PROOFS. A flush whose request or write fails (R44, R45, R135, R141), and what the commands that make one flush leave of
it. -/

namespace Sys2Proof.Machine

/-! ### A flush, answer by answer -/

/-- A device request that was granted, with no clock edge after it. -/
def State.granted (s : State) : State := (s.sampledPresent.sampledAcquire.takeDevice.log (.acquire true)).sampledEdge

/-- A flush whose device request failed. -/
def State.requestFailed (s : State) : State := (s.sampledPresent.sampledAcquire.log (.acquire false)).sampledEdge

/-- A flush whose device write failed: the device is released all the same (R135). -/
def State.writeFailed (s : State) (off n : Nat) : State :=
  ((s.granted.sampledWrite.spoil off n).log (.write off (pbBytes s.pb off n) false)).sampledEdge.releaseDevice.sampledEdge

variable {s : State}

theorem flush_granted (he : s.NoEdge) (hp : s.plat.present.now = true) (ha : s.plat.acquire.now = .ok) (off n : Nat) :
    runOp (.flush off n) s = flushWrite off n s.granted := by
  have ha' : s.sampledPresent.plat.acquire.now = .ok := ha
  simp only [runOp, flushStart, hp, if_true, flushGrant, ha']
  exact atEdge_go (s := s.sampledPresent.sampledAcquire.takeDevice.log (.acquire true)) he _ _

theorem State.NoEdge.sampledEdge (h : s.NoEdge) : s.sampledEdge.NoEdge := Script.All.later h

theorem flushRelease_go (he : s.NoEdge) (ok : Bool) : flushRelease ok s = flushEnd ok s.releaseDevice.sampledEdge :=
  atEdge_go (s := s.releaseDevice) he _ _

/-- A flush whose next two answers are good is done, whatever the answers after them. -/
theorem flush_done_of_now (he : s.NoEdge) (hp : s.plat.present.now = true) (ha : s.plat.acquire.now = .ok)
    (hw : s.plat.write.now = .ok) (off n : Nat) : runOp (.flush off n) s = .done (s.flushed off n) := by
  have hw' : s.granted.plat.write.now = .ok := hw
  have he' : ((s.granted.sampledWrite.writeDevice off (pbBytes s.pb off n)).log
      (.write off (pbBytes s.pb off n) true)).NoEdge := he.sampledEdge
  rw [flush_granted he hp ha]
  simp only [flushWrite, hw']
  exact (atEdge_go he' _ _).trans (flushRelease_go he'.sampledEdge true)

theorem flush_requestFailed (he : s.NoEdge) (hp : s.plat.present.now = true) (ha : s.plat.acquire.now = .failed)
    (off n : Nat) : runOp (.flush off n) s = .raise .devErr s.requestFailed := by
  have ha' : s.sampledPresent.plat.acquire.now = .failed := ha
  simp only [runOp, flushStart, hp, if_true, flushGrant, ha']
  exact atEdge_go (s := s.sampledPresent.sampledAcquire.log (.acquire false)) he _ _

theorem flush_writeFailed (he : s.NoEdge) (hp : s.plat.present.now = true) (ha : s.plat.acquire.now = .ok)
    (hw : s.plat.write.now = .failed) (off n : Nat) :
    runOp (.flush off n) s = .raise .devErr (s.writeFailed off n) := by
  have hw' : s.granted.plat.write.now = .failed := hw
  have he' : ((s.granted.sampledWrite.spoil off n).log (.write off (pbBytes s.pb off n) false)).NoEdge := he.sampledEdge
  rw [flush_granted he hp ha]
  simp only [flushWrite, hw']
  exact (atEdge_go he' _ _).trans (flushRelease_go he'.sampledEdge false)

/-- What a flush has left of `s` when it performs `raise DevErr`: of a failed request nothing was held and nothing written; after
a failed write the device is released, and the bytes outside the range that others leave alone are as they were. -/
structure FailedFlush (s : State) (off n : Nat) (u : State) : Prop where
  status : u.status = { s.status with nodev := false }
  only : s.OnlyTransacts u
  request : s.plat.acquire.now = .failed → u.held = s.held ∧ u.trace = s.trace ++ [.acquire false] ∧
    ∀ a, s.Untouched a → u.devAt a = s.devAt a
  write : s.plat.acquire.now = .ok → u.held = false ∧
    (∀ a, s.Untouched a → a < off ∨ off + n ≤ a → u.devAt a = s.devAt a) ∧
    u.trace = s.trace ++ [.acquire true, .write off (pbBytes s.pb off n) false, .release]

theorem flush_onlyTransacts (off n : Nat) (s : State) : s.OnlyTransacts (runOp (.flush off n) s).state := by
  obtain ⟨_, _, _, _, _, _, _, _, _, _, e⟩ := flushStart_shape off n s
  unfold State.OnlyTransacts
  rw [runOp, e]

theorem flush_status (off n : Nat) (s : State) :
    (runOp (.flush off n) s).state.status = { s.status with nodev := !s.plat.present.now } := by
  rw [← (flush_nodev off n s).2]
  exact congrArg State.status (flush_onlyTransacts off n s)

/-- A flush that finds a device and is answered with a failure raises `DevErr` (R141). -/
theorem flush_fails (h : s.DeviceFails) (off n : Nat) :
    ∃ u, runOp (.flush off n) s = .raise .devErr u ∧ FailedFlush s off n u := by
  obtain ⟨he, hp, hanswers⟩ := h
  have hstatus := flush_status off n s
  have honly := flush_onlyTransacts off n s
  have hdev : ∀ a, s.Untouched a → a < off ∨ off + n ≤ a → _ := fun a hu ho => runOp_devAt (.flush off n) (s := s) ho hu
  rw [hp] at hstatus
  rcases hanswers with ha | ⟨ha, hw⟩
  · have hrun := flush_requestFailed he hp ha off n
    rw [hrun] at hstatus honly
    exact ⟨_, hrun, hstatus, honly, fun _ => ⟨rfl, rfl, fun _ _ => rfl⟩, fun hok => (by rw [ha] at hok; cases hok)⟩
  · have hrun := flush_writeFailed he hp ha hw off n
    rw [hrun] at hstatus honly hdev
    refine ⟨_, hrun, hstatus, honly, fun hfailed => (by rw [ha] at hfailed; cases hfailed), fun _ => ⟨rfl, hdev, ?_⟩⟩
    show ((s.trace ++ [_]) ++ [_]) ++ [_] = _
    simp

/-! ### A command that makes one flush -/

/-- An abort event of a command that is no `SCROLL` (R196). -/
theorem raise_of_not_scrolling (h : s.scrolling = false) (e : Abort) :
    s.raise e = (s.withStatus (s.status.raiseFlag e)).finish := by
  have hs : ¬ (s.withStatus (s.status.raiseFlag e)).scrolling = true := Bool.not_eq_true _ ▸ h
  exact congrArg State.finish (if_neg hs)

theorem scrolling_of_cmd {i : Instr} (hc : s.cmd = some i) : s.scrolling = isScroll i := by
  unfold State.scrolling
  rw [hc]
  cases i <;> rfl

/-- A command of a ready core that is no `SCROLL` and comes to a flush that fails, with at most the locals of a lookup moved
since. -/
theorem flushFailed_of_run (hr : s.Ready) (hd : s.DeviceFails) {i : Instr} (hi : isScroll i = false) (off n : Nat)
    (rest : List Op) (x : Nat) (g : Vector Bool 64) (f : Script Answer) :
    s.FlushFailed off n (run (.flush off n :: rest)
      { s.accept i with fontIdx := x, glyph := g, plat := { s.plat with font := f } }) := by
  obtain ⟨hbusy, hcmd, htodo⟩ := hr
  obtain ⟨u, hrun, hstatus, honly, hrequest, hwrite⟩ := flush_fails
    (s := { s.accept i with fontIdx := x, glyph := g, plat := { s.plat with font := f } }) hd off n
  have hcmd' : u.cmd = some i := by rw [honly]; rfl
  have hraise := raise_of_not_scrolling ((scrolling_of_cmd hcmd').trans hi) .devErr
  rw [run_raise hrun, hraise, hstatus]
  refine ⟨?_, ?_, hrequest, hwrite⟩
  · show ({ s.status with busy := false, nodev := false, deverr := true } : Status) =
      { s.status with nodev := false, deverr := true }
    rw [← hbusy]
  · refine (congrArg (fun v : State => (v.withStatus _).finish) honly).trans ?_
    simp only [State.finish, State.withStatus, State.accept, hcmd, htodo]

theorem cellIndex_eq {b : Byte} (h : b.toNat ≤ 63) : cellIndex b = some b.toNat := if_pos h

theorem coords_eq {x y : BitVec 4} (hx : x.toNat ≤ 7) (hy : y.toNat ≤ 7) : coords x y = some (x.toNat, y.toNat) :=
  if_pos ⟨hx, hy⟩

theorem execFlush_fails (hr : s.Ready) (hd : s.DeviceFails) :
    ∃ t, exec .flush s = .next t ∧ s.FlushFailed 0 128 t :=
  ⟨_, rfl, flushFailed_of_run hr hd (i := .flush) rfl 0 128 [] _ _ _⟩

theorem execFlush1_fails {cell : Byte} (hr : s.Ready) (hd : s.DeviceFails) (hc : cell.toNat ≤ 63) :
    ∃ t, exec (.flush1 cell) s = .next t ∧ s.FlushFailed (2 * cell.toNat) 2 t := by
  simp only [exec, execFlush1, cellIndex_eq hc]
  exact ⟨_, rfl, flushFailed_of_run hr hd (i := .flush1 cell) rfl _ 2 [] _ _ _⟩

theorem execSetpix_fails {x y : BitVec 4} (o : Orient) (v : Half) (hr : s.Ready) (hd : s.DeviceFails) (hx : x.toNat ≤ 7)
    (hy : y.toNat ≤ 7) :
    ∃ t, exec (.setpix o x y v) s = .next t ∧
      (s.setPb (pixelOffset x.toNat y.toNat o) v).FlushFailed (2 * pixelOffset x.toNat y.toNat o) 2 t := by
  simp only [exec, execSetpix, coords_eq hx hy]
  exact ⟨_, rfl, flushFailed_of_run (s := s.setPb _ v) hr hd (i := .setpix o x y v) rfl _ 2 [] _ _ _⟩

/-- The state of a `STATIC` in front of its flush, but for the locals of the lookup (R155). -/
def State.staticPainted (s : State) (o : Orient) : State :=
  let gl := fontGlyph s.cfg.litByte s.cfg.font (glyphIndex s.cfg.alphabet (s.msgAt 0))
  { s with
    gl := gl
    pb := paintCells s.cfg.g270 s.fg s.bg gl o
    trace := s.trace ++ lookupReads s.cfg.alphabet (s.msgAt 0) }

theorem execStatic_fails (o : Orient) (hr : s.Ready) (hfont : s.FontAnswers) (hd : s.DeviceFails) (hl : s.msglen.toNat = 1) :
    ∃ t, exec (.static o) s = .next t ∧ (s.staticPainted o).FlushFailed 0 128 t := by
  obtain ⟨x, g, f, -, hlook⟩ := lookedUp_shape (s.accept (.static o)) (s.msgAt 0) hfont.1
  have hdone : runOp (.lookup (s.msgAt 0)) (s.accept (.static o)) = .done _ :=
    lookupChar_done (s := s.accept (.static o)) hfont _
  refine ⟨_, if_pos hl, ?_⟩
  rw [staticOps, run_done hdone, hlook, run_done rfl]
  exact flushFailed_of_run (s := s.staticPainted o) hr hd (i := .static o) rfl 0 128 [] x g f

variable {t : State} {off n : Nat}

theorem State.FlushFailed.pb (h : s.FlushFailed off n t) : t.pb = s.pb := by
  obtain ⟨-, honly, -⟩ := h
  rw [honly]

theorem State.FlushFailed.gl (h : s.FlushFailed off n t) : t.gl = s.gl := by
  obtain ⟨-, honly, -⟩ := h
  rw [honly]

theorem State.FlushFailed.cfg (h : s.FlushFailed off n t) : t.cfg = s.cfg := by
  obtain ⟨-, honly, -⟩ := h
  rw [honly]

/-- Cell by cell, what `SETPIX` makes of the buffer (R138). -/
theorem setPb_pbAt {p : Nat} (hp : p < 64) (v : Half) (i : Nat) :
    (s.setPb p v).pbAt i = if i = p then v else s.pbAt i := by
  unfold State.pbAt
  rw [State.setPb, withPb_pb]
  split
  · subst_vars
    exact cellAt_setCell_self _ _ hp
  · exact cellAt_setCell_ne _ _ ‹_›

/-- Cell by cell, what `STATIC` paints (R154, R155). -/
theorem staticPainted_pbAt (o : Orient) {i : Nat} (hi : i < 64) :
    (s.staticPainted o).pbAt i =
      match glyphOffset s.cfg.g270 i o with
      | none => s.bg
      | some g => if (s.staticPainted o).glAt g then s.fg else s.bg := by
  refine (cellAt_tabulate _ hi).trans ?_
  cases glyphOffset s.cfg.g270 i o <;> rfl

end Sys2Proof.Machine
end

section
/-! PROOFS. A `SCROLL` up to one of its flushes (R156, R161). -/

namespace Sys2Proof.Machine

/-! ### The answers to device requests and writes -/

/-- `s` before a platform that gives these answers to its device requests and writes. -/
def State.answering (s : State) (a w : Script Answer) : State :=
  { s with plat := { s.plat with acquire := a, write := w } }

/-- The input after `k` samples. -/
def Script.skip {α : Type} (sc : Script α) (k : Nat) : Script α := Script.later^[k] sc

theorem Script.skip_succ {α : Type} (sc : Script α) (k : Nat) : sc.skip (k + 1) = sc.later.skip k := rfl

theorem Script.now_skip {α : Type} (sc : Script α) (k : Nat) : (sc.skip k).now = sc.nth k := by
  induction k generalizing sc with
  | zero => exact (sc.nth_zero).symm
  | succ k ih => rw [Script.skip_succ, ih, Script.nth_later]

/-- The same outcome, its state changed. -/
def OpResult.map (f : State → State) : OpResult → OpResult
  | .done s => .done (f s)
  | .raise e s => .raise e (f s)
  | .wait s r => .wait (f s) r

theorem readChunks_answering (a w : Script Answer) (rows : List Nat) (s : State) :
    readChunks rows (s.answering a w) = (readChunks rows s).map (·.answering a w) := by
  induction rows generalizing s with
  | nil => rfl
  | cons row rows ih =>
    have hnow : (s.answering a w).plat.font.now = s.plat.font.now := rfl
    have hfails : (s.answering a w).fontFails (chunkAddr (s.answering a w).fontIdx row) =
      s.fontFails (chunkAddr s.fontIdx row) := rfl
    simp only [readChunks, hnow, hfails]
    split
    · rfl
    · split
      · rfl
      · exact ih (s.readChunk row)

theorem paceWait_answering (a w : Script Answer) (s : State) :
    paceWait (s.answering a w) = (paceWait s).map (·.answering a w) := by
  unfold paceWait
  rw [apply_ite (OpResult.map _)]
  rfl

/-- A statement that does not reach the device does not look at the answers it would get there. -/
theorem runOp_answering {op : Op} (h : op.usesDevice = false) (a w : Script Answer) (s : State) :
    runOp op (s.answering a w) = (runOp op s).map (·.answering a w) := by
  cases op <;> first | (cases h; done) | skip
  case lookup ch => exact readChunks_answering a w _ (s.beginLookup ch)
  case lookupMsg =>
    simp only [runOp]
    rw [apply_ite (OpResult.map _)]
    exact ite_congr rfl (fun _ => readChunks_answering a w _ (s.beginLookup _)) fun _ => rfl
  case fontRow row => exact readChunks_answering a w _ s
  case pace => exact paceWait_answering a w s.startPace
  case paceWait => exact paceWait_answering a w s
  case checkCancel =>
    simp only [runOp, checkCancel]
    rw [apply_ite (OpResult.map _)]
    rfl
  all_goals rfl

theorem not_usesDevice {op : Op} (hr : op.isResume = false) (hf : op.beginsFlush = false) : op.usesDevice = false := by
  cases op <;> first | rfl | (cases hr; done) | cases hf

/-- On a platform that is calm but for the device's answers, the statements `ops` are done if the requests and the writes of
their flushes are answered with success, whatever the answers after them; each flush takes one answer of each kind. -/
theorem calm_run_answering {ops : List Op} (hops : ∀ op ∈ ops, op.isResume = false) (rest : List Op) {s : State} (h : s.Calm)
    (hp : s.plat.present.All (· = true)) {a w : Script Answer} (ha : ∀ j < ops.countP Op.beginsFlush, a.nth j = .ok)
    (hw : ∀ j < ops.countP Op.beginsFlush, w.nth j = .ok) :
    run (ops ++ rest) (s.answering a w) = run rest
      ((after ops s).answering (a.skip (ops.countP Op.beginsFlush)) (w.skip (ops.countP Op.beginsFlush))) := by
  induction ops generalizing s a w with
  | nil => rfl
  | cons op ops ih =>
    have hops' : ∀ op ∈ ops, op.isResume = false := fun o ho => hops o (List.mem_cons_of_mem _ ho)
    have hop := hops op List.mem_cons_self
    obtain ⟨hdone, hcalm⟩ := calm_op hop h
    rw [List.cons_append, after_cons]
    rw [List.countP_cons] at ha hw ⊢
    cases hf : op.beginsFlush with
    | true =>
      obtain ⟨off, n, rfl⟩ := beginsFlush_of hf
      simp only [hf, if_true] at ha hw ⊢
      have ha0 : a.now = .ok := a.nth_zero ▸ ha 0 (Nat.succ_pos _)
      have hw0 : w.now = .ok := w.nth_zero ▸ hw 0 (Nat.succ_pos _)
      have hflush : runOp (.flush off n) (s.answering a w) = .done ((s.flushed off n).answering a.later w.later) :=
        flush_done_of_now (s := s.answering a w) h.2.1.2.2 hp.now ha0 hw0 off n
      rw [flush_done h.2.1 hp.now] at hcalm ⊢
      rw [run_done hflush]
      exact ih hops' hcalm hp.later (fun j hj => a.nth_later j ▸ ha (j + 1) (Nat.succ_lt_succ hj))
        (fun j hj => w.nth_later j ▸ hw (j + 1) (Nat.succ_lt_succ hj))
    | false =>
      simp only [hf, Bool.false_eq_true, if_false, Nat.add_zero] at ha hw ⊢
      have hrun := runOp_answering (not_usesDevice hop hf) a w s
      have hpresent : (runOp op s).state.plat.present = s.plat.present :=
        (runOp_nodev (by rintro off n rfl; cases hf) s).1
      rw [hdone] at hrun
      rw [run_done hrun]
      exact ih hops' hcalm (by rwa [hpresent]) ha hw

/-! ### The statements in front of a flush of a `SCROLL` -/

/-- The statements of a character in front of its first step (R156, R160). -/
def charStart (k : Nat) : List Op := [.setSchr k, .lookupMsg, .setBlank]

/-- The statements of an animation in front of column `c` of its character `k` (R156, R161). -/
def animationUpTo (o : Orient) (k c : Nat) : List Op :=
  (List.range k).flatMap (charOps o) ++ (charStart k ++ (List.range c).flatMap (stepOps o))

/-- The statements of a `SCROLL` in front of its flush number `m` (0 is the initial one): flush number `j + 1` shows column
`j % 6` of character `j / 6` (R156, R161). -/
def scrollUpTo (o : Orient) : Nat → List Op
  | 0 => [.setAState .painting, .setSchr 0, .setScol 0, .fillBg]
  | j + 1 => scrollStart ++ (animationUpTo o (j / 6) (j % 6) ++ [.setScol (j % 6), .shift o, .insert o])

theorem range_split {k n : Nat} (h : k < n) : ∃ l, List.range n = List.range k ++ k :: l := by
  obtain ⟨d, rfl⟩ := Nat.exists_eq_add_of_lt h
  exact ⟨_, by rw [Nat.add_assoc, List.range_add, List.range_succ_eq_map]; rfl⟩

/-- A `SCROLL` of `len` characters has `1 + 6*(len + 2)` flushes, and `scrollUpTo` is what stands in front of each. -/
theorem scrollOps_split (o : Orient) {len m : Nat} (h : m ≤ 6 * (len + 2)) :
    ∃ post, scrollOps o len = scrollUpTo o m ++ fullFlush :: post := by
  cases m with
  | zero => exact ⟨_, rfl⟩
  | succ j =>
    obtain ⟨ks, hks⟩ := range_split (k := j / 6) (n := len + 2) (by omega)
    obtain ⟨cs, hcs⟩ := range_split (k := j % 6) (n := 6) (by omega)
    refine ⟨[.pace, .checkCancel] ++ (cs.flatMap (stepOps o) ++ (ks.flatMap (charOps o) ++ [.setAState .done])), ?_⟩
    simp only [scrollOps, trailingChars, colsPerChar, hks, charOps, hcs, List.flatMap_append, List.flatMap_cons, stepOps,
      scrollUpTo, animationUpTo, charStart, List.append_assoc, List.cons_append, List.nil_append]

theorem flushes_steps (o : Orient) (cs : List Nat) : (cs.flatMap (stepOps o)).countP Op.beginsFlush = cs.length := by
  induction cs with
  | nil => rfl
  | cons c cs ih =>
    rw [List.flatMap_cons, List.countP_append, ih, show (stepOps o c).countP Op.beginsFlush = 1 from rfl, List.length_cons,
      Nat.add_comm]

theorem flushes_scrollUpTo (o : Orient) (m : Nat) : (scrollUpTo o m).countP Op.beginsFlush = m := by
  cases m with
  | zero => rfl
  | succ j =>
    simp only [scrollUpTo, animationUpTo, List.countP_append, flushes_chars, flushes_steps, List.length_range]
    rw [show scrollStart.countP Op.beginsFlush = 1 from rfl, show (charStart (j / 6)).countP Op.beginsFlush = 0 from rfl,
      show [Op.setScol (j % 6), .shift o, .insert o].countP Op.beginsFlush = 0 from rfl]
    omega

end Sys2Proof.Machine
end

section
/-! PROOFS. What a `SCROLL` has done when it comes to one of its flushes (R156, R161). -/

namespace Sys2Proof.Machine

variable {o : Orient} {s t u : State}

/-! ### The steps of an animation, in order -/

theorem length_scrollSteps (gs : List (Option (Vector Bool 64))) : (scrollSteps gs).length = 6 * gs.length := by
  simp [scrollSteps, Nat.mul_comm]

/-- The steps in front of column `c` of character `k`. -/
theorem take_scrollSteps {gs : List (Option (Vector Bool 64))} {g : Option (Vector Bool 64)} {k c : Nat} (hg : gs[k]? = some g)
    (hc : c ≤ 6) : (scrollSteps gs).take (6 * k + c) = scrollSteps (gs.take k) ++ (List.range c).map (g, ·) := by
  obtain ⟨hk, hgk⟩ := List.getElem?_eq_some_iff.mp hg
  have hsplit : scrollSteps gs = scrollSteps (gs.take k) ++ ((List.range 6).map (g, ·) ++ scrollSteps (gs.drop (k + 1))) := by
    conv => lhs; rw [← List.take_append_drop k gs, List.drop_eq_getElem_cons hk, hgk]
    simp [scrollSteps]
  have hlen : (scrollSteps (gs.take k)).length = 6 * k := by
    rw [length_scrollSteps, List.length_take, Nat.min_eq_left (Nat.le_of_lt hk)]
  rw [hsplit, List.take_append, hlen, List.take_of_length_le (by omega), Nat.add_sub_cancel_left,
    List.take_append_of_le_length (by simpa using hc), ← List.map_take, List.take_range, Nat.min_eq_left hc]

theorem take_framesFrom (o : Orient) (fg bg : Half) (steps : List (Option (Vector Bool 64) × Nat)) (pb : Vector Half 64)
    (j : Nat) : (framesFrom o fg bg steps pb).take j = framesFrom o fg bg (steps.take j) pb := by
  induction steps generalizing pb j with
  | nil => simp [framesFrom]
  | cons st steps ih =>
    cases j with
    | zero => rfl
    | succ j => simp only [framesFrom, List.take_succ_cons, ih]

/-- The frame after step number `j` is what the steps up to that one make of the first buffer. -/
theorem getElem?_framesFrom (o : Orient) (fg bg : Half) {steps : List (Option (Vector Bool 64) × Nat)} (pb : Vector Half 64)
    {j : Nat} (hj : j < steps.length) : (framesFrom o fg bg steps pb)[j]? =
      some ((steps.take (j + 1)).foldl (fun pb st => stepFrame o fg bg st.1 st.2 pb) pb) := by
  induction steps generalizing pb j with
  | nil => cases hj
  | cons st steps ih =>
    cases j with
    | zero => rfl
    | succ j =>
      simp only [framesFrom, List.getElem?_cons_succ, List.take_succ_cons, List.foldl_cons]
      exact ih _ (Nat.lt_of_succ_lt_succ hj)

/-! ### Steps whose flushes found a device -/

/-- What the steps `steps` of an animation leave, each of which found a device. -/
structure Played (o : Orient) (steps : List (Option (Vector Bool 64) × Nat)) (s t : State) : Prop where
  calm : t.Calm
  core : SameCore s t
  n : t.n = s.n
  held : s.held = false → t.held = false
  present : t.plat.present.All (· = true)
  pb : t.pb = steps.foldl (fun pb st => stepFrame o s.fg s.bg st.1 st.2 pb) s.pb
  trace : ∃ new, t.trace = s.trace ++ new ∧
    shownFrames new = (framesFrom o s.fg s.bg steps s.pb).map (fun pb => pbBytes pb 0 128) ∧ new.count .pace = steps.length

theorem Played.trans {a b : List (Option (Vector Bool 64) × Nat)} (h : Played o a s t) (k : Played o b t u) :
    Played o (a ++ b) s u := by
  have hpb := k.pb
  obtain ⟨new, htrace, hshown, hpaces⟩ := h.trace
  obtain ⟨new', htrace', hshown', hpaces'⟩ := k.trace
  rw [h.core.fg, h.core.bg, h.pb] at hpb hshown'
  refine ⟨k.calm, h.core.trans k.core, k.n.trans h.n, fun hh => k.held (h.held hh), k.present, ?_, new ++ new', ?_, ?_, ?_⟩
  · rw [hpb, List.foldl_append]
  · rw [htrace', htrace, List.append_assoc]
  · rw [shownFrames_append, hshown, hshown', framesFrom_append, List.map_append]
  · rw [List.count_append, hpaces, hpaces', List.length_append]

theorem Ran.played {steps : List (Option (Vector Bool 64) × Nat)} (h : Ran o steps s t)
    (hp : s.plat.present.All (· = true)) : Played o steps s t := by
  obtain ⟨hpresent, new, htrace, hshown, -, hpaces, -⟩ := h.shown hp
  exact ⟨h.calm, h.core, h.n, h.held, hpresent, h.pb, new, htrace, hshown, hpaces⟩

theorem CharsRan.played {ks : List Nat} (h : CharsRan o ks s t) (hp : s.plat.present.All (· = true)) :
    Played o (scrollSteps (ks.map (glyphOf s))) s t := by
  obtain ⟨hpresent, new, htrace, hshown, -, hpaces, -⟩ := h.shown hp
  exact ⟨h.calm, h.core, h.n, h.held, hpresent, h.pb, new, htrace, hshown,
    by rw [hpaces, length_scrollSteps, List.length_map]⟩

/-! ### The start of a character -/

/-- What the statements of a character in front of its first step leave (R156): its glyph loaded, if it has one. -/
structure CharBegun (k : Nat) (s t : State) : Prop where
  pb : t.pb = s.pb
  schr : t.schr = BitVec.ofNat 9 k
  gl : t.gl = (glyphOf s k).getD s.gl
  shows : Shows (glyphOf s k) t

/-- The lookup of a character of the animation loads its glyph, if it has one, and shows and paces nothing (R156, R159). -/
theorem lookupMsg_shape (h : s.FontAnswers) (hn : s.n = s.msglen) :
    ∃ i g f tr, (runOp .lookupMsg s).state =
        { s with
          fontIdx := i
          glyph := g
          gl := (glyphOf s s.schr.toNat).getD s.gl
          plat := { s.plat with font := f }
          trace := s.trace ++ tr } ∧
      shownFrames tr = [] ∧ tr.count .pace = 0 := by
  unfold glyphOf
  by_cases hlt : s.schr.toNat < s.msglen.toNat
  · obtain ⟨i, g, f, -, hshape⟩ := lookedUp_shape s (s.msgAt s.schr.toNat) h.1
    refine ⟨i, g, f, lookupReads s.cfg.alphabet (s.msgAt s.schr.toNat), ?_, rfl, rfl⟩
    have hdone : runOp .lookupMsg s = .done (s.lookedUp _) := (if_pos (hn ▸ hlt)).trans (lookupChar_done h _)
    rw [hdone, if_pos hlt]
    exact hshape
  · refine ⟨s.fontIdx, s.glyph, s.plat.font, [], ?_, rfl, rfl⟩
    have hdone : runOp .lookupMsg s = .done s := if_neg (hn ▸ hlt)
    rw [hdone, if_neg hlt, List.append_nil]
    rfl

theorem charBegun {k : Nat} (o : Orient) (hk : k < 512) (h : s.Calm) (hn : s.n = s.msglen)
    (hp : s.plat.present.All (· = true)) :
    Played o [] s (after (charStart k) s) ∧ CharBegun k s (after (charStart k) s) := by
  have hschr : (BitVec.ofNat 9 k).toNat = k := by
    rw [BitVec.toNat_ofNat]
    omega
  have hcalm : (after (charStart k) s).Calm := (calm_run (by simp [charStart, Op.isResume]) h).2
  obtain ⟨i, g, f, tr, hshape, hshown, hpaces⟩ := lookupMsg_shape (s := { s with schr := BitVec.ofNat 9 k }) h.1 hn
  have he : after (charStart k) s =
      (runOp .setBlank (runOp .lookupMsg { s with schr := BitVec.ofNat 9 k }).state).state := rfl
  have hglyph : glyphOf { s with schr := BitVec.ofNat 9 k } = glyphOf s := rfl
  rw [hglyph, hschr] at hshape
  rw [he, hshape] at hcalm ⊢
  have hcore : SameCore s { s with
      schr := BitVec.ofNat 9 k, blank := !decide ((BitVec.ofNat 9 k).toNat < s.n.toNat)
      fontIdx := i, glyph := g, gl := (glyphOf s k).getD s.gl
      plat := { s.plat with font := f }, trace := s.trace ++ tr } := by
    constructor <;> intros <;> rfl
  refine ⟨⟨hcalm, hcore, rfl, id, hp, rfl, tr, rfl, hshown, hpaces⟩, rfl, rfl, rfl, ?_⟩
  have hblank : (!decide ((BitVec.ofNat 9 k).toNat < s.n.toNat)) = !decide (k < s.msglen.toNat) := by rw [hschr, hn]
  unfold glyphOf
  by_cases hlt : k < s.msglen.toNat
  · rw [if_pos hlt]
    exact ⟨hblank.trans (by simp [hlt]), rfl⟩
  · rw [if_neg hlt]
    exact hblank.trans (by simp [hlt])

/-! ### The animation up to a step -/

/-- What the glyph latch holds after the lookups of the first `q` characters of a `SCROLL` (R156, R159). -/
def State.scrollLatch (s : State) (q : Nat) : Vector Bool 64 :=
  (List.range q).foldl (fun gl k => (glyphOf s k).getD gl) s.gl

theorem scrollLatch_succ (s : State) (q : Nat) : s.scrollLatch (q + 1) = (glyphOf s q).getD (s.scrollLatch q) := by
  simp only [State.scrollLatch, List.range_succ, List.foldl_append, List.foldl_cons, List.foldl_nil]

/-- The two trailing characters load no glyph (R159). -/
theorem scrollLatch_min (s : State) (q : Nat) : s.scrollLatch q = s.scrollLatch (min q s.msglen.toNat) := by
  induction q with
  | zero => rw [Nat.zero_min]
  | succ q ih =>
    by_cases hq : q < s.msglen.toNat
    · rw [Nat.min_eq_left hq]
    · rw [scrollLatch_succ, glyphOf, if_neg hq, Option.getD_none, ih, Nat.min_eq_right (by omega), Nat.min_eq_right (by omega)]

theorem scrollLatch_core (h : SameCore s t) (hgl : t.gl = s.gl) (q : Nat) : t.scrollLatch q = s.scrollLatch q := by
  simp only [State.scrollLatch, glyphOf_core h, hgl]

theorem scrollGlyphs_core (h : SameCore s t) : t.scrollGlyphs = s.scrollGlyphs := by
  rw [← glyphs_eq, ← glyphs_eq, h.msglen]
  exact List.map_congr_left fun k _ => glyphOf_core h k

theorem getElem?_scrollGlyphs {k : Nat} (h : k < s.msglen.toNat + 2) : s.scrollGlyphs[k]? = some (glyphOf s k) := by
  rw [← glyphs_eq, List.getElem?_map, List.getElem?_range h]
  rfl

theorem take_scrollGlyphs {k : Nat} (h : k ≤ s.msglen.toNat + 2) : s.scrollGlyphs.take k = (List.range k).map (glyphOf s) := by
  rw [← glyphs_eq, ← List.map_take, List.take_range, Nat.min_eq_left h]

/-- What an animation has left when it comes to column `c` of its character `k`: the steps before that, the cursor and the latch
of the character, and the frame that the step will show. -/
structure AtStep (o : Orient) (k c : Nat) (s t : State) : Prop where
  played : Played o ((scrollSteps s.scrollGlyphs).take (6 * k + c)) s t
  schr : t.schr = BitVec.ofNat 9 k
  gl : t.gl = s.scrollLatch (k + 1)
  frame : (t.moved o c).pb =
    ((scrollSteps s.scrollGlyphs).take (6 * k + c + 1)).foldl (fun pb st => stepFrame o s.fg s.bg st.1 st.2 pb) s.pb

theorem atStep (o : Orient) {k c : Nat} (h : s.Calm) (hn : s.n = s.msglen) (hp : s.plat.present.All (· = true))
    (hk : k < s.msglen.toNat + 2) (hc : c < 6) : AtStep o k c s (after (animationUpTo o k c) s) := by
  have hlen : s.msglen.toNat < 256 := s.msglen.isLt
  rw [animationUpTo, after_append, after_append]
  -- the whole characters in front of the step, the start of its character, and the whole steps of that
  have r1 := charsRan o (List.range k) (fun x hx => by have := List.mem_range.mp hx; omega) s h hn
  have p1 := r1.played hp
  generalize after ((List.range k).flatMap (charOps o)) s = s1 at *
  obtain ⟨p2, b2⟩ := charBegun o (k := k) (by omega) p1.calm (p1.n.trans (hn.trans p1.core.msglen.symm)) p1.present
  have hg : glyphOf s1 k = glyphOf s k := glyphOf_core p1.core k
  generalize after (charStart k) s1 = s2 at *
  have steps : ∀ c' ≤ 6, Played o ((scrollSteps s.scrollGlyphs).take (6 * k + c')) s
      (after ((List.range c').flatMap (stepOps o)) s2) := by
    intro c' hc'
    obtain ⟨r3, -⟩ := ran o (glyphOf s1 k) (List.range c') (fun x hx => by have := List.mem_range.mp hx; omega) s2 p2.calm
      b2.shows
    have p3 := (p1.trans p2).trans (r3.played p2.present)
    rwa [hg, List.append_nil, ← take_scrollGlyphs (Nat.le_of_lt hk), ← take_scrollSteps (getElem?_scrollGlyphs hk) hc'] at p3
  obtain ⟨-, hgl, hschr, -⟩ := ran o (glyphOf s1 k) (List.range c) (fun x hx => by have := List.mem_range.mp hx; omega) s2
    p2.calm b2.shows
  refine ⟨steps c (Nat.le_of_lt hc), hschr.trans b2.schr, ?_, ?_⟩
  · rw [hgl, b2.gl, hg, scrollLatch_succ, r1.gl]
    rfl
  · have hlast : after ((List.range (c + 1)).flatMap (stepOps o)) s2 =
        after (stepOps o c) (after ((List.range c).flatMap (stepOps o)) s2) := by
      rw [List.range_succ, List.flatMap_append, List.flatMap_singleton, after_append]
    have hpb := (steps (c + 1) hc).pb
    rw [hlast] at hpb
    rw [Nat.add_assoc, ← hpb]
    exact (stepped o c (steps c (Nat.le_of_lt hc)).calm).pb.symm

/-! ### In front of a flush -/

/-- What a `SCROLL` accepted in `s` has left when its flush number `m` begins, if every earlier one found a device: the frame to
show and the cursor are those of its step, `m` frames were shown and each step before that one was paced (R156, R161). -/
structure ScrollAtFlush (o : Orient) (m : Nat) (s u : State) : Prop where
  calm : u.Calm
  core : SameCore s u
  held : s.held = false → u.held = false
  present : u.plat.present.All (· = true)
  pb : (s.scrollFrames o)[m]? = some u.pb
  schr : u.schr.toNat = (m - 1) / 6
  scol : u.scol.toNat = (m - 1) % 6
  gl : u.gl = s.scrollLatch ((m + 5) / 6)
  trace : ∃ new, u.trace = s.trace ++ new ∧
    shownFrames new = ((s.scrollFrames o).take m).map (fun pb => pbBytes pb 0 128) ∧ new.count .pace = m - 1

theorem scrollAtFlush_zero (o : Orient) (h : s.Calm) (hp : s.plat.present.All (· = true)) :
    ScrollAtFlush o 0 s (after (scrollUpTo o 0) s) :=
  ⟨calm_same h rfl rfl, ⟨rfl, rfl, rfl, rfl, rfl, rfl, rfl, rfl, flag_astate _ _, rfl, rfl⟩, id, hp, rfl, rfl, rfl, rfl, [],
    (List.append_nil _).symm, rfl, rfl⟩

theorem scrollAtFlush_succ (o : Orient) {j : Nat} (h : s.Calm) (hp : s.plat.present.All (· = true))
    (hj : j < 6 * (s.msglen.toNat + 2)) : ScrollAtFlush o (j + 1) s (after (scrollUpTo o (j + 1)) s) := by
  have hlen : s.msglen.toNat < 256 := s.msglen.isLt
  obtain ⟨s0, hs0, hcalm, hcore, hn, -, hpb, hgl, hheld, hshown, -⟩ := scroll_start s h
  obtain ⟨hp0, htrace⟩ := hshown hp
  have a := atStep o (k := j / 6) (c := j % 6) hcalm (hn.trans hcore.msglen.symm) hp0 (by rw [hcore.msglen]; omega)
    (Nat.mod_lt _ (by decide))
  rw [scrollUpTo, after_append, after_append, hs0]
  generalize after (animationUpTo o (j / 6) (j % 6)) s0 = t at a ⊢
  obtain ⟨hplayed, hschr, hgl', hframe⟩ := a
  obtain ⟨new, htrace', hshown', hpaces⟩ := hplayed.trace
  have hlength : (scrollSteps s.scrollGlyphs).length = 6 * (s.msglen.toNat + 2) := by
    simp [length_scrollSteps, State.scrollGlyphs]
  rw [scrollGlyphs_core hcore, Nat.div_add_mod] at hframe hshown' hpaces
  rw [hcore.fg, hcore.bg, hpb] at hframe hshown'
  show ScrollAtFlush o (j + 1) s (t.moved o (j % 6))
  refine ⟨calm_same hplayed.calm rfl rfl, ?_, fun hh => hplayed.held (hheld hh), hplayed.present, ?_, ?_, ?_, ?_,
    [.acquire true, .write 0 (pbBytes (fillCells s.bg) 0 128) true, .release] ++ new, ?_, ?_, ?_⟩
  · exact (hcore.trans hplayed.core).trans ⟨rfl, rfl, rfl, rfl, rfl, rfl, rfl, rfl, fun _ => rfl, rfl, rfl⟩
  · rw [hframe]
    exact getElem?_framesFrom o s.fg s.bg (fillCells s.bg) (hlength ▸ hj)
  · show t.schr.toNat = j / 6
    rw [hschr, BitVec.toNat_ofNat]
    omega
  · show (BitVec.ofNat 3 (j % 6)).toNat = j % 6
    rw [BitVec.toNat_ofNat]
    omega
  · show t.gl = _
    rw [hgl', scrollLatch_core hcore hgl, show (j + 1 + 5) / 6 = j / 6 + 1 by omega]
  · show t.trace = _
    rw [htrace', htrace, List.append_assoc]
  · rw [shownFrames_append, hshown', ← take_framesFrom]
    rfl
  · rw [List.count_append, hpaces, List.length_take, hlength, Nat.min_eq_left (Nat.le_of_lt hj)]
    exact Nat.zero_add j

theorem scrollAtFlush (o : Orient) {m : Nat} (h : s.Calm) (hp : s.plat.present.All (· = true))
    (hm : m ≤ 6 * (s.msglen.toNat + 2)) : ScrollAtFlush o m s (after (scrollUpTo o m) s) := by
  cases m with
  | zero => exact scrollAtFlush_zero o h hp
  | succ j => exact scrollAtFlush_succ o h hp hm

end Sys2Proof.Machine
end

section
/-! PROOFS. What a failed flush leaves of each command that flushes (R44, R45, R141, R164, R192). -/

namespace Sys2Proof.Machine

variable {o : Orient} {s t u : State}

/-! ### A flush of a `SCROLL` that fails -/

theorem Script.All.nth {α : Type} {p : α → Prop} {sc : Script α} (h : sc.All p) (k : Nat) : p (sc.nth k) := by
  induction k generalizing sc with
  | zero => exact sc.nth_zero ▸ h.now
  | succ k ih => exact sc.nth_later k ▸ ih h.later

/-- An input whose next values are `m` times `x` and then `y`. -/
theorem nth_of_next {α : Type} {sc : Script α} {m : Nat} {x y : α} {rest : List α}
    (h : sc.next = List.replicate m x ++ y :: rest) : (∀ j < m, sc.nth j = x) ∧ sc.nth m = y := by
  unfold Script.nth
  rw [h]
  refine ⟨fun j hj => ?_, ?_⟩
  · rw [List.getD_append _ _ _ _ (by simpa using hj), List.getD_eq_getElem?_getD, List.getElem?_replicate, if_pos hj]
    rfl
  · rw [List.getD_append_right _ _ _ _ (by simp), List.length_replicate, Nat.sub_self]
    rfl

/-- The first `m` flushes that find a device are answered with success, and the next one fails, at its request or at its
write. -/
def State.FlushFailsAt (s : State) (m : Nat) : Prop :=
  (∀ j < m, s.plat.acquire.nth j = .ok) ∧ (∀ j < m, s.plat.write.nth j = .ok) ∧
  (s.plat.acquire.nth m = .failed ∨ s.plat.acquire.nth m = .ok ∧ s.plat.write.nth m = .failed)

theorem flushFailsAt_of_next {m : Nat} {rest : List Answer}
    (h : s.plat.acquire.next = List.replicate m .ok ++ .failed :: rest ∧ s.plat.write.All (· = .ok) ∨
      s.plat.acquire.All (· = .ok) ∧ s.plat.write.next = List.replicate m .ok ++ .failed :: rest) : s.FlushFailsAt m := by
  rcases h with ⟨ha, hw⟩ | ⟨ha, hw⟩
  · obtain ⟨hok, hfailed⟩ := nth_of_next ha
    exact ⟨hok, fun j _ => hw.nth j, .inl hfailed⟩
  · obtain ⟨hok, hfailed⟩ := nth_of_next hw
    exact ⟨fun j _ => ha.nth j, hok, .inr ⟨ha.nth m, hfailed⟩⟩

/-- A flush that fails leaves nothing held that was not held before (R141). -/
theorem FailedFlush.held {off n : Nat} (h : FailedFlush s off n u) (hd : s.DeviceFails) (hh : s.held = false) :
    u.held = false := by
  obtain ⟨-, -, ha | ⟨ha, -⟩⟩ := hd
  · exact (h.request ha).1.trans hh
  · exact (h.write ha).1

/-- A full flush that fails shows no frame, and paces nothing. -/
theorem FailedFlush.trace {n : Nat} (h : FailedFlush s 0 n u) (hd : s.DeviceFails) :
    ∃ new, u.trace = s.trace ++ new ∧ shownFrames new = [] ∧ new.count .pace = 0 := by
  obtain ⟨-, -, ha | ⟨ha, -⟩⟩ := hd
  · obtain ⟨-, htrace, -⟩ := h.request ha
    exact ⟨_, htrace, rfl, rfl⟩
  · obtain ⟨-, -, htrace⟩ := h.write ha
    exact ⟨_, htrace, rfl, rfl⟩

/-- Of `STATUS` the statements of a command change `ASTATE` and `NODEV` alone. -/
theorem SameCore.status (h : SameCore s t) :
    t.status = { s.status with astate := t.status.astate, nodev := t.status.nodev } := by
  have hbusy := h.busy
  have hfonterr := h.flags .fontErr
  have hdeverr := h.flags .devErr
  have hillcmd := h.flags .illCmd
  have hcancelled := h.flags .cancelled
  simp only [Status.flag] at hfonterr hdeverr hillcmd hcancelled
  simp only [← hbusy, ← hfonterr, ← hdeverr, ← hillcmd, ← hcancelled]

/-- `STATUS` after an abort event of a `SCROLL` (R164, R196). -/
theorem raise_status_of_scroll (hc : s.cmd = some (.scroll o)) (e : Abort) :
    (s.raise e).status = { s.status.raiseFlag e with astate := .idle, busy := false } := by
  rw [raise_status, scrolling_of_cmd hc]
  rfl

/-- `s` before a device that answers everything with success. -/
def State.deviceAnswering (s : State) : State := s.answering ⟨[], .ok⟩ ⟨[], .ok⟩

theorem deviceAnswering_calm (hfont : s.FontAnswers) (htick : s.Ticking) (hcancel : s.NotCancelled) (he : s.NoEdge) :
    s.deviceAnswering.Calm :=
  have hok : Script.All (· = .ok) (⟨[], .ok⟩ : Script Answer) := ⟨nofun, rfl⟩
  ⟨hfont, ⟨hok, hok, he⟩, htick, hcancel⟩

/-- A `SCROLL` whose flush number `m` fails comes to it as one does whose flushes never fail, and ends there (R164). -/
theorem scroll_fails (o : Orient) {m : Nat} (hfont : s.FontAnswers) (htick : s.Ticking) (hcancel : s.NotCancelled)
    (he : s.NoEdge) (hp : s.plat.present.All (· = true)) (hm : m ≤ 6 * (s.msglen.toNat + 2)) (hf : s.FlushFailsAt m) :
    ∃ u v a w, ScrollAtFlush o m (s.accept (.scroll o)).deviceAnswering u ∧ (u.answering a w).DeviceFails ∧
      FailedFlush (u.answering a w) 0 128 v ∧ exec (.scroll o) s = .next (v.raise .devErr) := by
  obtain ⟨hacquire, hwrite, hfails⟩ := hf
  have hcalm : (s.accept (.scroll o)).deviceAnswering.Calm :=
    deviceAnswering_calm (s := s.accept (.scroll o)) hfont htick hcancel he
  have hat := scrollAtFlush o hcalm hp hm
  obtain ⟨post, hops⟩ := scrollOps_split o hm
  have hresume : ∀ op ∈ scrollUpTo o m, op.isResume = false := fun op ho =>
    scrollOps_begin (Nat.le_of_lt_succ s.msglen.isLt) (by rw [hops]; exact List.mem_append_left _ ho)
  have hrun := calm_run_answering hresume (fullFlush :: post) hcalm hp (a := s.plat.acquire) (w := s.plat.write)
    (by rwa [flushes_scrollUpTo]) (by rwa [flushes_scrollUpTo])
  rw [flushes_scrollUpTo, ← hops] at hrun
  generalize after (scrollUpTo o m) (s.accept (.scroll o)).deviceAnswering = u at hat hrun
  have hd : (u.answering (s.plat.acquire.skip m) (s.plat.write.skip m)).DeviceFails := by
    refine ⟨hat.calm.2.1.2.2, hat.present.now, ?_⟩
    show (s.plat.acquire.skip m).now = .failed ∨ (s.plat.acquire.skip m).now = .ok ∧ (s.plat.write.skip m).now = .failed
    rwa [Script.now_skip, Script.now_skip]
  obtain ⟨v, hraise, hv⟩ := flush_fails hd 0 128
  exact ⟨u, v, _, _, hat, hd, hv, congrArg Host.Outcome.next (hrun.trans (run_raise hraise post))⟩

theorem execScroll_fails (o : Orient) {m : Nat} (hr : s.Ready) (hfont : s.FontAnswers) (htick : s.Ticking)
    (hcancel : s.NotCancelled) (he : s.NoEdge) (hp : s.plat.present.All (· = true)) (hm : m ≤ 6 * (s.msglen.toNat + 2))
    (hf : s.FlushFailsAt m) :
    ∃ t new, exec (.scroll o) s = .next t ∧ t.Ready ∧
      t.status = { s.status with astate := .idle, deverr := true, nodev := false } ∧
      (s.scrollFrames o)[m]? = some t.pb ∧ t.schr.toNat = (m - 1) / 6 ∧ t.scol.toNat = (m - 1) % 6 ∧
      (min ((m + 5) / 6) s.msglen.toNat = 0 → t.gl = s.gl) ∧
      (∀ k, min ((m + 5) / 6) s.msglen.toNat = k + 1 → t.HoldsGlyph (s.msgAt k)) ∧
      (s.held = false → t.held = false) ∧ t.trace = s.trace ++ new ∧
      shownFrames new = ((s.scrollFrames o).take m).map (fun pb => pbBytes pb 0 128) ∧ new.count .pace = m - 1 := by
  obtain ⟨u, v, a, w, hat, hd, hv, hexec⟩ := scroll_fails o hfont htick hcancel he hp hm hf
  have honly := hv.only
  obtain ⟨new, htrace, hshown, hpaces⟩ := hat.trace
  obtain ⟨new', htrace', hshown', hpaces'⟩ := hv.trace hd
  have hgl : v.gl = s.scrollLatch (min ((m + 5) / 6) s.msglen.toNat) := by
    rw [honly]
    exact hat.gl.trans (scrollLatch_min _ _)
  refine ⟨_, new ++ new', hexec, (raised _ v).ready, ?_, ?_, ?_, ?_, ?_, ?_, ?_, ?_, ?_, ?_⟩
  · have hcmd : v.cmd = some (.scroll o) := by
      rw [honly]
      exact hat.core.cmd
    rw [raise_status_of_scroll hcmd, hv.status, show (u.answering a w).status = u.status from rfl, hat.core.status]
    show ({ s.status with busy := false, astate := .idle, deverr := true, nodev := false } : Status) =
      { s.status with astate := .idle, deverr := true, nodev := false }
    rw [← hr.1]
  · rw [raise_pb, honly]
    exact hat.pb
  · rw [raise_schr, honly]
    exact hat.schr
  · rw [raise_scol, honly]
    exact hat.scol
  · intro hmin
    rw [raise_gl, hgl, hmin]
    rfl
  · intro k hmin
    have hcfg : v.cfg = s.cfg := by
      rw [honly]
      exact hat.core.cfg
    have hglyph : glyphOf s k = some _ := if_pos (by omega)
    refine holdsGlyph_of ?_
    rw [raise_gl, raise_cfg, hcfg, hgl, hmin, scrollLatch_succ, hglyph]
    rfl
  · intro hh
    rw [raise_held]
    exact hv.held hd (hat.held hh)
  · rw [raise_trace, htrace', ← List.append_assoc]
    exact congrArg (· ++ new') htrace
  · rw [shownFrames_append, hshown, hshown', List.append_nil]
    rfl
  · rw [List.count_append, hpaces, hpaces', Nat.add_zero]

/-- Settles O50: each of the five commands comes to its flush, whose failure raises `DevErr`. -/
theorem flushFailureSetsDeverr : Obligations.FlushFailureSetsDeverr := by
  refine ⟨fun s hr hd => execFlush_fails hr hd, fun cell s hr hd hc => execFlush1_fails hr hd hc, ?_, ?_, ?_⟩
  · intro o x y v s hr hd hx hy
    obtain ⟨t, ht, hf⟩ := execSetpix_fails o v hr hd hx hy
    have hcell : pixelOffset x.toNat y.toNat o < 64 := pixelOffset_lt (coords_eq hx hy) o
    refine ⟨t, ht, by rw [hf.pb]; exact hf, fun i _ => ?_⟩
    rw [State.pbAt, hf.pb]
    exact setPb_pbAt hcell v i
  · intro o s hr hfont hd hl
    obtain ⟨t, ht, hf⟩ := execStatic_fails o hr hfont hd hl
    refine ⟨t, ht, by rw [hf.pb, hf.gl]; exact hf, holdsGlyph_of ?_, fun i hi => ?_⟩
    · rw [hf.gl, hf.cfg]
      rfl
    · unfold State.glAt
      rw [State.pbAt, hf.pb, hf.gl]
      refine (staticPainted_pbAt o hi).trans ?_
      cases glyphOffset s.cfg.g270 i o <;> rfl
  · intro o s m rest hr hfont htick hcancel he hp hm hanswers
    exact execScroll_fails o hr hfont htick hcancel he hp hm (flushFailsAt_of_next hanswers)

end Sys2Proof.Machine
end

section
/-! PROOFS. The decoder and the encoder (R70 to R78, R81): which words are commands, and that the mask of a command's format
keeps of a word exactly what the encoder writes. -/

namespace Sys2Proof.Machine

/-! ### The masks of the formats and the fields they keep (R71, R72) -/

section Masks

variable (w : Word)

/-- A mask that keeps `op` acts on the other fields of a word one by one. -/
theorem and_mask (o : BitVec 2) (a : Byte) (imm : Half) :
    w &&& packWord 0x3F o a imm = packWord (opField w) (oField w &&& o) (aField w &&& a) (immField w &&& imm) := by
  have hop : opField w &&& 0x3F = opField w := BitVec.and_allOnes
  conv_lhs => rw [← packWord_fields w, packWord_and, hop]

theorem oField_and_ones : oField w &&& 3#2 = oField w := BitVec.and_allOnes
theorem aField_and_ones : aField w &&& 0xFF#8 = aField w := BitVec.and_allOnes
theorem immField_and_ones : immField w &&& 0xFFFF#16 = immField w := BitVec.and_allOnes

theorem immField_and_low : immField w &&& 0x00FF#16 = 0#8 ++ cField w := by
  rw [← bField_append_cField]
  exact BitVec.and_append.trans (congrArg₂ (· ++ ·) BitVec.and_zero BitVec.and_allOnes)

theorem and_maskN : w &&& 0xFC000000 = packWord (opField w) 0 0 0 :=
  (and_mask w 0 0 0).trans (by simp)

theorem and_maskI : w &&& 0xFC00FFFF = packWord (opField w) 0 0 (immField w) :=
  (and_mask w 0 0 0xFFFF).trans (by simp [immField_and_ones])

theorem and_maskC : w &&& 0xFC0000FF = packWord (opField w) 0 0 (0#8 ++ cField w) :=
  (and_mask w 0 0 0x00FF).trans (by simp [immField_and_low])

theorem and_maskAI : w &&& 0xFCFFFFFF = packWord (opField w) 0 (aField w) (immField w) :=
  (and_mask w 0 0xFF 0xFFFF).trans (by simp [aField_and_ones, immField_and_ones])

theorem and_maskO : w &&& 0xFF000000 = packWord (opField w) (oField w) 0 0 :=
  (and_mask w 3 0 0).trans (by simp [oField_and_ones])

theorem and_maskOC : w &&& 0xFF0000FF = packWord (opField w) (oField w) 0 (0#8 ++ cField w) :=
  (and_mask w 3 0 0x00FF).trans (by simp [oField_and_ones, immField_and_low])

theorem and_maskOXY : w &&& 0xFFFF0000 = packWord (opField w) (oField w) (aField w) 0 :=
  (and_mask w 3 0xFF 0).trans (by simp [oField_and_ones, aField_and_ones])

theorem and_maskOXYI : w &&& 0xFFFFFFFF = packWord (opField w) (oField w) (aField w) (immField w) :=
  BitVec.and_allOnes.trans (packWord_fields w).symm

end Masks

/-! ### Decode and encode -/

/-- Every operand is read from the field it was put in (R71, R72, R76). -/
theorem decode_encode (i : Instr) : decode (encode i) = .ok i := by
  cases i <;> simp [decode, encode]

theorem opField_of_toNat {w : Word} {n : Nat} (h : (opField w).toNat = n) : opField w = BitVec.ofNat 6 n := by
  rw [← h, BitVec.ofNat_toNat, BitVec.setWidth_eq]

/-- The word of a decoded command has the bits its format reads and 0 elsewhere (R78, R81): in each row of R76 the mask of the
format keeps the fields that the encoder fills. -/
theorem encode_of_decode {w : Word} {i : Instr} (h : decode w = .ok i) : encode i = w &&& formatMask i := by
  unfold decode at h
  split at h <;> cases h
  all_goals
    have hop := opField_of_toNat ‹_›
    simp only [encode, formatMask, and_maskN, and_maskI, and_maskC, and_maskAI, and_maskO, and_maskOC, and_maskOXY,
      and_maskOXYI, bField_append_cField, xField_append_yField, code_ofCode, hop]
    rfl

/-- Commands with the same `op` have the same format (R76). -/
theorem formatMask_eq_of_op {w w' : Word} {i j : Instr} (h : decode w = .ok i) (h' : decode w' = .ok j)
    (hop : opField w = opField w') : formatMask i = formatMask j := by
  unfold decode at h h'
  rw [hop] at h
  split at h <;> cases h
  all_goals
    simp only [‹(opField w').toNat = _›] at h'
    cases h'
    rfl

/-- Every format reads `op` (R72). -/
theorem opField_and_formatMask (i : Instr) (w : Word) : opField (w &&& formatMask i) = opField w := by
  cases i <;>
    simp only [formatMask, and_maskN, and_maskI, and_maskC, and_maskAI, and_maskO, and_maskOC, and_maskOXY, and_maskOXYI,
      opField_packWord]

theorem opField_eq_of_and_formatMask {w w' : Word} {i : Instr} (h : w &&& formatMask i = w' &&& formatMask i) :
    opField w = opField w' := by
  rw [← opField_and_formatMask i w, h, opField_and_formatMask]

/-- Words that agree on the bits the format of one of them reads stand for the same command (R78). -/
theorem decode_unique {w w' : Word} {i j : Instr} (h : decode w = .ok i) (h' : decode w' = .ok j)
    (hm : w &&& formatMask i = w' &&& formatMask i) : j = i := by
  have henc : encode i = encode j := by
    rw [encode_of_decode h, encode_of_decode h', hm, formatMask_eq_of_op h h' (opField_eq_of_and_formatMask hm)]
  have hdec : decode (encode i) = .ok j := by rw [henc, decode_encode]
  rw [decode_encode] at hdec
  cases hdec
  rfl

/-- `op` decides whether a word is a command: it is none exactly at the reserved values (R76, R77). -/
theorem exists_decode_iff (w : Word) : (∃ i, decode w = .ok i) ↔ (opField w).toNat ∉ reservedOps := by
  have hlt : (opField w).toNat < 64 := (opField w).isLt
  unfold decode
  split
  case h_27 =>
    have hres : (opField w).toNat ∈ reservedOps := by
      simp only [imp_false] at *
      simp only [reservedOps, List.cons_append, List.nil_append, List.mem_cons, List.not_mem_nil, or_false]
      omega
    simp [hres]
  all_goals simp [reservedOps, *]

theorem and_eq_self_of_and_not {w m : Word} (h : w &&& ~~~m = 0) : w &&& m = w :=
  calc w &&& m = (w &&& m) ||| (w &&& ~~~m) := by rw [h]; exact BitVec.or_zero.symm
    _ = w &&& (m ||| ~~~m) := BitVec.and_or_distrib_left.symm
    _ = w &&& BitVec.allOnes 32 := congrArg (w &&& ·) (BitVec.or_not_self m)
    _ = w := BitVec.and_allOnes

/-- Settles O1: every operand is read from the field it was put in, and the word of a decoded command is what its mask keeps. -/
theorem decodeInvertsEncode : Obligations.DecodeInvertsEncode :=
  ⟨decode_encode, fun _ _ h hm => (encode_of_decode h).trans (and_eq_self_of_and_not hm)⟩

/-- Settles O2: a word that agrees with `w` on the bits read has the same `op`, so it decodes, and to nothing else. -/
theorem ignoredBitsHaveNoInfluence : Obligations.IgnoredBitsHaveNoInfluence := by
  have hop : ∀ w w', opField w = opField w' → (∃ i, decode w = .ok i) → ∃ i, decode w' = .ok i := by
    intro w w' h hw
    rwa [exists_decode_iff, ← h, ← exists_decode_iff]
  refine ⟨fun w w' i h hm => ?_, fun w i => encode_of_decode, hop⟩
  obtain ⟨j, hj⟩ := hop w w' (opField_eq_of_and_formatMask hm) ⟨i, h⟩
  rw [hj, decode_unique h hj hm]

end Sys2Proof.Machine
end

section
/-! PROOFS. The bits of the fields (R71), words written out from the tables, and the pseudo-commands (R81, R82). -/

namespace Sys2Proof.Machine

/-- Settles O4: a field is a quotient and a remainder of the word, and the printed words are decoded. -/
theorem printedWordsDecode : Obligations.PrintedWordsDecode := by
  refine ⟨fun w => ?_, rfl, by decide⟩
  have hw := w.isLt
  simp only [opField, oField, xField, yField, immField, aField, bField, cField, BitVec.extractLsb'_toNat,
    Nat.shiftRight_eq_div_pow, Nat.pow_zero, Nat.div_one, and_true]
  omega

theorem bits_num {w n : Nat} (h : n < 2 ^ w) : (Operand.num n).bits w = some (n : BitVec w) := if_pos h

/-- An angle as written, with its orientation (R81). -/
def angles : List (Nat × Orient) := [(0, .deg0), (90, .deg90), (180, .deg180), (270, .deg270)]

theorem angle_num {q : Nat × Orient} (h : q ∈ angles) : (Operand.num q.1).angle = some q.2 := by
  revert q; decide

/-- Settles O5: a colour name stands for its literal, a number that fits its field for itself, an angle for its orientation. -/
theorem pseudoCommandsExpand : Obligations.PseudoCommandsExpand := by
  refine ⟨fun c hc => ?_, fun cs => rfl, fun q hq => ?_, rfl⟩
  · have hv : (Operand.color c.1).value = some c.2 := by revert c; decide
    refine ⟨?_, ?_, ?_, fun off hoff => ?_, fun x y hx hy => ⟨?_, fun q hq => ?_⟩⟩
    · simp [assemble, hv]
    · simp [assemble, hv]
    · simp [assemble, hv]
    · simp [assemble, hv, bits_num (w := 8) hoff]
    · simp [assemble, hv, bits_num (w := 4) hx, bits_num (w := 4) hy]
    · simp [assemble, hv, bits_num (w := 4) hx, bits_num (w := 4) hy, angle_num hq]
  · refine ⟨fun c => ?_, fun cs => ?_⟩
    · simp [assemble, Operand.char, angle_num hq]
    · simp [assemble, angle_num hq]

end Sys2Proof.Machine
end

section
/-! PROOFS. What each step is, case by case (R77, R84, R220), and that every one has a next state. -/

namespace Sys2Proof.Machine

/-! ### The cases of a step -/

/-- The start of a step, written out (R58, R220). -/
theorem begun_eq (s : State) : s.begun = { s with
    dev := if s.held then s.dev else Memory.merge s.dev s.plat.foreign.now
    plat := { s.plat with
      rst := s.plat.rst.later
      foreign := if s.held then s.plat.foreign else s.plat.foreign.later } } := by
  unfold State.begun
  cases hh : s.held <;> simp [State.sampledRst, State.othersWrite, hh]

section Cases

variable {s : State}

theorem step_of_rst (hr : s.plat.rst.now = true) : step s = .next s.begun.resetCore := by
  simp [step, hr]

theorem step_of_busy (hr : s.plat.rst.now = false) (hb : s.status.busy = true) : step s = .next s.begun.resume := by
  simp [step, hr, hb]

theorem step_of_no_word (hr : s.plat.rst.now = false) (hb : s.status.busy = false) (hc : s.plat.commands = []) :
    step s = .next s.begun := by
  simp [step, hr, hb, State.fetch, hc]

theorem step_of_command {w : Word} {ws : List Word} {i : Instr} (hr : s.plat.rst.now = false) (hb : s.status.busy = false)
    (hc : s.plat.commands = w :: ws) (hd : decode w = .ok i) :
    step s = exec i { s.begun with plat := { s.begun.plat with commands := ws } } := by
  simp [step, hr, hb, State.fetch, hc, hd]

theorem step_of_reserved {w : Word} {ws : List Word} (hr : s.plat.rst.now = false) (hb : s.status.busy = false)
    (hc : s.plat.commands = w :: ws) (hd : ∀ i, decode w ≠ .ok i) :
    step s = .next ({ s.begun with plat := { s.begun.plat with commands := ws } } : State).acceptIllegal := by
  cases h : decode w with
  | ok i => exact absurd h (hd i)
  | error e => simp [step, hr, hb, State.fetch, hc, h]

end Cases

/-- A word that is no command sets `ILLCMD` of a ready core, which is ready again (R77). -/
theorem acceptIllegal_of_ready {s : State} (h : s.Ready) :
    s.acceptIllegal = { s with status := { s.status with illcmd := true } } := by
  obtain ⟨hbusy, hcmd, htodo⟩ := h
  rcases s with ⟨cfg, ⟨⟩⟩
  simp_all [State.acceptIllegal, State.raise, State.scrolling, State.withStatus, State.finish, Status.raiseFlag]

/-- No command stops the machine. -/
theorem exec_answers (i : Instr) (s : State) : ∃ t, exec i s = .next t := by
  rcases exec_cases i s with ⟨f, h, -⟩ | ⟨ops, h, -⟩ | ⟨o, x, y, v, p, -, -, h⟩
  all_goals exact ⟨_, h⟩

/-! ### The obligations on steps -/

/-- Settles O3: `op` decides whether a word is a command, and a word that is none only raises `IllCmd`. -/
theorem reservedWordSetsIllcmdOnly : Obligations.ReservedWordSetsIllcmdOnly := by
  have hiff : ∀ w, (∀ i, decode w ≠ .ok i) ↔ (opField w).toNat ∈ reservedOps := by
    intro w
    rw [← not_exists, exists_decode_iff, not_not]
  refine ⟨hiff, fun s w ws hready hr hc hop => ?_⟩
  have hready' : ({ s.begun with plat := { s.begun.plat with commands := ws } } : State).Ready := by
    simpa [State.Ready] using hready
  have ⟨hb, _, _⟩ := hready
  rw [step_of_reserved hr hb hc ((hiff w).2 hop), acceptIllegal_of_ready hready', begun_status]

/-- Settles O7: each case of a step answers a next state. -/
theorem stepNeverStops : Obligations.StepNeverStops := by
  intro s
  cases hr : s.plat.rst.now with
  | true => exact ⟨_, step_of_rst hr⟩
  | false =>
    cases hb : s.status.busy with
    | true => exact ⟨_, step_of_busy hr hb⟩
    | false =>
      cases hc : s.plat.commands with
      | nil => exact ⟨_, step_of_no_word hr hb hc⟩
      | cons w ws =>
        cases hd : decode w with
        | ok i =>
          rw [step_of_command hr hb hc hd]
          exact exec_answers i _
        | error e => exact ⟨_, step_of_reserved hr hb hc (by simp [hd])⟩

/-- Settles O8: the statements of a command take no word. -/
theorem busyCoreTakesNoWord : Obligations.BusyCoreTakesNoWord := by
  intro s t hr hb hs
  rw [step_of_busy hr hb] at hs
  cases hs
  rw [State.resume, run_commands, begun_plat]

/-- Settles O6: these are the cases of a step without `rst`, and `withFetchWord` makes the next step one of them. -/
theorem stepRunsTheDecodedCommand : Obligations.StepRunsTheDecodedCommand := by
  refine ⟨begun_eq, fun s w ws i => step_of_command, fun s => step_of_no_word, fun s => step_of_busy, ?_⟩
  intro s w i hd
  have hw : decode (BitVec.ofNat 32 (w % 2 ^ 32)) = .ok i := by
    rwa [show BitVec.ofNat 32 (w % 2 ^ 32) = BitVec.ofNat 32 w from BitVec.eq_of_toNat_eq (by simp)]
  rw [step_of_command (s := s.withFetchWord 32 w) rfl rfl rfl hw, begun_eq, begun_eq]
  rfl

end Sys2Proof.Machine
end

section
/-! PROOFS. The colour commands (R90 to R97): the packed word as a number and as bits, and what each command writes. -/

namespace Sys2Proof.Machine

/-! ### The packed word (R90) -/

/-- Two parts of a word as one number: the low part has `n` bits. -/
theorem toNat_append_eq_add {m n : Nat} (x : BitVec m) (y : BitVec n) : (x ++ y).toNat = x.toNat * 2 ^ n + y.toNat := by
  rw [BitVec.toNat_append, ← Nat.shiftLeft_add_eq_or_of_lt y.isLt, Nat.shiftLeft_eq]

/-- The value of a channel is its high three bits (R90). -/
theorem toNat_highThreeBits (c : Byte) : (c.extractLsb' 5 3).toNat = channel3 c := by
  have hc := c.isLt
  rw [BitVec.extractLsb'_toNat, Nat.shiftRight_eq_div_pow, channel3]
  omega

theorem channel3_le (c : Byte) : channel3 c ≤ 7 := by
  have hc := c.isLt
  rw [channel3]
  omega

/-- The formula of R90 does not wrap: three channels need 13 bits. -/
theorem toNat_pack (r g b : Byte) : (pack r g b).toNat = channel3 b * 1024 + channel3 r * 32 + channel3 g := by
  have hr := channel3_le r
  have hg := channel3_le g
  have hb := channel3_le b
  rw [pack, BitVec.toNat_ofNat, Nat.mod_eq_of_lt (by omega)]

/-- The formula of R90 puts each channel in its place. -/
theorem pack_eq_append (r g b : Byte) :
    pack r g b = (0#3 ++ b.extractLsb' 5 3 ++ 0#2 ++ r.extractLsb' 5 3 ++ 0#2 ++ g.extractLsb' 5 3 : BitVec 16) := by
  apply BitVec.eq_of_toNat_eq
  rw [toNat_pack]
  simp only [toNat_append_eq_add, toNat_highThreeBits, BitVec.toNat_ofNat]
  omega

theorem toNat_pack_le (r g b : Byte) : (pack r g b).toNat ≤ 0x1CE7 := by
  have hr := channel3_le r
  have hg := channel3_le g
  have hb := channel3_le b
  rw [toNat_pack]
  omega

/-- Each channel is below 8, so the packed word determines it. -/
theorem pack_eq_pack_iff (r g b r' g' b' : Byte) :
    pack r g b = pack r' g' b' ↔ channel3 r = channel3 r' ∧ channel3 g = channel3 g' ∧ channel3 b = channel3 b' := by
  have hr := channel3_le r
  have hg := channel3_le g
  have hr' := channel3_le r'
  have hg' := channel3_le g'
  rw [← BitVec.toNat_inj, toNat_pack, toNat_pack]
  omega

/-! ### The palette (R92) and the joined bytes (R93) -/

/-- The table of R92 as a list: a code beyond its end is off. -/
theorem palette_eq_getD (n : Byte) :
    palette n =
      ([0x0000, 0x00E0, 0x0007, 0x1C00, 0x00E7, 0x1C07, 0x1CE0, 0x1CE7] : List Half).getD n.toNat 0x0000 := by
  unfold palette
  split
  case h_9 =>
    have hn : 8 ≤ n.toNat := by
      simp only [imp_false] at *
      omega
    exact (List.getD_eq_default _ _ hn).symm
  all_goals
    rw [‹n.toNat = _›]
    rfl

theorem joinBytes_eq_append (hi lo : Byte) : joinBytes hi lo = hi ++ lo := by
  have hhi := hi.isLt
  have hlo := lo.isLt
  apply BitVec.eq_of_toNat_eq
  rw [joinBytes, BitVec.toNat_ofNat, toNat_append_eq_add]
  omega

/-- Joining is the inverse of serialisation (R93). -/
theorem joinBytes_highByte_lowByte (v : Half) : joinBytes (highByte v) (lowByte v) = v := by
  rw [joinBytes_eq_append, highByte_ext, lowByte_ext, BitVec.extractLsb'_append_extractLsb'_eq_extractLsb' (by decide)]
  exact BitVec.extractLsb'_eq_self

/-! ### A command of a ready core that writes one colour register -/

theorem command_withFg {s : State} (h : s.Ready) (i : Instr) (g : State → Half) :
    command i (fun t => t.withFg (g t)) s = .next { s with fg := g (s.accept i) } :=
  congrArg (fun t : State => (.next { t with fg := g (s.accept i) } : Out)) (ready_finish_accept h i)

theorem command_withBg {s : State} (h : s.Ready) (i : Instr) (g : State → Half) :
    command i (fun t => t.withBg (g t)) s = .next { s with bg := g (s.accept i) } :=
  congrArg (fun t : State => (.next { t with bg := g (s.accept i) } : Out)) (ready_finish_accept h i)

/-! ### The obligations on colours -/

/-- Settles O28: `RES` gets the packed word, whose bits are the channels' in their places. -/
theorem encrgbPacksTheChannels : Obligations.EncrgbPacksTheChannels := by
  refine ⟨fun w hop => by simp [decode, hop], fun r g b s hready => ?_⟩
  rw [← pack_eq_append]
  exact command_withRes hready (.encrgb r g b) (pack r g b)

/-- Settles O29: three channels below 8 stand in the word without overlap. -/
theorem packKeepsTheHighThreeBits : Obligations.PackKeepsTheHighThreeBits :=
  ⟨by decide, fun r g b => ⟨toNat_pack r g b, pack_eq_append r g b, toNat_pack_le r g b, pack_eq_pack_iff r g b⟩⟩

/-- Settles O30: `RES` gets the palette's entry, which is a list lookup with the default off. -/
theorem encnameReadsThePalette : Obligations.EncnameReadsThePalette := by
  refine ⟨fun w hop => by simp [decode, hop], fun n s hready => ?_, by decide⟩
  rw [← palette_eq_getD]
  exact command_withRes hready (.encname n) (palette n)

/-- Settles O31: `RES` gets the joined bytes, and joining the two bytes of a word gives the word. -/
theorem decodeJoinsTwoBytes : Obligations.DecodeJoinsTwoBytes := by
  refine ⟨fun w hop => by simp [decode, hop], fun s hready => ?_⟩
  have hexec : ∀ hi lo : Byte, exec (.decode hi lo) s = .next { s with res := joinBytes hi lo } := fun hi lo =>
    command_withRes hready (.decode hi lo) (joinBytes hi lo)
  refine ⟨fun hi lo => ?_, fun v => ?_⟩
  · rw [hexec, joinBytes_eq_append]
  · exact (hexec (highByte v) (lowByte v)).trans (by rw [joinBytes_highByte_lowByte])

/-- Settles O32: each of the four writes its register, and acceptance leaves `RES` as it was. -/
theorem colourRegisterCommands : Obligations.ColourRegisterCommands := by
  refine ⟨fun w => ?_, fun v s hready => ⟨?_, ?_, ?_, ?_⟩⟩
  · refine ⟨?_, ?_, ?_, ?_⟩
    all_goals
      intro hop
      simp [decode, hop]
  · exact command_withFg hready (.setfg v) fun _ => v
  · exact command_withBg hready (.setbg v) fun _ => v
  · exact command_withFg hready .setfgr (·.res)
  · exact command_withBg hready .setbgr (·.res)

end Sys2Proof.Machine
end

section
/-! PROOFS. The orientation commands (R100 to R104): the two functions by their inverses, and what `PIXOFF` and `GLYOFF`
write. -/

namespace Sys2Proof.Machine

/-! ### The pixel offset (R100) -/

/-- The coordinates of the pixel that has the buffer offset `c`: the inverse of `pixelOffset`. -/
def pixelCoords (c : Nat) : Orient → Nat × Nat
  | .deg0 => (c % 8, c / 8)
  | .deg90 => (c / 8, 7 - c % 8)
  | .deg180 => (7 - c % 8, 7 - c / 8)
  | .deg270 => (7 - c / 8, c % 8)

theorem pixelCoords_le {c : Nat} (hc : c < 64) (o : Orient) : (pixelCoords c o).1 ≤ 7 ∧ (pixelCoords c o).2 ≤ 7 := by
  cases o <;> simp only [pixelCoords] <;> omega

theorem pixelOffset_pixelCoords {c : Nat} (hc : c < 64) (o : Orient) :
    pixelOffset (pixelCoords c o).1 (pixelCoords c o).2 o = c := by
  cases o <;> simp only [pixelCoords, pixelOffset] <;> omega

theorem pixelCoords_pixelOffset {x y : Nat} (hx : x ≤ 7) (hy : y ≤ 7) (o : Orient) :
    pixelCoords (pixelOffset x y o) o = (x, y) := by
  cases o <;> simp only [pixelCoords, pixelOffset, Prod.mk.injEq] <;> omega

theorem pixelOffset_lt_of_le {x y : Nat} (hx : x ≤ 7) (hy : y ≤ 7) (o : Orient) : pixelOffset x y o < 64 := by
  cases o <;> simp only [pixelOffset] <;> omega

/-! ### The glyph offset (R102) -/

/-- The scan index that shows the glyph cell `g`: the inverse of `glyphOffset`. -/
def glyphScan (g : Nat) : Orient → Nat
  | .deg0 => (7 - g % 8) * 8 + g / 8
  | .deg90 => g
  | .deg180 => g % 8 * 8 + (7 - g / 8)
  | .deg270 => 63 - g

theorem glyphScan_lt {g : Nat} (hg : g < 40) (o : Orient) : glyphScan g o < 64 := by
  cases o <;> simp only [glyphScan] <;> omega

theorem glyphOffset_deg0 (rule : G270Rule) {x : Nat} (hx : x < 8) (y : Nat) :
    glyphOffset rule (y * 8 + x) .deg0 = if x ≤ 4 then some ((x + 1) * 8 - 1 - y) else none := by
  have hcol : (y * 8 + x) % 8 = x := by omega
  have hrow : (y * 8 + x) / 8 = y := by omega
  simp only [glyphOffset, hcol, hrow, gt_iff_lt, ← not_le, ite_not]

theorem glyphOffset_deg90 (rule : G270Rule) (i : Nat) : glyphOffset rule i .deg90 = if i < 40 then some i else none := by
  simp only [glyphOffset, ge_iff_le, ← not_lt, ite_not]

theorem glyphOffset_deg180 (rule : G270Rule) {x : Nat} (hx : x < 8) (y : Nat) :
    glyphOffset rule (y * 8 + x) .deg180 = if 3 ≤ x then some ((7 - x) * 8 + y) else none := by
  have hcol : (y * 8 + x) % 8 = x := by omega
  have hrow : (y * 8 + x) / 8 = y := by omega
  simp only [glyphOffset, hcol, hrow, ← not_le, ite_not]

/-- At 0, 90 and 180 degrees every one of the 40 glyph cells is shown. -/
theorem glyphOffset_glyphScan {o : Orient} (ho : o ≠ .deg270) (rule : G270Rule) {g : Nat} (hg : g < 40) :
    glyphOffset rule (glyphScan g o) o = some g := by
  cases o
  case deg0 =>
    rw [glyphScan, glyphOffset_deg0 rule (by omega), if_pos (by omega), Option.some.injEq]
    omega
  case deg90 => rw [glyphScan, glyphOffset_deg90, if_pos hg]
  case deg180 =>
    rw [glyphScan, glyphOffset_deg180 rule (by omega), if_pos (by omega), Option.some.injEq]
    omega
  case deg270 => exact absurd rfl ho

/-- At 0, 90 and 180 degrees only the 40 glyph cells are shown, each at its one scan index. -/
theorem glyphScan_of_glyphOffset {rule : G270Rule} {o : Orient} (ho : o ≠ .deg270) {i g : Nat} (hi : i < 64)
    (h : glyphOffset rule i o = some g) : g < 40 ∧ i = glyphScan g o := by
  cases o
  case deg270 => exact absurd rfl ho
  all_goals
    simp only [glyphOffset, Option.ite_none_left_eq_some, Option.some.injEq] at h
    simp only [glyphScan]
    omega

theorem glyphOffset_literal_deg270 (i : Nat) :
    glyphOffset .literal i .deg270 = if i ≤ 24 then some (63 - i) else none := by
  simp only [glyphOffset, gt_iff_lt, ← not_le, ite_not]

/-- Every cell shown is a cell, by either rule: 64 and more never come out. -/
theorem glyphOffset_lt {rule : G270Rule} {i g : Nat} {o : Orient} (hi : i < 64) (h : glyphOffset rule i o = some g) :
    g < 64 := by
  by_cases ho : o = .deg270
  · subst ho
    cases rule
    all_goals
      simp only [glyphOffset, Option.ite_none_left_eq_some, Option.some.injEq] at h
      omega
  · obtain ⟨hg, -⟩ := glyphScan_of_glyphOffset ho hi h
    omega

/-! ### The two commands (R101, R103, R193) -/

theorem coords_eq_none {x y : BitVec 4} (h : 7 < x.toNat ∨ 7 < y.toNat) : coords x y = none := if_neg (by omega)

theorem cellIndex_eq_none {b : Byte} (h : 63 < b.toNat) : cellIndex b = none := if_neg (by omega)

/-- An operand out of its domain makes a command of a ready core a no-op. -/
theorem checked_none {α : Type} {s : State} (h : s.Ready) (i : Instr) (f : α → State → State) :
    checked i none f s = .next s :=
  command_id h i

theorem execPixoff_of_le {s : State} (h : s.Ready) (o : Orient) {x y : BitVec 4} (hx : x.toNat ≤ 7) (hy : y.toNat ≤ 7) :
    execPixoff o x y s = .next { s with res := BitVec.ofNat 16 (pixelOffset x.toNat y.toNat o) } := by
  rw [execPixoff, coords_eq hx hy]
  exact command_withRes h (.pixoff o x y) (BitVec.ofNat 16 (pixelOffset x.toNat y.toNat o))

theorem execPixoff_of_lt {s : State} (h : s.Ready) (o : Orient) {x y : BitVec 4} (hxy : 7 < x.toNat ∨ 7 < y.toNat) :
    execPixoff o x y s = .next s := by
  rw [execPixoff, coords_eq_none hxy]
  exact checked_none h _ _

theorem execGlyoff_of_le {s : State} (h : s.Ready) (o : Orient) {scan : Byte} (hscan : scan.toNat ≤ 63) :
    execGlyoff o scan s = .next { s with res := glyphOffsetWord (glyphOffset s.cfg.g270 scan.toNat o) } := by
  rw [execGlyoff, cellIndex_eq hscan]
  exact command_withRes h (.glyoff o scan) (glyphOffsetWord (glyphOffset s.cfg.g270 scan.toNat o))

theorem execGlyoff_of_lt {s : State} (h : s.Ready) (o : Orient) {scan : Byte} (hscan : 63 < scan.toNat) :
    execGlyoff o scan s = .next s := by
  rw [execGlyoff, cellIndex_eq_none hscan]
  exact checked_none h _ _

/-! ### The obligations on orientation -/

/-- Settles O33: `pixelCoords` is the two-sided inverse at each orientation. -/
theorem pixelOffsetIsABijection : Obligations.PixelOffsetIsABijection := by
  refine ⟨fun x y => ⟨rfl, rfl, rfl, rfl⟩, fun o => ⟨fun x y hx hy => pixelOffset_lt_of_le hx hy o, fun c hc => ?_⟩⟩
  obtain ⟨hx, hy⟩ := pixelCoords_le hc o
  refine ⟨_, _, hx, hy, pixelOffset_pixelCoords hc o, fun x' y' hx' hy' h => ?_⟩
  have hinv := pixelCoords_pixelOffset hx' hy' o
  rw [h] at hinv
  rw [hinv]
  exact ⟨rfl, rfl⟩

/-- Settles O35: the three tables by `(x, y)`; `glyphScan` is the inverse that makes them bijections; and the two rules at
270 degrees. -/
theorem glyphOffsetReachesTheGlyph : Obligations.GlyphOffsetReachesTheGlyph := by
  refine ⟨fun rule x y hx _ => ⟨glyphOffset_deg0 rule hx y, glyphOffset_deg90 rule _, glyphOffset_deg180 rule hx y⟩,
    fun rule o ho => ⟨fun i g hi h => ?_, fun g hg => ?_⟩, fun i _ => glyphOffset_literal_deg270 i, fun _ _ => rfl⟩
  · exact (glyphScan_of_glyphOffset ho hi h).1
  · exact ⟨glyphScan g o, glyphScan_lt hg o, glyphOffset_glyphScan ho rule hg,
      fun i' hi' h => (glyphScan_of_glyphOffset ho hi' h).2⟩

/-- Settles O34: the checked coordinates are written through `pixelOffset`, or there are none. -/
theorem pixoffWritesTheOffset : Obligations.PixoffWritesTheOffset :=
  ⟨fun w hop => by simp [decode, hop], by decide, fun o _ _ _ hready =>
    ⟨fun ⟨hx, hy⟩ => execPixoff_of_le hready o hx hy, fun hxy => execPixoff_of_lt hready o hxy⟩⟩

/-- Settles O36: the printed tables at 0 and 180 degrees entry by entry, the others by what the function is. -/
theorem glyphOffsetTable : Obligations.GlyphOffsetTable :=
  ⟨by decide, fun i _ => glyphOffset_deg90 .literal i, by decide, by decide⟩

/-- Settles O37: the word written is 0x8000 for none and the cell otherwise, which is below 64. -/
theorem glyoffWritesCellOrNone : Obligations.GlyoffWritesCellOrNone := by
  refine ⟨fun w hop => by simp [decode, hop], fun _ => ⟨rfl, rfl, rfl, rfl, rfl, rfl⟩, rfl, rfl, fun o scan s hready =>
    ⟨fun hscan => ⟨fun hnone => ?_, fun g hg => ⟨glyphOffset_lt (by omega) hg, ?_⟩⟩, execGlyoff_of_lt hready o⟩⟩
  · exact (execGlyoff_of_le hready o hscan).trans (by rw [hnone, glyphOffsetWord])
  · exact (execGlyoff_of_le hready o hscan).trans (by rw [hg, glyphOffsetWord])

end Sys2Proof.Machine
end

section
/-! PROOFS. The glyph store's atomic commands (R110 to R114, R116, R118): where a character stands in the alphabet, and what
`GLYIDX`, `GLYADDR` and `GLYBIT` write. -/

namespace Sys2Proof.Machine

/-! ### The position in the alphabet and the index (R111, R112) -/

/-- The position of a character is that of its first entry. -/
theorem positionIn_of_first {alphabet : List Byte} {ch : Byte} {p : Nat} (hp : alphabet[p]? = some ch)
    (hfirst : ∀ q, q < p → alphabet[q]? ≠ some ch) : positionIn alphabet ch = p := by
  obtain ⟨hlt, hget⟩ := List.getElem?_eq_some_iff.mp hp
  have hfind : alphabet.findIdx? (· == ch) = some p := by
    refine List.findIdx?_eq_some_iff_getElem.mpr ⟨hlt, by simpa using hget, fun q hq hch => ?_⟩
    exact hfirst q hq (List.getElem?_eq_some_iff.mpr ⟨_, by simpa using hch⟩)
  rw [positionIn, hfind]

theorem positionIn_of_not_mem {alphabet : List Byte} {ch : Byte} (h : ch ∉ alphabet) : positionIn alphabet ch = -1 := by
  have hfind : alphabet.findIdx? (· == ch) = none := by
    refine List.findIdx?_eq_none_iff.mpr fun c hc => ?_
    rw [beq_eq_false_iff_ne]
    rintro rfl
    exact h hc
  rw [positionIn, hfind]

/-- The clamp of R112 is the truncated difference of a position. -/
theorem glyphIndex_of_position {alphabet : List Byte} {ch : Byte} {p : Nat} (h : positionIn alphabet ch = p) :
    glyphIndex alphabet ch = 90 - p := by
  rw [glyphIndex, h, clamp, maxIndex]
  split_ifs <;> omega

theorem glyphIndex_of_not_mem {alphabet : List Byte} {ch : Byte} (h : ch ∉ alphabet) : glyphIndex alphabet ch = 90 := by
  rw [glyphIndex, positionIn_of_not_mem h]
  rfl

/-! ### The address of a chunk (R113) -/

theorem chunkRow_eq {b : Byte} (h : b.toNat ≤ 4) : chunkRow b = some b.toNat := if_pos h

theorem chunkRow_eq_none {b : Byte} (h : 4 < b.toNat) : chunkRow b = none := if_neg (by omega)

theorem chunkAddr_add {row : Nat} (index : Nat) (h : row ≤ 4) :
    chunkAddr index row + 16 * row = 3098 + index * 80 + 64 := by
  simp only [chunkAddr, fontBase, glyphStride, chunkBytes]
  omega

/-- The address of a chunk fits in a register. -/
theorem toNat_chunkAddr {index : Nat} (row : Nat) (h : index ≤ 90) :
    (BitVec.ofNat 16 (chunkAddr index row)).toNat = chunkAddr index row := by
  have := chunkAddr_bound (row := row) h
  rw [BitVec.toNat_ofNat, Nat.mod_eq_of_lt (by omega)]

/-! ### The commands -/

theorem execGlyidx_eq {s : State} (h : s.Ready) (ch : Byte) :
    exec (.glyidx ch) s = .next { s with res := BitVec.ofNat 16 (glyphIndex s.cfg.alphabet ch) } :=
  command_withRes h (.glyidx ch) (BitVec.ofNat 16 (glyphIndex s.cfg.alphabet ch))

theorem execGlyaddr_of_le {s : State} (h : s.Ready) {row : Byte} (ch : Byte) (hrow : row.toNat ≤ 4) :
    exec (.glyaddr row ch) s =
      .next { s with res := BitVec.ofNat 16 (chunkAddr (glyphIndex s.cfg.alphabet ch) row.toNat) } := by
  rw [exec, execGlyaddr, chunkRow_eq hrow]
  exact command_withRes h (.glyaddr row ch) _

theorem execGlyaddr_of_lt {s : State} (h : s.Ready) {row : Byte} (ch : Byte) (hrow : 4 < row.toNat) :
    exec (.glyaddr row ch) s = .next s := by
  rw [exec, execGlyaddr, chunkRow_eq_none hrow]
  exact checked_none h _ _

theorem execGlybit_of_le {s : State} (h : s.Ready) {g : Byte} (hg : g.toNat ≤ 63) :
    exec (.glybit g) s = .next { s with res := if s.glAt g.toNat then 1 else 0 } := by
  rw [exec, execGlybit, cellIndex_eq hg]
  exact command_withRes h (.glybit g) (if s.glAt g.toNat then 1 else 0)

theorem execGlybit_of_lt {s : State} (h : s.Ready) {g : Byte} (hg : 63 < g.toNat) : exec (.glybit g) s = .next s := by
  rw [exec, execGlybit, cellIndex_eq_none hg]
  exact checked_none h _ _

theorem execGlybit_of_unlit {s : State} (h : s.Ready) {g : Byte} (hg : g.toNat ≤ 63) (hunlit : s.glAt g.toNat = false) :
    exec (.glybit g) s = .next { s with res := 0 } := by
  rw [execGlybit_of_le h hg, hunlit, if_neg Bool.false_ne_true]

/-! ### The obligations on them -/

/-- Settles O38: the table is written out, and the five codes are not in it. -/
theorem defaultAlphabetPositions : Obligations.DefaultAlphabetPositions := by
  have hout : ∀ ch ∈ ([0x5C, 0x60, 0x5E, 0x7B, 0x7D] : List Byte), ch ∉ defaultAlphabet := by decide
  exact ⟨rfl, by decide, rfl, rfl, rfl, rfl, rfl, fun ch hch => positionIn_of_not_mem (hout ch hch)⟩

/-- Settles O39: the first entry is the position of a member, and the clamp takes a code that is none to 90. -/
theorem glyidxClampsThePosition : Obligations.GlyidxClampsThePosition := by
  refine ⟨fun w hop => by simp [decode, hop], fun ch s hready => ⟨fun p hp hfirst => ?_, fun hout => ?_⟩⟩
  · rw [execGlyidx_eq hready, glyphIndex_of_position (positionIn_of_first hp hfirst)]
  · exact (execGlyidx_eq hready ch).trans (by rw [glyphIndex_of_not_mem hout]; rfl)

/-- Settles O40: the index is at most 90, so the offset neither wraps nor leaves the glyphs' part of the font. -/
theorem glyaddrWritesTheChunkOffset : Obligations.GlyaddrWritesTheChunkOffset := by
  refine ⟨fun w hop => by simp [decode, hop], fun row ch s hready => ⟨fun hrow => ?_, execGlyaddr_of_lt hready ch⟩⟩
  have hindex := glyphIndex_le s.cfg.alphabet ch
  have haddr := chunkAddr_add (glyphIndex s.cfg.alphabet ch) hrow
  refine ⟨_, execGlyaddr_of_le hready ch hrow, ?_⟩
  rw [toNat_chunkAddr _ hindex]
  omega

/-- Settles O43: the checked index reads its cell, and a cell that is not lit reads 0. -/
theorem glybitReadsTheLatch : Obligations.GlybitReadsTheLatch := by
  refine ⟨fun w hop => by simp [decode, hop], fun g s hready => ⟨execGlybit_of_le hready, execGlybit_of_lt hready, ?_, ?_⟩⟩
  · rintro hinv ⟨hlow, hhigh⟩
    exact execGlybit_of_unlit hready hhigh (hinv _ hlow)
  · intro hg
    exact execGlybit_of_unlit ⟨rfl, rfl, rfl⟩ hg (reset_glAt _)

end Sys2Proof.Machine
end

section
/-! PROOFS. `LOOKUP` whose reads are answered, at once or after waits (R115, R117). -/

namespace Sys2Proof.Machine

/-! ### The chunks in order (R113) -/

theorem chunksFrom_zero : chunksFrom 0 = List.range 5 := rfl

theorem chunksFrom_of_lt {row : Nat} (h : row < 5) : chunksFrom row = row :: chunksFrom (row + 1) := by
  rw [chunksFrom, List.drop_eq_getElem_cons (by simpa [glyphChunks] using h), List.getElem_range]
  rfl

theorem chunksRead_range_succ (s : State) (row : Nat) :
    s.chunksRead (List.range (row + 1)) = (s.chunksRead (List.range row)).readChunk row := by
  rw [State.chunksRead, List.range_succ, List.foldl_append]
  rfl

/-- Chunk 0 lies highest, so a glyph whose chunk 0 is in the image is in it whole (R52, R113). -/
theorem chunk_in_image {index row size : Nat} (h : chunkAddr index 0 + chunkBytes ≤ size) :
    chunkAddr index row + chunkBytes ≤ size := by
  simp only [chunkAddr] at *
  omega

/-! ### A lookup that waits -/

/-- `u` is what a lookup begun in `s` has left when its chunk `row` comes next: the chunks before it read, whatever samples its
waits took and whatever others wrote meanwhile. -/
def State.ReadUpTo (s : State) (row : Nat) (u : State) : Prop :=
  (∀ a, s.Untouched a → u.devAt a = s.devAt a ∧ u.Untouched a) ∧
  ∃ r f fo d td, f.All (· ≠ .failed) ∧ u = { s.chunksRead (List.range row) with
    dev := d, todo := td, plat := { s.plat with rst := r, font := f, foreign := fo } }

/-- What a lookup begun in `s` has left at the end of a step: it waits for one of its chunks, or it has loaded `GL`. -/
def State.LookupLeft (s t : State) : Prop :=
  (∃ row, row < 5 ∧ t.todo = [.fontRow row] ∧ s.ReadUpTo row t) ∨
  ∃ u, s.ReadUpTo 5 u ∧ t = (u.withGl (glyphClosed u.glyph)).finish

variable {s u t : State} {row : Nat}

theorem State.ReadUpTo.font (h : s.ReadUpTo row u) : u.plat.font.All (· ≠ .failed) := by
  obtain ⟨-, r, f, fo, d, td, hf, rfl⟩ := h
  exact hf

theorem State.ReadUpTo.cfg_fontIdx (h : s.ReadUpTo row u) : u.cfg = s.cfg ∧ u.fontIdx = s.fontIdx := by
  obtain ⟨-, r, f, fo, d, td, -, rfl⟩ := h
  obtain ⟨g, f, tr, hshape⟩ := chunksRead_shape s (List.range row)
  rw [hshape]
  exact ⟨rfl, rfl⟩

theorem State.ReadUpTo.readChunk (h : s.ReadUpTo row u) : s.ReadUpTo (row + 1) (u.readChunk row) := by
  obtain ⟨hdev, r, f, fo, d, td, hf, rfl⟩ := h
  refine ⟨hdev, r, f.later, fo, d, td, hf.later, ?_⟩
  rw [chunksRead_range_succ]
  rfl

theorem State.ReadUpTo.sampledFont (h : s.ReadUpTo row u) (todo : List Op) :
    s.ReadUpTo row { u.sampledFont with todo := todo } := by
  obtain ⟨hdev, r, f, fo, d, td, hf, rfl⟩ := h
  exact ⟨hdev, r, f.later, fo, d, todo, hf.later, rfl⟩

theorem State.ReadUpTo.begun (h : s.ReadUpTo row u) : s.ReadUpTo row u.begun := by
  obtain ⟨hdev, r, f, fo, d, td, hf, hu⟩ := h
  refine ⟨fun a ha => ?_, ?_⟩
  · obtain ⟨hsame, huntouched⟩ := hdev a ha
    obtain ⟨hsame', huntouched'⟩ := begun_devAt huntouched
    exact ⟨hsame'.trans hsame, huntouched'⟩
  · obtain ⟨d', fo', hbegun⟩ := begun_shape u
    exact ⟨_, f, fo', d', td, hf, by rw [hbegun, hu]⟩

/-- A lookup that goes on at chunk `row`, where no read fails, comes to its end or to a wait for a later answer. -/
theorem lookup_resumes (hfits : chunkAddr s.fontIdx 0 + chunkBytes ≤ s.cfg.font.size) (hrow : row ≤ 5)
    (h : s.ReadUpTo row u) : s.LookupLeft (run [.fontRow row] u) := by
  induction hrow using Nat.decreasingInduction generalizing u with
  | self =>
    exact .inr ⟨u, h, rfl⟩
  | of_succ row hrow ih =>
    have hcons : runOp (.fontRow row) u = readChunks (row :: chunksFrom (row + 1)) u := by
      rw [runOp, chunksFrom_of_lt hrow]
    by_cases hsilent : u.plat.font.now = .silent
    · rw [run_wait (hcons.trans (if_pos hsilent))]
      exact .inl ⟨row, hrow, rfl, h.sampledFont _⟩
    · have hanswered : ¬ u.fontFails (chunkAddr u.fontIdx row) = true := by
        have := chunk_in_image (row := row) hfits
        simp only [State.fontFails, h.cfg_fontIdx, h.font.now, decide_false, Bool.false_or, decide_eq_true_eq]
        omega
      have hread : runOp (.fontRow row) u = runOp (.fontRow (row + 1)) (u.readChunk row) :=
        hcons.trans ((if_neg hsilent).trans (if_neg hanswered))
      have hrun : run [.fontRow row] u = run [.fontRow (row + 1)] (u.readChunk row) := by simp only [run, hread]
      rw [hrun]
      exact ih h.readChunk

/-- Throughout a `LOOKUP` whose reads do not fail. -/
theorem Executes.lookupLeft {ch : Byte} {k : Nat} (hfont : s.FontWillAnswer) (h : Executes (.lookup ch) k s t) :
    ((s.accept (.lookup ch)).beginLookup ch).LookupLeft t := by
  obtain ⟨hanswers, hsize⟩ := hfont
  have hfits := Nat.le_trans (chunkAddr_bound (row := 0) (glyphIndex_le s.cfg.alphabet ch)) hsize
  refine h.keeps (P := State.LookupLeft _) ?_ ?_
  · intro t ht
    cases ht
    exact lookup_resumes (row := 0) hfits (Nat.zero_le 5) ⟨fun _ ha => ⟨rfl, ha⟩, _, _, _, _, _, hanswers, rfl⟩
  · rintro u (⟨row, hrow, htodo, hread⟩ | ⟨v, -, rfl⟩) hbusy
    · rw [State.resume, begun_todo, htodo]
      exact lookup_resumes hfits (Nat.le_of_lt hrow) hread.begun
    · cases hbusy

/-- A `LOOKUP` of a ready core that has ended with every chunk read has loaded the character's glyph (R115, R117). -/
theorem lookedUp_of_left {ch : Byte} (hready : s.Ready) (h : ((s.accept (.lookup ch)).beginLookup ch).LookupLeft t)
    (ht : t.Ready) : (s.rstOf t).LookedUp ch t := by
  obtain ⟨hbusy, hcmd, htodo⟩ := hready
  rcases h with ⟨row, -, hwaits, -⟩ | ⟨u, ⟨hdev, r, f, fo, d, td, -, rfl⟩, rfl⟩
  · exact absurd (hwaits.symm.trans ht.2.2) (List.cons_ne_nil _ _)
  have hglyph := glyphClosed_chunks ((s.accept (.lookup ch)).beginLookup ch)
  have htrace := chunksRead_trace ((s.accept (.lookup ch)).beginLookup ch) (List.range 5)
  obtain ⟨g, f', tr, hshape⟩ := chunksRead_shape ((s.accept (.lookup ch)).beginLookup ch) (List.range 5)
  rw [chunksFrom_zero] at hglyph
  rw [hshape] at hglyph htrace hdev ⊢
  refine ⟨holdsGlyph_of hglyph, htrace, ?_, fun a ha => (hdev a ha).1, rfl, ?_⟩
  · simp only [State.OnlyTransacts, State.rstOf, State.finish, State.withGl, State.beginLookup, State.accept, hcmd, htodo,
      ← hbusy]
  · show ({ s.status with busy := false } : Status) = s.status
    rw [← hbusy]

/-- A `LOOKUP` whose reads are answered at once ends in the step that accepts it. -/
theorem execLookup_answered (hfont : s.FontAnswers) (ch : Byte) :
    exec (.lookup ch) s = .next ((s.accept (.lookup ch)).lookedUp ch).finish :=
  congrArg Host.Outcome.next (run_done (op := .lookup ch) (lookupChar_done (s := s.accept (.lookup ch)) hfont ch) [])

/-- Settles O41: `LookupLeft` holds from the acceptance on, and of a core that is ready again it says what was loaded. -/
theorem lookupLoadsTheGlyph : Obligations.LookupLoadsTheGlyph := by
  refine ⟨fun w hop => by simp [decode, hop], fun ch s hready => ⟨fun hfont => ?_, fun hfont k t hexec ht => ?_⟩⟩
  · have hexec := execLookup_answered hfont ch
    obtain ⟨hanswers, hsize⟩ := hfont
    have hwill : s.FontWillAnswer := ⟨hanswers.mono (by rintro _ rfl; decide), hsize⟩
    refine ⟨_, hexec, ?_⟩
    have hleft := lookedUp_of_left hready (Executes.lookupLeft (k := 0) hwill hexec) (ready_finish _)
    obtain ⟨i, g, f, -, hshape⟩ := lookedUp_shape (s.accept (.lookup ch)) ch hanswers
    rwa [hshape] at hleft ⊢
  · exact lookedUp_of_left hready (hexec.lookupLeft hfont) ht

end Sys2Proof.Machine
end

section
/-! PROOFS. A lookup by its answers (R115, R119), and what one of whose reads fails leaves of `LOOKUP` and `STATIC`. -/

namespace Sys2Proof.Machine

variable {s : State} {ch : Byte} {k : Nat}

/-! ### The reads of a lookup, answer by answer -/

theorem chunksRead_font_skip (s : State) (rows : List Nat) :
    (s.chunksRead rows).plat.font = s.plat.font.skip rows.length := by
  unfold State.chunksRead
  induction rows generalizing s with
  | nil => rfl
  | cons row rows ih => exact ih (s.readChunk row)

/-- Reads that are answered with bytes leave the rest to read. -/
theorem readChunks_append {rows : List Nat} (rest : List Nat) (hok : ∀ j < rows.length, s.plat.font.nth j = .ok)
    (hfits : ∀ row ∈ rows, chunkAddr s.fontIdx row + chunkBytes ≤ s.cfg.font.size) :
    readChunks (rows ++ rest) s = readChunks rest (s.chunksRead rows) := by
  induction rows generalizing s with
  | nil => rfl
  | cons row rows ih =>
    have hnow : s.plat.font.now = .ok := s.plat.font.nth_zero ▸ hok 0 (Nat.succ_pos _)
    have hrow := hfits row List.mem_cons_self
    have hanswered : ¬ s.fontFails (chunkAddr s.fontIdx row) = true := by
      simp only [State.fontFails, hnow, reduceCtorEq, decide_false, Bool.false_or, decide_eq_true_eq]
      omega
    have hread : readChunks (row :: (rows ++ rest)) s = readChunks (rows ++ rest) (s.readChunk row) :=
      (if_neg (by simp [hnow])).trans (if_neg hanswered)
    exact hread.trans (ih (s := s.readChunk row)
      (fun j hj => s.plat.font.nth_later j ▸ hok (j + 1) (Nat.succ_lt_succ hj))
      fun r hr => hfits r (List.mem_cons_of_mem _ hr))

/-- A lookup whose five reads are answered with bytes is done, whatever the answers after them. -/
theorem lookupChar_done_of_nth (hfits : s.GlyphInImage ch) (hok : ∀ j < 5, s.plat.font.nth j = .ok) :
    lookupChar ch s = .done (s.lookedUp ch) := by
  have hread := readChunks_append (s := s.beginLookup ch) (rows := chunksFrom 0) [] hok
    fun row _ => chunk_in_image hfits
  rw [List.append_nil, readChunks, glyphClosed_chunks] at hread
  exact hread

/-- What a lookup has left when its read of chunk `k` is the first to fail: `GL` is untouched (R119). -/
def State.lookupFailed (s : State) (ch : Byte) (k : Nat) : State :=
  ((s.beginLookup ch).chunksRead (List.range k)).sampledFont.log
    (.fontRead (chunkAddr (glyphIndex s.cfg.alphabet ch) k) false)

/-- The failing read has one of the five numbers. -/
theorem State.LookupFails.lt {ans : Answer} (h : s.LookupFails ch k ans) : k < 5 := by
  rcases h with ⟨-, hk, -⟩ | ⟨-, rfl, -⟩
  · exact hk
  · decide

theorem lookupChar_fails {ans : Answer} (h : s.LookupFails ch k ans) (hok : ∀ j < k, s.plat.font.nth j = .ok)
    (hans : s.plat.font.nth k = ans) : lookupChar ch s = .raise .fontErr (s.lookupFailed ch k) := by
  have hrows : chunksFrom 0 = List.range k ++ k :: chunksFrom (k + 1) := by
    rw [← chunksFrom_of_lt h.lt, ← List.take_append_drop k (chunksFrom 0), chunksFrom_zero, List.take_range,
      Nat.min_eq_left (Nat.le_of_lt h.lt)]
    rfl
  -- no read before number `k` runs past the end of the image
  have hfits : ∀ row ∈ List.range k,
      chunkAddr (s.beginLookup ch).fontIdx row + chunkBytes ≤ (s.beginLookup ch).cfg.font.size := by
    rcases h with ⟨-, -, hfits⟩ | ⟨-, rfl, -⟩
    · exact fun row _ => chunk_in_image hfits
    · nofun
  obtain ⟨g, f, tr, hshape⟩ := chunksRead_shape (s.beginLookup ch) (List.range k)
  have hnow : ((s.beginLookup ch).chunksRead (List.range k)).plat.font.now = ans := by
    rw [chunksRead_font_skip, Script.now_skip, List.length_range]
    exact hans
  have hsilent : ans ≠ .silent := by
    rcases h with ⟨rfl, -⟩ | ⟨h, -⟩
    exacts [nofun, h]
  have hfails : ((s.beginLookup ch).chunksRead (List.range k)).fontFails
      (chunkAddr (glyphIndex s.cfg.alphabet ch) k) = true := by
    rw [State.fontFails, hnow, hshape, Bool.or_eq_true, decide_eq_true_eq, decide_eq_true_eq]
    exact h.imp (·.1) fun ⟨_, hk, hout⟩ => by rw [hk]; exact Nat.not_le.mp hout
  have hidx : ((s.beginLookup ch).chunksRead (List.range k)).fontIdx = glyphIndex s.cfg.alphabet ch := by rw [hshape]; rfl
  rw [lookupChar, hrows, readChunks_append _ (by rwa [List.length_range]) hfits, readChunks, if_neg (by rwa [hnow]), hidx,
    if_pos hfails]
  rfl

/-- A lookup that fails changes its own locals, the font answers and the history, by `k + 1` reads (R119). -/
theorem lookupFailed_shape (s : State) (ch : Byte) (hk : k ≤ 5) : ∃ i g f, s.lookupFailed ch k =
    { s with
      fontIdx := i, glyph := g, plat := { s.plat with font := f }
      trace := s.trace ++ (lookupReads s.cfg.alphabet ch).take k ++
        [.fontRead (chunkAddr (glyphIndex s.cfg.alphabet ch) k) false] } := by
  obtain ⟨g, f, tr, hshape⟩ := chunksRead_shape (s.beginLookup ch) (List.range k)
  have htrace := chunksRead_trace (s.beginLookup ch) (List.range k)
  have hreads : (lookupReads s.cfg.alphabet ch).take k =
      (List.range k).map fun row => .fontRead (chunkAddr (glyphIndex s.cfg.alphabet ch) row) true := by
    rw [lookupReads, ← List.map_take, show [0, 1, 2, 3, 4] = List.range 5 from rfl, List.take_range, Nat.min_eq_left hk]
  rw [hshape] at htrace
  refine ⟨glyphIndex s.cfg.alphabet ch, g, f.later, ?_⟩
  rw [State.lookupFailed, hshape, hreads]
  exact congrArg (fun tr => State.log
    { s.beginLookup ch with glyph := g, plat := { s.plat with font := f.later }, trace := tr } _) htrace

/-! ### `LOOKUP` and `STATIC` -/

/-- A `LOOKUP`, or a `STATIC` of a message of one character, begins with its lookup and ends there if that fails. -/
theorem exec_lookup_fails {i : Instr} {u : State}
    (hi : i = .lookup ch ∨ s.msglen.toNat = 1 ∧ s.msgAt 0 = ch ∧ ∃ o, i = .static o)
    (hfails : lookupChar ch (s.accept i) = .raise .fontErr u) : exec i s = .next (u.raise .fontErr) := by
  rcases hi with rfl | ⟨hlen, hch, o, rfl⟩
  · exact congrArg Host.Outcome.next (run_raise (op := .lookup ch) hfails [])
  · rw [← hch] at hfails
    exact (if_pos hlen).trans (congrArg Host.Outcome.next (run_raise (op := .lookup (s.msgAt 0)) hfails _))

/-- The abort of a command of a ready core that is no `SCROLL` and has done nothing but its failing lookup (R119, R196). -/
theorem raise_lookupFailed (hready : s.Ready) {i : Instr} (hi : isScroll i = false) (ch : Byte) (hk : k ≤ 5) :
    ∃ x g f, ((s.accept i).lookupFailed ch k).raise .fontErr =
      { s with
        status := { s.status with fonterr := true }
        fontIdx := x, glyph := g, plat := { s.plat with font := f }
        trace := s.trace ++ (lookupReads s.cfg.alphabet ch).take k ++
          [.fontRead (chunkAddr (glyphIndex s.cfg.alphabet ch) k) false] } := by
  obtain ⟨hbusy, hcmd, htodo⟩ := hready
  obtain ⟨x, g, f, hshape⟩ := lookupFailed_shape (s.accept i) ch hk
  refine ⟨x, g, f, ?_⟩
  rw [hshape, raise_of_not_scrolling ((scrolling_of_cmd (i := i) rfl).trans hi)]
  simp only [State.finish, State.withStatus, State.accept, Status.raiseFlag, hcmd, htodo, ← hbusy]

theorem lookup_fontFailure {i : Instr} {ans : Answer} {rest : List Answer} (hready : s.Ready) (h : s.LookupFails ch k ans)
    (hnext : s.plat.font.next = List.replicate k .ok ++ ans :: rest)
    (hi : i = .lookup ch ∨ s.msglen.toNat = 1 ∧ s.msgAt 0 = ch ∧ ∃ o, i = .static o) :
    ∃ t, exec i s = .next t ∧ t.status = { s.status with fonterr := true } ∧ t.gl = s.gl ∧ t.pb = s.pb ∧
      (∀ a, s.Untouched a → t.devAt a = s.devAt a) ∧
      t.trace = s.trace ++ ((lookupReads s.cfg.alphabet ch).take k) ++
        [.fontRead (chunkAddr (glyphIndex s.cfg.alphabet ch) k) false] ∧
      ({ s with status := t.status } : State).OnlyTransacts t := by
  obtain ⟨hok, hans⟩ := nth_of_next hnext
  have hscroll : isScroll i = false := by
    rcases hi with rfl | ⟨-, -, o, rfl⟩
    all_goals rfl
  have hexec := exec_lookup_fails hi (lookupChar_fails (s := s.accept i) h hok hans)
  obtain ⟨x, g, f, hraise⟩ := raise_lookupFailed hready hscroll ch (Nat.le_of_lt h.lt)
  rw [hraise] at hexec
  exact ⟨_, hexec, rfl, rfl, rfl, fun _ _ => rfl, rfl, rfl⟩

end Sys2Proof.Machine
end

section
/-! PROOFS. A `SCROLL` up to the lookup of one of its characters (R156, R160), before a platform that answers its font reads from
a script of its own: it goes on as it does where every read is answered, as long as its own are. -/

namespace Sys2Proof.Machine

/-! ### The same state with its own font answers -/

/-- `s` before a platform with a font image of this size that gives these answers to its font reads. -/
def State.reading (s : State) (size : Nat) (f : Script Answer) : State :=
  { s with
    cfg := { s.cfg with font := { s.cfg.font with size := size } }
    plat := { s.plat with font := f } }

/-- `s` before a platform that answers every font read with bytes. -/
def State.fontAnswering (s : State) : State := s.reading 10378 ⟨[], .ok⟩

theorem fontAnswering_reading (s : State) : s.fontAnswering.reading s.cfg.font.size s.plat.font = s := rfl

theorem fontAnswering_calm {s : State} (hdevice : s.DeviceAnswers) (htick : s.Ticking) (hcancel : s.NotCancelled) :
    s.fontAnswering.Calm :=
  ⟨⟨⟨nofun, rfl⟩, Nat.le_refl _⟩, hdevice, htick, hcancel⟩

theorem Script.skip_add {α : Type} (sc : Script α) (m n : Nat) : sc.skip (m + n) = (sc.skip m).skip n := by
  rw [Script.skip, Nat.add_comm, Function.iterate_add_apply]
  rfl

theorem Script.nth_skip {α : Type} (sc : Script α) (m n : Nat) : (sc.skip m).nth n = sc.nth (m + n) := by
  rw [← Script.now_skip, ← Script.now_skip, Script.skip_add]

/-! ### Pacing waits and font reads in the history -/

/-- `t` comes after `s`, with `p` pacing waits and `r` font reads between them. -/
def Logged (p r : Nat) (s t : State) : Prop :=
  ∃ new, t.trace = s.trace ++ new ∧ new.count .pace = p ∧ new.countP Event.isFontRead = r

theorem Logged.trans {p q r r' : Nat} {s t u : State} (h : Logged p r s t) (k : Logged q r' t u) :
    Logged (p + q) (r + r') s u := by
  obtain ⟨new, htrace, hpaces, hreads⟩ := h
  obtain ⟨new', htrace', hpaces', hreads'⟩ := k
  exact ⟨new ++ new', by rw [htrace', htrace, List.append_assoc], by rw [List.count_append, hpaces, hpaces'],
    by rw [List.countP_append, hreads, hreads']⟩

theorem logged_of_eq {s t : State} (h : t.trace = s.trace) : Logged 0 0 s t := ⟨[], by rw [h, List.append_nil], rfl, rfl⟩

/-! ### Statements that are answered on both platforms -/

/-- Of the statements `ops`, begun in the calm state `s`: on a platform with the font answers `f` they are done as well and come
to the same, with `r` of those answers taken; and `p` pacing waits and `r` font reads are logged. -/
structure Mirrored (ops : List Op) (size : Nat) (f : Script Answer) (p r : Nat) (s : State) : Prop where
  steps : Steps ops (s.reading size f) ((after ops s).reading size (f.skip r))
  logged : Logged p r s (after ops s)

variable {size p q r r' : Nat} {f : Script Answer} {s : State}

theorem Mirrored.nil : Mirrored [] size f 0 0 s := ⟨.nil _, logged_of_eq rfl⟩

theorem Mirrored.append {a b : List Op} (h : Mirrored a size f p r s) (k : Mirrored b size (f.skip r) q r' (after a s)) :
    Mirrored (a ++ b) size f (p + q) (r + r') s := by
  refine ⟨?_, ?_⟩
  · rw [after_append, Script.skip_add]
    exact h.steps.append k.steps
  · rw [after_append]
    exact h.logged.trans k.logged

/-- One statement, by what it comes to on each of the two platforms. -/
theorem Mirrored.of_done {op : Op} {t : State} (h : runOp op s = .done t)
    (k : runOp op (s.reading size f) = .done (t.reading size (f.skip r))) (hlogged : Logged p r s t) :
    Mirrored [op] size f p r s := by
  refine ⟨?_, ?_⟩
  all_goals rw [after_cons, h, after_nil]
  · exact .cons k (.nil _)
  · exact hlogged

/-- A statement that reads no font takes none of the font's answers. -/
theorem mirrored_op {op : Op} (hresume : op.isResume = false) (hfont : op.readsFont = false) (h : s.Calm) :
    Mirrored [op] size f ([op].count .pace) 0 s := by
  obtain ⟨-, hdevice, htick, hcancel⟩ := h
  cases op <;> first | (cases hresume; done) | (cases hfont; done) | skip
  case flush off n =>
    refine .of_done (flush_done_or_skipped hdevice off n)
      ((flush_done_or_skipped (s := s.reading size f) hdevice off n).trans ?_) ?_
    · rw [apply_ite (State.reading · size _)]
      rfl
    · split
      · exact ⟨_, flushed_trace s off n, rfl, rfl⟩
      · exact logged_of_eq rfl
  case pace => exact .of_done (pace_done htick) (pace_done (s := s.reading size f) htick) ⟨[.pace], rfl, rfl, rfl⟩
  case checkCancel =>
    exact .of_done (cancel_done hcancel) (cancel_done (s := s.reading size f) hcancel) (logged_of_eq rfl)
  all_goals exact .of_done rfl rfl (logged_of_eq rfl)

theorem after_calm {ops : List Op} (hops : ∀ op ∈ ops, op.isResume = false) (h : s.Calm) : (after ops s).Calm :=
  (calm_run hops h).2

theorem mirrored_ops {ops : List Op} (hresume : ∀ op ∈ ops, op.isResume = false) (hfont : ∀ op ∈ ops, op.readsFont = false)
    (h : s.Calm) : Mirrored ops size f (ops.count .pace) 0 s := by
  induction ops generalizing s with
  | nil => exact .nil
  | cons op ops ih =>
    rw [← List.singleton_append, List.count_append]
    have hop := hresume op List.mem_cons_self
    exact (mirrored_op hop (hfont op List.mem_cons_self) h).append
      (ih (fun o ho => hresume o (List.mem_cons_of_mem _ ho)) (fun o ho => hfont o (List.mem_cons_of_mem _ ho))
        (after_calm (by simpa using hop) h))

/-- The lookup of a character of the message takes five answers. -/
theorem mirrored_lookupMsg (h : s.Calm) (hlt : s.schr.toNat < s.n.toNat)
    (hfits : (s.reading size f).GlyphInImage (s.msgAt s.schr.toNat)) (hok : ∀ j < 5, f.nth j = .ok) :
    Mirrored [.lookupMsg] size f 0 5 s := by
  refine .of_done ((if_pos hlt).trans (lookupChar_done h.1 _))
    ((if_pos hlt).trans (lookupChar_done_of_nth (s := s.reading size f) hfits hok)) ?_
  obtain ⟨i, g, f', -, hshape⟩ := lookedUp_shape s (s.msgAt s.schr.toNat) h.1.1
  rw [hshape]
  exact ⟨_, rfl, rfl, rfl⟩

/-! ### Characters -/

/-- The number of a character fits in `SCHR` (R16). -/
theorem toNat_schr {k : Nat} (hk : k < s.msglen.toNat) : (BitVec.ofNat 9 k).toNat = k := by
  have hlen : s.msglen.toNat < 256 := s.msglen.isLt
  rw [BitVec.toNat_ofNat]
  omega

/-- The statements of the steps begin no wait and read no font. -/
theorem mem_steps {o : Orient} {n : Nat} {op : Op} (h : op ∈ (List.range n).flatMap (stepOps o)) :
    op.isResume = false ∧ op.readsFont = false := by
  obtain ⟨c, -, hc⟩ := List.mem_flatMap.mp h
  simp only [stepOps, List.mem_cons, List.not_mem_nil, or_false] at hc
  rcases hc with rfl | rfl | rfl | rfl | rfl | rfl
  all_goals exact ⟨rfl, rfl⟩

/-- Whether a glyph of the message lies in the image is a matter of what no statement touches. -/
theorem glyphInImage_core {t : State} {f' : Script Answer} {j : Nat} (h : SameCore s t)
    (hfits : (s.reading size f).GlyphInImage (s.msgAt j)) : (t.reading size f').GlyphInImage (t.msgAt j) := by
  unfold State.GlyphInImage State.msgAt State.reading at *
  rwa [h.cfg, h.msg]

theorem mirrored_char (o : Orient) {k : Nat} (h : s.Calm) (hn : s.n = s.msglen) (hk : k < s.msglen.toNat)
    (hfits : (s.reading size f).GlyphInImage (s.msgAt k)) (hok : ∀ j < 5, f.nth j = .ok) :
    Mirrored (charOps o k) size f 6 5 s := by
  have hschr := toNat_schr hk
  have hset : Mirrored [.setSchr k] size f 0 0 s := mirrored_op rfl rfl h
  have hcalm : (after [.setSchr k] s).Calm := after_calm (by simp [Op.isResume]) h
  have hlookup : Mirrored [.lookupMsg] size f 0 5 (after [.setSchr k] s) := by
    refine mirrored_lookupMsg hcalm ?_ ?_ hok
    · show (BitVec.ofNat 9 k).toNat < s.n.toNat
      rwa [hschr, hn]
    · show (s.reading size f).GlyphInImage (s.msgAt (BitVec.ofNat 9 k).toNat)
      rwa [hschr]
  have hsteps : Mirrored (.setBlank :: (List.range colsPerChar).flatMap (stepOps o)) size (f.skip 5) 6 0
      (after [.setSchr k, .lookupMsg] s) :=
    mirrored_ops (List.forall_mem_cons.mpr ⟨rfl, fun _ ho => (mem_steps ho).1⟩)
      (List.forall_mem_cons.mpr ⟨rfl, fun _ ho => (mem_steps ho).2⟩) (after_calm (by simp [Op.isResume]) h)
  exact (hset.append hlookup).append hsteps

theorem mirrored_chars (o : Orient) {k : Nat} (h : s.Calm) (hn : s.n = s.msglen) (hk : k ≤ s.msglen.toNat)
    (hfits : ∀ j < k, (s.reading size f).GlyphInImage (s.msgAt j)) (hok : ∀ j < 5 * k, f.nth j = .ok) :
    Mirrored ((List.range k).flatMap (charOps o)) size f (6 * k) (5 * k) s := by
  have hlen : s.msglen.toNat < 256 := s.msglen.isLt
  induction k with
  | zero => exact .nil
  | succ k ih =>
    have hran := charsRan o (List.range k) (fun x hx => by have := List.mem_range.mp hx; omega) s h hn
    rw [List.range_succ, List.flatMap_append, List.flatMap_singleton]
    refine (ih (by omega) (fun j hj => hfits j (by omega)) fun j hj => hok j (by omega)).append
      (mirrored_char o hran.calm (hran.n.trans (hn.trans hran.core.msglen.symm)) (by rw [hran.core.msglen]; omega)
        (glyphInImage_core hran.core (hfits k (Nat.lt_succ_self k))) ?_)
    intro j hj
    rw [Script.nth_skip]
    exact hok _ (by omega)

end Sys2Proof.Machine
end

section
/-! PROOFS. What a `SCROLL` has left when it comes to a character, and when a lookup of one fails (R156, R160, R164). -/

namespace Sys2Proof.Machine

variable {o : Orient} {s t : State} {k : Nat}

/-! ### In front of a character -/

/-- The statements of a `SCROLL` in front of its character `k` (R156). -/
def scrollBefore (o : Orient) (k : Nat) : List Op := scrollStart ++ (List.range k).flatMap (charOps o)

/-- Behind `scrollBefore` stands the lookup of the character. -/
theorem scrollOps_before (o : Orient) {len : Nat} (h : k < len + 2) :
    ∃ post, scrollOps o len = scrollBefore o k ++ .setSchr k :: .lookupMsg :: post := by
  obtain ⟨ks, hks⟩ := range_split h
  refine ⟨.setBlank :: (List.range colsPerChar).flatMap (stepOps o) ++ (ks.flatMap (charOps o) ++ [.setAState .done]), ?_⟩
  simp only [scrollOps, trailingChars, hks, List.flatMap_append, List.flatMap_cons, scrollBefore, charOps, List.append_assoc,
    List.cons_append, List.nil_append]

theorem flushes_scrollBefore (o : Orient) (k : Nat) : (scrollBefore o k).countP Op.beginsFlush = 6 * k + 1 := by
  rw [scrollBefore, List.countP_append, flushes_chars, List.length_range,
    show scrollStart.countP Op.beginsFlush = 1 from rfl, Nat.add_comm]

/-- A `SCROLL` in front of its initial flush: the buffer all `BG` and the cursor at 0 (R156). -/
def State.initialFrame (s : State) : State := { s.withAState .painting with schr := 0, scol := 0, pb := fillCells s.bg }

/-- The start of a `SCROLL` leaves the cursor at 0 and, with a device, shows the initial frame (R156). -/
theorem scrollStart_leaves (h : s.Calm) : (after scrollStart s).scol = 0 ∧
    (s.plat.present.now = true → s.ShownIn (after scrollStart s)) := by
  have hflush := flush_done_or_skipped (s := s.initialFrame) h.2.1 0 128
  have hstart : after scrollStart s = after [.setAState .scrolling, .latchLen]
      (if s.plat.present.now then s.initialFrame.flushed 0 128 else s.initialFrame.sampledPresent) :=
    congrArg (fun x => after _ x.state) hflush
  rw [hstart]
  cases hp : s.plat.present.now with
  | true => exact ⟨rfl, fun _ => shownIn_of rfl rfl (flushed_shownIn s.initialFrame)⟩
  | false => exact ⟨rfl, nofun⟩

/-- Frame `j` is what the first `j` steps make of the initial frame (R156). -/
theorem getElem?_scrollFrames (o : Orient) (s : State) {j : Nat} (hj : j ≤ (scrollSteps s.scrollGlyphs).length) :
    (s.scrollFrames o)[j]? = some (((scrollSteps s.scrollGlyphs).take j).foldl
      (fun pb st => stepFrame o s.fg s.bg st.1 st.2 pb) (fillCells s.bg)) := by
  cases j with
  | zero => rfl
  | succ j => exact getElem?_framesFrom o s.fg s.bg _ hj

/-- What a `SCROLL` accepted in `s` has left when it comes to its character `k` (R156, R160). -/
structure ScrollBefore (o : Orient) (k : Nat) (s t : State) : Prop where
  calm : t.Calm
  core : SameCore s t
  n : t.n = t.msglen
  held : s.held = false → t.held = false
  pb : (s.scrollFrames o)[6 * k]? = some t.pb
  gl : t.gl = s.scrollLatch k
  scol : t.scol.toNat = if k = 0 then 0 else 5
  nodev : t.status.nodev = !s.plat.present.nth (6 * k)
  shows : s.plat.present.All (· = true) → s.ShownIn t

theorem scrollBefore_leaves (o : Orient) (h : s.Calm) (hk : k < s.msglen.toNat) :
    ScrollBefore o k s (after (scrollBefore o k) s) := by
  have hlen : s.msglen.toNat < 256 := s.msglen.isLt
  obtain ⟨s0, hs0, hcalm, hcore, hn, -, hpb, hgl, hheld, hpresent, -⟩ := scroll_start s h
  obtain ⟨hscol, hshows⟩ := scrollStart_leaves h
  have hnodev := after_nodev (s := s) (flushes_scrollBefore o k)
  have hforeign : ∀ a, s.Untouched a → s0.Untouched a := fun _ ha => hs0 ▸ after_foreign scrollStart ha
  rw [hs0] at hscol hshows
  rw [scrollBefore, after_append, hs0] at hnodev ⊢
  have hran := charsRan o (List.range k) (fun x hx => by have := List.mem_range.mp hx; omega) s0 hcalm
    (hn.trans hcore.msglen.symm)
  refine ⟨hran.calm, hcore.trans hran.core, ?_, fun hh => hran.held (hheld hh), ?_, ?_, ?_, hnodev, fun hp => ?_⟩
  · rw [hran.n, hn, hran.core.msglen, hcore.msglen]
  · have hsteps := take_scrollSteps (c := 0) (getElem?_scrollGlyphs (show k < s.msglen.toNat + 2 by omega)) (Nat.zero_le 6)
    have hglyphs : (List.range k).map (glyphOf s0) = s.scrollGlyphs.take k := by
      rw [take_scrollGlyphs (by omega)]
      exact List.map_congr_left fun j _ => glyphOf_core hcore j
    rw [List.range_zero, List.map_nil, List.append_nil, Nat.add_zero] at hsteps
    rw [getElem?_scrollFrames o s (by simp [length_scrollSteps, State.scrollGlyphs]; omega), hsteps, hran.pb, hglyphs,
      hcore.fg, hcore.bg, hpb]
  · exact hran.gl.trans (scrollLatch_core hcore hgl k)
  · cases k with
    | zero => exact congrArg BitVec.toNat hscol
    | succ k => rw [hran.scol (by simp)]; rfl
  · cases k with
    | zero => exact hshows hp.now
    | succ k => exact shownIn_mono hforeign (hran.shows (hpresent hp).1 (by simp))

theorem mirrored_scrollBefore (o : Orient) {size : Nat} {f : Script Answer} (h : s.Calm) (hk : k ≤ s.msglen.toNat)
    (hfits : ∀ j < k, (s.reading size f).GlyphInImage (s.msgAt j)) (hok : ∀ j < 5 * k, f.nth j = .ok) :
    Mirrored (scrollBefore o k) size f (6 * k) (5 * k) s := by
  obtain ⟨s0, hs0, hcalm, hcore, hn, -⟩ := scroll_start s h
  have hstart : Mirrored scrollStart size f 0 0 s := mirrored_ops (by decide) (by decide) h
  have hchars : Mirrored ((List.range k).flatMap (charOps o)) size f (6 * k) (5 * k) (after scrollStart s) := by
    rw [hs0]
    exact mirrored_chars o hcalm (hn.trans hcore.msglen.symm) (by rwa [hcore.msglen])
      (fun j hj => glyphInImage_core hcore (hfits j hj)) hok
  simpa only [Nat.zero_add, scrollBefore] using hstart.append hchars

/-! ### A lookup of a `SCROLL` that fails -/

/-- In a `SCROLL` whose font reads go well up to there, read `r` of character `k` is the first to fail. -/
def State.FontFailsAt (s : State) (k r : Nat) : Prop :=
  (∀ j < k, s.GlyphInImage (s.msgAt j)) ∧ s.LookupFails (s.msgAt k) r (s.plat.font.nth (5 * k + r)) ∧
  ∀ j < 5 * k + r, s.plat.font.nth j = .ok

/-- The state of a `SCROLL` in front of the lookup of its character `k`, the cursor set (R156). -/
def State.atLookup (s : State) (k size : Nat) (f : Script Answer) : State :=
  ({ s with schr := BitVec.ofNat 9 k } : State).reading size f

/-- The lookup of character `k`, come to as on a platform that answers, fails on one that does not (R119). -/
theorem lookupMsg_fails {u : State} {r : Nat} (hbefore : ScrollBefore o k (s.accept (.scroll o)).fontAnswering u)
    (hk : k < s.msglen.toNat) (h : s.FontFailsAt k r) :
    runOp .lookupMsg (u.atLookup k s.cfg.font.size (s.plat.font.skip (5 * k))) =
      .raise .fontErr ((u.atLookup k s.cfg.font.size (s.plat.font.skip (5 * k))).lookupFailed (s.msgAt k) r) := by
  obtain ⟨-, hfails, hok⟩ := h
  have hschr := toNat_schr hk
  have hlt : (BitVec.ofNat 9 k).toNat < u.n.toNat := by
    rw [hschr, hbefore.n, hbefore.core.msglen]
    exact hk
  have hch : u.msgAt (BitVec.ofNat 9 k).toNat = s.msgAt k := by
    rw [hschr, State.msgAt, hbefore.core.msg]
    rfl
  have hcfg : (u.atLookup k s.cfg.font.size (s.plat.font.skip (5 * k))).cfg = s.cfg := by
    show { u.cfg with font := { u.cfg.font with size := s.cfg.font.size } } = s.cfg
    rw [hbefore.core.cfg]
    rfl
  refine (if_pos hlt).trans ((congrArg (lookupChar · _) hch).trans ?_)
  refine lookupChar_fails (ans := s.plat.font.nth (5 * k + r)) ?_
    (fun j hj => (Script.nth_skip _ _ _).trans (hok _ (by omega))) (Script.nth_skip _ _ _)
  unfold State.LookupFails State.GlyphInImage at hfails ⊢
  rwa [hcfg]

/-- A lookup that fails at its chunk `k` logs `k + 1` reads. -/
theorem lookupFailed_logged (s : State) (ch : Byte) (hk : k < 5) : Logged 0 (k + 1) s (s.lookupFailed ch k) := by
  obtain ⟨i, g, f, hshape⟩ := lookupFailed_shape s ch (Nat.le_of_lt hk)
  refine ⟨_, (congrArg State.trace hshape).trans (List.append_assoc _ _ _), ?_⟩
  interval_cases k
  all_goals exact ⟨rfl, rfl⟩

/-- A `SCROLL` whose lookup of character `k` fails comes to it as one does whose font reads are all answered, and ends there
(R119, R164). -/
theorem scroll_fontFailure (o : Orient) {r : Nat} (hdevice : s.DeviceAnswers) (htick : s.Ticking) (hcancel : s.NotCancelled)
    (hk : k < s.msglen.toNat) (h : s.FontFailsAt k r) :
    ∃ u size f, ScrollBefore o k (s.accept (.scroll o)).fontAnswering u ∧
      Logged (6 * k) (5 * k) (s.accept (.scroll o)).fontAnswering u ∧
      exec (.scroll o) s = .next (((u.atLookup k size f).lookupFailed (s.msgAt k) r).raise .fontErr) := by
  have hcalm : (s.accept (.scroll o)).fontAnswering.Calm :=
    fontAnswering_calm (s := s.accept (.scroll o)) hdevice htick hcancel
  have hbefore := scrollBefore_leaves o hcalm hk
  have ⟨hfits, _, hok⟩ := h
  obtain ⟨hsteps, hlogged⟩ := mirrored_scrollBefore o (size := (s.accept (.scroll o)).cfg.font.size)
    (f := (s.accept (.scroll o)).plat.font) hcalm (Nat.le_of_lt hk) hfits fun j hj => hok j (by omega)
  obtain ⟨post, hops⟩ := scrollOps_before o (show k < s.msglen.toNat + 2 by omega)
  have hrun := hsteps.run_append (.setSchr k :: .lookupMsg :: post)
  rw [← hops, fontAnswering_reading] at hrun
  exact ⟨_, _, _, hbefore, hlogged, congrArg Host.Outcome.next
    (hrun.trans ((run_done rfl _).trans (run_raise (lookupMsg_fails hbefore hk h) post)))⟩

theorem execScroll_fontFailure (o : Orient) {r : Nat} (hready : s.Ready) (hdevice : s.DeviceAnswers) (htick : s.Ticking)
    (hcancel : s.NotCancelled) (hk : k < s.msglen.toNat) (h : s.FontFailsAt k r) :
    ∃ t new, exec (.scroll o) s = .next t ∧ t.Ready ∧
      t.status = { s.status with astate := .idle, fonterr := true, nodev := !s.plat.present.nth (6 * k) } ∧
      t.schr.toNat = k ∧ t.scol.toNat = (if k = 0 then 0 else 5) ∧
      (s.scrollFrames o)[6 * k]? = some t.pb ∧ (s.plat.present.All (· = true) → s.ShownIn t) ∧
      (k = 0 → t.gl = s.gl) ∧ (∀ j, k = j + 1 → t.HoldsGlyph (s.msgAt j)) ∧ (s.held = false → t.held = false) ∧
      t.trace = s.trace ++ new ∧ new.count .pace = 6 * k ∧ new.countP Event.isFontRead = 5 * k + r + 1 := by
  have ⟨_, hfails, _⟩ := h
  have hr : r < 5 := hfails.lt
  obtain ⟨u, size, f, hbefore, hlogged, hexec⟩ := scroll_fontFailure o hdevice htick hcancel hk h
  obtain ⟨new, htrace, hpaces, hreads⟩ := hlogged.trans (lookupFailed_logged (u.atLookup k size f) (s.msgAt k) hr)
  obtain ⟨x, g, f', hshape⟩ := lookupFailed_shape (u.atLookup k size f) (s.msgAt k) (Nat.le_of_lt hr)
  generalize (u.atLookup k size f).lookupFailed (s.msgAt k) r = v at hexec htrace hshape
  refine ⟨_, new, hexec, (raised _ _).ready, ?_, ?_, ?_, ?_, ?_, ?_, ?_, ?_, ?_, hpaces, hreads⟩
  · have hcmd : v.cmd = some (.scroll o) := by
      rw [hshape]
      exact hbefore.core.cmd
    have hstatus : v.status = u.status := by rw [hshape]; rfl
    rw [raise_status_of_scroll hcmd, hstatus, hbefore.core.status, hbefore.nodev]
    show ({ s.status with busy := false, astate := .idle, fonterr := true, nodev := !s.plat.present.nth (6 * k) } : Status) = _
    rw [← hready.1]
  · rw [raise_schr, hshape]
    exact toNat_schr hk
  · rw [raise_scol, hshape]
    exact hbefore.scol
  · rw [raise_pb, hshape]
    exact hbefore.pb
  · intro hp
    rw [hshape]
    exact shownIn_of (raise_dev _ _) (raise_pb _ _) (hbefore.shows hp)
  · rintro rfl
    rw [raise_gl, hshape]
    exact hbefore.gl
  · rintro j rfl
    have hcfg : u.cfg = (s.accept (.scroll o)).fontAnswering.cfg := hbefore.core.cfg
    have hglyph : glyphOf (s.accept (.scroll o)).fontAnswering j = some _ := if_pos (Nat.lt_of_succ_lt hk)
    refine holdsGlyph_of ?_
    rw [raise_gl, raise_cfg, hshape, State.atLookup, State.reading]
    show u.gl = fontGlyph u.cfg.litByte { u.cfg.font with size := size } (glyphIndex u.cfg.alphabet _)
    rw [hbefore.gl, scrollLatch_succ, hglyph, hcfg]
    rfl
  · intro hh
    rw [raise_held, hshape]
    exact hbefore.held hh
  · rw [raise_trace, htrace]
    rfl

/-- Settles O42: a read that fails ends the lookup before it writes `GL`, and with it the command. -/
theorem fontFailureKeepsGlyphAndBuffer : Obligations.FontFailureKeepsGlyphAndBuffer := by
  refine ⟨fun i ch s k ans rest hready hfails hnext hi => lookup_fontFailure hready hfails hnext hi, ?_⟩
  intro o s k r ans rest hready hdevice htick hcancel hk hfits hfails hnext
  obtain ⟨hok, hans⟩ := nth_of_next hnext
  exact execScroll_fontFailure o hready hdevice htick hcancel hk ⟨hfits, hans ▸ hfails, hok⟩

end Sys2Proof.Machine
end

section
/-! PROOFS. The pixel buffer commands (R125 to R130): the cells that `PBSET`, `PBSETL` and `PBFILL` write, and what `PBGET` and
`PBBYTE` read. -/

namespace Sys2Proof.Machine

variable {s : State}

/-! ### The commands that write the buffer (R125 to R127) -/

/-- A command of a ready core that writes one cell of `PB` and nothing else. -/
theorem command_setPb (h : s.Ready) (i : Instr) (p : Nat) (v : Half) :
    command i (·.setPb p v) s = .next (s.setPb p v) :=
  congrArg (fun t : State => (.next (t.setPb p v) : Out)) (ready_finish_accept h i)

theorem execPbset_of_le (h : s.Ready) (v : Half) {x y : BitVec 4} (hx : x.toNat ≤ 7) (hy : y.toNat ≤ 7) :
    exec (.pbset x y v) s = .next (s.setPb (y.toNat * 8 + x.toNat) v) := by
  rw [exec, execPbset, coords_eq hx hy]
  exact command_setPb h (.pbset x y v) _ v

theorem execPbset_of_lt (h : s.Ready) (v : Half) {x y : BitVec 4} (hxy : 7 < x.toNat ∨ 7 < y.toNat) :
    exec (.pbset x y v) s = .next s := by
  rw [exec, execPbset, coords_eq_none hxy]
  exact checked_none h _ _

theorem execPbsetl_of_le (h : s.Ready) (v : Half) {off : Byte} (hoff : off.toNat ≤ 63) :
    exec (.pbsetl off v) s = .next (s.setPb off.toNat v) := by
  rw [exec, execPbsetl, cellIndex_eq hoff]
  exact command_setPb h (.pbsetl off v) _ v

theorem execPbsetl_of_lt (h : s.Ready) (v : Half) {off : Byte} (hoff : 63 < off.toNat) :
    exec (.pbsetl off v) s = .next s := by
  rw [exec, execPbsetl, cellIndex_eq_none hoff]
  exact checked_none h _ _

theorem execPbfill_eq (h : s.Ready) (v : Half) : exec (.pbfill v) s = .next { s with pb := fillCells v } :=
  command_withPb h (.pbfill v) (fillCells v)

theorem cellAt_fillCells (v : Half) {i : Nat} (hi : i < 64) : cellAt 0 (fillCells v) i = v :=
  cellAt_tabulate (fun _ => v) hi

/-! ### The commands that read it (R128 to R130) -/

theorem byteIndex_eq {b : Byte} (h : b.toNat ≤ 127) : byteIndex b = some b.toNat := if_pos h

theorem byteIndex_eq_none {b : Byte} (h : 127 < b.toNat) : byteIndex b = none := if_neg (by omega)

/-- The high byte in a register is the word moved down by 8 bits. -/
theorem setWidth_highByte (v : Half) : (highByte v).setWidth 16 = v >>> 8 := by
  have hv := v.isLt
  apply BitVec.eq_of_toNat_eq
  rw [highByte, BitVec.toNat_setWidth, BitVec.toNat_ofNat, BitVec.toNat_ushiftRight, Nat.shiftRight_eq_div_pow]
  omega

/-- The low byte in a register is the word with its other bits cleared. -/
theorem setWidth_lowByte (v : Half) : (lowByte v).setWidth 16 = v &&& 0x00FF := by
  have hmask : v.toNat &&& (0x00FF : Half).toNat = v.toNat % 2 ^ 8 := Nat.and_two_pow_sub_one_eq_mod v.toNat 8
  apply BitVec.eq_of_toNat_eq
  rw [lowByte, BitVec.toNat_setWidth, BitVec.toNat_ofNat, BitVec.toNat_and, hmask]
  omega

/-- A byte of the serialisation as `RES` gets it: the high byte of a cell first (R130). -/
theorem setWidth_pbByte (s : State) (i : Nat) :
    (pbByte s.pb i).setWidth 16 = if i % 2 = 0 then s.pbAt (i / 2) >>> 8 else s.pbAt (i / 2) &&& 0x00FF := by
  rw [pbByte, ← State.pbAt, apply_ite (BitVec.setWidth 16), setWidth_highByte, setWidth_lowByte]

theorem execPbget_of_le (h : s.Ready) {off : Byte} (hoff : off.toNat ≤ 63) :
    exec (.pbget off) s = .next { s with res := s.pbAt off.toNat } := by
  rw [exec, execPbget, cellIndex_eq hoff]
  exact command_withRes h (.pbget off) (s.pbAt off.toNat)

theorem execPbget_of_lt (h : s.Ready) {off : Byte} (hoff : 63 < off.toNat) : exec (.pbget off) s = .next s := by
  rw [exec, execPbget, cellIndex_eq_none hoff]
  exact checked_none h _ _

theorem execPbbyte_of_le (h : s.Ready) {idx : Byte} (hidx : idx.toNat ≤ 127) :
    exec (.pbbyte idx) s = .next { s with res := (pbByte s.pb idx.toNat).setWidth 16 } := by
  rw [exec, execPbbyte, byteIndex_eq hidx]
  exact command_withRes h (.pbbyte idx) ((pbByte s.pb idx.toNat).setWidth 16)

theorem execPbbyte_of_lt (h : s.Ready) {idx : Byte} (hidx : 127 < idx.toNat) : exec (.pbbyte idx) s = .next s := by
  rw [exec, execPbbyte, byteIndex_eq_none hidx]
  exact checked_none h _ _

/-! ### The obligations on the pixel buffer -/

/-- Settles O44: the checked coordinates or offset name a cell of the buffer, which `setPb` writes, or there are none. -/
theorem pbsetWritesOneCell : Obligations.PbsetWritesOneCell := by
  refine ⟨fun w => ⟨fun hop => by simp [decode, hop], fun hop => by simp [decode, hop]⟩, fun x y off v s hready =>
    ⟨?_, ?_, execPbset_of_lt hready v, execPbsetl_of_lt hready v⟩⟩
  · rintro ⟨hx, hy⟩
    exact ⟨_, execPbset_of_le hready v hx hy, rfl, fun i _ => setPb_pbAt (by omega) v i⟩
  · intro hoff
    exact ⟨_, execPbsetl_of_le hready v hoff, rfl, fun i _ => setPb_pbAt (by omega) v i⟩

/-- Settles O45: every cell of the buffer written is the operand. -/
theorem pbfillWritesEveryCell : Obligations.PbfillWritesEveryCell :=
  ⟨fun w hop => by simp [decode, hop], fun v _ hready =>
    ⟨_, execPbfill_eq hready v, rfl, fun _ hi => cellAt_fillCells v hi⟩⟩

/-- Settles O46: the checked index reads its cell or its byte, and the byte is the high one of a cell at an even index. -/
theorem bufferReads : Obligations.BufferReads := by
  refine ⟨fun w => ⟨fun hop => by simp [decode, hop], fun hop => by simp [decode, hop]⟩, fun i s hready =>
    ⟨execPbget_of_le hready, execPbget_of_lt hready, fun hi => ?_, execPbbyte_of_lt hready⟩⟩
  rw [execPbbyte_of_le hready hi, setWidth_pbByte]

end Sys2Proof.Machine
end

section
/-! PROOFS. A flush that finds a device and is answered with success, however often it waits (R44 to R46, R135, R143): what it
has left at each of its statements. -/

namespace Sys2Proof.Machine

/-! ### What a flush may change -/

/-- `u` is `s` but for what a flush changes, and for the samples of `rst` and the statements left at its
waits. -/
def State.FlushMoved (s u : State) : Prop :=
  ∃ h r p a w e fo d tr k td, u = { s with
    status := { s.status with nodev := !s.plat.present.now }, held := h, dev := d, trace := tr, draws := k, todo := td
    plat := { s.plat with rst := r, present := p, acquire := a, write := w, edge := e, foreign := fo } }

/-- `u` is a state inside a `Flush(off, n)` begun in `s`: only what a flush changes has changed, and of the bytes that others
leave alone none outside the range. -/
structure State.InsideFlush (s : State) (off n : Nat) (u : State) : Prop where
  moved : s.FlushMoved u
  untouched : ∀ a, s.Untouched a → u.Untouched a
  outside : ∀ a, s.Untouched a → a < off ∨ off + n ≤ a → u.devAt a = s.devAt a

/-- In `u` the device shows what the buffer of `s` has in the range, but for bytes that others write (R58). -/
def State.RangeShown (s : State) (off n : Nat) (u : State) : Prop :=
  ∀ a, s.Untouched a → off ≤ a → a < off + n → a < devBytes → u.devAt a = some (pbByte s.pb a)

variable {s u v : State} {off n : Nat}

theorem State.FlushMoved.trans (h : s.FlushMoved u) (k : Held u v) : s.FlushMoved v := by
  obtain ⟨_, r, p, a, _, _, _, _, _, _, td, rfl⟩ := h
  obtain ⟨_, _, _, _, _, _, _, rfl⟩ := k
  exact ⟨_, r, p, a, _, _, _, _, _, _, td, rfl⟩

theorem State.FlushMoved.pb (h : s.FlushMoved u) : u.pb = s.pb := by
  obtain ⟨_, _, _, _, _, _, _, _, _, _, _, rfl⟩ := h
  rfl

/-- What others write meanwhile, and a write inside the range, are no matter outside it. -/
theorem insideFlush_kept (s : State) (off n : Nat) : KeptByFlush off n (s.InsideFlush off n) := by
  have of_held {u v : State} (h : s.InsideFlush off n u) (hheld : Held u v) (hforeign : v.plat.foreign = u.plat.foreign)
      (hdev : ∀ a, a < off ∨ off + n ≤ a → v.devAt a = u.devAt a) : s.InsideFlush off n v :=
    ⟨h.moved.trans hheld, fun a ha => by rw [State.Untouched, hforeign]; exact h.untouched a ha,
      fun a ha hout => (hdev a hout).trans (h.outside a ha hout)⟩
  have of_others {u v : State} (h : s.InsideFlush off n u) (hheld : Held u v)
      (hothers : ∀ a, u.Untouched a → v.devAt a = u.devAt a ∧ v.Untouched a) : s.InsideFlush off n v :=
    ⟨h.moved.trans hheld, fun a ha => (hothers a (h.untouched a ha)).2,
      fun a ha hout => (hothers a (h.untouched a ha)).1.trans (h.outside a ha hout)⟩
  exact {
    edge := fun _ h => of_held h ⟨_, _, _, _, _, _, _, rfl⟩ rfl fun _ _ => rfl
    write := fun _ h => of_held h ⟨_, _, _, _, _, _, _, rfl⟩ rfl fun _ _ => rfl
    take := fun _ h => of_others h ⟨_, _, _, _, _, _, _, rfl⟩ fun _ ha => othersWrite_devAt ha
    release := fun _ h => of_others h ⟨_, _, _, _, _, _, _, rfl⟩ fun _ ha => othersWrite_devAt ha
    log := fun _ _ h => of_held h ⟨_, _, _, _, _, _, _, rfl⟩ rfl fun _ _ => rfl
    spoil := fun u h => of_held h ⟨_, _, _, _, _, _, _, rfl⟩ rfl fun a hout =>
      write_devAt u off _ a (by rwa [length_freeBytes])
    store := fun u bs hlen h => of_held h ⟨_, _, _, _, _, _, _, rfl⟩ rfl fun a hout =>
      write_devAt u off bs a (by rwa [hlen]) }

/-- A wait, and the start of the step after it. -/
theorem State.InsideFlush.resumed (h : s.InsideFlush off n u) (td : List Op) :
    s.InsideFlush off n ({ u with todo := td } : State).begun := by
  obtain ⟨⟨held, r, p, a, w, e, fo, d, tr, k, td', hu⟩, huntouched, houtside⟩ := h
  obtain ⟨d', fo', hbegun⟩ := begun_shape { u with todo := td }
  exact ⟨⟨held, r.later, p, a, w, e, fo', d', tr, k, td, by rw [hbegun, hu]⟩,
    fun b hb => (begun_devAt (s := { u with todo := td }) (huntouched b hb)).2,
    fun b hb hout => (begun_devAt (s := { u with todo := td }) (huntouched b hb)).1.trans (houtside b hb hout)⟩

/-- The bytes written are the buffer's (R130, R135). -/
theorem State.InsideFlush.rangeShown (h : s.InsideFlush off n u) :
    s.RangeShown off n (u.writeDevice off (pbBytes u.pb off n)) := by
  intro a _ hlow hhigh hlt
  rw [State.devAt, if_pos hlt, writeDevice_dev, read_write_pbBytes _ _ hlow hhigh, h.moved.pb]

/-- Two bytes of the serialisation are a cell, most significant first (R41, R130). -/
theorem State.RangeShown.showsCell (h : s.RangeShown off n u) {k : Nat} (hk : k < 64) (hlow : off ≤ 2 * k)
    (hhigh : 2 * k + 2 ≤ off + n) (h0 : s.Untouched (2 * k)) (h1 : s.Untouched (2 * k + 1)) : u.ShowsCell k (s.pbAt k) := by
  have heven : 2 * k / 2 = k ∧ 2 * k % 2 = 0 := by omega
  have hodd : (2 * k + 1) / 2 = k ∧ (2 * k + 1) % 2 = 1 := by omega
  refine ⟨?_, ?_⟩
  · rw [h _ h0 hlow (by omega) (by simp only [devBytes]; omega), pbByte, heven.1, heven.2, if_pos rfl, highByte_ext]
    rfl
  · rw [h _ h1 (by omega) (by omega) (by simp only [devBytes]; omega), pbByte, hodd.1, hodd.2, if_neg (by decide), lowByte_ext]
    rfl

/-! ### Statement by statement -/

/-- `u` is what a `Flush(off, n)` begun in `s` has left when its statement `op` comes next, if it found a device and was
answered with success so far and will be (R57, R135). -/
def State.FlushAt (s : State) (off n : Nat) (op : Op) (u : State) : Prop :=
  s.InsideFlush off n u ∧
  match op with
  | .flushGrant a b => a = off ∧ b = n ∧ u.trace = s.trace ∧ u.DeviceWillAnswer
  | .flushHold a b | .flushWrite a b =>
    a = off ∧ b = n ∧ u.trace = s.trace ++ [.acquire true] ∧ u.plat.write.answer = .ok
  | .flushRelease ok =>
    ok = true ∧ u.trace = s.trace ++ [.acquire true, .write off (pbBytes s.pb off n) true] ∧ s.RangeShown off n u
  | .flushEnd ok =>
    ok = true ∧ u.trace = s.trace ++ [.acquire true, .write off (pbBytes s.pb off n) true, .release] ∧
      s.RangeShown off n u ∧ u.held = false
  | _ => False

/-- What a statement of such a flush comes to: the flush is done, or waits at one of its statements. -/
def State.FlushGoesOn (s : State) (off n : Nat) : OpResult → Prop
  | .done u => s.FlushAt off n (.flushEnd true) u
  | .raise _ _ => False
  | .wait u r => s.FlushAt off n r u

variable {op : Op}

/-- A wait, and the start of the step after it, leave a flush at its statement. -/
theorem State.FlushAt.resumed (h : s.FlushAt off n op u) (td : List Op) :
    s.FlushAt off n op ({ u with todo := td } : State).begun := by
  obtain ⟨hin, hat⟩ := h
  have hshown (hr : s.RangeShown off n u) : s.RangeShown off n ({ u with todo := td } : State).begun :=
    fun a ha hlow hhigh hlt =>
      (begun_devAt (s := { u with todo := td }) (hin.untouched a ha)).1.trans (hr a ha hlow hhigh hlt)
  refine ⟨hin.resumed td, ?_⟩
  cases op with
  | flushGrant | flushHold | flushWrite => simpa [State.DeviceWillAnswer] using hat
  | flushRelease =>
    obtain ⟨hok, htrace, hr⟩ := hat
    exact ⟨hok, (begun_trace _).trans htrace, hshown hr⟩
  | flushEnd =>
    obtain ⟨hok, htrace, hr, hheld⟩ := hat
    exact ⟨hok, (begun_trace _).trans htrace, hshown hr, (begun_held _).trans hheld⟩
  | _ => exact hat

/-- A clock edge after a device event leaves a flush at its next statement. -/
theorem State.FlushAt.atEdge {go : State → OpResult} (h : s.FlushAt off n op u)
    (hgo : ∀ v, s.FlushAt off n op v → s.FlushGoesOn off n (go v)) : s.FlushGoesOn off n (atEdge op go u) := by
  have hedge : s.FlushAt off n op u.sampledEdge := by
    obtain ⟨hin, hat⟩ := h
    refine ⟨(insideFlush_kept s off n).edge u hin, ?_⟩
    cases op <;> exact hat
  unfold Machine.atEdge
  split
  exacts [hedge, hgo _ hedge]

theorem flushEnd_goesOn {ok : Bool} (h : s.FlushAt off n (.flushEnd ok) u) : s.FlushGoesOn off n (flushEnd ok u) := by
  obtain ⟨hin, rfl, hend⟩ := h
  exact ⟨hin, rfl, hend⟩

/-- The release comes after the write, and the device is not held from there on (R46). -/
theorem flushRelease_goesOn {ok : Bool} (h : s.FlushAt off n (.flushRelease ok) u) :
    s.FlushGoesOn off n (flushRelease ok u) := by
  obtain ⟨hin, rfl, htrace, hr⟩ := h
  have hend : s.FlushAt off n (.flushEnd true) u.releaseDevice := by
    refine ⟨(insideFlush_kept s off n).release u hin, rfl, ?_, fun a ha hlow hhigh hlt => ?_, rfl⟩
    · rw [releaseDevice_trace, htrace, List.append_assoc]
      rfl
    · exact (othersWrite_devAt (hin.untouched a ha)).1.trans (hr a ha hlow hhigh hlt)
  exact hend.atEdge fun v => flushEnd_goesOn

/-- An answer that comes to be `Ok` is not there yet, or is `Ok`. -/
theorem Script.now_of_answer {sc : Script Answer} (h : sc.answer = .ok) :
    (sc.now = .silent ∧ sc.later.answer = .ok) ∨ sc.now = .ok := by
  by_cases hsilent : sc.now = .silent
  · exact .inl ⟨hsilent, by rw [Script.answer, prompt_silent hsilent]; exact h⟩
  · exact .inr ((prompt_now hsilent).1.symm.trans h)

/-- The one write: under way as long as it is not answered, and then it shows the range (R45). -/
theorem flushWrite_goesOn (h : s.FlushAt off n (.flushWrite off n) u) : s.FlushGoesOn off n (flushWrite off n u) := by
  have kept := insideFlush_kept s off n
  obtain ⟨hin, -, -, htrace, hanswer⟩ := h
  have hsampled := kept.write u hin
  rcases Script.now_of_answer hanswer with ⟨hsilent, hlater⟩ | hok
  · simp only [flushWrite, hsilent]
    exact ⟨kept.spoil _ hsampled, rfl, rfl, htrace, hlater⟩
  · simp only [flushWrite, hok]
    refine State.FlushAt.atEdge (op := .flushRelease true) ?_ fun v => flushRelease_goesOn
    refine ⟨kept.log _ _ (kept.store _ _ (length_pbBytes u.pb off n) hsampled), rfl, ?_, hsampled.rangeShown⟩
    show u.trace ++ [_] = _
    rw [htrace, hin.moved.pb, List.append_assoc]
    rfl

/-- The one acquisition (R44). -/
theorem flushGrant_goesOn (hin : s.InsideFlush off n u.sampledAcquire) (htrace : u.trace = s.trace) (h : u.DeviceWillAnswer) :
    s.FlushGoesOn off n (flushGrant off n u) := by
  have kept := insideFlush_kept s off n
  obtain ⟨hacquire, hwrite⟩ := h
  rcases Script.now_of_answer hacquire with ⟨hsilent, hlater⟩ | hok
  · simp only [flushGrant, hsilent]
    exact ⟨hin, rfl, rfl, htrace, hlater, hwrite⟩
  · simp only [flushGrant, hok]
    refine State.FlushAt.atEdge (op := .flushHold off n) ?_ fun v => flushWrite_goesOn
    exact ⟨kept.log _ _ (kept.take _ hin), rfl, rfl, congrArg (· ++ [Event.acquire true]) htrace, hwrite⟩

/-- A flush that goes on from one of its statements. -/
theorem runOp_goesOn (h : s.FlushAt off n op u) : s.FlushGoesOn off n (runOp op u) := by
  cases op with
  | flushGrant _ _ =>
    obtain ⟨⟨⟨held, r, p, a, w, e, fo, d, tr, k, td, hu⟩, huntouched, houtside⟩, rfl, rfl, htrace, hanswer⟩ := h
    exact flushGrant_goesOn ⟨⟨held, r, p, a.later, w, e, fo, d, tr, k, td, by rw [State.sampledAcquire, hu]⟩, huntouched,
      houtside⟩ htrace hanswer
  | flushHold _ _ | flushWrite _ _ =>
    obtain ⟨hin, rfl, rfl, hat⟩ := h
    exact flushWrite_goesOn ⟨hin, rfl, rfl, hat⟩
  | flushRelease ok => exact flushRelease_goesOn h
  | flushEnd ok => exact flushEnd_goesOn h
  | _ => exact h.2.elim

/-- A flush from its start, with a device that will answer. -/
theorem flush_goesOn (hp : s.plat.present.now = true) (h : s.DeviceWillAnswer) (off n : Nat) :
    s.FlushGoesOn off n (runOp (.flush off n) s) := by
  have hin : s.InsideFlush off n s.sampledPresent.sampledAcquire :=
    ⟨⟨_, _, _, _, _, _, _, _, _, _, _, rfl⟩, fun _ ha => ha, fun _ _ _ => rfl⟩
  simp only [runOp, flushStart, hp, if_true]
  exact flushGrant_goesOn (u := s.sampledPresent) hin rfl h

/-- A command whose last statement is one of such a flush ends with the flush done, however often it waits. -/
theorem Finally.flush_ends {ops : List Op} {t : State} (h : Finally ops u t) (hops : ops = [op])
    (hgoes : s.FlushGoesOn off n (runOp op u)) : ∃ v, s.FlushAt off n (.flushEnd true) v ∧ t = v.finish := by
  induction h generalizing op with
  | nil => cases hops
  | done hdone hrest =>
    cases hops
    rw [hdone] at hgoes
    cases hrest
    exact ⟨_, hgoes, rfl⟩
  | raise hraise =>
    cases hops
    rw [hraise] at hgoes
    exact hgoes.elim
  | wait hwait _ ih =>
    cases hops
    rw [hwait] at hgoes
    exact ih rfl (runOp_goesOn (hgoes.resumed _))

end Sys2Proof.Machine
end

section
/-! PROOFS. `FLUSH`, `FLUSH1` and `SETPIX` with no device, and with one that answers, at once or after waits (R135 to R139). -/

namespace Sys2Proof.Machine

/-! ### A command that is one flush -/

variable {i : Instr} {s₀ s t u : State} {off n : Nat}

/-- The flush is done and the command ends: only what a transaction changes has changed. -/
theorem flushShown_of_flushAt (hready : s.Ready) (hp : s.plat.present.now = true)
    (h : (s.accept i).FlushAt off n (.flushEnd true) u) :
    (s.rstOf u.finish).FlushShown off n u.finish := by
  obtain ⟨hbusy, hcmd, htodo⟩ := hready
  obtain ⟨⟨⟨_, _, _, _, _, _, _, _, _, _, _, rfl⟩, -, houtside⟩, -, htrace, hshown, hheld⟩ := h
  refine ⟨?_, congrArg (!·) hp, hheld, fun k hk hlow hhigh h0 h1 => hshown.showsCell hk hlow hhigh h0 h1, houtside, htrace⟩
  simp only [State.OnlyTransacts, State.rstOf, State.finish, State.accept, hcmd, htodo, ← hbusy]

/-- A command that is one flush of a ready core, `SETPIX` after it has written its buffer cell, ends with its range shown,
however it waits. -/
theorem Executes.flushShown {k : Nat} (he : exec i s₀ = execOps i [.flush off n] s) (hready : s.Ready)
    (hp : s.plat.present.now = true) (hanswers : s.DeviceWillAnswer) (h : Executes i k s₀ t) (ht : t.Ready) :
    (s.rstOf t).FlushShown off n t := by
  obtain ⟨u, hat, rfl⟩ := ((h.finally he rfl).1 ht.1).flush_ends rfl (flush_goesOn (s := s.accept i) hp hanswers off n)
  exact flushShown_of_flushAt hready hp hat

/-- Where no sample of `rst` was taken the samples make no difference. -/
theorem rstOf_eq (h : t.plat.rst = s.plat.rst) : s.rstOf t = s := by
  rw [State.rstOf, h]

/-- The same in the step that accepts it, when the answers come at once. -/
theorem exec_flushShown (he : exec i s₀ = execOps i [.flush off n] s) (hready : s.Ready) (hp : s.plat.present.now = true)
    (hanswers : s.DeviceAnswers) : ∃ t, exec i s₀ = .next t ∧ s.FlushShown off n t := by
  have hsteps : Steps [.flush off n] (s.accept i) ((s.accept i).flushed off n) :=
    .cons (flush_done (s := s.accept i) hanswers hp off n) (.nil _)
  have hexec : exec i s₀ = .next ((s.accept i).flushed off n).finish :=
    he.trans (congrArg Host.Outcome.next hsteps.run)
  have hrst : s.rstOf ((s.accept i).flushed off n).finish = s := rstOf_eq hsteps.sameCore.rst
  obtain ⟨hacquire, hwrite, -⟩ := hanswers
  have hshown := Executes.flushShown (k := 0) he hready hp ⟨hacquire.answer, hwrite.answer⟩ hexec (ready_finish _)
  rw [hrst] at hshown
  exact ⟨_, hexec, hshown⟩

/-- With no device it writes `NODEV` and nothing else (R139). -/
theorem exec_flush_absent (he : exec i s₀ = execOps i [.flush off n] s) (hready : s.Ready) (hp : s.plat.present.now = false) :
    exec i s₀ = .next { s with
      status := { s.status with nodev := true }, plat := { s.plat with present := s.plat.present.later } } := by
  have hrun : exec i s₀ = .next (s.accept i).sampledPresent.finish :=
    he.trans (congrArg Host.Outcome.next (run_done (flush_absent (s := s.accept i) hp off n) []))
  refine hrun.trans ((congrArg (fun t : State => (.next t.sampledPresent : Out)) (ready_finish_accept hready i)).trans ?_)
  rw [State.sampledPresent, hp]
  rfl

/-! ### Each command -/

theorem execFlush1_eq {cell : Byte} (h : cell.toNat ≤ 63) (s : State) :
    exec (.flush1 cell) s = execOps (.flush1 cell) [cellFlush cell.toNat] s := by
  simp only [exec, execFlush1, cellIndex_eq h]

theorem execFlush1_of_lt (hready : s.Ready) {cell : Byte} (h : 63 < cell.toNat) : exec (.flush1 cell) s = .next s := by
  simp only [exec, execFlush1, cellIndex_eq_none h]
  exact command_id hready _

theorem execSetpix_eq {x y : BitVec 4} (hx : x.toNat ≤ 7) (hy : y.toNat ≤ 7) (o : Orient) (v : Half) (s : State) :
    exec (.setpix o x y v) s = execOps (.setpix o x y v) [cellFlush (pixelOffset x.toNat y.toNat o)]
      (s.setPb (pixelOffset x.toNat y.toNat o) v) := by
  simp only [exec, execSetpix, coords_eq hx hy]

theorem execSetpix_of_lt (hready : s.Ready) {x y : BitVec 4} (h : 7 < x.toNat ∨ 7 < y.toNat) (o : Orient) (v : Half) :
    exec (.setpix o x y v) s = .next s := by
  simp only [exec, execSetpix, coords_eq_none h]
  exact command_id hready _

/-- What a flush shows is the buffer as it stands after it too. -/
theorem State.FlushShown.pb (h : s.FlushShown off n t) : t.pb = s.pb := by
  obtain ⟨honly, -⟩ := h
  rw [honly]

/-! ### The obligations on the display -/

/-- Settles O47: `FLUSH` is the flush of the 128 bytes. -/
theorem flushShowsTheBuffer : Obligations.FlushShowsTheBuffer :=
  ⟨fun w hop => by simp [decode, hop], fun s hready =>
    have he : exec .flush s = execOps .flush [fullFlush] s := rfl
    ⟨fun hp => ⟨exec_flushShown he hready hp, fun hanswers _ _ => Executes.flushShown he hready hp hanswers⟩,
      exec_flush_absent he hready⟩⟩

/-- Settles O48: `FLUSH1` is the flush of the two bytes of its cell, if there is such a cell. -/
theorem flush1ShowsOneCell : Obligations.Flush1ShowsOneCell :=
  ⟨fun w hop => by simp [decode, hop], fun cell s hready =>
    ⟨fun hcell hp =>
      ⟨exec_flushShown (execFlush1_eq hcell s) hready hp,
        fun hanswers _ _ => Executes.flushShown (execFlush1_eq hcell s) hready hp hanswers⟩,
      fun hcell => exec_flush_absent (execFlush1_eq hcell s) hready, execFlush1_of_lt hready⟩⟩

/-- Settles O49: `SETPIX` writes its buffer cell and is then the flush of that cell, which leaves the buffer alone. -/
theorem setpixWritesAndShowsOneCell : Obligations.SetpixWritesAndShowsOneCell := by
  refine ⟨fun w hop => by simp [decode, hop], fun o x y v s hready => ?_⟩
  intro cell wrote
  have hwrote {t : State} (hx : x.toNat ≤ 7) (hy : y.toNat ≤ 7) (ht : t.pb = (s.setPb cell v).pb) : wrote t := by
    intro i _
    rw [State.pbAt, ht]
    exact setPb_pbAt (pixelOffset_lt_of_le hx hy o) v i
  refine ⟨?_, ?_, fun hxy => execSetpix_of_lt hready hxy o v⟩
  · rintro ⟨hx, hy⟩ hp
    have he := execSetpix_eq hx hy o v s
    have hready' : (s.setPb cell v).Ready := hready
    refine ⟨fun hanswers => ?_, fun hanswers k t hexec ht => ?_⟩
    · obtain ⟨t, hexec, hshown⟩ := exec_flushShown he hready' hp hanswers
      refine ⟨t, hexec, hwrote hx hy hshown.pb, ?_⟩
      rw [hshown.pb]
      exact hshown
    · have hshown := Executes.flushShown he hready' hp hanswers hexec ht
      refine ⟨hwrote hx hy hshown.pb, ?_⟩
      rw [hshown.pb]
      exact hshown
  · rintro ⟨hx, hy⟩ hp
    exact ⟨_, exec_flush_absent (execSetpix_eq hx hy o v s) hready hp, hwrote hx hy rfl, rfl⟩

end Sys2Proof.Machine
end

section
/-! PROOFS. `Painting` is seen inside the initial flush of a `SCROLL` alone, and `Scrolling` after it alone (R150, R156). -/

namespace Sys2Proof.Machine

variable {s t : State} {o : Orient} {ops : List Op}

/-! ### The invariant, state by state -/

theorem scrolling_congr (h : t.cmd = s.cmd) : t.scrolling = s.scrolling := by
  unfold State.scrolling
  rw [h]

theorem idle_not_running : ¬ AState.idle.running := by rintro (h | h) <;> cases h

theorem done_not_running : ¬ AState.done.running := by rintro (h | h) <;> cases h

theorem animatorInv_of_ready (h : s.Ready) (ha : ¬ s.status.astate.running) : s.AnimatorInv := by
  obtain ⟨-, hcmd, htodo⟩ := h
  have hscrolling : s.scrolling = false := by rw [State.scrolling, hcmd]
  refine ⟨fun _ => ⟨hcmd, htodo⟩, ?_⟩
  rw [hscrolling, htodo]
  exact ⟨ha, nofun⟩

/-- A core that is not busy executes no `SCROLL`, and its animator does not run. -/
theorem State.AnimatorInv.not_running (h : s.AnimatorInv) (hb : s.status.busy = false) : ¬ s.status.astate.running := by
  obtain ⟨hready, hrest⟩ := h
  obtain ⟨hcmd, -⟩ := hready hb
  have hscrolling : s.scrolling = false := by rw [State.scrolling, hcmd]
  rw [hscrolling] at hrest
  exact hrest.1

/-- A `SCROLL` that waits in its initial flush. -/
theorem animatorInv_of_painting {op : Op} {rest : List Op} (hb : s.status.busy = true) (hscroll : s.scrolling = true)
    (ha : s.status.astate = .painting) (hpb : s.pb = fillCells s.bg) (hschr : s.schr = 0) (hscol : s.scol = 0)
    (htodo : s.todo = op :: .setAState .scrolling :: rest) (hop : op.inFlush = true) (hrest : OnlyDoneAtTheEnd rest) :
    s.AnimatorInv := by
  refine ⟨fun hidle => absurd (hidle.symm.trans hb) Bool.false_ne_true, ?_⟩
  rw [if_pos hscroll]
  exact .inl ⟨ha, hpb, hschr, hscol, op, rest, htodo, hop, hrest⟩

/-- A `SCROLL` that waits after its initial flush. -/
theorem animatorInv_of_scrolling (hb : s.status.busy = true) (hscroll : s.scrolling = true)
    (ha : s.status.astate = .scrolling) (htodo : OnlyDoneAtTheEnd s.todo) : s.AnimatorInv := by
  refine ⟨fun hidle => absurd (hidle.symm.trans hb) Bool.false_ne_true, ?_⟩
  rw [if_pos hscroll]
  exact .inr ⟨ha, htodo⟩

/-- An abort event leaves the animator at rest if the command is a `SCROLL`, or if it was at rest (R196). -/
theorem raise_animatorInv (e : Abort) (h : s.scrolling = true ∨ ¬ s.status.astate.running) : (s.raise e).AnimatorInv := by
  have hr := raised e s
  refine animatorInv_of_ready hr.ready ?_
  rw [hr.astate]
  split
  · exact idle_not_running
  · exact h.resolve_left ‹_›

/-! ### What the statements of a command come to -/

/-- The statements of a `SCROLL` after its initial flush. -/
theorem run_animatorInv_scrolling (hops : OnlyDoneAtTheEnd ops) (hb : s.status.busy = true) (hscroll : s.scrolling = true)
    (ha : s.status.astate = .scrolling) : (run ops s).AnimatorInv := by
  rcases run_scrolling hops ha with ⟨t, hrun, hdone, -⟩ | ⟨t, e, hrun, hcore, -⟩ |
    ⟨t, r, post, hrun, hast, hpost, hcore, -⟩
  · rw [hrun]
    refine animatorInv_of_ready (ready_finish t) ?_
    show ¬ t.status.astate.running
    rw [hdone]
    exact done_not_running
  · rw [hrun]
    exact raise_animatorInv e (.inl ((scrolling_congr hcore.cmd).trans hscroll))
  · rw [hrun]
    exact animatorInv_of_scrolling (hcore.busy.trans hb) ((scrolling_congr hcore.cmd).trans hscroll) hast hpost

/-- The initial flush of a `SCROLL`, from its start or from where it waited, and what comes after it. -/
theorem run_animatorInv_painting {op : Op} {rest : List Op} (hb : s.status.busy = true) (hscroll : s.scrolling = true)
    (hpb : s.pb = fillCells s.bg) (hschr : s.schr = 0) (hscol : s.scol = 0) (ha : s.status.astate = .painting)
    (hrest : OnlyDoneAtTheEnd rest) (hop : op.writesPb = false ∧ op.movesAnimator = false)
    (hwait : ∀ u r, runOp op s = .wait u r → r.inFlush = true) :
    (run (op :: .setAState .scrolling :: rest) s).AnimatorInv := by
  have hcore := runOp_sameCore op s
  have hsame := runOp_pb hop.1 s
  obtain ⟨hschr', hscol', hast⟩ := runOp_animator hop.2 s
  cases hx : runOp op s with
  | done u =>
    rw [hx] at hcore
    rw [run_done hx, run_done rfl]
    exact run_animatorInv_scrolling (s := u.withAState .scrolling) hrest (hcore.busy.trans hb)
      ((scrolling_congr hcore.cmd).trans hscroll) rfl
  | raise e u =>
    rw [hx] at hcore
    rw [run_raise hx]
    exact raise_animatorInv e (.inl ((scrolling_congr hcore.cmd).trans hscroll))
  | wait u r =>
    rw [hx] at hcore hsame hschr' hscol' hast
    rw [run_wait hx]
    exact animatorInv_of_painting (hcore.busy.trans hb) ((scrolling_congr hcore.cmd).trans hscroll) (hast.trans ha)
      ((hsame.trans hpb).trans (congrArg fillCells hcore.bg.symm)) (hschr'.trans hschr) (hscol'.trans hscol) rfl (hwait u r hx)
      hrest

/-- The statements of any other command move the animator nowhere. -/
theorem run_animatorInv_other (hops : ∀ a, .setAState a ∉ ops) (hb : s.status.busy = true) (hscroll : s.scrolling = false)
    (ha : ¬ s.status.astate.running) : (run ops s).AnimatorInv := by
  refine run_ends (P := fun u => SameCore s u ∧ ¬ u.status.astate.running) ?_ ?_ ?_ ?_ ⟨.rfl, ha⟩
  · rintro op hop u ⟨hcore, hrest⟩
    refine ⟨hcore.trans (runOp_sameCore op u), ?_⟩
    rwa [runOp_astate fun a h => hops a (h ▸ hop)]
  · rintro u ⟨-, hrest⟩
    exact animatorInv_of_ready (ready_finish u) hrest
  · rintro op - a b e - ⟨-, hrest⟩
    exact raise_animatorInv e (.inr hrest)
  · rintro pre op post a b r hsplit hwait ⟨hcore, hrest⟩
    have hresume := (wait_resume hwait).1
    refine ⟨fun hidle => absurd (hidle.symm.trans (hcore.busy.trans hb)) Bool.false_ne_true, ?_⟩
    rw [show State.scrolling { b with todo := r :: post } = false from (scrolling_congr hcore.cmd).trans hscroll]
    refine ⟨hrest, fun a ha => ?_⟩
    rcases List.mem_cons.mp ha with rfl | ha
    · cases hresume
    · exact hops a (hsplit ▸ by simp [ha])

/-! ### Every step -/

theorem resume_animatorInv (h : s.AnimatorInv) (hb : s.status.busy = true) : s.resume.AnimatorInv := by
  obtain ⟨-, hrest⟩ := h
  cases hscroll : s.scrolling with
  | false =>
    rw [hscroll] at hrest
    exact run_animatorInv_other hrest.2 hb hscroll hrest.1
  | true =>
    rw [if_pos hscroll] at hrest
    rcases hrest with ⟨ha, hpb, hschr, hscol, op, rest, htodo, hop, hdone⟩ | ⟨ha, hdone⟩
    · rw [State.resume, htodo]
      refine run_animatorInv_painting hb hscroll hpb hschr hscol ha hdone ?_ fun u r => wait_inFlush hop
      cases op <;> first | exact ⟨rfl, rfl⟩ | cases hop
    · exact run_animatorInv_scrolling hdone hb hscroll ha

theorem Op.OfFlush.inFlush {off n : Nat} {r : Op} (h : r.OfFlush off n) : r.inFlush = true := by
  cases r <;> first | rfl | exact h.elim

/-- A `SCROLL` that is accepted comes to its initial flush, all four statements before it being done (R156). -/
theorem execScroll_animatorInv (o : Orient) (s : State) :
    (run (scrollOps o s.msglen.toNat) (s.accept (.scroll o))).AnimatorInv := by
  rw [scrollOps_eq]
  refine run_animatorInv_painting (s := (s.accept (.scroll o)).initialFrame) rfl rfl rfl rfl rfl rfl
    (scrollRest_onlyDone o s.msglen.toNat) ⟨rfl, rfl⟩ fun u r hwait => ?_
  have hflush := ofFlush_start 0 devBytes (s.accept (.scroll o)).initialFrame
  rw [show flushStart 0 devBytes _ = _ from hwait] at hflush
  exact Op.OfFlush.inFlush hflush

theorem exec_animatorInv {i : Instr} (ha : ¬ s.status.astate.running) (ht : exec i s = .next t) : t.AnimatorInv := by
  cases hi : isScroll i with
  | true =>
    cases i <;> first | (cases hi; done) | skip
    cases ht
    exact execScroll_animatorInv _ s
  | false =>
    rcases exec_next ht with ⟨f, hf, rfl⟩ | ⟨ops, pb, hops, -, rfl⟩
    · refine animatorInv_of_ready (ready_finish _) ?_
      show ¬ (f (s.accept i)).status.astate.running
      rw [(hf _).astate]
      exact ha
    · refine run_animatorInv_other (fun a hmem => ?_) rfl ((scrolling_of_cmd rfl).trans hi) ha
      have hscroll := (hops _ hmem).within.2.2.2 rfl
      rw [hi] at hscroll
      cases hscroll

/-- Settles O26: a step runs a `SCROLL` from its initial flush to a wait inside it, or past it to a wait or an end after it; no
other command moves the animator. -/
theorem stepKeepsAnimatorInv : Obligations.StepKeepsAnimatorInv := by
  intro s t h hs
  refine step_keeps (Inv := State.AnimatorInv) ?_ (fun _ _ h => h) ?_ (fun s h hb => resume_animatorInv h hb)
    (fun i s t h hb ht => exec_animatorInv (h.not_running hb) ht) ?_ h hs
  · intro s h
    unfold State.AnimatorInv at h ⊢
    rw [scrolling_congr (begun_cmd s)]
    simpa using h
  · intro s _
    exact animatorInv_of_ready ⟨rfl, rfl, rfl⟩ idle_not_running
  · intro s h hb
    exact raise_animatorInv .illCmd (.inr (h.not_running hb))

end Sys2Proof.Machine
end

section
/-! PROOFS. Where a `SCROLL` stands at the end of each of its steps (R150, R156, R164): ended, in its initial flush, or after
it. -/

namespace Sys2Proof.Machine

variable {s t u v : State} {o : Orient} {ops rest : List Op} {op : Op}

/-! ### A `SCROLL` while it executes -/

/-- `u` is a state of a `SCROLL` accepted in `s` that executes, its flags as before. -/
structure ScrollRuns (o : Orient) (s u : State) : Prop where
  busy : u.status.busy = true
  cmd : u.cmd = some (.scroll o)
  flags : ∀ e, u.status.flag e = s.status.flag e

theorem ScrollRuns.core (h : ScrollRuns o s u) (k : SameCore u v) : ScrollRuns o s v :=
  ⟨k.busy.trans h.busy, k.cmd.trans h.cmd, fun e => (k.flags e).trans (h.flags e)⟩

theorem ScrollRuns.begun (h : ScrollRuns o s u) : ScrollRuns o s u.begun :=
  ⟨by rw [begun_status, h.busy], by rw [begun_cmd, h.cmd], fun e => by rw [begun_status, h.flags]⟩

theorem ScrollRuns.waits (h : ScrollRuns o s u) (todo : List Op) : ScrollRuns o s { u with todo := todo } :=
  ⟨h.busy, h.cmd, h.flags⟩

/-- The transactions of the initial flush that finds a device and is answered with success (R156). -/
def State.initialEvents (s : State) : List Event :=
  [.acquire true, .write 0 (pbBytes (fillCells s.bg) 0 128) true, .release]

/-- Where a `SCROLL` accepted in `s` stands in `t` at the end of a step. -/
inductive ScrollLeft (o : Orient) (s t : State) : Prop where
  /-- It has ended in `Done`. -/
  | done (hready : t.Ready) (hastate : t.status.astate = .done) (hflags : ∀ e, t.status.flag e = s.status.flag e)
  /-- It has ended with an abort event (R164). -/
  | aborted (hready : t.Ready) (hastate : t.status.astate = .idle) (e : Abort)
      (he : e = .fontErr ∨ e = .devErr ∨ e = .cancelled) (hflag : t.status.flag e = true)
      (hflags : ∀ e', e' ≠ e → t.status.flag e' = s.status.flag e')
  /-- It waits in its initial flush, which found a device. -/
  | painting (hruns : ScrollRuns o s t) (hpresent : s.plat.present.now = true) (hastate : t.status.astate = .painting)
      (hpb : t.pb = fillCells s.bg) (hschr : t.schr = 0) (hscol : t.scol = 0) (hnodev : t.status.nodev = false)
      (op : Op) (rest : List Op) (htodo : t.todo = op :: .setAState .scrolling :: rest) (hrest : OnlyDoneAtTheEnd rest)
      (hat : AtFlush (pbBytes (fillCells s.bg) 0 128) s.trace op t)
  /-- It waits after its initial flush; if that found a device, its transactions come first, and the end of a later flush
  comes after transactions of that one. -/
  | scrolling (hruns : ScrollRuns o s t) (hastate : t.status.astate = .scrolling) (htodo : OnlyDoneAtTheEnd t.todo)
      (new : List Event) (htrace : t.trace = s.trace ++ new)
      (hnew : s.plat.present.now = true → ∃ more, new = s.initialEvents ++ more ∧
        ∀ ok, t.todo.head? = some (.flushEnd ok) → more ≠ [])

/-- A `SCROLL` in which a statement raises an event has ended with it (R196, R198). -/
theorem scrollLeft_raise {e : Abort} (hruns : ScrollRuns o s t) (h : runOp op u = .raise e t) :
    ScrollLeft o s (t.raise e) := by
  have hmay : mayRaise (.scroll o) e = true :=
    runOp_mayRaise ⟨fun _ => rfl, fun _ => rfl, fun _ => rfl, fun _ => rfl⟩ h
  refine .aborted (raised e t).ready ?_ e ?_ (raise_flag t e) fun e' hne => (raise_flag_of_ne t hne).trans (hruns.flags e')
  · rw [raise_status_of_scroll hruns.cmd]
  · cases e <;> simp_all [mayRaise]

/-! ### After the initial flush -/

/-- The statements after the initial flush run from `u`, with `new` the transactions so far. -/
theorem scrollLeft_run_scrolling (hops : OnlyDoneAtTheEnd ops) (hruns : ScrollRuns o s u) (ha : u.status.astate = .scrolling)
    {new : List Event} (htrace : u.trace = s.trace ++ new) (hnew : s.plat.present.now = true → s.initialEvents <+: new) :
    ScrollLeft o s (run ops u) := by
  rcases run_scrolling hops ha with ⟨t, hrun, hdone, hcore⟩ | ⟨t, e, hrun, hcore, op, -, w, hraise⟩ |
    ⟨t, r, post, hrun, hast, hpost, hcore, hgrown, hend⟩
  · rw [hrun]
    exact .done (ready_finish t) hdone (hruns.core hcore).flags
  · rw [hrun]
    exact scrollLeft_raise (hruns.core hcore) hraise
  · rw [hrun]
    obtain ⟨new', htrace'⟩ := hgrown
    have htrace' : t.trace = s.trace ++ (new ++ new') := by rw [← htrace', htrace, List.append_assoc]
    refine .scrolling ((hruns.core hcore).waits _) hast hpost (new ++ new') htrace' fun hp => ?_
    obtain ⟨more, hmore⟩ := hnew hp
    refine ⟨more ++ new', by rw [← hmore, List.append_assoc], fun ok hhead => ?_⟩
    obtain ⟨e, new'', hlogged⟩ := hend ok (Option.some.inj hhead)
    rw [htrace, List.append_assoc] at hlogged
    have : new' = e :: new'' := List.append_cancel_left (List.append_cancel_left (htrace'.symm.trans hlogged))
    simp [this]

/-! ### In the initial flush -/

/-- The initial flush, at its start or where it waited, when it found a device, and what comes after it. -/
theorem scrollLeft_run_painting (hruns : ScrollRuns o s u) (hp : s.plat.present.now = true)
    (ha : u.status.astate = .painting) (hpb : u.pb = fillCells s.bg) (hschr : u.schr = 0) (hscol : u.scol = 0)
    (hrest : OnlyDoneAtTheEnd rest) (hop : op.writesPb = false ∧ op.movesAnimator = false)
    (hnodev : (runOp op u).state.status.nodev = false)
    (hat : (runOp op u).AtFlush (pbBytes (fillCells s.bg) 0 128) s.trace) :
    ScrollLeft o s (run (op :: .setAState .scrolling :: rest) u) := by
  have hcore := runOp_sameCore op u
  have hsame := runOp_pb hop.1 u
  obtain ⟨hschr', hscol', hast⟩ := runOp_animator hop.2 u
  cases hx : runOp op u with
  | done v =>
    rw [hx] at hcore hat
    rw [run_done hx, run_done rfl]
    refine scrollLeft_run_scrolling (u := v.withAState .scrolling) (new := s.initialEvents) hrest
      ((hruns.core hcore).core (runOp_sameCore (.setAState .scrolling) v)) rfl hat fun _ => List.prefix_refl _
  | raise e v =>
    rw [hx] at hcore
    rw [run_raise hx]
    exact scrollLeft_raise (hruns.core hcore) hx
  | wait v r =>
    rw [hx] at hcore hsame hschr' hscol' hast hnodev hat
    rw [run_wait hx]
    exact .painting ((hruns.core hcore).waits _) hp (hast.trans ha) (hsame.trans hpb) (hschr'.trans hschr) (hscol'.trans hscol)
      hnodev r rest rfl hrest hat

theorem ScrollLeft.resume (h : ScrollLeft o s u) (hb : u.status.busy = true) : ScrollLeft o s u.begun.resume := by
  have not_ready : ¬ u.Ready := fun hr => absurd (hr.1.symm.trans hb) Bool.false_ne_true
  rw [State.resume, begun_todo]
  cases h with
  | done hready => exact (not_ready hready).elim
  | aborted hready => exact (not_ready hready).elim
  | painting hruns hp ha hpb hschr hscol hnodev op rest htodo hrest hat =>
    rw [htodo]
    have hop := hat.inFlush
    have hat' : AtFlush (pbBytes (fillCells s.bg) 0 128) s.trace op u.begun := by
      rwa [AtFlush, begun_pb, begun_trace]
    obtain ⟨-, -, -, hstatus⟩ := runOp_inFlush hop u.begun
    refine scrollLeft_run_painting hruns.begun hp (by rw [begun_status, ha]) (by rw [begun_pb, hpb])
      (by rw [begun_schr, hschr]) (by rw [begun_scol, hscol]) hrest ?_ (by rw [hstatus, begun_status, hnodev])
      (runOp_atFlush hat')
    cases op <;> first | exact ⟨rfl, rfl⟩ | cases hop
  | scrolling hruns ha htodo new htrace hnew =>
    refine scrollLeft_run_scrolling htodo hruns.begun (by rw [begun_status, ha]) (by rw [begun_trace, htrace]) fun hp => ?_
    obtain ⟨more, rfl, -⟩ := hnew hp
    exact List.prefix_append _ _

/-- The statements in front of the initial flush are done at once (R156). -/
theorem exec_scroll (o : Orient) (s : State) : exec (.scroll o) s =
    .next (run (fullFlush :: .setAState .scrolling :: scrollRest o s.msglen.toNat) (s.accept (.scroll o)).initialFrame) := rfl

theorem initialFrame_runs (o : Orient) (s : State) : ScrollRuns o s (s.accept (.scroll o)).initialFrame :=
  ⟨rfl, rfl, fun e => by cases e <;> rfl⟩

theorem execScroll_left (ht : exec (.scroll o) s = .next t) : ScrollLeft o s t := by
  rw [exec_scroll] at ht
  cases ht
  have hruns := initialFrame_runs o s
  have hrest := scrollRest_onlyDone o s.msglen.toNat
  cases hp : s.plat.present.now with
  | true =>
    have hnodev := (flush_nodev 0 devBytes (s.accept (.scroll o)).initialFrame).2
    refine scrollLeft_run_painting hruns hp rfl rfl rfl rfl hrest ⟨rfl, rfl⟩ (hnodev.trans (congrArg (!·) hp)) ?_
    exact flushStart_atFlush (s := (s.accept (.scroll o)).initialFrame) hp
  | false =>
    have hskip := flush_absent (s := (s.accept (.scroll o)).initialFrame) hp 0 devBytes
    have hcore := runOp_sameCore (.flush 0 devBytes) (s.accept (.scroll o)).initialFrame
    rw [hskip] at hcore
    rw [fullFlush, run_done hskip, run_done rfl]
    exact scrollLeft_run_scrolling (new := []) hrest ((hruns.core hcore).core (runOp_sameCore (.setAState .scrolling) _)) rfl
      (List.append_nil _).symm fun hp' => absurd (hp'.symm.trans hp) (by decide)

theorem Executes.scrollLeft {k : Nat} (h : Executes (.scroll o) k s t) : ScrollLeft o s t :=
  h.keeps (fun _ => execScroll_left) fun _ hleft hb => hleft.resume hb

/-! ### `NODEV` throughout a `SCROLL` (R44) -/

theorem nodevIs_run_cons {p : Bool} (h : NodevIs p (runOp op u).state) (rest : List Op) : NodevIs p (run (op :: rest) u) := by
  cases hx : runOp op u with
  | done v =>
    rw [hx] at h
    rw [run_done hx]
    exact h.run rest
  | raise e v =>
    rw [hx] at h
    rw [run_raise hx, NodevIs, (raised e v).plat, (raised e v).nodev]
    exact h
  | wait v r =>
    rw [hx] at h
    rw [run_wait hx]
    exact h

/-- The initial flush writes `NODEV`, and no later one writes it otherwise where `dev_present` is `p` throughout. -/
theorem Executes.scroll_nodev {p : Bool} {k : Nat} (hp : s.plat.present.All (· = p)) (h : Executes (.scroll o) k s t) :
    NodevIs p t := by
  refine h.keeps (P := NodevIs p) (fun t ht => ?_) fun u hu _ => ?_
  · rw [exec_scroll] at ht
    cases ht
    refine nodevIs_run_cons ?_ _
    obtain ⟨hpresent, hnodev⟩ := flush_nodev 0 devBytes (s.accept (.scroll o)).initialFrame
    rw [fullFlush, NodevIs, hpresent, hnodev]
    exact ⟨hp.later, congrArg (!·) hp.now⟩
  · refine NodevIs.run ?_ _
    obtain ⟨hpresent, hnodev⟩ := hu
    exact ⟨by simpa using hpresent, by rwa [begun_status]⟩

/-! ### Painting and scrolling by the transactions -/

theorem AtFlush.initialFlush (h : AtFlush (pbBytes (fillCells s.bg) 0 128) s.trace op t) (hp : s.plat.present.now = true)
    (htodo : t.todo = op :: rest) : ∃ new, t.trace = s.trace ++ new ∧ s.InitialFlush t new := by
  obtain ⟨-, new, htrace, hevents⟩ := h
  exact ⟨new, htrace, hp, op, rest, htodo, hevents⟩

/-- After the transactions of the initial flush the core is at no point of it, but at its end if nothing came since. -/
theorem not_initialFlush {new : List Event} (hnew : s.plat.present.now = true → ∃ more, new = s.initialEvents ++ more ∧
    ∀ ok, t.todo.head? = some (.flushEnd ok) → more ≠ []) : ¬ s.InitialFlush t new := by
  rintro ⟨hp, op, rest, htodo, hevents⟩
  obtain ⟨more, rfl, hmore⟩ := hnew hp
  rw [htodo, List.head?_cons] at hmore
  cases op
  case flushEnd ok =>
    have hmore := hmore ok rfl
    cases ok <;> simp_all [EventsUpTo, State.initialEvents]
  all_goals simp_all [EventsUpTo, State.initialEvents]

/-- Settles O59: `ScrollLeft` holds of the step that accepts a `SCROLL` and is kept by every step in which it goes on. -/
theorem scrollEndsDoneOrAborted : Obligations.ScrollEndsDoneOrAborted := by
  intro o k s t h
  refine ⟨fun hp => (h.scroll_nodev hp).2, fun hp => (h.scroll_nodev hp).2, ?_⟩
  cases h.scrollLeft with
  | done hready hastate hflags => exact .inl ⟨hready, hastate, hflags⟩
  | aborted hready hastate e he hflag hflags => exact .inr (.inl ⟨hready, hastate, e, he, hflag, hflags⟩)
  | painting hruns hp hastate hpb hschr hscol hnodev op rest htodo hrest hat =>
    obtain ⟨new, htrace, hinitial⟩ := hat.initialFlush hp htodo
    refine .inr (.inr ⟨hruns.busy, hruns.cmd, hruns.flags, new, htrace, .inl ⟨hinitial, hastate, fun i hi => ?_, hschr, hscol,
      hnodev⟩⟩)
    rw [State.pbAt, hpb]
    exact cellAt_tabulate _ hi
  | scrolling hruns hastate htodo new htrace hnew =>
    refine .inr (.inr ⟨hruns.busy, hruns.cmd, hruns.flags, new, htrace, .inr ⟨not_initialFlush hnew, hastate, ?_⟩⟩)
    cases hp : s.plat.present.now with
    | false => exact .inl rfl
    | true =>
      obtain ⟨more, rfl, -⟩ := hnew hp
      exact .inr (List.prefix_append _ _)

end Sys2Proof.Machine
end

section
/-! PROOFS. No statement waits for ever on a fair platform (R231), and none waits where no answer is withheld. -/

namespace Sys2Proof.Machine

variable {s t u : State} {op : Op} {ops : List Op}

/-! ### A statement that comes to an end -/

/-- The statement `op`, begun in `s`, is done or raises an event after finitely many waits, whatever is left to do behind it. -/
inductive Passes : Op → State → Prop where
  | done {op : Op} {s t : State} (h : runOp op s = .done t) : Passes op s
  | raise {op : Op} {s t : State} {e : Abort} (h : runOp op s = .raise e t) : Passes op s
  | wait {op r : Op} {s t : State} (h : runOp op s = .wait t r)
      (k : ∀ todo, Passes r ({ t with todo := todo } : State).begun) : Passes op s

/-- Statements that come to the same come to an end alike. -/
theorem Passes.congr {op' : Op} (h : Passes op s) (he : runOp op' t = runOp op s) : Passes op' t := by
  cases h with
  | done h => exact .done (he.trans h)
  | raise h => exact .raise (he.trans h)
  | wait h k => exact .wait (he.trans h) k

/-- A list of statements of a fair platform comes to its end if each of them does. -/
theorem finally_of_passes (h : Passes op s) (hfair : s.Fair)
    (hrest : ∀ t : State, t.Fair → ∃ u, Finally ops t u) : ∃ u, Finally (op :: ops) s u := by
  induction h with
  | @done op s t h =>
    have hdone := fair_runOp op hfair
    rw [h] at hdone
    obtain ⟨u, hu⟩ := hrest t hdone
    exact ⟨u, .done h hu⟩
  | raise h => exact ⟨_, .raise h⟩
  | @wait op r s t h _ ih =>
    have hwaits := fair_runOp op hfair
    rw [h] at hwaits
    obtain ⟨u, hu⟩ := ih (r :: ops) (fair_begun (fair_of hwaits rfl hwaits.1 rfl rfl rfl rfl))
    exact ⟨u, .wait h hu⟩

/-- What holds of an input that has its next answer now, and at each silence if it holds after it, holds of every input that is
not silent for ever. -/
theorem Script.answered_induct {P : Script Answer → Prop} (hanswered : ∀ sc : Script Answer, sc.now ≠ .silent → P sc)
    (hsilent : ∀ sc : Script Answer, sc.rest ≠ .silent → sc.now = .silent → P sc.later → P sc) :
    ∀ sc : Script Answer, sc.rest ≠ .silent → P sc := by
  rintro ⟨l, r⟩ hr
  induction l with
  | nil => exact hanswered _ hr
  | cons a l ih =>
    by_cases ha : a = .silent
    · exact hsilent ⟨a :: l, r⟩ hr ha (ih hr)
    · exact hanswered _ ha

/-! ### Flushes -/

theorem passes_flushEnd (ok : Bool) (s : State) : Passes (.flushEnd ok) s := by
  cases ok
  exacts [.raise rfl, .done rfl]

/-- After a device event the statement at which the command goes on is the one it may wait at. -/
theorem passes_atEdge {resume : Op} {go : State → OpResult} (he : runOp op t = atEdge resume go s)
    (hgo : ∀ w, runOp resume w = go w) (h : ∀ w : State, w.plat.write = s.plat.write → Passes resume w) : Passes op t := by
  unfold atEdge at he
  split at he
  · exact .wait he fun todo => h _ (by rw [begun_plat]; rfl)
  · exact (h s.sampledEdge rfl).congr (he.trans (hgo _).symm)

theorem passes_flushRelease (ok : Bool) (s : State) : Passes (.flushRelease ok) s :=
  passes_atEdge rfl (fun _ => rfl) fun w _ => passes_flushEnd ok w

/-- A write that comes to be answered (R45). -/
theorem passes_flushWrite (off n : Nat) (h : s.plat.write.rest ≠ .silent) : Passes (.flushWrite off n) s := by
  refine Script.answered_induct (P := fun sc => ∀ s : State, s.plat.write = sc → Passes (.flushWrite off n) s) ?_ ?_
    s.plat.write h s rfl
  · rintro _ hw s rfl
    cases hnow : s.plat.write.now with
    | silent => exact (hw hnow).elim
    | ok =>
      have he : runOp (.flushWrite off n) s = atEdge (.flushRelease true) (flushRelease true)
          ((s.sampledWrite.writeDevice off (pbBytes s.pb off n)).log (.write off (pbBytes s.pb off n) true)) := by
        simp only [runOp, flushWrite, hnow]
      exact passes_atEdge he (fun _ => rfl) fun w _ => passes_flushRelease true w
    | failed =>
      have he : runOp (.flushWrite off n) s = atEdge (.flushRelease false) (flushRelease false)
          ((s.sampledWrite.spoil off n).log (.write off (pbBytes s.pb off n) false)) := by
        simp only [runOp, flushWrite, hnow]
      exact passes_atEdge he (fun _ => rfl) fun w _ => passes_flushRelease false w
  · rintro _ - hw ih s rfl
    have hwait : runOp (.flushWrite off n) s = .wait (s.sampledWrite.spoil off n) (.flushWrite off n) := by
      simp only [runOp, flushWrite, hw]
    exact .wait hwait fun todo => ih _ (by rw [begun_plat]; rfl)

theorem passes_flushHold (off n : Nat) (h : s.plat.write.rest ≠ .silent) : Passes (.flushHold off n) s :=
  (passes_flushWrite off n h).congr rfl

/-- A request that comes to be answered (R44). -/
theorem passes_flushGrant (off n : Nat) (ha : s.plat.acquire.rest ≠ .silent) (hw : s.plat.write.rest ≠ .silent) :
    Passes (.flushGrant off n) s := by
  refine Script.answered_induct (P := fun sc => ∀ s : State, s.plat.write.rest ≠ .silent → s.plat.acquire = sc →
    Passes (.flushGrant off n) s) ?_ ?_ s.plat.acquire ha s hw rfl
  · rintro _ ha s hw rfl
    cases hnow : s.plat.acquire.now with
    | silent => exact (ha hnow).elim
    | ok =>
      have he : runOp (.flushGrant off n) s =
          atEdge (.flushHold off n) (flushWrite off n) (s.sampledAcquire.takeDevice.log (.acquire true)) := by
        simp only [runOp, flushGrant, hnow]
      exact passes_atEdge he (fun _ => rfl) fun w hsame => passes_flushHold off n (by rw [hsame]; exact hw)
    | failed =>
      have he : runOp (.flushGrant off n) s =
          atEdge (.flushEnd false) (flushEnd false) (s.sampledAcquire.log (.acquire false)) := by
        simp only [runOp, flushGrant, hnow]
      exact passes_atEdge he (fun _ => rfl) fun w _ => passes_flushEnd false w
  · rintro _ - ha ih s hw rfl
    have hwait : runOp (.flushGrant off n) s = .wait s.sampledAcquire (.flushGrant off n) := by
      simp only [runOp, flushGrant, ha]
    exact .wait hwait fun todo => ih _ (by rw [begun_plat]; exact hw) (by rw [begun_plat]; rfl)

theorem passes_flush (off n : Nat) (ha : s.plat.acquire.rest ≠ .silent) (hw : s.plat.write.rest ≠ .silent) :
    Passes (.flush off n) s := by
  cases hp : s.plat.present.now with
  | false => exact .done (flush_absent hp off n)
  | true => exact (passes_flushGrant (s := s.sampledPresent) off n ha hw).congr (if_pos hp)

/-! ### Lookups -/

/-- The reads of some chunks, if what is left of a lookup that waits comes to an end with fewer answers to come. -/
theorem passes_readChunks {rows : List Nat} (hfont : s.plat.font.rest ≠ .silent)
    (hwaits : ∀ (row : Nat) (w : State), w.plat.font.rest ≠ .silent →
      w.plat.font.next.length < s.plat.font.next.length → Passes (.fontRow row) w)
    (he : runOp op t = readChunks rows s) : Passes op t := by
  induction rows generalizing s with
  | nil => exact .done he
  | cons row rows ih =>
    have hshorter : s.plat.font.later.next.length ≤ s.plat.font.next.length := by simp [Script.later]
    rw [readChunks] at he
    split at he
    · rename_i hsilent
      refine .wait he fun todo => hwaits row _ (by rw [begun_plat]; exact hfont) ?_
      rw [begun_plat]
      show s.plat.font.next.tail.length < s.plat.font.next.length
      cases hnext : s.plat.font.next with
      | nil => exact (hfont (by rwa [Script.now, hnext] at hsilent)).elim
      | cons a l => simp
    · split at he
      · exact .raise he
      · exact ih (s := s.readChunk row) hfont
          (fun row w hw hlen => hwaits row w hw (Nat.lt_of_lt_of_le hlen hshorter)) he

/-- Font reads that come to be answered (R50). -/
theorem passes_fontRow (row : Nat) (h : s.plat.font.rest ≠ .silent) : Passes (.fontRow row) s := by
  induction hn : s.plat.font.next.length using Nat.strong_induction_on generalizing s row with
  | _ n ih =>
    exact passes_readChunks h (fun row w hw hlen => ih _ (hn ▸ hlen) row hw rfl) rfl

theorem passes_lookup (ch : Byte) (h : s.plat.font.rest ≠ .silent) : Passes (.lookup ch) s :=
  (passes_fontRow (s := s.beginLookup ch) 0 h).congr rfl

/-! ### Paces -/

/-- How far the counter moves on in its next `n` readings. -/
def Script.total (sc : Script Nat) : Nat → Nat
  | 0 => 0
  | n + 1 => sc.now + sc.later.total n

theorem Script.total_const (r n : Nat) : (⟨[], r⟩ : Script Nat).total n = n * r := by
  induction n with
  | zero => rw [Script.total, Nat.zero_mul]
  | succ n ih => rw [Script.total, Script.later, List.tail_nil, ih, Script.now, Nat.succ_mul, Nat.add_comm]

/-- The readings to come reach the end of the pace (R205, R231). -/
theorem total_comes {m p : Nat} (hp : 2 * p ≤ m) (sc : Script Nat) (hpos : 0 < sc.rest) (hlt : sc.rest < m) (e : Nat) :
    ∃ n, p ≤ (e + sc.total (n + 1)) % m := by
  obtain ⟨l, r⟩ := sc
  induction l generalizing e with
  | nil =>
    obtain ⟨n, hn⟩ := pace_comes hpos hlt hp (e + r)
    exact ⟨n, by rwa [Script.total_const, Nat.succ_mul, Nat.add_comm (n * r), ← Nat.add_assoc]⟩
  | cons a l ih =>
    obtain ⟨n, hn⟩ := ih (e + a) hpos hlt
    exact ⟨n + 1, by rwa [Nat.add_assoc] at hn⟩

/-- A pace whose end the readings to come reach. -/
theorem passes_paceWait_of_total {n : Nat}
    (h : s.cfg.paceTicks ≤ (s.elapsed + s.plat.ticks.total (n + 1)) % 2 ^ s.cfg.mtimeBits) : Passes .paceWait s := by
  have hpos : 0 < 2 ^ s.cfg.mtimeBits := by positivity
  induction n generalizing s with
  | zero => exact .done (if_pos (by rw [elapsed_read s hpos]; exact h))
  | succ n ih =>
    by_cases hend : s.cfg.paceTicks ≤ s.readMtime.elapsed
    · exact .done (if_pos hend)
    · refine .wait (if_neg hend) fun todo => ih ?_ (by rw [begun_cfg]; exact hpos)
      have helapsed : ({ s.readMtime with todo := todo } : State).begun.elapsed = s.readMtime.elapsed := by
        unfold State.elapsed
        rw [begun_cfg, begun_mtime, begun_t0]
      rw [helapsed, begun_cfg, begun_plat, elapsed_read s hpos]
      show s.cfg.paceTicks ≤ ((s.elapsed + s.plat.ticks.now) % 2 ^ s.cfg.mtimeBits + s.plat.ticks.later.total (n + 1)) %
        2 ^ s.cfg.mtimeBits
      rwa [Nat.mod_add_mod, Nat.add_assoc]

theorem passes_paceWait (h : s.Fair) : Passes .paceWait s := by
  obtain ⟨-, -, -, -, hpos, hlt, hpace⟩ := h
  have hhalf : 2 * s.cfg.paceTicks ≤ 2 ^ s.cfg.mtimeBits := by
    cases hbits : s.cfg.mtimeBits with
    | zero =>
      rw [hbits] at hlt
      omega
    | succ b =>
      rw [hbits, Nat.add_sub_cancel] at hpace
      rw [Nat.pow_succ]
      omega
  obtain ⟨n, hn⟩ := total_comes hhalf s.plat.ticks hpos hlt s.elapsed
  exact passes_paceWait_of_total hn

/-- No statement waits for ever on a fair platform. -/
theorem passes_of_fair (op : Op) (h : s.Fair) : Passes op s := by
  have ⟨_, ha, hw, hf, _⟩ := h
  cases op with
  | lookup ch => exact passes_lookup ch hf
  | lookupMsg =>
    by_cases hlt : s.schr.toNat < s.n.toNat
    · exact (passes_lookup _ hf).congr (if_pos hlt)
    · exact .done (if_neg hlt)
  | fontRow row => exact passes_fontRow row hf
  | flush off n => exact passes_flush off n ha hw
  | flushGrant off n => exact passes_flushGrant off n ha hw
  | flushHold off n => exact passes_flushHold off n hw
  | flushWrite off n => exact passes_flushWrite off n hw
  | flushRelease ok => exact passes_flushRelease ok s
  | flushEnd ok => exact passes_flushEnd ok s
  | pace => exact (passes_paceWait (s := s.startPace) (fair_of h rfl h.1 rfl rfl rfl rfl)).congr rfl
  | paceWait => exact passes_paceWait h
  | checkCancel =>
    cases hc : s.plat.cancel.now with
    | true => exact .raise (if_pos hc)
    | false => exact .done (if_neg (by rw [hc]; exact Bool.false_ne_true))
  | _ => exact .done rfl

theorem finally_of_fair (ops : List Op) (h : s.Fair) : ∃ u, Finally ops s u := by
  induction ops generalizing s with
  | nil => exact ⟨_, .nil s⟩
  | cons op ops ih => exact finally_of_passes (passes_of_fair op h) h fun _ ht => ih ht

/-! ### Step by step -/

/-- `t` is the state in which a core that is ready, or that goes on with its command while `rst` stays 0, is ready again. -/
inductive Settles : State → State → Prop where
  | ready {t : State} (h : t.Ready) : Settles t t
  | step {s u t : State} (hb : s.status.busy = true) (hr : s.plat.rst.now = false) (hs : step s = .next u)
      (k : Settles u t) : Settles s t

/-- Statements that come to the end of their command in `t` do so in steps. -/
theorem Finally.settles (h : Finally ops s t) (hfair : s.Fair) (hb : s.status.busy = true) : Settles (run ops s) t := by
  induction h with
  | nil s => exact .ready (ready_finish s)
  | @done op ops s u t h _ ih =>
    have hdone := fair_runOp op hfair
    have hcore := runOp_sameCore op s
    rw [h] at hdone hcore
    rw [run_done h]
    exact ih hdone (hcore.busy.trans hb)
  | @raise op ops s e u h =>
    rw [run_raise h]
    exact .ready (raised e u).ready
  | @wait op r ops s u t h _ ih =>
    have hwaits := fair_runOp op hfair
    have hcore := runOp_sameCore op s
    rw [h] at hwaits hcore
    have hbusy : ({ u with todo := r :: ops } : State).status.busy = true := hcore.busy.trans hb
    have hfair' : ({ u with todo := r :: ops } : State).Fair := fair_of hwaits rfl hwaits.1 rfl rfl rfl rfl
    rw [run_wait h]
    exact .step hbusy hfair'.1.now (step_busy hfair' hbusy) (ih (fair_begun hfair') (by rw [begun_status]; exact hbusy))

theorem settles_run (ops : List Op) (hfair : s.Fair) (hb : s.status.busy = true) : ∃ t, Settles (run ops s) t := by
  obtain ⟨t, h⟩ := finally_of_fair ops hfair
  exact ⟨t, h.settles hfair hb⟩

/-- One step of a run, and the rest. -/
theorem run_succ_of_step (M : Host.Core) {s u : M.State} (h : M.step s = .next u) (k : Nat) :
    M.run (k + 1) s = M.run k u := by
  simp only [Host.Core.run, h]

theorem Settles.core_run (h : Settles s t) : ∃ k, core.run k s = .next t ∧ t.Ready := by
  induction h with
  | ready h => exact ⟨0, rfl, h⟩
  | @step s u t _ _ hs _ ih =>
    obtain ⟨k, hrun, hready⟩ := ih
    exact ⟨k + 1, (run_succ_of_step core hs k).trans hrun, hready⟩

theorem Settles.executes {i : Instr} {s₀ : State} {j : Nat} (h : Settles s t) (hj : Executes i j s₀ s) :
    ∃ k, Executes i k s₀ t ∧ t.Ready := by
  induction h generalizing j with
  | ready h => exact ⟨j, hj, h⟩
  | step hb hr hs _ ih => exact ih (j := j + 1) ⟨_, hj, hb, hr, hs⟩

/-! ### Where no answer is withheld -/

/-- The platform withholds no answer, and `PACE_TICKS` pass between two readings of `mtime`. -/
def State.Live (s : State) : Prop := s.NeverSilent ∧ s.Ticking

/-- A statement of a command on such a platform does not wait, and leaves such a platform. -/
def OpResult.Live : OpResult → Prop
  | .done t => t.Live
  | .raise _ _ => True
  | .wait _ _ => False

theorem live_kept (off n : Nat) : KeptByFlush off n State.Live where
  edge := fun _ ⟨⟨ha, hw, hf, he⟩, ht⟩ => ⟨⟨ha, hw, hf, he.later⟩, ht⟩
  write := fun _ ⟨⟨ha, hw, hf, he⟩, ht⟩ => ⟨⟨ha, hw.later, hf, he⟩, ht⟩
  take := fun _ h => h
  release := fun _ h => h
  log := fun _ _ h => h
  spoil := fun _ h => h
  store := fun _ _ _ h => h

theorem State.Live.atEdge {resume : Op} {go : State → OpResult} (h : s.Live) (hgo : ∀ w : State, w.Live → (go w).Live) :
    (atEdge resume go s).Live := by
  rw [atEdge_go h.1.2.2.2]
  exact hgo _ ((live_kept 0 0).edge s h)

theorem State.Live.flushEnd (h : s.Live) (ok : Bool) : (flushEnd ok s).Live := by
  cases ok
  exacts [trivial, h]

theorem State.Live.flushRelease (h : s.Live) (ok : Bool) : (flushRelease ok s).Live :=
  State.Live.atEdge (s := s.releaseDevice) h fun _ hw => hw.flushEnd ok

theorem State.Live.flushWrite (h : s.Live) (off n : Nat) : (flushWrite off n s).Live := by
  have hsampled := (live_kept off n).write s h
  obtain ⟨⟨-, hw, -, -⟩, -⟩ := h
  unfold Machine.flushWrite
  dsimp only
  split
  · exact absurd ‹_› hw.now
  · exact State.Live.atEdge hsampled fun _ hw => hw.flushRelease true
  · exact State.Live.atEdge hsampled fun _ hw => hw.flushRelease false

theorem State.Live.flushGrant (h : s.Live) (off n : Nat) : (flushGrant off n s).Live := by
  obtain ⟨⟨ha, hw, hf, he⟩, ht⟩ := h
  have hsampled : s.sampledAcquire.Live := ⟨⟨ha.later, hw, hf, he⟩, ht⟩
  unfold Machine.flushGrant
  split
  · exact absurd ‹_› ha.now
  · exact State.Live.atEdge hsampled fun _ hw => hw.flushWrite off n
  · exact State.Live.atEdge hsampled fun _ hw => hw.flushEnd false

theorem State.Live.readChunks (h : s.Live) (rows : List Nat) : (readChunks rows s).Live := by
  induction rows generalizing s with
  | nil => exact h
  | cons row rows ih =>
    obtain ⟨⟨ha, hw, hf, he⟩, ht⟩ := h
    rw [Machine.readChunks, if_neg hf.now]
    split
    · trivial
    · exact ih (s := s.readChunk row) ⟨⟨ha, hw, hf.later, he⟩, ht⟩

/-- What a pace leaves that ends at its first comparison (R205). -/
theorem paced_shape (s : State) : ∃ z m, s.paced = { s with
    t0 := z, mtime := m, plat := { s.plat with ticks := s.plat.ticks.later.later }, trace := s.trace ++ [.pace] } := by
  simp only [State.paced, State.log, State.startPace, State.readMtime]
  exact ⟨_, _, rfl⟩

/-- A statement with which a command may begin does not wait on such a platform. -/
theorem State.Live.runOp (h : s.Live) (hop : op.isResume = false) : (runOp op s).Live := by
  cases op <;> first | exact h | (cases hop; done) | skip
  case lookup ch => exact State.Live.readChunks (s := s.beginLookup ch) h _
  case lookupMsg =>
    by_cases hlt : s.schr.toNat < s.n.toNat
    · rw [show Machine.runOp .lookupMsg s = lookupChar _ s from if_pos hlt]
      exact State.Live.readChunks (s := s.beginLookup _) h _
    · rw [show Machine.runOp .lookupMsg s = .done s from if_neg hlt]
      exact h
  case flush off n =>
    cases hp : s.plat.present.now with
    | false => rw [flush_absent hp]; exact h
    | true =>
      rw [show Machine.runOp (.flush off n) s = Machine.flushGrant off n s.sampledPresent from if_pos hp]
      exact State.Live.flushGrant (s := s.sampledPresent) h off n
  case pace =>
    obtain ⟨z, m, hshape⟩ := paced_shape s
    rw [pace_done h.2, hshape]
    exact ⟨h.1, Script.All.later (Script.All.later h.2)⟩
  case checkCancel =>
    cases hc : s.plat.cancel.now with
    | true => rw [show Machine.runOp .checkCancel s = .raise .cancelled _ from if_pos hc]; trivial
    | false =>
      rw [show Machine.runOp .checkCancel s = .done s.sampledCancel from if_neg (by rw [hc]; exact Bool.false_ne_true)]
      exact h

/-- The statements of a command end in the one step on such a platform. -/
theorem run_ready_of_live (h : s.Live) (hops : ∀ op ∈ ops, op.isResume = false) : (run ops s).Ready := by
  induction ops generalizing s with
  | nil => exact ready_finish s
  | cons op ops ih =>
    have hlive := h.runOp (hops op List.mem_cons_self)
    cases hx : runOp op s with
    | done t =>
      rw [hx] at hlive
      rw [run_done hx]
      exact ih hlive fun o ho => hops o (List.mem_cons_of_mem _ ho)
    | raise e t =>
      rw [run_raise hx]
      exact (raised e t).ready
    | wait t r =>
      rw [hx] at hlive
      exact hlive.elim

/-! ### The obligation -/

/-- A command ends in the step that accepts it, or is a list of statements that run from a state that differs from that of the
acceptance in the buffer alone. -/
theorem exec_ready_or_run (i : Instr) (s : State) : (∃ t, exec i s = .next t ∧ t.Ready) ∨
    ∃ ops pb, (∀ op ∈ ops, op.isResume = false) ∧ exec i s = .next (run ops ((s.withPb pb).accept i)) := by
  rcases exec_cases i s with ⟨f, he, -⟩ | ⟨ops, he, hops⟩ | ⟨o, x, y, v, p, -, rfl, he⟩
  · exact .inl ⟨_, he, ready_finish _⟩
  · exact .inr ⟨ops, s.pb, fun op ho => (hops op ho).not_resume, he⟩
  · exact .inr ⟨_, setCell s.pb p v, by simp [cellFlush, Op.isResume], he⟩

/-- Settles O13: each statement passes on a fair platform, and does not wait where no answer is withheld. -/
theorem answeredCommandsEnd : Obligations.AnsweredCommandsEnd := by
  refine ⟨fun i s hfair => ?_, fun s hfair hb => ?_, fun i s hsilent htick => ?_⟩
  · rcases exec_ready_or_run i s with ⟨t, he, hready⟩ | ⟨ops, pb, -, he⟩
    · exact ⟨0, t, he, hready⟩
    · obtain ⟨t, hsettles⟩ := settles_run ops (s := (s.withPb pb).accept i) hfair rfl
      obtain ⟨k, hk⟩ := hsettles.executes (j := 0) he
      exact ⟨k, t, hk⟩
  · obtain ⟨t, hsettles⟩ := settles_run s.todo (fair_begun hfair) (by rw [begun_status]; exact hb)
    obtain ⟨k, hk⟩ := (Settles.step hb hfair.1.now (step_busy hfair hb) hsettles).core_run
    exact ⟨k, t, hk⟩
  · rcases exec_ready_or_run i s with h | ⟨ops, pb, hops, he⟩
    · exact h
    · exact ⟨_, he, run_ready_of_live (s := (s.withPb pb).accept i) ⟨hsilent, htick⟩ hops⟩

end Sys2Proof.Machine
end

section
/-! PROOFS. The message commands (R151, R153), `Shift` and `Insert` cell by cell (R157, R158), and the letter that stands after
step 8 of its scroll (R170). -/

namespace Sys2Proof.Machine

variable {s : State} {o : Orient} {i : Nat}

/-! ### The message (R151, R153) -/

theorem execMsgclr_eq (h : s.Ready) : exec .msgclr s = .next { s with msglen := 0 } :=
  congrArg (fun t : State => (.next { t with msglen := 0 } : Out)) (ready_finish_accept h .msgclr)

/-- A full buffer ignores the character. -/
theorem execMsgput_full (h : s.Ready) (ch : Byte) (hfull : s.msglen.toNat = s.cfg.msgMax) :
    exec (.msgput ch) s = .next s := by
  have hid : exec (.msgput ch) s = command (.msgput ch) id s := congrArg (fun t : State => (.next t.finish : Out)) (if_pos hfull)
  rw [hid, command_id h]

theorem execMsgput_append (h : s.Ready) (ch : Byte) (hroom : s.msglen.toNat ≠ s.cfg.msgMax) :
    exec (.msgput ch) s = .next (s.appendMsg ch) := by
  have happend : exec (.msgput ch) s = command (.msgput ch) (·.appendMsg ch) s :=
    congrArg (fun t : State => (.next t.finish : Out)) (if_neg hroom)
  exact happend.trans (congrArg (fun t : State => (.next (t.appendMsg ch) : Out)) (ready_finish_accept h (.msgput ch)))

/-- The length of a message that is not full yet does not wrap (R15). -/
theorem appendMsg_msglen_toNat (h : s.MsgInv) (hroom : s.msglen.toNat ≠ s.cfg.msgMax) (ch : Byte) :
    (s.appendMsg ch).msglen.toNat = s.msglen.toNat + 1 := by
  obtain ⟨hlen, hmax⟩ := h
  have hone : (1 : Byte).toNat = 1 := rfl
  rw [appendMsg_msglen, BitVec.toNat_add, hone, Nat.mod_eq_of_lt (by omega)]

/-- Settles O51: `MSGCLR` writes `MSGLEN` alone, and `MSGPUT` the entry at `MSGLEN` and `MSGLEN`, if there is room. -/
theorem messageCommands : Obligations.MessageCommands := by
  refine ⟨fun w => ⟨fun hop => by simp [decode, hop], fun hop => by simp [decode, hop]⟩, fun ch s hready hmsg => ?_⟩
  refine ⟨execMsgclr_eq hready, execMsgput_full hready ch, fun hroom => ?_⟩
  refine ⟨_, execMsgput_append hready ch hroom, rfl, appendMsg_msglen_toNat hmsg hroom ch, ?_, fun i hi => ?_⟩
  · obtain ⟨hlen, hmax⟩ := hmsg
    exact cellAt_setCell_self s.msg ch (by omega)
  · exact cellAt_setCell_ne s.msg ch hi

/-! ### Shift and Insert (R157, R158) -/

/-- How far buffer cell `i` is from the edge at which the animation enters (R158). -/
def edgeDistance (o : Orient) (i : Nat) : Nat :=
  match o with
  | .deg0 => 7 - i % 8
  | .deg90 => 7 - i / 8
  | .deg180 => i % 8
  | .deg270 => i / 8

/-- Which cell of a glyph column buffer cell `i` shows when that column passes (R158). -/
def edgeLane (o : Orient) (i : Nat) : Nat :=
  match o with
  | .deg0 => 7 - i / 8
  | .deg90 => i % 8
  | .deg180 => i / 8
  | .deg270 => 7 - i % 8

/-- The cell whose value `Shift` moves into cell `i` (R157). -/
def edgeNext (o : Orient) (i : Nat) : Nat :=
  match o with
  | .deg0 => i + 1
  | .deg90 => i + 8
  | .deg180 => i - 1
  | .deg270 => i - 8

/-- What one step writes at the edge: the glyph cell `g`, or the background for a blank character (R158). -/
def edgeInk (fg bg : Half) (gl : Option (Vector Bool 64)) (g : Nat) : Half :=
  match gl with
  | some gl => ink fg bg gl (some g)
  | none => bg

/-- Off the edge, `Shift` moves each cell's value one place away from it. -/
theorem cellAt_shiftCells (hi : i < 64) (h : edgeDistance o i ≠ 0) (pb : Vector Half 64) :
    cellAt 0 (shiftCells o pb) i = cellAt 0 pb (edgeNext o i) := by
  rw [shiftCells, cellAt_tabulate _ hi]
  cases o <;> simp only [edgeDistance, edgeNext] at h ⊢ <;> exact if_pos (by omega)

theorem insertCell_eq (hi : i < 64) (col : Nat) :
    insertCell o col i = if edgeDistance o i = 0 then some (col * 8 + edgeLane o i) else none := by
  cases o <;> simp only [insertCell, edgeDistance, edgeLane] <;> exact if_congr (by omega) rfl rfl

/-- `Insert` writes the cells at the edge and no other. -/
theorem cellAt_insertCells (hi : i < 64) (col : Nat) (blank : Bool) (fg bg : Half) (gl : Vector Bool 64)
    (pb : Vector Half 64) : cellAt 0 (insertCells o col blank fg bg gl pb) i =
      if edgeDistance o i = 0 then if blank then bg else ink fg bg gl (some (col * 8 + edgeLane o i))
      else cellAt 0 pb i := by
  rw [insertCells, cellAt_tabulate _ hi, insertCell_eq hi]
  by_cases h : edgeDistance o i = 0
  · rw [if_pos h, if_pos h]
  · rw [if_neg h, if_neg h]

/-- One step of the animation, cell by cell. -/
theorem cellAt_stepFrame (hi : i < 64) (fg bg : Half) (g : Option (Vector Bool 64)) (col : Nat) (pb : Vector Half 64) :
    cellAt 0 (stepFrame o fg bg g col pb) i =
      if edgeDistance o i = 0 then edgeInk fg bg g (col * 8 + edgeLane o i) else cellAt 0 pb (edgeNext o i) := by
  cases g <;> rw [stepFrame, cellAt_insertCells hi] <;> exact if_ctx_congr Iff.rfl (fun _ => rfl) fun h =>
    cellAt_shiftCells hi h pb

/-- The cell that a step moves into cell `i` stands one place nearer to the edge, in the same lane. -/
theorem edgeNext_spec (hi : i < 64) (h : edgeDistance o i ≠ 0) :
    edgeNext o i < 64 ∧ edgeDistance o i = edgeDistance o (edgeNext o i) + 1 ∧ edgeLane o (edgeNext o i) = edgeLane o i := by
  cases o <;> simp only [edgeDistance, edgeNext, edgeLane] at h ⊢ <;> omega

/-- After some steps a cell shows what was inserted as many steps ago as it is away from the edge. -/
theorem cellAt_steps (fg bg : Half) (steps : List (Option (Vector Bool 64) × Nat)) (pb : Vector Half 64) (hi : i < 64)
    {st : Option (Vector Bool 64) × Nat} (h : steps.reverse[edgeDistance o i]? = some st) :
    cellAt 0 (steps.foldl (fun pb st => stepFrame o fg bg st.1 st.2 pb) pb) i =
      edgeInk fg bg st.1 (st.2 * 8 + edgeLane o i) := by
  induction steps using List.reverseRecOn generalizing i with
  | nil => cases h
  | append_singleton steps last ih =>
    rw [List.reverse_append, List.reverse_singleton, List.singleton_append] at h
    rw [List.foldl_append, List.foldl_cons, List.foldl_nil, cellAt_stepFrame hi]
    by_cases hedge : edgeDistance o i = 0
    · rw [hedge] at h
      cases h
      exact if_pos hedge
    · obtain ⟨hlt, hdistance, hlane⟩ := edgeNext_spec hi hedge
      rw [hdistance, List.getElem?_cons_succ] at h
      rw [if_neg hedge, ih hlt h, hlane]

/-- Settles O53: the cells at the edge are those of `Insert`, the others those of `Shift`, by their coordinates. -/
theorem shiftAndInsertMoveTheBuffer : Obligations.ShiftAndInsertMoveTheBuffer := by
  refine ⟨fun pb px py hx hy => ?_, fun pb gl fg bg blank col px py hx hy => ?_⟩
  all_goals
    have hi : py * 8 + px < 64 := by omega
    have hrow : (py * 8 + px) / 8 = py := by omega
    have hcol : (py * 8 + px) % 8 = px := by omega
  · refine ⟨fun h => ?_, fun h => ?_, fun h => ?_, fun h => ?_⟩ <;>
      rw [cellAt_shiftCells hi (by simp only [edgeDistance, hrow, hcol]; omega), edgeNext] <;> congr 1 <;> omega
  · intro paint cell
    have hcell (o : Orient) := cellAt_insertCells (o := o) hi col blank fg bg gl pb
    have hpaint (g : Nat) : (if blank then bg else ink fg bg gl (some g)) = paint g := rfl
    simp only [hpaint] at hcell
    refine ⟨?_, ?_, ?_, ?_, fun hclosed hcol5 => ?_⟩
    · exact (hcell .deg0).trans (if_congr (by simp only [edgeDistance, hcol]; omega) (by simp only [edgeLane, hrow]) rfl)
    · exact (hcell .deg90).trans (if_congr (by simp only [edgeDistance, hrow]; omega) (by simp only [edgeLane, hcol]) rfl)
    · exact (hcell .deg180).trans (if_congr (by simp only [edgeDistance, hcol]) (by simp only [edgeLane, hrow]) rfl)
    · exact (hcell .deg270).trans (if_congr (by simp only [edgeDistance, hrow]) (by simp only [edgeLane, hcol]) rfl)
    · have hbg (g : Nat) (hg : 40 ≤ g) : paint g = bg := by simp [paint, hclosed g hg]
      exact ⟨hbg _ (by omega), hbg _ (by omega)⟩

/-! ### Step 8 of a letter (R170) -/

/-- The first eight steps of the scroll of one letter: its six columns, then two blank ones. -/
theorem take_letterSteps (gl : Vector Bool 64) : (scrollSteps [some gl, none]).take 8 =
    [(some gl, 0), (some gl, 1), (some gl, 2), (some gl, 3), (some gl, 4), (some gl, 5), (none, 0), (none, 1)] := rfl

/-- The buffer after step 8 of the scroll of one letter, cell by cell. -/
theorem letterFrame (o : Orient) (fg bg : Half) {gl : Vector Bool 64} (hclosed : ∀ g, 40 ≤ g → cellAt false gl g = false) :
    ∃ pb, (framesFrom o fg bg (scrollSteps [some gl, none]) (fillCells bg))[7]? = some pb ∧ ∀ i, i < 64 → cellAt 0 pb i =
      if edgeDistance o i < 3 then bg else ink fg bg gl (some ((7 - edgeDistance o i) * 8 + edgeLane o i)) := by
  refine ⟨_, getElem?_framesFrom o fg bg (fillCells bg) (steps := scrollSteps [some gl, none]) (j := 7)
    (by rw [length_scrollSteps]; exact (by decide : 7 < 6 * 2)),
    fun i hi => ?_⟩
  rw [take_letterSteps]
  have hlt : edgeDistance o i < 8 := by cases o <;> simp only [edgeDistance] <;> omega
  have hsteps {st : Option (Vector Bool 64) × Nat} := cellAt_steps (o := o) fg bg
    [(some gl, 0), (some gl, 1), (some gl, 2), (some gl, 3), (some gl, 4), (some gl, 5), (none, 0), (none, 1)] (fillCells bg)
    hi (st := st)
  generalize edgeDistance o i = d at hlt hsteps ⊢
  interval_cases d <;> rw [hsteps rfl]
  on_goal 3 => simp [edgeInk, ink, hclosed] -- column 5, at distance 2, whose cells are closed
  all_goals rfl

/-- But at 270 degrees, `glyph_offset` names the cell that the scroll brings to a position in its step 8 (R102). -/
theorem glyphOffset_eq_edge (rule : G270Rule) (ho : o ≠ .deg270) (hi : i < 64) :
    glyphOffset rule i o = if edgeDistance o i < 3 then none else some ((7 - edgeDistance o i) * 8 + edgeLane o i) := by
  cases o with
  | deg270 => exact (ho rfl).elim
  | deg0 | deg90 | deg180 =>
    simp only [glyphOffset, edgeDistance, edgeLane]
    exact if_ctx_congr (by omega) (fun _ => rfl) fun h => congrArg some (by omega)

/-- A glyph with every cell of its five chunks lit. -/
def litGlyph : Vector Bool 64 := tabulate 64 fun i => decide (i < 40)

theorem litGlyph_cell (g : Nat) : cellAt false litGlyph g = decide (g < 40) := by
  rw [litGlyph, cellAt_tabulate_ite]
  split
  · rfl
  · exact (decide_eq_false (by omega)).symm

/-- Settles O54: the two agree cell by cell; at 270 degrees the lit glyph is the counterexample, at cell 32, which the scroll
lights and the literal rule leaves to the background. -/
theorem scrollStepEightIsTheStaticLetter : Obligations.ScrollStepEightIsTheStaticLetter := by
  refine ⟨fun rule o fg bg gl ho hclosed => ?_, 1, 0, litGlyph, fun g hg => ?_, fun h => ?_⟩
  · obtain ⟨pb, hframe, hcells⟩ := letterFrame o fg bg hclosed
    rw [hframe, Option.some_inj]
    refine cells_ext 0 fun i hi => ?_
    rw [hcells i hi, paintCells, cellAt_tabulate _ hi, glyphOffset_eq_edge rule ho hi]
    split <;> rfl
  · rw [litGlyph_cell]
    exact decide_eq_false (by omega)
  · obtain ⟨pb, hframe, hcells⟩ := letterFrame .deg270 1 0 (gl := litGlyph) fun g hg => by
      rw [litGlyph_cell]
      exact decide_eq_false (by omega)
    have hlit : cellAt 0 pb 32 = 1 := (hcells 32 (by decide)).trans (by simp [edgeDistance, edgeLane, ink, litGlyph_cell])
    have hdark : cellAt 0 (paintCells .literal 1 0 litGlyph .deg270) 32 = 0 := cellAt_tabulate _ (by decide)
    rw [hframe, Option.some_inj] at h
    rw [h, hdark] at hlit
    exact absurd hlit (by decide)

/-! ### A SCROLL whose first request fails (R164) -/

/-- Settles O58: the statements in front of the initial flush are done, and its failed request raises `DevErr`. -/
theorem scrollFailsAtTheFirstFrame : Obligations.ScrollFailsAtTheFirstFrame := by
  intro o s hready hedge hpresent hfailed
  obtain ⟨u, hraise, hstatus, honly, hrequest, -⟩ := flush_fails (s := (s.accept (.scroll o)).initialFrame)
    ⟨hedge, hpresent, .inl hfailed⟩ 0 devBytes
  obtain ⟨-, htrace, hdev⟩ := hrequest hfailed
  have hexec : exec (.scroll o) s = .next (u.raise .devErr) := by rw [exec_scroll, fullFlush, run_raise hraise]
  have hcmd : u.cmd = some (.scroll o) := by
    rw [honly]
    rfl
  refine ⟨_, hexec, (raised _ u).ready, ?_, fun i hi => ?_, ?_, ?_, ?_, fun a ha => ?_, ?_⟩
  · rw [raise_status_of_scroll hcmd, hstatus]
    show ({ s.status with busy := false, astate := .idle, deverr := true, nodev := false } : Status) = _
    rw [← hready.1]
  · rw [State.pbAt, raise_pb, honly]
    exact cellAt_tabulate _ hi
  · rw [raise_schr, honly]
    rfl
  · rw [raise_scol, honly]
    rfl
  · rw [raise_gl, honly]
    rfl
  · rw [State.devAt, raise_dev]
    exact hdev a ha
  · rw [raise_trace, htrace]
    rfl

end Sys2Proof.Machine
end

section
/-! PROOFS. What statements that are all answered leave, whether they find a device or not: the frame is the same (R139), and
what they log and write is counted. -/

namespace Sys2Proof.Machine

variable {s t u : State} {op : Op} {ops : List Op}

/-! ### What the statements leave whatever they find -/

theorem after_sameCore (ops : List Op) (s : State) : SameCore s (after ops s) := by
  induction ops generalizing s with
  | nil => exact .rfl
  | cons op ops ih => exact (runOp_sameCore op s).trans (ih _)

/-- What each statement keeps, all of them keep. -/
theorem after_keeps {P : State → Prop} (hops : ∀ op ∈ ops, op.isResume = false)
    (hop : ∀ op : Op, op.isResume = false → ∀ s : State, s.Calm → P s → P (runOp op s).state) (h : s.Calm) (hP : P s) :
    P (after ops s) := by
  induction ops generalizing s with
  | nil => exact hP
  | cons op ops ih =>
    have hbegins := hops op List.mem_cons_self
    exact ih (fun o ho => hops o (List.mem_cons_of_mem _ ho)) (calm_op hbegins h).2 (hop op hbegins s h hP)

/-- Nothing is held behind a flush (R46). -/
theorem after_held (hops : ∀ op ∈ ops, op.isResume = false) (h : s.Calm) (hheld : s.held = false) :
    (after ops s).held = false := by
  refine after_keeps (P := fun t => t.held = false) hops (fun op hop s h hheld => ?_) h hheld
  cases hf : op.beginsFlush with
  | true =>
    obtain ⟨off, n, rfl⟩ := beginsFlush_of hf
    rw [flush_done_or_skipped h.2.1]
    cases s.plat.present.now
    exacts [hheld, rfl]
  | false => exact (runOp_device (not_usesDevice hop hf) s).2.2.trans hheld

/-! ### The frame does not depend on the device (R139) -/

/-- `u` is `s` but for `STATUS` and what transactions and paces change: the buffer, the glyph latch, the cursor and what the
host wrote are the same. -/
def FrameAlike (s u : State) : Prop :=
  ∃ st h z i g p m d tr k, u = { s with
    status := st, held := h, t0 := z, fontIdx := i, glyph := g, plat := p, mtime := m, dev := d, trace := tr, draws := k }

theorem lookup_frameAlike (hs : s.Calm) (hu : u.Calm) (h : FrameAlike s u) (ch : Byte) :
    FrameAlike (runOp (.lookup ch) s).state (runOp (.lookup ch) u).state := by
  have hdone : ∀ {v : State}, v.Calm → runOp (.lookup ch) v = .done (v.lookedUp ch) := fun hv => lookupChar_done hv.1 ch
  obtain ⟨_, _, _, -, hshape⟩ := lookedUp_shape s ch hs.1.1
  obtain ⟨_, _, _, -, hshape'⟩ := lookedUp_shape u ch hu.1.1
  rw [hdone hs, hdone hu, OpResult.state, OpResult.state, hshape, hshape']
  obtain ⟨_, _, _, _, _, _, _, _, _, _, rfl⟩ := h
  exact ⟨_, _, _, _, _, _, _, _, _, _, rfl⟩

theorem runOp_frameAlike (hop : op.isResume = false) (hs : s.Calm) (hu : u.Calm) (h : FrameAlike s u) :
    FrameAlike (runOp op s).state (runOp op u).state := by
  cases op <;> first | (cases hop; done) | skip
  case lookup ch => exact lookup_frameAlike hs hu h ch
  case lookupMsg =>
    have hsame : u.schr = s.schr ∧ u.n = s.n ∧ u.msg = s.msg := by
      obtain ⟨_, _, _, _, _, _, _, _, _, _, rfl⟩ := h
      exact ⟨rfl, rfl, rfl⟩
    obtain ⟨hschr, hn, hmsg⟩ := hsame
    simp only [runOp, State.msgAt, hschr, hn, hmsg]
    split
    · exact lookup_frameAlike hs hu h _
    · exact h
  case flush off n =>
    rw [flush_done_or_skipped hs.2.1, flush_done_or_skipped hu.2.1]
    obtain ⟨_, _, _, _, _, _, _, _, _, _, rfl⟩ := h
    simp only [OpResult.state]
    split <;> split <;> exact ⟨_, _, _, _, _, _, _, _, _, _, rfl⟩
  case pace =>
    obtain ⟨_, _, hshape⟩ := paced_shape s
    obtain ⟨_, _, hshape'⟩ := paced_shape u
    rw [pace_done hs.2.2.1, pace_done hu.2.2.1, hshape, hshape']
    obtain ⟨_, _, _, _, _, _, _, _, _, _, rfl⟩ := h
    exact ⟨_, _, _, _, _, _, _, _, _, _, rfl⟩
  case checkCancel =>
    rw [cancel_done hs.2.2.2, cancel_done hu.2.2.2]
    obtain ⟨_, _, _, _, _, _, _, _, _, _, rfl⟩ := h
    exact ⟨_, _, _, _, _, _, _, _, _, _, rfl⟩
  all_goals
    obtain ⟨_, _, _, _, _, _, _, _, _, _, rfl⟩ := h
    exact ⟨_, _, _, _, _, _, _, _, _, _, rfl⟩

theorem after_frameAlike (hops : ∀ op ∈ ops, op.isResume = false) (hs : s.Calm) (hu : u.Calm) (h : FrameAlike s u) :
    FrameAlike (after ops s) (after ops u) := by
  induction ops generalizing s u with
  | nil => exact h
  | cons op ops ih =>
    have hop := hops op List.mem_cons_self
    exact ih (fun o ho => hops o (List.mem_cons_of_mem _ ho)) (calm_op hop hs).2 (calm_op hop hu).2
      (runOp_frameAlike hop hs hu h)

/-! ### Writes (R47, R139) -/

/-- `t` comes after `s`, with `w` device writes between them; with none the device is as it was. -/
def Wrote (w : Nat) (s t : State) : Prop :=
  ∃ new, t.trace = s.trace ++ new ∧ new.countP Event.isWrite = w ∧ (w = 0 → t.dev = s.dev)

theorem Wrote.trans {v w : Nat} (h : Wrote v s t) (k : Wrote w t u) : Wrote (v + w) s u := by
  obtain ⟨new, htrace, hwrites, hdev⟩ := h
  obtain ⟨new', htrace', hwrites', hdev'⟩ := k
  refine ⟨new ++ new', by rw [htrace', htrace, List.append_assoc], by rw [List.countP_append, hwrites, hwrites'], fun h0 => ?_⟩
  rw [hdev' (by omega), hdev (by omega)]

theorem wrote_of_eq (htrace : t.trace = s.trace) (hdev : t.dev = s.dev) : Wrote 0 s t :=
  ⟨[], by rw [htrace, List.append_nil], rfl, fun _ => hdev⟩

theorem wrote_lookup (h : s.Calm) (ch : Byte) : Wrote 0 s (runOp (.lookup ch) s).state := by
  have hdone : runOp (.lookup ch) s = .done (s.lookedUp ch) := lookupChar_done h.1 ch
  obtain ⟨_, _, _, -, hshape⟩ := lookedUp_shape s ch h.1.1
  rw [hdone, OpResult.state, hshape]
  exact ⟨_, rfl, rfl, fun _ => rfl⟩

/-- A statement writes only if it is a flush that finds a device. -/
theorem wrote_op {p : Bool} (hop : op.isResume = false) (h : s.Calm) (hp : s.plat.present.All (· = p)) :
    Wrote (if p then [op].countP Op.beginsFlush else 0) s (runOp op s).state := by
  have none_written {w : Nat} (hw : w = 0) {t : State} (k : Wrote 0 s t) : Wrote w s t := hw ▸ k
  cases op <;> first | (cases hop; done) | skip
  case flush off n =>
    rw [flush_done_or_skipped h.2.1, hp.now]
    cases p with
    | true => exact ⟨_, flushed_trace s off n, rfl, nofun⟩
    | false => exact wrote_of_eq rfl rfl
  all_goals refine none_written (ite_self 0) ?_
  case lookup ch => exact wrote_lookup h ch
  case lookupMsg =>
    simp only [runOp]
    split
    · exact wrote_lookup h _
    · exact wrote_of_eq rfl rfl
  case pace =>
    obtain ⟨z, m, hshape⟩ := paced_shape s
    rw [pace_done h.2.2.1, hshape]
    exact ⟨[.pace], rfl, rfl, fun _ => rfl⟩
  case checkCancel =>
    rw [cancel_done h.2.2.2]
    exact wrote_of_eq rfl rfl
  all_goals exact wrote_of_eq rfl rfl

/-- With a device throughout, statements make as many writes as flushes; with none throughout they make none. -/
theorem after_wrote {p : Bool} (hops : ∀ op ∈ ops, op.isResume = false) (h : s.Calm) (hp : s.plat.present.All (· = p)) :
    Wrote (if p then ops.countP Op.beginsFlush else 0) s (after ops s) := by
  induction ops generalizing s with
  | nil => cases p <;> exact wrote_of_eq rfl rfl
  | cons op ops ih =>
    have hop := hops op List.mem_cons_self
    have hpresent : (runOp op s).state.plat.present.All (· = p) := by
      by_cases hf : ∃ off n, op = .flush off n
      · obtain ⟨off, n, rfl⟩ := hf
        rw [(flush_nodev off n s).1]
        exact hp.later
      · rwa [(runOp_nodev (fun off n e => hf ⟨off, n, e⟩) s).1]
    have hwrote := (wrote_op hop h hp).trans
      (ih (fun o ho => hops o (List.mem_cons_of_mem _ ho)) (calm_op hop h).2 hpresent)
    rw [← List.singleton_append, List.countP_append]
    cases p
    exacts [hwrote, hwrote]

/-! ### Pacing waits and font reads -/

theorem logged_ops (hresume : ∀ op ∈ ops, op.isResume = false) (hfont : ∀ op ∈ ops, op.readsFont = false) (h : s.Calm) :
    Logged (ops.count .pace) 0 s (after ops s) :=
  (mirrored_ops (size := 0) (f := ⟨[], .ok⟩) hresume hfont h).logged

theorem logged_lookupMsg (h : s.Calm) :
    Logged 0 (if s.schr.toNat < s.n.toNat then 5 else 0) s (after [.lookupMsg] s) := by
  rw [after_cons, after_nil]
  by_cases hlt : s.schr.toNat < s.n.toNat
  · have hdone : runOp .lookupMsg s = .done (s.lookedUp _) := (if_pos hlt).trans (lookupChar_done h.1 _)
    obtain ⟨_, _, _, -, hshape⟩ := lookedUp_shape s (s.msgAt s.schr.toNat) h.1.1
    rw [hdone, OpResult.state, hshape, if_pos hlt]
    exact ⟨_, rfl, rfl, rfl⟩
  · rw [show runOp .lookupMsg s = .done s from if_neg hlt, if_neg hlt]
    exact logged_of_eq rfl

theorem paces_steps (o : Orient) (cs : List Nat) : (cs.flatMap (stepOps o)).count .pace = cs.length := by
  induction cs with
  | nil => rfl
  | cons c cs ih =>
    rw [List.flatMap_cons, List.count_append, ih, show (stepOps o c).count .pace = 1 from rfl, List.length_cons, Nat.add_comm]

/-- A character up to column `c` makes `c` paces, and five font reads if it is one of the message (R159, R160). -/
theorem logged_char (o : Orient) {k : Nat} (hk : k < 512) (c : Nat) (h : s.Calm) (hn : s.n = s.msglen) :
    Logged c (if k < s.msglen.toNat then 5 else 0) s (after (charStart k ++ (List.range c).flatMap (stepOps o)) s) := by
  have hschr : (BitVec.ofNat 9 k).toNat = k := by
    rw [BitVec.toNat_ofNat]
    omega
  have hlookup := logged_lookupMsg (s := after [.setSchr k] s) (after_calm (by simp [Op.isResume]) h)
  have hlt : (after [.setSchr k] s).schr.toNat < (after [.setSchr k] s).n.toNat ↔ k < s.msglen.toNat := by
    show (BitVec.ofNat 9 k).toNat < s.n.toNat ↔ _
    rw [hschr, hn]
  have hsteps : Logged c 0 (after [.setSchr k, .lookupMsg] s)
      (after (.setBlank :: (List.range c).flatMap (stepOps o)) (after [.setSchr k, .lookupMsg] s)) := by
    have hlogged := logged_ops (ops := .setBlank :: (List.range c).flatMap (stepOps o))
      (List.forall_mem_cons.mpr ⟨rfl, fun _ ho => (mem_steps ho).1⟩)
      (List.forall_mem_cons.mpr ⟨rfl, fun _ ho => (mem_steps ho).2⟩)
      (after_calm (ops := [.setSchr k, .lookupMsg]) (by simp [Op.isResume]) h)
    rwa [List.count_cons_of_ne (by decide), paces_steps, List.length_range] at hlogged
  have hall := (logged_of_eq (s := s) (t := after [.setSchr k] s) rfl).trans (hlookup.trans hsteps)
  simp only [hlt, Nat.zero_add, Nat.add_zero] at hall
  exact hall

/-- The first `k` characters of an animation make six paces each, and five font reads each of the message. -/
theorem logged_chars (o : Orient) {k : Nat} (hk : k < 512) (h : s.Calm) (hn : s.n = s.msglen) :
    Logged (6 * k) (5 * min k s.msglen.toNat) s (after ((List.range k).flatMap (charOps o)) s) := by
  induction k with
  | zero => rw [Nat.zero_min]; exact logged_of_eq rfl
  | succ k ih =>
    have hran := charsRan o (List.range k) (fun x hx => by have := List.mem_range.mp hx; omega) s h hn
    have hchar := logged_char o (k := k) (by omega) 6 hran.calm (hran.n.trans (hn.trans hran.core.msglen.symm))
    rw [hran.core.msglen] at hchar
    have hall := (ih (by omega)).trans hchar
    rw [List.range_succ, List.flatMap_append, List.flatMap_singleton, after_append]
    have hreads : 5 * min k s.msglen.toNat + (if k < s.msglen.toNat then 5 else 0) = 5 * min (k + 1) s.msglen.toNat := by
      split <;> omega
    rwa [hreads, ← Nat.mul_succ] at hall

end Sys2Proof.Machine
end

section
/-! PROOFS. What a `SCROLL` whose platform answers has left after each of its steps, and at its end (R156 to R165). -/

namespace Sys2Proof.Machine

variable {o : Orient} {s t u : State} {op : Op} {ops : List Op}

/-! ### The statements up to the end of a step -/

/-- The statements of a `SCROLL` in front of its step number `m`. -/
def scrollFront (o : Orient) (m : Nat) : List Op := scrollStart ++ animationUpTo o (m / 6) (m % 6)

/-- The statements of a `SCROLL` up to the end of its step number `m`, the check of that step the last of them (R161). -/
def scrollThrough (o : Orient) (m : Nat) : List Op := scrollFront o m ++ stepOps o (m % 6)

/-- Behind its last step a `SCROLL` only goes to `Done` (R163). -/
theorem scrollOps_through (o : Orient) {len m : Nat} (h : m < 6 * (len + 2)) :
    ∃ post, scrollOps o len = scrollThrough o m ++ post ∧ (m + 1 = 6 * (len + 2) → post = [.setAState .done]) := by
  obtain ⟨ks, hks⟩ := range_split (k := m / 6) (n := len + 2) (by omega)
  obtain ⟨cs, hcs⟩ := range_split (k := m % 6) (n := 6) (by omega)
  refine ⟨cs.flatMap (stepOps o) ++ (ks.flatMap (charOps o) ++ [.setAState .done]), ?_, fun hlast => ?_⟩
  · simp only [scrollOps, trailingChars, colsPerChar, hks, charOps, hcs, List.flatMap_append, List.flatMap_cons, scrollThrough,
      scrollFront, animationUpTo, charStart, List.append_assoc, List.cons_append, List.nil_append]
  · have hks0 := congrArg List.length hks
    have hcs0 := congrArg List.length hcs
    simp only [List.length_range, List.length_append, List.length_cons] at hks0 hcs0
    have hks1 : ks = [] := List.length_eq_zero_iff.mp (by omega)
    have hcs1 : cs = [] := List.length_eq_zero_iff.mp (by omega)
    rw [hks1, hcs1]
    rfl

theorem scrollThrough_begin {m len : Nat} (hlen : len ≤ 255) (h : m < 6 * (len + 2)) :
    ∀ op ∈ scrollThrough o m, op.isResume = false := by
  obtain ⟨post, hops, -⟩ := scrollOps_through o h
  exact fun op hop => scrollOps_begin hlen (by rw [hops]; exact List.mem_append_left _ hop)

theorem flushes_scrollThrough (o : Orient) (m : Nat) : (scrollThrough o m).countP Op.beginsFlush = m + 2 := by
  simp only [scrollThrough, scrollFront, animationUpTo, List.countP_append, flushes_chars, flushes_steps, List.length_range]
  rw [show scrollStart.countP Op.beginsFlush = 1 from rfl, show (charStart (m / 6)).countP Op.beginsFlush = 0 from rfl,
    show (stepOps o (m % 6)).countP Op.beginsFlush = 1 from rfl]
  omega

/-- The statements of a step follow those of the steps before it in its character. -/
theorem scrollThrough_eq (o : Orient) (m : Nat) : scrollThrough o m = scrollStart ++ ((List.range (m / 6)).flatMap (charOps o) ++
    (charStart (m / 6) ++ (List.range (m % 6 + 1)).flatMap (stepOps o))) := by
  rw [List.range_succ, List.flatMap_append, List.flatMap_singleton]
  simp only [scrollThrough, scrollFront, animationUpTo, List.append_assoc]

/-! ### After a step -/

/-- The font reads and the paces of a `SCROLL` up to the end of its step `m` (R165). -/
theorem scrollThrough_logged (o : Orient) {m : Nat} (h : s.Calm) (hm : m < 6 * (s.msglen.toNat + 2)) :
    Logged (m + 1) (5 * min (m / 6 + 1) s.msglen.toNat) s (after (scrollThrough o m) s) := by
  have hlen : s.msglen.toNat < 256 := s.msglen.isLt
  obtain ⟨s0, hs0, hcalm, hcore, hn, -⟩ := scroll_start s h
  have hn0 : s0.n = s0.msglen := hn.trans hcore.msglen.symm
  have hstart : Logged 0 0 s s0 := hs0 ▸ logged_ops (ops := scrollStart) (by decide) (by decide) h
  have hran := charsRan o (List.range (m / 6)) (fun x hx => by have := List.mem_range.mp hx; omega) s0 hcalm hn0
  have hchars := logged_chars o (k := m / 6) (by omega) hcalm hn0
  have hchar := logged_char o (k := m / 6) (by omega) (m % 6 + 1) hran.calm (hran.n.trans (hn0.trans hran.core.msglen.symm))
  rw [hran.core.msglen] at hchar
  rw [scrollThrough_eq, after_append, hs0, after_append]
  have hall := hstart.trans (hchars.trans hchar)
  rw [hcore.msglen] at hall
  have hpaces : 0 + (6 * (m / 6) + (m % 6 + 1)) = m + 1 := by omega
  have hreads : 0 + (5 * min (m / 6) s.msglen.toNat + (if m / 6 < s.msglen.toNat then 5 else 0)) =
      5 * min (m / 6 + 1) s.msglen.toNat := by split <;> omega
  rwa [hpaces, hreads] at hall

/-- What a `SCROLL` begun in `s` has left after its step number `m`, whose check it has passed (R156 to R161). -/
structure ScrollAfter (o : Orient) (m : Nat) (s t : State) : Prop where
  core : SameCore s t
  held : s.held = false → t.held = false
  pb : (s.scrollFrames o)[m + 1]? = some t.pb
  schr : t.schr.toNat = m / 6
  scol : t.scol.toNat = m % 6
  gl : t.gl = s.scrollLatch (m / 6 + 1)
  nodev : t.status.nodev = !s.plat.present.nth (m + 1)
  logged : Logged (m + 1) (5 * min (m / 6 + 1) s.msglen.toNat) s t
  wrote : ∀ p, s.plat.present.All (· = p) → Wrote (if p then m + 2 else 0) s t
  shows : s.plat.present.All (· = true) → s.ShownIn t
  shown : s.plat.present.All (· = true) → ∃ new, t.trace = s.trace ++ new ∧
    shownFrames new = ((s.scrollFrames o).take (m + 2)).map fun pb => pbBytes pb 0 128

/-- `s` with a device throughout. -/
def State.withDevice (s : State) : State := { s with plat := { s.plat with present := ⟨[], true⟩ } }

theorem after_scrollUpTo (o : Orient) (m : Nat) (s : State) :
    after (scrollUpTo o (m + 1)) s = (after (scrollFront o m) s).moved o (m % 6) := by
  rw [scrollUpTo, ← List.append_assoc, ← scrollFront, after_append]
  generalize after (scrollFront o m) s = w
  rfl

/-- The frame of step `m`, its cursor and its latch are what they are with a device throughout (R139). -/
theorem scrollFront_frame (o : Orient) {m : Nat} (h : s.Calm) (hm : m < 6 * (s.msglen.toNat + 2)) :
    (s.scrollFrames o)[m + 1]? = some ((after (scrollFront o m) s).moved o (m % 6)).pb ∧
    (after (scrollFront o m) s).schr.toNat = m / 6 ∧ (after (scrollFront o m) s).gl = s.scrollLatch (m / 6 + 1) := by
  have hcalm : s.withDevice.Calm := h
  have hlen : s.msglen.toNat < 256 := s.msglen.isLt
  have hat := scrollAtFlush_succ o hcalm (s := s.withDevice) ⟨nofun, rfl⟩ hm
  have hbegin : ∀ op ∈ scrollUpTo o (m + 1), op.isResume = false := by
    obtain ⟨post, hops⟩ := scrollOps_split o (len := s.msglen.toNat) (m := m + 1) hm
    exact fun op hop => scrollOps_begin (len := s.msglen.toNat) (by omega) (by rw [hops]; exact List.mem_append_left _ hop)
  have halike := after_frameAlike hbegin h hcalm ⟨_, _, _, _, _, _, _, _, _, _, rfl⟩
  rw [after_scrollUpTo] at halike
  generalize after (scrollUpTo o (m + 1)) s.withDevice = v at hat halike
  generalize after (scrollFront o m) s = u at halike ⊢
  obtain ⟨-, -, -, -, hpb, hschr, -, hgl, -⟩ := hat
  obtain ⟨_, _, _, _, _, _, _, _, _, _, rfl⟩ := halike
  rw [show (m + 1 + 5) / 6 = m / 6 + 1 by omega] at hgl
  exact ⟨hpb, hschr, hgl⟩

/-- With a device throughout, the frames of the steps before were shown. -/
theorem scrollFront_shown (o : Orient) {m : Nat} (h : s.Calm) (hm : m < 6 * (s.msglen.toNat + 2))
    (hp : s.plat.present.All (· = true)) : ∃ new, (after (scrollFront o m) s).trace = s.trace ++ new ∧
      shownFrames new = ((s.scrollFrames o).take (m + 1)).map fun pb => pbBytes pb 0 128 := by
  obtain ⟨new, htrace, hshown, -⟩ := (scrollAtFlush_succ o h hp hm).trace
  rw [after_scrollUpTo] at htrace
  generalize after (scrollFront o m) s = u at htrace ⊢
  exact ⟨new, htrace, hshown⟩

theorem after_present_now {p : Bool} (ops : List Op) (hp : s.plat.present.All (· = p)) :
    (after ops s).plat.present.now = p := by
  rw [← Script.nth_zero, after_present]
  exact hp.nth _

theorem scrollAfter (o : Orient) {m : Nat} (h : s.Calm) (hm : m < 6 * (s.msglen.toNat + 2)) :
    ScrollAfter o m s (after (scrollThrough o m) s) := by
  have hlen : s.msglen.toNat < 256 := s.msglen.isLt
  have hbegin := scrollThrough_begin (o := o) (Nat.le_of_lt_succ hlen) hm
  have hcore := after_sameCore (scrollThrough o m) s
  have hheld := after_held hbegin h
  have hnodev := after_nodev (s := s) (flushes_scrollThrough o m)
  have hlogged := scrollThrough_logged o h hm
  have hwrote : ∀ p, s.plat.present.All (· = p) → Wrote (if p then m + 2 else 0) s (after (scrollThrough o m) s) := by
    intro p hp
    have hwrote := after_wrote hbegin h hp
    rwa [flushes_scrollThrough] at hwrote
  obtain ⟨hframe, hschr, hgl⟩ := scrollFront_frame o h hm
  have hshown := scrollFront_shown o h hm
  have hnow {p : Bool} := after_present_now (s := s) (p := p) (scrollFront o m)
  have hforeign : ∀ a, s.Untouched a → (after (scrollFront o m) s).Untouched a := fun _ => after_foreign _
  have hstep : Stepped o (m % 6) (after (scrollFront o m) s) (after (scrollThrough o m) s) := by
    rw [scrollThrough, after_append]
    exact stepped o (m % 6) (after_calm (fun op hop => hbegin op (List.mem_append_left _ hop)) h)
  generalize after (scrollFront o m) s = u at hframe hschr hgl hshown hnow hforeign hstep
  generalize after (scrollThrough o m) s = v at *
  have hpb : (u.moved o (m % 6)).pb = v.pb := hstep.pb.symm
  rw [hpb] at hframe
  refine ⟨hcore, hheld, hframe, ?_, ?_, ?_, hnodev, hlogged, hwrote, fun hp => ?_, fun hp => ?_⟩
  · rw [hstep.schr, hschr]
  · rw [hstep.scol, BitVec.toNat_ofNat]
    omega
  · rw [hstep.gl, hgl]
  · exact shownIn_mono hforeign (hstep.shows (hnow hp))
  · obtain ⟨new, htrace, hframes⟩ := hshown hp
    have hlast : (s.scrollFrames o).take (m + 2) = (s.scrollFrames o).take (m + 1) ++ [v.pb] := by
      rw [List.take_add_one, hframe]
      rfl
    refine ⟨new ++ [.acquire true, .write 0 (pbBytes v.pb 0 128) true, .release, .pace], ?_, ?_⟩
    · rw [hstep.trace, hnow hp, htrace, if_pos rfl]
      simp
    · rw [shownFrames_append, hframes, hlast, List.map_append]
      rfl

/-! ### The same before a platform with its own `cancel` -/

/-- `s` before a platform that gives these values to the between-frames checks. -/
def State.cancelling (s : State) (c : Script Bool) : State := { s with plat := { s.plat with cancel := c } }

/-- No other statement looks at `cancel`. -/
theorem runOp_cancelling (hop : op.isResume = false) (hne : op ≠ .checkCancel) (h : s.Calm) (c : Script Bool) :
    runOp op (s.cancelling c) = .done ((runOp op s).state.cancelling c) := by
  have looks (ch : Byte) : runOp (.lookup ch) (s.cancelling c) = .done ((runOp (.lookup ch) s).state.cancelling c) := by
    have hdone : runOp (.lookup ch) s = .done (s.lookedUp ch) := lookupChar_done h.1 ch
    rw [hdone]
    exact lookupChar_done (s := s.cancelling c) h.1 ch
  cases op <;> first | rfl | (cases hop; done) | skip
  case lookup ch => exact looks ch
  case lookupMsg =>
    by_cases hlt : s.schr.toNat < s.n.toNat
    · rw [show runOp .lookupMsg s = runOp (.lookup _) s from if_pos hlt, ← looks]
      exact if_pos hlt
    · rw [show runOp .lookupMsg s = .done s from if_neg hlt]
      exact if_neg hlt
  case flush off n =>
    rw [flush_done_or_skipped h.2.1, flush_done_or_skipped (s := s.cancelling c) h.2.1]
    rw [OpResult.state, apply_ite (State.cancelling · c)]
    rfl
  case pace =>
    rw [pace_done h.2.2.1]
    exact pace_done (s := s.cancelling c) h.2.2.1
  case checkCancel => exact (hne rfl).elim

/-- Statements are done as where `cancel` stays 0, as long as their checks find it 0. -/
theorem steps_cancelling (hops : ∀ op ∈ ops, op.isResume = false) (h : s.Calm) {c : Script Bool}
    (hc : ∀ j < ops.count .checkCancel, c.nth j = false) :
    Steps ops (s.cancelling c) ((after ops s).cancelling (c.skip (ops.count .checkCancel))) := by
  induction ops generalizing s c with
  | nil => exact .nil _
  | cons op ops ih =>
    have hop := hops op List.mem_cons_self
    have hops' : ∀ op ∈ ops, op.isResume = false := fun o ho => hops o (List.mem_cons_of_mem _ ho)
    have hcalm := (calm_op hop h).2
    by_cases hcheck : op = .checkCancel
    · subst hcheck
      rw [List.count_cons_self] at hc ⊢
      have hnow : c.now = false := c.nth_zero ▸ hc 0 (Nat.succ_pos _)
      have hdone : runOp .checkCancel (s.cancelling c) = .done (s.sampledCancel.cancelling c.later) :=
        if_neg (by rw [show (s.cancelling c).plat.cancel.now = false from hnow]; exact Bool.false_ne_true)
      rw [after_cons]
      rw [cancel_done h.2.2.2] at hcalm ⊢
      exact .cons hdone (ih hops' hcalm fun j hj => c.nth_later j ▸ hc (j + 1) (Nat.succ_lt_succ hj))
    · rw [List.count_cons_of_ne hcheck] at hc ⊢
      exact .cons (runOp_cancelling hop hcheck h c) (ih hops' hcalm hc)

theorem checks_chars (o : Orient) (ks : List Nat) : (ks.flatMap (charOps o)).count .checkCancel = 6 * ks.length := by
  induction ks with
  | nil => rfl
  | cons k ks ih =>
    rw [List.flatMap_cons, List.count_append, ih, show (charOps o k).count .checkCancel = 6 from rfl, List.length_cons]
    omega

theorem checks_steps (o : Orient) (cs : List Nat) : (cs.flatMap (stepOps o)).count .checkCancel = cs.length := by
  induction cs with
  | nil => rfl
  | cons c cs ih =>
    rw [List.flatMap_cons, List.count_append, ih, show (stepOps o c).count .checkCancel = 1 from rfl, List.length_cons,
      Nat.add_comm]

/-- In front of a step stands one check for each step before it. -/
theorem checks_scrollFront (o : Orient) (m : Nat) : (scrollFront o m).count .checkCancel = m := by
  simp only [scrollFront, animationUpTo, List.count_append, checks_chars, checks_steps, List.length_range]
  rw [show scrollStart.count .checkCancel = 0 from rfl, show (charStart (m / 6)).count .checkCancel = 0 from rfl]
  omega

/-! ### The end of a `SCROLL` -/

/-- The platform answers, and `mtime` advances. -/
theorem cancelling_calm (h : s.Answered) : (s.cancelling ⟨[], false⟩).Calm :=
  ⟨h.1, h.2.1, h.2.2, nofun, rfl⟩

/-- A `SCROLL` whose checks all find 0 ends in `Done` (R163). -/
theorem execScroll_done (o : Orient) (h : s.Answered)
    (hc : ∀ j < 6 * (s.msglen.toNat + 2), s.plat.cancel.nth j = false) :
    ∃ v, ScrollAfter o (6 * (s.msglen.toNat + 2) - 1) ((s.accept (.scroll o)).cancelling ⟨[], false⟩) v ∧
      exec (.scroll o) s = .next
        ((v.withAState .done).cancelling (s.plat.cancel.skip (6 * (s.msglen.toNat + 2)))).finish := by
  have hcalm := cancelling_calm (s := s.accept (.scroll o)) h
  have hlen : s.msglen.toNat < 256 := s.msglen.isLt
  have hm : 6 * (s.msglen.toNat + 2) - 1 < 6 * (s.msglen.toNat + 2) := by omega
  obtain ⟨post, hops, hpost⟩ := scrollOps_through o hm
  rw [hpost (by omega)] at hops
  have hchecks : (scrollOps o s.msglen.toNat).count .checkCancel = 6 * (s.msglen.toNat + 2) := by
    rw [hops, scrollThrough, List.count_append, List.count_append, checks_scrollFront,
      show (stepOps o _).count .checkCancel = 1 from rfl, show [Op.setAState .done].count .checkCancel = 0 from rfl]
    omega
  have hsteps := steps_cancelling (ops := scrollOps o s.msglen.toNat)
    (fun op hop => scrollOps_begin (Nat.le_of_lt_succ hlen) hop) hcalm (c := s.plat.cancel) (by rwa [hchecks])
  refine ⟨_, scrollAfter o hcalm hm, congrArg Host.Outcome.next (hsteps.run.trans ?_)⟩
  rw [hchecks, hops, after_append]
  rfl

/-- A `SCROLL` whose check of step `m` is the first to find 1 ends there (R162, R164). -/
theorem execScroll_cancelled (o : Orient) {m : Nat} (h : s.Answered) (hm : m < 6 * (s.msglen.toNat + 2))
    (hc : ∀ j < m, s.plat.cancel.nth j = false) (hcancel : s.plat.cancel.nth m = true) :
    ∃ v c, ScrollAfter o m ((s.accept (.scroll o)).cancelling ⟨[], false⟩) v ∧
      exec (.scroll o) s = .next ((v.cancelling c).raise .cancelled) := by
  have hcalm := cancelling_calm (s := s.accept (.scroll o)) h
  obtain ⟨post, hops, -⟩ := scrollOps_through o hm
  have hbegin := scrollThrough_begin (o := o) (Nat.le_of_lt_succ s.msglen.isLt) hm
  have hsplit : scrollThrough o m = (scrollFront o m ++ [.setScol (m % 6), .shift o, .insert o, fullFlush, .pace]) ++
      [.checkCancel] := by
    rw [scrollThrough, List.append_assoc]
    rfl
  have hbefore : (scrollFront o m ++ [.setScol (m % 6), .shift o, .insert o, fullFlush, .pace]).count .checkCancel = m := by
    rw [List.count_append, checks_scrollFront]
    rfl
  have hsteps := steps_cancelling (fun op hop => hbegin op (by rw [hsplit]; exact List.mem_append_left _ hop)) hcalm
    (c := s.plat.cancel) (by rwa [hbefore])
  have hrun := hsteps.run_append (.checkCancel :: post)
  have hafter := scrollAfter o hcalm hm
  rw [hsplit, List.append_assoc, List.singleton_append] at hops
  rw [hbefore, ← hops] at hrun
  rw [hsplit, after_append] at hafter
  have hcalm' := after_calm (fun op hop => hbegin op (by rw [hsplit]; exact List.mem_append_left _ hop)) hcalm
  generalize after (scrollFront o m ++ _) _ = w at hrun hafter hcalm'
  rw [after_cons, cancel_done hcalm'.2.2.2] at hafter
  have hraise : runOp .checkCancel (w.cancelling (s.plat.cancel.skip m)) =
      .raise .cancelled (w.sampledCancel.cancelling (s.plat.cancel.skip m).later) :=
    if_pos ((Script.now_skip _ _).trans hcancel)
  exact ⟨_, _, hafter, congrArg Host.Outcome.next (hrun.trans (run_raise hraise post))⟩

end Sys2Proof.Machine
end

section
/-! PROOFS. `SCROLL` to its end, and to a check that stops it (R156 to R165, R168). -/

namespace Sys2Proof.Machine

variable {o : Orient} {s t v : State} {m : Nat}

/-! ### What the states after a step say -/

theorem Script.skip_eq {α : Type} (sc : Script α) (k : Nat) : sc.skip k = { sc with next := sc.next.drop k } := by
  induction k generalizing sc with
  | zero => rfl
  | succ k ih =>
    rw [Script.skip_succ, ih, Script.later, List.drop_tail]

/-- The latch after the lookups of `q` characters is the last glyph of the message that was looked up (R159). -/
theorem holdsGlyph_of_scrollLatch {q k : Nat} (hcfg : t.cfg = s.cfg) (hgl : t.gl = s.scrollLatch q)
    (hq : min q s.msglen.toNat = k + 1) : t.HoldsGlyph (s.msgAt k) := by
  have hglyph : glyphOf s k = some _ := if_pos (by omega)
  refine holdsGlyph_of ?_
  rw [hgl, scrollLatch_min, hq, scrollLatch_succ, hglyph, hcfg]
  rfl

theorem scrollLatch_eq_gl {q : Nat} (hq : min q s.msglen.toNat = 0) : s.scrollLatch q = s.gl := by
  rw [scrollLatch_min, hq]
  rfl

/-- What was logged between two states is the same however it is described. -/
theorem logged_unique {new new' : List Event} (h : t.trace = s.trace ++ new) (h' : t.trace = s.trace ++ new') : new' = new :=
  List.append_cancel_left (h'.symm.trans h)

theorem length_framesFrom (o : Orient) (fg bg : Half) (steps : List (Option (Vector Bool 64) × Nat)) (pb : Vector Half 64) :
    (framesFrom o fg bg steps pb).length = steps.length := by
  induction steps generalizing pb with
  | nil => rfl
  | cons st steps ih => exact congrArg Nat.succ (ih _)

theorem length_steps (s : State) : (scrollSteps s.scrollGlyphs).length = 6 * (s.msglen.toNat + 2) := by
  simp [length_scrollSteps, State.scrollGlyphs]

/-- A `SCROLL` has a frame for each of its flushes (R165). -/
theorem length_scrollFrames (o : Orient) (s : State) : (s.scrollFrames o).length = 6 * (s.msglen.toNat + 2) + 1 := by
  rw [State.scrollFrames, List.length_cons, length_framesFrom, length_steps]

/-- The last frame of a `SCROLL` is all `BG`: two blank characters have passed (R159, R163). -/
theorem last_scrollFrame (o : Orient) (s : State) {pb : Vector Half 64}
    (h : (s.scrollFrames o)[6 * (s.msglen.toNat + 2)]? = some pb) {i : Nat} (hi : i < 64) : cellAt 0 pb i = s.bg := by
  rw [getElem?_scrollFrames o s (Nat.le_of_eq (length_steps s).symm), ← length_steps s, List.take_length, Option.some_inj] at h
  have hsplit : scrollSteps s.scrollGlyphs = scrollSteps ((List.range s.msglen.toNat).map fun k =>
      some (fontGlyph s.cfg.litByte s.cfg.font (glyphIndex s.cfg.alphabet (s.msgAt k)))) ++
      (List.range 6 ++ List.range 6).map fun c => ((none : Option (Vector Bool 64)), c) := by
    rw [State.scrollGlyphs, scrollSteps, List.flatMap_append]
    rfl
  rw [← h, hsplit, List.foldl_append]
  exact blank_steps o s.fg s.bg (List.range 6 ++ List.range 6) 0 _ (fun i hi hr => (region_none o i hi hr).elim) i hi
    (region_all o i hi)

/-! ### `SCROLL` to its end -/

/-- `STATUS` of a `SCROLL` of a ready core that executes. -/
theorem ScrollAfter.status (h : ScrollAfter o m ((s.accept (.scroll o)).cancelling ⟨[], false⟩) v) :
    v.status = { s.status with
      busy := true, astate := v.status.astate, nodev := !s.plat.present.nth (m + 1) } := by
  have hnodev : v.status.nodev = !s.plat.present.nth (m + 1) := h.nodev
  rw [← hnodev]
  exact h.core.status

/-- `STATUS` after a `SCROLL` of a ready core that has ended in `Done`. -/
theorem ScrollAfter.done_status (hready : s.Ready)
    (h : ScrollAfter o m ((s.accept (.scroll o)).cancelling ⟨[], false⟩) v) (c : Script Bool) :
    ((v.withAState .done).cancelling c).finish.status =
      { s.status with astate := .done, nodev := !s.plat.present.nth (m + 1) } := by
  show ({ v.status with astate := .done, busy := false } : Status) = _
  rw [h.status, ← hready.1]

/-- `STATUS` after a `SCROLL` of a ready core that a check has stopped (R164). -/
theorem ScrollAfter.cancelled_status (hready : s.Ready)
    (h : ScrollAfter o m ((s.accept (.scroll o)).cancelling ⟨[], false⟩) v) (c : Script Bool) :
    ((v.cancelling c).raise .cancelled).status =
      { s.status with astate := .idle, cancelled := true, nodev := !s.plat.present.nth (m + 1) } := by
  have hcmd : (v.cancelling c).cmd = some (.scroll o) := h.core.cmd
  rw [raise_status_of_scroll hcmd]
  show ({ v.status with astate := .idle, busy := false, cancelled := true } : Status) = _
  rw [h.status, ← hready.1]

/-- With no device throughout, the device is as it was. -/
theorem ScrollAfter.devAt (h : ScrollAfter o m s v) (hp : s.plat.present.All (· = false)) (a : Nat) :
    v.devAt a = s.devAt a := by
  obtain ⟨-, -, -, hdev⟩ := h.wrote false hp
  rw [State.devAt, State.devAt, hdev rfl]

/-- Settles O55: the last step of a `SCROLL` leaves what `ScrollAfter` says, and behind it only `ASTATE` changes. -/
theorem scrollRunsToDone : Obligations.ScrollRunsToDone := by
  refine ⟨fun w hop => by simp [decode, hop], fun o s hready hfont hdevice htick hcancel => ?_⟩
  obtain ⟨v, hafter, hexec⟩ := execScroll_done o ⟨hfont, hdevice, htick⟩ fun j _ => Script.All.nth hcancel j
  have hlast : 6 * (s.msglen.toNat + 2) - 1 + 1 = 6 * (s.msglen.toNat + 2) := by omega
  have hchar : (6 * (s.msglen.toNat + 2) - 1) / 6 = s.msglen.toNat + 1 := by omega
  have hcol : (6 * (s.msglen.toNat + 2) - 1) % 6 = 5 := by omega
  have hstatus := hafter.done_status hready
  have hdevice := hafter.devAt
  obtain ⟨hcore, hheld, hpb, hschr, hscol, hgl, -, -, -, hshows, -⟩ := hafter
  rw [hlast] at hpb hstatus
  rw [hchar] at hschr hgl
  refine ⟨_, hexec, ready_finish _, hstatus _, fun i hi => ?_, hschr, hscol.trans hcol, fun h0 => ?_, fun k hk => ?_, fun hp => ?_,
    fun hp a _ => hdevice hp a, hheld, hcore.res, hcore.fg, hcore.bg, hcore.msglen, hcore.msg, hcore.cfg, hcore.commands⟩
  · exact last_scrollFrame o s hpb hi
  · refine hgl.trans (scrollLatch_eq_gl ?_)
    show min _ s.msglen.toNat = 0
    omega
  · refine holdsGlyph_of_scrollLatch (s := s) hcore.cfg hgl ?_
    omega
  · exact shownIn_of rfl rfl (hshows hp)

/-- Settles O56: the history of the last step is that of the whole animation. -/
theorem scrollShowsTheFrames : Obligations.ScrollShowsTheFrames := by
  intro o s hready hfont hdevice htick hcancel hp
  obtain ⟨v, hafter, hexec⟩ := execScroll_done o ⟨hfont, hdevice, htick⟩ fun j _ => Script.All.nth hcancel j
  obtain ⟨new, htrace, hframes⟩ := hafter.shown hp
  obtain ⟨_, htrace', hwrites, -⟩ := hafter.wrote true hp
  obtain ⟨_, htrace'', hpaces, hreads⟩ := hafter.logged
  obtain rfl := logged_unique htrace htrace'
  obtain rfl := logged_unique htrace htrace''
  refine ⟨_, _, hexec, htrace, ?_, ?_, ?_, ?_⟩
  · rw [hframes, List.take_of_length_le]
    · rfl
    · rw [length_scrollFrames]
      show 6 * (s.msglen.toNat + 2) + 1 ≤ _
      omega
  · rw [hwrites, if_pos rfl]
    omega
  · rw [hpaces]
    omega
  · rw [hreads]
    show 5 * min _ s.msglen.toNat = _
    omega

/-! ### `SCROLL` to a check that stops it -/

/-- Settles O57: a check that finds 1 ends the `SCROLL` after the step that `ScrollAfter` describes; if none does, it is done. -/
theorem cancelStopsAfterOneStep : Obligations.CancelStopsAfterOneStep := by
  intro o s hready hfont hdevice htick
  refine ⟨fun m hm hfalse htrue => ?_, fun hfalse => ?_⟩
  · obtain ⟨v, c, hafter, hexec⟩ := execScroll_cancelled o ⟨hfont, hdevice, htick⟩ hm hfalse htrue
    have hstatus := hafter.cancelled_status hready c
    have hdevice := hafter.devAt
    obtain ⟨hcore, hheld, hpb, hschr, hscol, hgl, -, ⟨new, htrace, hpaces, hreads⟩, hwrote, hshows, hshown⟩ := hafter
    refine ⟨_, new, hexec, (raised _ _).ready, hstatus, ?_, ?_, ?_, fun h0 => ?_, fun k hk => ?_, ?_, ?_, hpaces, hreads,
      fun hp => ?_, fun hp => ?_⟩
    · rw [raise_pb]
      exact hpb
    · rw [raise_schr]
      exact hschr
    · rw [raise_scol]
      exact hscol
    · rw [raise_gl]
      exact hgl.trans (scrollLatch_eq_gl h0)
    · refine holdsGlyph_of_scrollLatch (s := s) ?_ ?_ hk
      · rw [raise_cfg]
        exact hcore.cfg
      · rw [raise_gl]
        exact hgl
    · rw [raise_held]
      exact hheld
    · rw [raise_trace]
      exact htrace
    · obtain ⟨_, htrace', hwrites, -⟩ := hwrote true hp
      obtain ⟨_, htrace'', hframes⟩ := hshown hp
      obtain rfl := logged_unique htrace htrace'
      obtain rfl := logged_unique htrace htrace''
      exact ⟨shownIn_of (raise_dev _ _) (raise_pb _ _) (hshows hp), hwrites, hframes⟩
    · obtain ⟨_, htrace', hwrites, -⟩ := hwrote false hp
      obtain rfl := logged_unique htrace htrace'
      refine ⟨hwrites, fun a _ => ?_⟩
      rw [State.devAt, raise_dev]
      exact hdevice hp a
  · obtain ⟨v, hafter, hexec⟩ := execScroll_done o ⟨hfont, hdevice, htick⟩ hfalse
    have hstatus := hafter.done_status hready
    rw [show 6 * (s.msglen.toNat + 2) - 1 + 1 = 6 * (s.msglen.toNat + 2) by omega] at hstatus
    exact ⟨_, hexec, ready_finish _, hstatus _, Script.skip_eq _ _⟩

end Sys2Proof.Machine
end

section
/-! PROOFS. `STATIC` of one letter, at once or after waits (R154, R155). -/

namespace Sys2Proof.Machine

variable {s t u v w : State} {o : Orient} {op : Op} {rest : List Op} {row : Nat}

/-! ### A lookup in front of other statements -/

/-- What a statement of a lookup begun in `s` comes to, if no read fails: `GL` is loaded, or a chunk is waited for. -/
def State.LookupGoesOn (s : State) : OpResult → Prop
  | .done t => ∃ v, s.ReadUpTo 5 v ∧ t = v.withGl (glyphClosed v.glyph)
  | .raise _ _ => False
  | .wait t r => ∃ row, row < 5 ∧ r = .fontRow row ∧ ∀ todo, s.ReadUpTo row { t with todo := todo }

theorem fontRow_goesOn (hfits : chunkAddr s.fontIdx 0 + chunkBytes ≤ s.cfg.font.size) (hrow : row ≤ 5)
    (h : s.ReadUpTo row u) : s.LookupGoesOn (runOp (.fontRow row) u) := by
  induction hrow using Nat.decreasingInduction generalizing u with
  | self => exact ⟨u, h, rfl⟩
  | of_succ row hrow ih =>
    have hcons : runOp (.fontRow row) u = readChunks (row :: chunksFrom (row + 1)) u := by
      rw [runOp, chunksFrom_of_lt hrow]
    by_cases hsilent : u.plat.font.now = .silent
    · rw [hcons.trans (if_pos hsilent)]
      exact ⟨row, hrow, rfl, h.sampledFont⟩
    · have hanswered : ¬ u.fontFails (chunkAddr u.fontIdx row) = true := by
        have := chunk_in_image (row := row) hfits
        simp only [State.fontFails, h.cfg_fontIdx, h.font.now, decide_false, Bool.false_or, decide_eq_true_eq]
        omega
      rw [hcons.trans ((if_neg hsilent).trans (if_neg hanswered))]
      exact ih h.readChunk

/-- A command that comes to its end has, behind such a lookup, loaded `GL` and gone on with the rest. -/
theorem Finally.lookup_ends {ops : List Op} (h : Finally ops u t) (hops : ops = op :: rest)
    (hfits : chunkAddr s.fontIdx 0 + chunkBytes ≤ s.cfg.font.size) (hgoes : s.LookupGoesOn (runOp op u)) :
    ∃ v, s.ReadUpTo 5 v ∧ Finally rest (v.withGl (glyphClosed v.glyph)) t := by
  induction h generalizing op with
  | nil => cases hops
  | done hdone hrest =>
    cases hops
    rw [hdone] at hgoes
    obtain ⟨v, hread, rfl⟩ := hgoes
    exact ⟨v, hread, hrest⟩
  | raise hraise =>
    cases hops
    rw [hraise] at hgoes
    exact hgoes.elim
  | wait hwait _ ih =>
    cases hops
    rw [hwait] at hgoes
    obtain ⟨row, hrow, rfl, hread⟩ := hgoes
    exact ih rfl (fontRow_goesOn hfits (Nat.le_of_lt hrow) (hread _).begun)

/-! ### In front of the flush -/

/-- `w` is what a `STATIC` accepted in `s` has left in front of its flush, whatever samples its waits took and whatever others
wrote meanwhile. -/
def State.PaintedIn (s : State) (o : Orient) (w : State) : Prop :=
  (∀ a, s.Untouched a → w.devAt a = s.devAt a ∧ w.Untouched a) ∧
  ∃ i g r f fo d td, w = { (s.staticPainted o).accept (.static o) with
    fontIdx := i, glyph := g, dev := d, todo := td, plat := { s.plat with rst := r, font := f, foreign := fo } }

/-- The cells are painted with the glyph that was looked up (R155). -/
theorem paintedIn_of_read (h : ((s.accept (.static o)).beginLookup (s.msgAt 0)).ReadUpTo 5 v) :
    s.PaintedIn o (runOp (.paint o) (v.withGl (glyphClosed v.glyph))).state := by
  obtain ⟨hdev, r, f, fo, d, td, -, rfl⟩ := h
  refine ⟨hdev, ?_⟩
  have hglyph := glyphClosed_chunks ((s.accept (.static o)).beginLookup (s.msgAt 0))
  have htrace := chunksRead_trace ((s.accept (.static o)).beginLookup (s.msgAt 0)) (List.range 5)
  obtain ⟨g, f', tr, hshape⟩ := chunksRead_shape ((s.accept (.static o)).beginLookup (s.msgAt 0)) (List.range 5)
  rw [chunksFrom_zero] at hglyph
  rw [hshape] at hglyph htrace ⊢
  have hgl : glyphClosed g = (s.staticPainted o).gl := hglyph
  have htr : tr = (s.staticPainted o).trace := htrace
  simp only [hgl, htr]
  exact ⟨_, _, _, _, _, _, _, rfl⟩

theorem Finally.of_done (h : Finally (op :: rest) u t) (hdone : runOp op u = .done v) : Finally rest v t := by
  cases h with
  | done hdone' hrest => exact OpResult.done.inj (hdone'.symm.trans hdone) ▸ hrest
  | raise hraise => cases hraise.symm.trans hdone
  | wait hwait => cases hwait.symm.trans hdone

/-- A `STATIC` whose reads do not fail comes to its flush, however it waits. -/
theorem Executes.static_painted {k : Nat} (hlen : s.msglen.toNat = 1) (hfont : s.FontWillAnswer)
    (h : Executes (.static o) k s t) (ht : t.Ready) : ∃ w, s.PaintedIn o w ∧ Finally [fullFlush] w t := by
  obtain ⟨hanswers, hsize⟩ := hfont
  have hfits := Nat.le_trans (chunkAddr_bound (row := 0) (glyphIndex_le s.cfg.alphabet (s.msgAt 0))) hsize
  have he : exec (.static o) s = .next (run (staticOps (s.msgAt 0) o) (s.accept (.static o))) := if_pos hlen
  have hbegun : ((s.accept (.static o)).beginLookup (s.msgAt 0)).ReadUpTo 0
      ((s.accept (.static o)).beginLookup (s.msgAt 0)) := ⟨fun _ ha => ⟨rfl, ha⟩, _, _, _, _, _, hanswers, rfl⟩
  have hends := (h.finally he rfl).1 ht.1
  have hgoes : ((s.accept (.static o)).beginLookup (s.msgAt 0)).LookupGoesOn
      (runOp (.lookup (s.msgAt 0)) (s.accept (.static o))) := fontRow_goesOn hfits (Nat.zero_le 5) hbegun
  obtain ⟨v, hread, hrest⟩ := hends.lookup_ends (s := (s.accept (.static o)).beginLookup (s.msgAt 0)) rfl hfits hgoes
  exact ⟨_, paintedIn_of_read hread, hrest.of_done rfl⟩

/-! ### Behind the flush -/

/-- With a device, what was painted is shown. -/
theorem flushShown_of_painted (hready : s.Ready) (hp : s.plat.present.now = true) (hanswers : s.DeviceWillAnswer)
    (hpainted : s.PaintedIn o w) (h : Finally [fullFlush] w t) : ((s.staticPainted o).rstOf t).FlushShown 0 128 t := by
  obtain ⟨hdev, i, g, r, f, fo, d, td, hw⟩ := hpainted
  obtain ⟨hbusy, hcmd, htodo⟩ := hready
  have hpresent : w.plat.present = s.plat.present := by rw [hw]
  have hwill : w.DeviceWillAnswer := by rw [hw]; exact hanswers
  obtain ⟨v, hflushed, rfl⟩ := h.flush_ends rfl (flush_goesOn (hpresent.symm ▸ hp) hwill 0 128)
  subst hw
  obtain ⟨⟨⟨_, _, _, _, _, _, _, _, _, _, _, rfl⟩, -, houtside⟩, -, htrace, hshown, hheld⟩ := hflushed
  refine ⟨?_, congrArg (!·) hp, hheld, fun k hk hlow hhigh h0 h1 => ?_, fun a ha hout => ?_, htrace⟩
  · simp only [State.OnlyTransacts, State.rstOf, State.finish, State.accept, State.staticPainted, hcmd, htodo, ← hbusy]
  · exact hshown.showsCell hk hlow hhigh (hdev _ h0).2 (hdev _ h1).2
  · exact (houtside a (hdev a ha).2 hout).trans (hdev a ha).1

/-- With no device it is not, and only `NODEV` is written (R139). -/
theorem skipped_of_painted (hready : s.Ready) (hp : s.plat.present.now = false) (hpainted : s.PaintedIn o w)
    (h : Finally [fullFlush] w t) : ((s.staticPainted o).rstOf t).OnlyTransacts t ∧ t.status.nodev = true ∧
      t.held = s.held ∧ t.trace = (s.staticPainted o).trace ∧ ∀ a, s.Untouched a → t.devAt a = s.devAt a := by
  obtain ⟨hdev, i, g, r, f, fo, d, td, hw⟩ := hpainted
  obtain ⟨hbusy, hcmd, htodo⟩ := hready
  have hpresent : w.plat.present = s.plat.present := by rw [hw]
  cases h.of_done (flush_absent (hpresent.symm ▸ hp) 0 devBytes)
  subst hw
  refine ⟨?_, congrArg (!·) hp, rfl, rfl, fun a ha => (hdev a ha).1⟩
  simp only [State.OnlyTransacts, State.rstOf, State.finish, State.accept, State.staticPainted, State.sampledPresent, hcmd,
    htodo, ← hbusy]

/-- What only transactions have changed since the letter was painted shows the letter in the buffer (R154, R155). -/
theorem staticShown_of_transacts (honly : ((s.staticPainted o).rstOf t).OnlyTransacts t)
    (hflush : s.plat.present.now = true → ((s.staticPainted o).rstOf t).FlushShown 0 128 t)
    (hskip : s.plat.present.now = false → ((s.staticPainted o).rstOf t).OnlyTransacts t ∧ t.status.nodev = true ∧
      t.held = s.held ∧ t.trace = (s.staticPainted o).trace ∧ ∀ a, s.Untouched a → t.devAt a = s.devAt a) :
    (s.rstOf t).StaticShown o t := by
  have hgl : t.gl = (s.staticPainted o).gl := by rw [honly]; rfl
  have hpb : t.pb = (s.staticPainted o).pb := by rw [honly]; rfl
  have hcfg : t.cfg = s.cfg := by rw [honly]; rfl
  refine ⟨holdsGlyph_of ?_, fun i hi => ?_, ?_, ?_⟩
  · rw [hgl, hcfg]
    rfl
  · rw [State.pbAt, hpb]
    unfold State.glAt
    rw [hgl]
    exact staticPainted_pbAt o hi
  · rw [hgl, hpb]
    exact hflush
  · rw [hgl, hpb]
    exact hskip

theorem Executes.staticShown {k : Nat} (hready : s.Ready) (hlen : s.msglen.toNat = 1) (hfont : s.FontWillAnswer)
    (hdevice : s.plat.present.now = true → s.DeviceWillAnswer) (h : Executes (.static o) k s t) (ht : t.Ready) :
    (s.rstOf t).StaticShown o t := by
  obtain ⟨w, hpainted, hflush⟩ := h.static_painted hlen hfont ht
  have hshown hp := flushShown_of_painted hready hp (hdevice hp) hpainted hflush
  have hskipped hp := skipped_of_painted hready hp hpainted hflush
  refine staticShown_of_transacts ?_ hshown hskipped
  cases hp : s.plat.present.now with
  | true => exact (hshown hp).1
  | false => exact (hskipped hp).1

/-- A `STATIC` whose answers come at once ends in the step that accepts it. -/
theorem execStatic_answered (hlen : s.msglen.toNat = 1) (hfont : s.FontAnswers) (hdevice : s.DeviceAnswers) :
    ∃ t, exec (.static o) s = .next t ∧ t.Ready ∧ t.plat.rst = s.plat.rst := by
  have hlookup : runOp (.lookup (s.msgAt 0)) (s.accept (.static o)) = .done ((s.accept (.static o)).lookedUp (s.msgAt 0)) :=
    lookupChar_done (s := s.accept (.static o)) hfont _
  have hanswers : (runOp (.paint o) ((s.accept (.static o)).lookedUp (s.msgAt 0))).state.DeviceAnswers := by
    obtain ⟨_, _, _, -, hshape⟩ := lookedUp_shape (s.accept (.static o)) (s.msgAt 0) hfont.1
    rw [hshape]
    exact hdevice
  have hsteps : Steps (staticOps (s.msgAt 0) o) (s.accept (.static o)) _ :=
    .cons hlookup (.cons rfl (.cons (flush_done_or_skipped hanswers 0 devBytes) (.nil _)))
  exact ⟨_, (if_pos hlen).trans (congrArg Host.Outcome.next hsteps.run), ready_finish _, hsteps.sameCore.rst⟩

/-- Settles O52: the lookup, the painting and the flush are each followed to their ends; at once is no wait. -/
theorem staticPaintsTheLetter : Obligations.StaticPaintsTheLetter := by
  refine ⟨fun w hop => by simp [decode, hop], fun o s hready hlen => ⟨fun hfont hdevice => ?_, fun hfont hdevice k t =>
    Executes.staticShown hready hlen hfont hdevice⟩⟩
  obtain ⟨t, hexec, ht, hrst⟩ := execStatic_answered (o := o) hlen hfont hdevice
  obtain ⟨hanswers, hsize⟩ := hfont
  obtain ⟨hacquire, hwrite, -⟩ := hdevice
  have hshown := Executes.staticShown (k := 0) hready hlen ⟨hanswers.mono (by rintro _ rfl; decide), hsize⟩
    (fun _ => ⟨hacquire.answer, hwrite.answer⟩) hexec ht
  rw [rstOf_eq hrst] at hshown
  exact ⟨t, hexec, hshown⟩

end Sys2Proof.Machine
end

section
/-! PROOFS. The system command (R180). -/

namespace Sys2Proof.Machine

/-- Acceptance and end of a command write `BUSY` and no sticky flag, so they come before the clearing as well as around it. -/
theorem execClrst_eq {s : State} (h : s.Ready) (mask : Half) :
    exec (.clrst mask) s = .next (s.withStatus (s.status.clear mask)) :=
  congrArg (fun t : State => (.next (t.withStatus (t.status.clear mask)) : Out)) (ready_finish_accept h (.clrst mask))

/-- Settles O60: `CLRST` of a ready core is `Status.clear`, whose mask bits are the flags' positions in `STATUS`. -/
theorem clrstClearsMaskedFlags : Obligations.ClrstClearsMaskedFlags :=
  ⟨fun w hop => by simp [decode, hop], fun mask _ hready => execClrst_eq hready mask⟩

end Sys2Proof.Machine
end

section
/-! PROOFS. The no-ops, by their list (R193). -/

namespace Sys2Proof.Machine

variable {i : Instr} {s : State}

theorem lt_of_not_coordsInRange {x y : BitVec 4} (h : coordsInRange x y = false) : 7 < x.toNat ∨ 7 < y.toNat := by
  have : ¬ (x.toNat ≤ 7 ∧ y.toNat ≤ 7) := of_decide_eq_false h
  omega

/-- A command with an operand outside its domain: only the ten that check one can be. -/
theorem exec_of_not_inDomain (hready : s.Ready) (h : i.inDomain = false) : exec i s = .next s := by
  have above {b n : Nat} (h : decide (b ≤ n) = false) : n < b := Nat.lt_of_not_le (of_decide_eq_false h)
  cases i with
  | pixoff o x y => exact execPixoff_of_lt hready o (lt_of_not_coordsInRange h)
  | glyoff o scan => exact execGlyoff_of_lt hready o (above h)
  | glyaddr row ch => exact execGlyaddr_of_lt hready ch (above h)
  | glybit g => exact execGlybit_of_lt hready (above h)
  | pbset x y v => exact execPbset_of_lt hready v (lt_of_not_coordsInRange h)
  | pbsetl off v => exact execPbsetl_of_lt hready v (above h)
  | pbget off => exact execPbget_of_lt hready (above h)
  | pbbyte idx => exact execPbbyte_of_lt hready (above h)
  | flush1 cell => exact execFlush1_of_lt hready (above h)
  | setpix o x y v => exact execSetpix_of_lt hready (lt_of_not_coordsInRange h) o v
  | _ => cases h

/-- `STATIC` of a message that is not one character (R155). -/
theorem execStatic_of_ne_one (hready : s.Ready) (o : Orient) (h : s.msglen.toNat ≠ 1) : exec (.static o) s = .next s :=
  (if_neg h).trans (command_id hready _)

/-- Settles O14: each row of R193's list is the no-op of its command. -/
theorem noOpsChangeNothing : Obligations.NoOpsChangeNothing := by
  rintro i s hready (hdomain | ⟨ch, rfl, hfull⟩ | ⟨o, rfl, hlen⟩)
  · exact exec_of_not_inDomain hready hdomain
  · exact execMsgput_full hready ch hfull
  · exact execStatic_of_ne_one hready o hlen

end Sys2Proof.Machine
end

section
/-! PROOFS. What a command does not look at: which of the platform's inputs it runs before makes no difference to its acceptance,
and neither `cancel` nor the counter makes any to most of its statements (R84, R200, R205). -/

namespace Sys2Proof.Machine

variable {i : Instr} {s : State} {op : Op} {ops : List Op}

/-! ### Acceptance -/

/-- `s` with another platform, another counter and another pace. -/
def State.before (s : State) (p : Platform) (m z : Nat) : State := { s with plat := p, mtime := m, t0 := z }

/-- A command, accepted before whatever platform, ends alike in that one step, or goes on to the same statements. -/
def AcceptedAlike (i : Instr) (s : State) : Prop :=
  (∃ t : State, t.Ready ∧ ∀ p m z, exec i (s.before p m z) = .next (t.before p m z)) ∨
  ∃ ops pb, (∀ op ∈ ops, op.PartOf i) ∧
    ∀ p m z, exec i (s.before p m z) = .next (run ops (((s.withPb pb).accept i).before p m z))

theorem acceptedAlike_command {f : State → State} (he : ∀ u, exec i u = command i f u)
    (hf : ∀ u p m z, f (u.before p m z) = (f u).before p m z) : AcceptedAlike i s :=
  .inl ⟨(f (s.accept i)).finish, ready_finish _, fun p m z => by
    rw [he]
    exact congrArg (fun u : State => (.next u.finish : Out)) (hf (s.accept i) p m z)⟩

theorem acceptedAlike_checked {α : Type} {operand : Option α} {f : α → State → State}
    (he : ∀ u, exec i u = checked i operand f u) (hf : ∀ x u p m z, f x (u.before p m z) = (f x u).before p m z) :
    AcceptedAlike i s := by
  refine acceptedAlike_command he ?_
  cases operand with
  | none => exact fun _ _ _ _ => rfl
  | some x => exact hf x

theorem acceptedAlike_ops {ops : List Op} (he : ∀ p m z, exec i (s.before p m z) = execOps i ops (s.before p m z))
    (hops : ∀ op ∈ ops, op.PartOf i) : AcceptedAlike i s :=
  .inr ⟨ops, s.pb, hops, he⟩

theorem acceptedAlike (i : Instr) (s : State) : AcceptedAlike i s := by
  cases i with
  | pixoff | glyoff | glyaddr | glybit | pbset | pbsetl | pbget | pbbyte =>
    apply acceptedAlike_checked
    · unfold exec
      exact fun _ => rfl
    · exact fun _ _ _ _ _ => rfl
  | msgput ch =>
    apply acceptedAlike_command
    · unfold exec
      exact fun _ => rfl
    · intro u p m z
      rw [apply_ite (State.before · p m z)]
      rfl
  | lookup ch => exact acceptedAlike_ops (ops := [.lookup ch]) (fun _ _ _ => rfl) (by simpa using partOf_lookup rfl ch)
  | flush => exact acceptedAlike_ops (ops := [fullFlush]) (fun _ _ _ => rfl) (by simpa using partOf_fullFlush rfl)
  | flush1 cell =>
    cases hcell : cellIndex cell with
    | none => exact acceptedAlike_command (f := id) (fun _ => by simp only [exec, execFlush1, hcell]) fun _ _ _ _ => rfl
    | some k =>
      exact acceptedAlike_ops (ops := [cellFlush k]) (fun _ _ _ => by simp only [exec, execFlush1, hcell])
        (by simpa using partOf_cellFlush rfl (cellIndex_lt hcell))
  | setpix o x y v =>
    cases hxy : coords x y with
    | none => exact acceptedAlike_command (f := id) (fun _ => by simp only [exec, execSetpix, hxy]) fun _ _ _ _ => rfl
    | some q =>
      refine .inr ⟨[cellFlush (pixelOffset q.1 q.2 o)], setCell s.pb (pixelOffset q.1 q.2 o) v,
        by simpa using partOf_cellFlush rfl (pixelOffset_lt hxy o), fun _ _ _ => ?_⟩
      simp only [exec, execSetpix, hxy]
      rfl
  | static o =>
    by_cases hlen : s.msglen.toNat = 1
    · exact acceptedAlike_ops (ops := staticOps (s.msgAt 0) o) (fun _ _ _ => if_pos hlen)
        (by simpa [staticOps] using ⟨partOf_lookup rfl _, partOf_paint rfl o, partOf_fullFlush rfl⟩)
    · exact acceptedAlike_ops (ops := []) (fun _ _ _ => if_neg hlen) (by simp)
  | scroll o =>
    exact acceptedAlike_ops (ops := scrollOps o s.msglen.toNat) (fun _ _ _ => rfl)
      fun _ h => scrollOps_partOf (by have := s.msglen.isLt; omega) h
  | _ =>
    apply acceptedAlike_command
    · unfold exec
      exact fun _ => rfl
    · exact fun _ _ _ _ => rfl

/-! ### Statements -/

/-- What `cancel`, the counter, the start of its pace and the ticks are replaced by, each made of what it was. -/
structure Outlook where
  cancel : Script Bool → Script Bool
  mtime : Nat → Nat
  t0 : Nat → Nat
  ticks : Script Nat → Script Nat

/-- `s` with another outlook on `cancel` and on the counter. -/
def State.seeing (s : State) (w : Outlook) : State :=
  s.before { s.plat with cancel := w.cancel s.plat.cancel, ticks := w.ticks s.plat.ticks } (w.mtime s.mtime) (w.t0 s.t0)

/-- The statements that look at `cancel` or at the counter. -/
def Op.looksOut : Op → Bool
  | .checkCancel | .pace | .paceWait => true
  | _ => false

variable (w : Outlook)

theorem readChunks_seeing (rows : List Nat) (s : State) :
    readChunks rows (s.seeing w) = (readChunks rows s).map (·.seeing w) := by
  induction rows generalizing s with
  | nil => rfl
  | cons row rows ih =>
    simp only [readChunks, apply_ite (OpResult.map _)]
    exact ite_congr rfl (fun _ => rfl) fun _ => ite_congr rfl (fun _ => rfl) fun _ => ih (s.readChunk row)

theorem atEdge_seeing (resume : Op) {go : State → OpResult} (hgo : ∀ s : State, go (s.seeing w) = (go s).map (·.seeing w))
    (s : State) : atEdge resume go (s.seeing w) = (atEdge resume go s).map (·.seeing w) := by
  simp only [atEdge, apply_ite (OpResult.map _)]
  exact ite_congr rfl (fun _ => rfl) fun _ => hgo s.sampledEdge

theorem flushEnd_seeing (ok : Bool) (s : State) : flushEnd ok (s.seeing w) = (flushEnd ok s).map (·.seeing w) := by
  cases ok <;> rfl

theorem flushRelease_seeing (ok : Bool) (s : State) :
    flushRelease ok (s.seeing w) = (flushRelease ok s).map (·.seeing w) :=
  atEdge_seeing w (.flushEnd ok) (flushEnd_seeing w ok) s.releaseDevice

theorem flushWrite_seeing (off n : Nat) (s : State) : flushWrite off n (s.seeing w) = (flushWrite off n s).map (·.seeing w) := by
  have hnow : (s.seeing w).plat.write.now = s.plat.write.now := rfl
  unfold flushWrite
  dsimp only
  rw [hnow]
  cases s.plat.write.now with
  | silent => rfl
  | ok => exact atEdge_seeing w _ (flushRelease_seeing w true) ((s.sampledWrite.writeDevice off _).log _)
  | failed => exact atEdge_seeing w _ (flushRelease_seeing w false) ((s.sampledWrite.spoil off n).log _)

theorem flushGrant_seeing (off n : Nat) (s : State) : flushGrant off n (s.seeing w) = (flushGrant off n s).map (·.seeing w) := by
  have hnow : (s.seeing w).plat.acquire.now = s.plat.acquire.now := rfl
  unfold flushGrant
  rw [hnow]
  cases s.plat.acquire.now with
  | silent => rfl
  | ok => exact atEdge_seeing w _ (flushWrite_seeing w off n) (s.sampledAcquire.takeDevice.log _)
  | failed => exact atEdge_seeing w _ (flushEnd_seeing w false) (s.sampledAcquire.log _)

/-- A statement that looks out neither at `cancel` nor at the counter comes to the same whatever they are. -/
theorem runOp_seeing (h : op.looksOut = false) (s : State) : runOp op (s.seeing w) = (runOp op s).map (·.seeing w) := by
  cases op <;> first | rfl | (cases h; done) | skip
  case lookup ch => exact readChunks_seeing w _ (s.beginLookup ch)
  case lookupMsg =>
    simp only [runOp, apply_ite (OpResult.map _)]
    exact ite_congr rfl (fun _ => readChunks_seeing w _ (s.beginLookup _)) fun _ => rfl
  case fontRow row => exact readChunks_seeing w _ s
  case flush off n =>
    simp only [runOp, flushStart, apply_ite (OpResult.map _)]
    exact ite_congr rfl (fun _ => flushGrant_seeing w off n s.sampledPresent) fun _ => rfl
  case flushGrant off n => exact flushGrant_seeing w off n s
  case flushHold off n => exact flushWrite_seeing w off n s
  case flushWrite off n => exact flushWrite_seeing w off n s
  case flushRelease ok => exact flushRelease_seeing w ok s
  case flushEnd ok => exact flushEnd_seeing w ok s

theorem raise_seeing (e : Abort) (s : State) : (s.seeing w).raise e = (s.raise e).seeing w := by
  simp only [State.raise]
  rw [show ((s.seeing w).withStatus ((s.seeing w).status.raiseFlag e)).scrolling = s.scrolling from rfl,
    show (s.withStatus (s.status.raiseFlag e)).scrolling = s.scrolling from rfl]
  cases s.scrolling <;> rfl

end Sys2Proof.Machine
end

section
/-! PROOFS. `cancel` has no effect on a command that is no `SCROLL` (R200). -/

namespace Sys2Proof.Machine

variable {i : Instr} {s t : State} {op : Op} {ops : List Op} (c : Script Bool)

/-- The outlook in which `cancel` takes the values `c`: `s.seeing` it is `s.cancelling c`. -/
def cancelOutlook (c : Script Bool) : Outlook := ⟨fun _ => c, id, id, id⟩

/-- Only the between-frames check looks at `cancel`, and it is a statement of a `SCROLL`. -/
theorem runOp_cancelling_of_not_movesAnimator (h : op.movesAnimator = false) (s : State) :
    runOp op (s.cancelling c) = (runOp op s).map (·.cancelling c) := by
  have hcompares (u : State) : paceWait (u.cancelling c) = (paceWait u).map (·.cancelling c) := by
    simp only [paceWait, apply_ite (OpResult.map _)]
    rfl
  cases op with
  | checkCancel => cases h
  | pace => exact hcompares s.startPace
  | paceWait => exact hcompares s
  | _ => exact runOp_seeing (cancelOutlook c) rfl s

theorem run_cancelling (hops : ∀ op ∈ ops, op.movesAnimator = false) (s : State) :
    run ops (s.cancelling c) = (run ops s).cancelling c := by
  induction ops generalizing s with
  | nil => rfl
  | cons op ops ih =>
    have hop := runOp_cancelling_of_not_movesAnimator c (hops op List.mem_cons_self) s
    simp only [run, hop]
    cases runOp op s with
    | done t => exact ih (fun o ho => hops o (List.mem_cons_of_mem _ ho)) t
    | raise e t => exact raise_seeing (cancelOutlook c) e t
    | wait t r => rfl

theorem Op.Within.not_movesAnimator (h : op.Within i) (hi : isScroll i = false) : op.movesAnimator = false := by
  obtain ⟨-, -, -, hanim⟩ := h
  exact Bool.eq_false_iff.mpr fun hm => Bool.eq_false_iff.mp hi (hanim hm)

theorem exec_cancelling (hi : isScroll i = false) (h : exec i s = .next t) :
    exec i (s.cancelling c) = .next (t.cancelling c) := by
  rcases acceptedAlike i s with ⟨v, -, hv⟩ | ⟨ops, pb, hops, hrun⟩
  · obtain rfl := Host.Outcome.next.inj ((hv s.plat s.mtime s.t0).symm.trans h)
    exact hv _ _ _
  · obtain rfl := Host.Outcome.next.inj ((hrun s.plat s.mtime s.t0).symm.trans h)
    refine (hrun _ _ _).trans (congrArg Host.Outcome.next ?_)
    exact run_cancelling c (fun op ho => (hops op ho).within.not_movesAnimator hi) ((s.withPb pb).accept i)

theorem begun_cancelling (s : State) : (s.cancelling c).begun = s.begun.cancelling c := by
  simp only [State.begun, apply_ite (State.cancelling · c)]
  rfl

/-- Settles O18: neither the acceptance nor a statement of such a command, nor the start of a step, looks at `cancel`. -/
theorem cancelConcernsOnlyScroll : Obligations.CancelConcernsOnlyScroll := by
  intro i k s t c hi h
  induction k generalizing t with
  | zero => exact exec_cancelling c hi h
  | succ k ih =>
    obtain ⟨u, hu, hbusy, hrst, hstep⟩ := h
    obtain ⟨hwithin, -⟩ := hu.waits
    have hnext := Host.Outcome.next.inj ((step_of_busy hrst hbusy).symm.trans hstep)
    refine ⟨u.cancelling c, ih u hu, hbusy, hrst, (step_of_busy (s := u.cancelling c) hrst hbusy).trans ?_⟩
    rw [← hnext, begun_cancelling]
    exact congrArg Host.Outcome.next
      (run_cancelling c (fun op ho => (hwithin op (begun_todo u ▸ ho)).not_movesAnimator hi) u.begun)

end Sys2Proof.Machine
end

section
/-! PROOFS. The counter has no effect on what a command computes, and waits have none on what it ends in (R84, R205, R231). -/

namespace Sys2Proof.Machine

variable {i : Instr} {s t : State} {op : Op} {ops : List Op}

/-! ### Two counters that advance -/

/-- The outlook in which the counter, the pace start and the ticks are these: `s.seeing` it leaves `cancel` as it is. -/
def timeOutlook (m z : Nat) (ti : Script Nat) : Outlook := ⟨id, fun _ => m, fun _ => z, fun _ => ti⟩

/-- `s` with another counter. -/
def State.timed (s : State) (m z : Nat) (ti : Script Nat) : State := s.seeing (timeOutlook m z ti)

/-- Only a pace looks at the counter. -/
theorem runOp_timed (hop : op.isResume = false) (hpace : op ≠ .pace) (s : State) (m z : Nat) (ti : Script Nat) :
    runOp op (s.timed m z ti) = (runOp op s).map (·.timed m z ti) := by
  cases op with
  | checkCancel =>
    simp only [runOp, checkCancel, apply_ite (OpResult.map _)]
    rfl
  | pace => exact (hpace rfl).elim
  | paceWait => cases hop
  | _ => exact runOp_seeing (timeOutlook m z ti) rfl s

/-- So no other statement writes the ticks: to see those of `s` makes no difference. -/
theorem runOp_ticks (hop : op.isResume = false) (hpace : op ≠ .pace) (s : State) :
    (runOp op s).state.plat.ticks = s.plat.ticks := by
  have h : runOp op s = _ := runOp_timed hop hpace s s.mtime s.t0 s.plat.ticks
  cases hx : runOp op s <;> rw [hx] at h <;> exact congrArg (·.state.plat.ticks) h

theorem runOp_ticking (hop : op.isResume = false) (hpace : op ≠ .pace) (h : s.Ticking) : (runOp op s).state.Ticking := by
  unfold State.Ticking
  rw [runOp_ticks hop hpace, (runOp_sameCore op s).cfg]
  exact h

theorem run_timed (hops : ∀ op ∈ ops, op.isResume = false) {m z : Nat} {ti : Script Nat} (hs : s.Ticking)
    (ht : (s.timed m z ti).Ticking) : ∃ m' z' ti', run ops (s.timed m z ti) = (run ops s).timed m' z' ti' := by
  induction ops generalizing s m z ti with
  | nil => exact ⟨m, z, ti, rfl⟩
  | cons op ops ih =>
    have hop := hops op List.mem_cons_self
    have hops' : ∀ op ∈ ops, op.isResume = false := fun o ho => hops o (List.mem_cons_of_mem _ ho)
    by_cases hpace : op = .pace
    · subst hpace
      rw [run_done (pace_done hs), run_done (pace_done ht)]
      exact ih (s := s.paced) hops' hs.later.later ht.later.later
    · have hrun := runOp_timed hop hpace s m z ti
      have hticking := runOp_ticking hop hpace hs
      have hticking' := runOp_ticking hop hpace ht
      rw [hrun] at hticking'
      cases hx : runOp op s with
      | done t =>
        rw [hx] at hrun hticking hticking'
        rw [run_done hx, run_done hrun]
        exact ih hops' hticking hticking'
      | raise e t =>
        rw [hx] at hrun
        rw [run_raise hx, run_raise hrun]
        exact ⟨m, z, ti, raise_seeing (timeOutlook m z ti) e t⟩
      | wait t r =>
        rw [hx] at hrun
        rw [run_wait hx, run_wait hrun]
        exact ⟨m, z, ti, rfl⟩

theorem exec_timed {m z : Nat} {ti : Script Nat} (hs : s.Ticking) (ht : (s.timed m z ti).Ticking)
    (h : exec i s = .next t) : ∃ m' z' ti', exec i (s.timed m z ti) = .next (t.timed m' z' ti') := by
  rcases acceptedAlike i s with ⟨v, -, hv⟩ | ⟨ops, pb, hops, hrun⟩
  · obtain rfl := Host.Outcome.next.inj ((hv s.plat s.mtime s.t0).symm.trans h)
    exact ⟨m, z, ti, hv _ _ _⟩
  · obtain rfl := Host.Outcome.next.inj ((hrun s.plat s.mtime s.t0).symm.trans h)
    obtain ⟨m', z', ti', he⟩ :=
      run_timed (s := (s.withPb pb).accept i) (fun op ho => (hops op ho).not_resume) hs ht
    exact ⟨m', z', ti', (hrun _ _ _).trans (congrArg Host.Outcome.next he)⟩

/-! ### Waits -/

/-- Others' writes are finitely many, so they leave some address alone. -/
theorem exists_untouched (s : State) : ∃ a, s.Untouched a := by
  obtain ⟨a, ha⟩ := ((s.plat.foreign.rest :: s.plat.foreign.next).flatten.map Prod.fst).toFinset.exists_notMem
  have hne : ∀ cells ∈ s.plat.foreign.rest :: s.plat.foreign.next, ∀ c ∈ cells, c.1 ≠ a := by
    intro cells hcells c hc hca
    exact ha (List.mem_toFinset.mpr (hca ▸ List.mem_map_of_mem (List.mem_flatten_of_mem hcells hc)))
  exact ⟨a, fun cells hcells => hne cells (List.mem_cons_of_mem _ hcells), hne _ List.mem_cons_self⟩

/-- What `t`, come to after waits, is of `u`, come to at once: the same but for the counter, the inputs sampled, the device and
the count of free values. -/
def State.SameResult (u t : State) : Prop :=
  t = { u with
    mtime := t.mtime, t0 := t.t0, dev := t.dev, draws := t.draws
    plat := { u.plat with
      rst := t.plat.rst, acquire := t.plat.acquire, write := t.plat.write, font := t.plat.font, edge := t.plat.edge
      ticks := t.plat.ticks, foreign := t.plat.foreign } }

theorem Prompted.sameResult {u : State} (h : Prompted t u) (ht : t.Ready) (hu : u.Ready) : u.SameResult t := by
  obtain ⟨m, z, d, k, td, r, f, rfl⟩ := h
  obtain ⟨-, -, htodo⟩ := ht
  obtain ⟨-, -, rfl⟩ := hu
  simp only [State.SameResult, ← htodo]

/-- A command that ends in the step that accepts it is seen in no other state. -/
theorem Executes.eq_of_ready {k : Nat} {v : State} (he : exec i s = .next v) (hv : v.Ready) (h : Executes i k s t) : t = v :=
  h.keeps (P := (· = v)) (fun _ ht => Host.Outcome.next.inj (ht.symm.trans he)) fun u hu hbusy => by
    rw [hu, hv.1] at hbusy
    cases hbusy

/-- The statements of a command, accepted before its own platform and before a prompt one, start alike. -/
theorem alike_accepted {a : Nat} (ha : s.Untouched a) (pb : Vector Half 64) :
    Alike a s.trace.length ((s.withPb pb).accept i) (((s.withPb pb).accept i).before s.prompt.plat 0 0) :=
  ⟨⟨_, _, _, _, _, _, _, rfl⟩, ha, ha, le_refl s.trace.length, .inl rfl⟩

theorem Executes.sameResult_prompt {k : Nat} (h : Executes i k s t) (ht : t.Ready) :
    ∃ u, exec i s.prompt = .next u ∧ u.Ready ∧ u.SameResult t ∧
      ∀ a, s.Untouched a → t.devAt a = u.devAt a ∨ FailedAt a s.trace.length t.trace := by
  rcases acceptedAlike i s with ⟨v, hv, he⟩ | ⟨ops, pb, hops, he⟩
  · obtain rfl := h.eq_of_ready (he s.plat s.mtime s.t0) hv
    exact ⟨_, he s.prompt.plat 0 0, hv, rfl, fun _ _ => .inl rfl⟩
  · have hprompted {a : Nat} (ha : s.Untouched a) := h.prompted (he s.plat s.mtime s.t0) rfl ht (alike_accepted ha pb)
      fun op ho => (hops op ho).not_resume
    obtain ⟨a, ha⟩ := exists_untouched s
    obtain ⟨⟨hlike, -⟩, hready⟩ := hprompted ha
    refine ⟨_, he s.prompt.plat 0 0, hready, hlike.sameResult ht hready, fun a ha => ?_⟩
    obtain ⟨⟨-, -, -, -, hbyte⟩, -⟩ := hprompted ha
    exact hbyte

/-- Settles O19: only a pace looks at the counter, and it ends as soon as the counter advances; and a wait takes from the
platform's script only the silences that the prompt platform leaves out. -/
theorem resultsDoNotDependOnTime : Obligations.ResultsDoNotDependOnTime := by
  refine ⟨fun i s t m z ti hs ht => exec_timed hs ht, fun i k s t h ht => ?_⟩
  obtain ⟨u, hexec, hready, hsame, hbyte⟩ := h.sameResult_prompt ht
  refine ⟨u, hexec, hready, hsame, fun a ha hspared => (hbyte a ha).resolve_right ?_⟩
  rintro ⟨off, bytes, hmem, hlow, hhigh⟩
  have := hspared off bytes hmem
  omega

end Sys2Proof.Machine
end

section
/-! PROOFS. Reset (R31, R220, R222): what `rst` leaves of the core and of the device, and the points of a flush at which it can
come. -/

namespace Sys2Proof.Machine

variable {s t : State} {off n k : Nat}

/-! ### What a reset leaves -/

/-- A write in progress is all that a reset touches of what is not the core's, and it leaves unspecified bytes (R222). -/
theorem abandonWrite_shape (s : State) : ∃ d k, s.abandonWrite = { s with dev := d, draws := k } := by
  unfold State.abandonWrite
  split
  · split <;> exact ⟨_, _, rfl⟩
  · exact ⟨_, _, rfl⟩

theorem resetCore_plat (s : State) : s.resetCore.plat = s.plat := by
  obtain ⟨d, k, h⟩ := abandonWrite_shape s
  show s.abandonWrite.plat = s.plat
  rw [h]

theorem resetCore_trace (s : State) : s.resetCore.trace = s.trace ++ [.reset] := by
  obtain ⟨d, k, h⟩ := abandonWrite_shape s
  show s.abandonWrite.trace ++ [.reset] = s.trace ++ [.reset]
  rw [h]

theorem resetCore_ready (s : State) : s.resetCore.Ready := ⟨rfl, rfl, rfl⟩

/-- A reset leaves a device byte that is outside the range of the write in progress, if there is one. -/
theorem resetCore_devAt {a : Nat} (h : ∀ off n rest, s.todo = .flushWrite off n :: rest → a < off ∨ off + n ≤ a) :
    s.resetCore.devAt a = s.devAt a := by
  show s.abandonWrite.devAt a = s.devAt a
  unfold State.abandonWrite
  split
  · rename_i off n rest htodo
    split
    · exact write_devAt s off _ a (by rw [length_freeBytes]; exact h off n rest htodo)
    · rfl
  · rfl

/-- Settles O10: a step looks at `rst` before anything else, and what it leaves then is the reset state but for what is not the
core's. -/
theorem rstTakesPriority : Obligations.RstTakesPriority := by
  intro s hr
  have hcommands : s.begun.resetCore.plat.commands = s.plat.commands := by rw [resetCore_plat, begun_plat]
  have hcfg : s.begun.resetCore.cfg = s.cfg := by rw [resetCore_cfg, begun_cfg]
  have hword : State.reset.status.word = 0x00 := by decide
  exact ⟨_, step_of_rst hr, resetCore_ready _, rfl, hword, rfl, rfl, rfl, rfl, rfl, rfl, reset_glAt, hcommands, hcfg⟩

/-! ### Where a flush pauses -/

/-- The input is 0 for `k` samples and then 1. -/
def Script.RisesAt (sc : Script Bool) (k : Nat) : Prop := ∃ rest, sc.next = List.replicate k false ++ true :: rest

theorem Script.RisesAt.now_of_zero {sc : Script Bool} (h : sc.RisesAt 0) : sc.now = true := by
  obtain ⟨rest, h⟩ := h
  rw [Script.now, h]
  rfl

theorem Script.RisesAt.now_of_succ {sc : Script Bool} (h : sc.RisesAt (k + 1)) : sc.now = false := by
  obtain ⟨rest, h⟩ := h
  rw [Script.now, h]
  rfl

theorem Script.RisesAt.later {sc : Script Bool} (h : sc.RisesAt (k + 1)) : sc.later.RisesAt k := by
  obtain ⟨rest, h⟩ := h
  exact ⟨rest, by rw [Script.later, h]; rfl⟩

theorem atEdge_of_edge (h : s.plat.edge.now = true) (resume : Op) (go : State → OpResult) :
    atEdge resume go s = .wait s.sampledEdge resume := if_pos h

theorem atEdge_of_no_edge (h : s.plat.edge.now = false) (resume : Op) (go : State → OpResult) :
    atEdge resume go s = go s.sampledEdge := if_neg (by rw [h]; exact Bool.false_ne_true)

/-- The statement waits, with the history `tr` and the device held or not. -/
def OpResult.Pauses (tr : List Event) (held : Bool) : OpResult → Prop
  | .wait t _ => t.trace = tr ∧ t.held = held
  | _ => False

/-- A write that was answered, and the release after it: a clock edge falls after one of the two. -/
theorem answered_pauses (ok : Bool) (hk : k < 2) (he : s.plat.edge.RisesAt k) :
    (atEdge (.flushRelease ok) (flushRelease ok) s).Pauses (s.trace ++ [Event.release].take k) (s.held && decide (k = 0)) := by
  match k, hk with
  | 0, _ =>
    rw [atEdge_of_edge he.now_of_zero]
    exact ⟨(List.append_nil _).symm, (Bool.and_true _).symm⟩
  | 1, _ =>
    rw [atEdge_of_no_edge he.now_of_succ, flushRelease,
      atEdge_of_edge (s := s.sampledEdge.releaseDevice) he.later.now_of_zero]
    exact ⟨rfl, (Bool.and_false _).symm⟩

/-- A write that is not answered yet is under way. -/
theorem flushWrite_pauses_silent (hw : s.plat.write.now = .silent) : (flushWrite off n s).Pauses s.trace s.held := by
  simp only [flushWrite, hw]
  exact ⟨rfl, rfl⟩

/-- A write that is answered, with `Ok` or not: a clock edge falls after it, or after the release. -/
theorem flushWrite_pauses (hw : s.plat.write.now ≠ .silent) (hk : k < 2) (he : s.plat.edge.RisesAt k) :
    (flushWrite off n s).Pauses
      (s.trace ++ [Event.write off (pbBytes s.pb off n) (decide (s.plat.write.now = .ok)), .release].take (k + 1))
      (s.held && decide (k = 0)) := by
  rw [List.take_succ_cons, List.append_cons]
  cases hnow : s.plat.write.now with
  | silent => exact absurd hnow hw
  | ok =>
    simp only [flushWrite, hnow]
    exact answered_pauses (s := (s.sampledWrite.writeDevice off _).log (.write off _ true)) true hk he
  | failed =>
    simp only [flushWrite, hnow]
    exact answered_pauses (s := (s.sampledWrite.spoil off n).log (.write off _ false)) false hk he

/-- A granted request: a clock edge may fall after it. -/
theorem flush_of_grant (hp : s.plat.present.now = true) (ha : s.plat.acquire.now = .ok) (off n : Nat) :
    runOp (.flush off n) s =
      atEdge (.flushHold off n) (flushWrite off n) (s.sampledPresent.sampledAcquire.takeDevice.log (.acquire true)) := by
  have ha' : s.sampledPresent.plat.acquire.now = .ok := ha
  simp only [runOp, flushStart, hp, if_true, flushGrant, ha']

theorem flush_of_grant_of_no_edge (hp : s.plat.present.now = true) (ha : s.plat.acquire.now = .ok)
    (he : s.plat.edge.now = false) (off n : Nat) : runOp (.flush off n) s = flushWrite off n s.granted :=
  (flush_of_grant hp ha off n).trans
    (atEdge_of_no_edge (s := s.sampledPresent.sampledAcquire.takeDevice.log (.acquire true)) he _ _)

/-- A clock edge falls after event number `k` of a flush that finds a device and is answered. -/
theorem flush_pauses_at_edge (hheld : s.held = false) (hp : s.plat.present.now = true) (ha : s.plat.acquire.now ≠ .silent)
    (hw : 0 < k → s.plat.write.now ≠ .silent) (hk : k < (s.flushEvents off n).length) (he : s.plat.edge.RisesAt k) :
    (runOp (.flush off n) s).Pauses (s.trace ++ (s.flushEvents off n).take (k + 1))
      (decide (s.plat.acquire.now = .ok ∧ 1 ≤ k + 1 ∧ k + 1 < 3)) := by
  unfold State.flushEvents at hk ⊢
  cases hacq : s.plat.acquire.now with
  | silent => exact absurd hacq ha
  | failed =>
    obtain rfl : k = 0 := by simpa [hacq] using hk
    have ha' : s.sampledPresent.plat.acquire.now = .failed := hacq
    simp only [runOp, flushStart, hp, if_true, flushGrant, ha']
    rw [atEdge_of_edge (s := s.sampledPresent.sampledAcquire.log (.acquire false)) he.now_of_zero]
    exact ⟨rfl, hheld⟩
  | ok =>
    simp only [hacq, if_true] at hk ⊢
    cases k with
    | zero =>
      rw [flush_of_grant hp hacq,
        atEdge_of_edge (s := s.sampledPresent.sampledAcquire.takeDevice.log (.acquire true)) he.now_of_zero]
      exact ⟨rfl, rfl⟩
    | succ k =>
      have hlt : k + 1 < 3 := hk
      have hholds : decide (True ∧ 1 ≤ k + 1 + 1 ∧ k + 1 + 1 < 3) = (s.granted.held && decide (k = 0)) :=
        decide_eq_decide.mpr ⟨fun ⟨_, _, h⟩ => by omega, fun h => ⟨trivial, by omega, by omega⟩⟩
      rw [flush_of_grant_of_no_edge hp hacq he.now_of_succ, List.take_succ_cons, List.append_cons, hholds]
      exact flushWrite_pauses (s := s.granted) (hw (Nat.succ_pos k)) (by omega) he.later

/-- A flush that finds a device pauses after its first `j` events, where its request or its write is not answered or a clock
edge falls; it holds the device from the grant to the release (R46, R222). -/
theorem flush_pauses {j : Nat} (hheld : s.held = false) (hp : s.plat.present.now = true) (h : s.PausesAfter off n j) :
    (runOp (.flush off n) s).Pauses (s.trace ++ (s.flushEvents off n).take j)
      (decide (s.plat.acquire.now = .ok ∧ 1 ≤ j ∧ j < 3)) := by
  rcases h with ⟨rfl, ha⟩ | ⟨rfl, ha, he, hw⟩ | ⟨k, rest, rfl, hk, ha, hw, he⟩
  · have ha' : s.sampledPresent.plat.acquire.now = .silent := ha
    simp only [runOp, flushStart, hp, if_true, flushGrant, ha', ha]
    exact ⟨(List.append_nil _).symm, hheld⟩
  · rw [flush_of_grant_of_no_edge hp ha he, ha, State.flushEvents, if_pos ha]
    exact flushWrite_pauses_silent (s := s.granted) hw
  · exact flush_pauses_at_edge hheld hp ha hw hk ⟨rest, he⟩

/-! ### A reset there -/

/-- The commands that are one flush of all cells or of one (R136, R137). -/
theorem exec_of_flush {i : Instr}
    (h : i = .flush ∧ off = 0 ∧ n = 128 ∨ ∃ cell : Byte, i = .flush1 cell ∧ cell.toNat ≤ 63 ∧ off = 2 * cell.toNat ∧ n = 2) :
    exec i s = execOps i [.flush off n] s := by
  rcases h with ⟨rfl, rfl, rfl⟩ | ⟨cell, rfl, hcell, rfl, rfl⟩
  · rfl
  · exact execFlush1_eq hcell s

/-- A step that takes `rst` adds only the reset to the history, holds nothing and asks for nothing. -/
theorem step_rst_releases (hr : t.plat.rst.now = true) :
    ∃ u, step t = .next u ∧ u.Ready ∧ u.held = false ∧ u.devReq = false ∧ u.devWe = false ∧ u.trace = t.trace ++ [.reset] :=
  ⟨_, step_of_rst hr, resetCore_ready _, rfl, rfl, rfl, by rw [resetCore_trace, begun_trace]⟩

/-- Settles O11: the flush is followed to the point where it pauses, and a reset there or anywhere spoils the range of a write in
progress and nothing else of the device. -/
theorem rstSparesTheRestOfTheDevice : Obligations.RstSparesTheRestOfTheDevice := by
  refine ⟨fun i off n s _ hheld hp hi j hj => ?_, fun s t a hr hs ha => ?_⟩
  · have hpauses := flush_pauses (s := s.accept i) hheld hp hj
    have hcore := runOp_sameCore (.flush off n) (s.accept i)
    cases hx : runOp (.flush off n) (s.accept i) with
    | done w => rw [hx] at hpauses; exact hpauses.elim
    | raise e w => rw [hx] at hpauses; exact hpauses.elim
    | wait w r =>
      rw [hx] at hpauses hcore
      obtain ⟨htrace, hholds⟩ := hpauses
      exact ⟨_, (exec_of_flush hi).trans (congrArg Host.Outcome.next (run_wait hx [])), hcore.busy, htrace, hholds,
        fun hr => step_rst_releases (t := { w with todo := [r] }) ((congrArg Script.now hcore.rst).trans hr)⟩
  · obtain rfl := Host.Outcome.next.inj ((step_of_rst hr).symm.trans hs)
    have hbegun := (begun_devAt ha).1
    refine ⟨fun off n rest htodo hout => (resetCore_devAt fun off' n' rest' htodo' => ?_).trans hbegun,
      fun hwe => (resetCore_devAt fun off' n' rest' htodo' => ?_).trans hbegun⟩
    · rw [begun_todo, htodo] at htodo'
      cases htodo'
      exact hout
    · rw [begun_todo] at htodo'
      rw [State.devWe, htodo'] at hwe
      cases hwe

end Sys2Proof.Machine
end

section
/-! PROOFS. A core whose platform never answers (R48, R205, R231): it waits for ever where it waits, and a pace ends only after
`PACE_TICKS`. -/

namespace Sys2Proof.Machine

variable {s t u : State} {op : Op} {ops rest : List Op} {o : Orient}

/-! ### A wait that does not end -/

/-- What a statement waits for never comes: `State.Starved`, of the statement that waits. -/
def Op.StarvedIn (op : Op) (s : State) : Prop :=
  match op with
  | .flushGrant _ _ => s.plat.acquire.All (· = .silent)
  | .flushWrite _ _ => s.plat.write.All (· = .silent)
  | .fontRow row => row < 5 ∧ s.plat.font.All (· = .silent)
  | .paceWait => s.plat.ticks.All (· = 0) ∧ s.mtime < 2 ^ s.cfg.mtimeBits ∧ s.elapsed < s.cfg.paceTicks
  | _ => False

theorem starved_iff (htodo : s.todo = op :: rest) :
    s.Starved ↔ s.status.busy = true ∧ s.plat.rst.All (· = false) ∧ op.StarvedIn s := by
  unfold State.Starved
  rw [htodo]
  cases op <;> exact Iff.rfl

/-- A core with nothing left to do waits for nothing. -/
theorem State.Starved.todo_eq_cons (h : s.Starved) : ∃ op rest, s.todo = op :: rest := by
  cases htodo : s.todo with
  | nil =>
    obtain ⟨-, -, h⟩ := h
    rw [htodo] at h
    exact h.elim
  | cons op rest => exact ⟨op, rest, rfl⟩

/-- The next reading of a counter that stands still finds as much time passed as the last (R205). -/
theorem elapsed_readMtime_of_still (h : s.plat.ticks.now = 0) : s.readMtime.elapsed = s.elapsed := by
  rw [elapsed_read s (by positivity), h, Nat.add_zero, State.elapsed, Nat.mod_mod]

/-- A pace whose counter stands still before `PACE_TICKS` have passed waits again, and so at its next comparison (R205). -/
theorem paceWait_starves (h : Op.paceWait.StarvedIn s) :
    runOp .paceWait s = .wait s.readMtime .paceWait ∧ Op.paceWait.StarvedIn s.readMtime := by
  obtain ⟨hticks, -, hpace⟩ := h
  have hstill := elapsed_readMtime_of_still hticks.now
  have hwaits : ¬ s.cfg.paceTicks ≤ s.readMtime.elapsed := by rw [hstill]; omega
  exact ⟨if_neg hwaits, hticks.later, Nat.mod_lt _ (by positivity), hstill ▸ hpace⟩

/-- A device byte is outside the range of the statement if that is a write under way. -/
def Op.OutsideWrite (a : Nat) (op : Op) : Prop := ∀ off n, op = .flushWrite off n → a < off ∨ off + n ≤ a

/-- A statement whose answer never comes waits again, at itself, and leaves the device but for the range of a write. -/
theorem Op.StarvedIn.waits (h : op.StarvedIn s) : ∃ u, runOp op s = .wait u op ∧ op.StarvedIn u ∧
    ∀ a, op.OutsideWrite a → u.devAt a = s.devAt a := by
  cases op with
  | flushGrant off n =>
    have hnow : s.plat.acquire.now = .silent := Script.All.now h
    exact ⟨s.sampledAcquire, by simp only [runOp, Machine.flushGrant, hnow], Script.All.later h, fun _ _ => rfl⟩
  | flushWrite off n =>
    have hnow : s.plat.write.now = .silent := Script.All.now h
    exact ⟨s.sampledWrite.spoil off n, by simp only [runOp, Machine.flushWrite, hnow], Script.All.later h, fun a ha =>
      write_devAt s.sampledWrite off _ a (by rw [length_freeBytes]; exact ha off n rfl)⟩
  | fontRow row =>
    obtain ⟨hrow, hfont⟩ := h
    have hread : runOp (.fontRow row) s = readChunks (row :: chunksFrom (row + 1)) s := by
      rw [runOp, chunksFrom_of_lt hrow]
    exact ⟨s.sampledFont, hread.trans (if_pos hfont.now), ⟨hrow, hfont.later⟩, fun _ _ => rfl⟩
  | paceWait =>
    obtain ⟨hwaits, hstarved⟩ := paceWait_starves h
    exact ⟨s.readMtime, hwaits, hstarved, fun _ _ => rfl⟩
  | _ => exact h.elim

/-- The start of a step makes no difference to it. -/
theorem Op.StarvedIn.begun (h : op.StarvedIn s) : op.StarvedIn s.begun := by
  obtain ⟨d, fo, hbegun⟩ := begun_shape s
  rw [hbegun]
  cases op <;> exact h

/-- Nor does what is left to do. -/
theorem Op.StarvedIn.withTodo (h : op.StarvedIn s) (todo : List Op) : op.StarvedIn { s with todo := todo } := by
  cases op <;> exact h

theorem Op.StarvedIn.not_writesPb (h : op.StarvedIn s) : op.writesPb = false := by
  cases op <;> first | rfl | exact h.elim

/-- `t` comes after `s` and waits in the same place, still for something that never comes, with no device byte touched outside the
range of a write under way. -/
structure StillWaits (s t : State) : Prop where
  starved : t.Starved
  todo : t.todo = s.todo
  pb : t.pb = s.pb
  untouched : ∀ a, s.Untouched a → t.Untouched a
  device : ∀ a, s.Untouched a → (∀ op ∈ s.todo.head?, op.OutsideWrite a) → t.devAt a = s.devAt a

theorem StillWaits.trans (h : StillWaits s t) (k : StillWaits t u) : StillWaits s u where
  starved := k.starved
  todo := k.todo.trans h.todo
  pb := k.pb.trans h.pb
  untouched := fun a ha => k.untouched a (h.untouched a ha)
  device := fun a ha hout => (k.device a (h.untouched a ha) (h.todo ▸ hout)).trans (h.device a ha hout)

theorem State.Starved.step (h : s.Starved) : ∃ t, Machine.step s = .next t ∧ StillWaits s t := by
  obtain ⟨op, rest, htodo⟩ := h.todo_eq_cons
  obtain ⟨hbusy, hrst, hstarved⟩ := (starved_iff htodo).mp h
  obtain ⟨u, hwait, hstarved', hdev⟩ := hstarved.begun.waits
  have hcore := runOp_sameCore op s.begun
  have hpb := runOp_pb hstarved.not_writesPb s.begun
  have hforeign {p : List Host.Cell → Prop} := runOp_foreign (p := p) op (s := s.begun)
  rw [hwait] at hcore hpb hforeign
  have hresume : s.begun.resume = { u with todo := op :: rest } := by
    rw [State.resume, begun_todo, htodo, run_wait hwait]
  refine ⟨_, step_of_busy hrst.now hbusy, ?_⟩
  rw [hresume]
  refine ⟨(starved_iff rfl).mpr ⟨?_, ?_, hstarved'.withTodo _⟩, htodo.symm, hpb.trans (begun_pb s),
    fun a ha => hforeign (begun_devAt ha).2, fun a ha hout => (hdev a (hout op (by rw [htodo]; rfl))).trans (begun_devAt ha).1⟩
  · exact hcore.busy.trans (by rw [begun_status, hbusy])
  · have hrst' : u.plat.rst = s.begun.plat.rst := hcore.rst
    show u.plat.rst.All _
    rw [hrst', begun_plat]
    exact hrst.later

theorem State.Starved.core_run (h : s.Starved) (k : Nat) : ∃ t, core.run k s = .next t ∧ StillWaits s t := by
  induction k generalizing s with
  | zero => exact ⟨s, rfl, h, rfl, rfl, fun _ ha => ha, fun _ _ _ => rfl⟩
  | succ k ih =>
    obtain ⟨u, hstep, hu⟩ := h.step
    obtain ⟨t, hrun, ht⟩ := ih hu.starved
    exact ⟨t, (run_succ_of_step core hstep k).trans hrun, hu.trans ht⟩

/-! ### One comparison of a pace (R205) -/

theorem paceWait_eq (s : State) : paceWait s =
    if (s.cfg.paceTicks : Int) ≤ ((s.readMtime.mtime : Int) - s.t0) % 2 ^ s.cfg.mtimeBits then .done (s.readMtime.log .pace)
    else .wait s.readMtime .paceWait := by
  have helapsed : (s.readMtime.elapsed : Int) = ((s.readMtime.mtime : Int) - s.t0) % 2 ^ s.cfg.mtimeBits :=
    elapsed_eq s.readMtime
  simp only [paceWait, ← helapsed, Nat.cast_le]

/-! ### Before a counter that stands still -/

/-- The counter stands still in `t`, which comes after `s`, and no pace has ended between the two. -/
def NoPaceSince (s t : State) : Prop :=
  t.plat.ticks.All (· = 0) ∧ 0 < t.cfg.paceTicks ∧ ∃ new, t.trace = s.trace ++ new ∧ new.count .pace = 0

theorem NoPaceSince.log (h : NoPaceSince s t) {e : Event} (he : e ≠ .pace) : NoPaceSince s (t.log e) := by
  obtain ⟨hticks, hpace, new, htrace, hcount⟩ := h
  refine ⟨hticks, hpace, new ++ [e], by rw [log_trace, htrace, List.append_assoc], ?_⟩
  rw [List.count_append, hcount, List.count_singleton, if_neg (by simpa using he)]

/-- The statement makes no pace and does not set `Done`. -/
def Op.isQuiet : Op → Bool
  | .pace | .paceWait | .setAState .done => false
  | _ => true

/-- What a statement comes to: no pace has ended since `s`, and if it waits it goes on without one. -/
def OpResult.Quiet (s : State) : OpResult → Prop
  | .done t => NoPaceSince s t
  | .raise _ t => NoPaceSince s t
  | .wait t r => NoPaceSince s t ∧ r.isQuiet = true

theorem readChunks_quiet (rows : List Nat) (h : NoPaceSince s t) : (readChunks rows t).Quiet s := by
  induction rows generalizing t with
  | nil => exact h
  | cons row rows ih =>
    have hread (ok : Bool) : NoPaceSince s (t.log (.fontRead (chunkAddr t.fontIdx row) ok)) := h.log nofun
    unfold readChunks
    split
    · exact ⟨h, rfl⟩
    · split
      · exact hread false
      · exact ih (t := t.readChunk row) (hread true)

theorem atEdge_quiet {resume : Op} (hr : resume.isQuiet = true) {go : State → OpResult}
    (hgo : ∀ t, NoPaceSince s t → (go t).Quiet s) (h : NoPaceSince s t) : (atEdge resume go t).Quiet s := by
  unfold atEdge
  split
  exacts [⟨h, hr⟩, hgo t.sampledEdge h]

theorem flushEnd_quiet (ok : Bool) (h : NoPaceSince s t) : (flushEnd ok t).Quiet s := by
  cases ok <;> exact h

theorem flushRelease_quiet (ok : Bool) (h : NoPaceSince s t) : (flushRelease ok t).Quiet s := by
  have hrelease : NoPaceSince s (t.log .release) := h.log nofun
  exact atEdge_quiet (t := t.releaseDevice) rfl (fun _ => flushEnd_quiet ok) hrelease

theorem flushWrite_quiet (off n : Nat) (h : NoPaceSince s t) : (flushWrite off n t).Quiet s := by
  have hwrite (ok : Bool) : NoPaceSince s (t.log (.write off (pbBytes t.pb off n) ok)) := h.log nofun
  unfold flushWrite
  dsimp only
  split
  · exact ⟨h, rfl⟩
  · exact atEdge_quiet rfl (fun _ => flushRelease_quiet true) (hwrite true)
  · exact atEdge_quiet rfl (fun _ => flushRelease_quiet false) (hwrite false)

theorem flushGrant_quiet (off n : Nat) (h : NoPaceSince s t) : (flushGrant off n t).Quiet s := by
  have hacquire (ok : Bool) : NoPaceSince s (t.log (.acquire ok)) := h.log nofun
  unfold flushGrant
  split
  · exact ⟨h, rfl⟩
  · exact atEdge_quiet rfl (fun _ => flushWrite_quiet off n) (hacquire true)
  · exact atEdge_quiet rfl (fun _ => flushEnd_quiet false) (hacquire false)

theorem runOp_quiet (hop : op.isQuiet = true) (h : NoPaceSince s t) : (runOp op t).Quiet s := by
  cases op <;> first | exact h | (cases hop; done) | skip
  case lookup ch => exact readChunks_quiet _ (t := t.beginLookup ch) h
  case lookupMsg =>
    simp only [runOp]
    split
    exacts [readChunks_quiet _ (t := t.beginLookup _) h, h]
  case fontRow row => exact readChunks_quiet _ h
  case flush off n =>
    simp only [runOp, flushStart]
    split
    exacts [flushGrant_quiet off n (t := t.sampledPresent) h, h]
  case flushGrant off n => exact flushGrant_quiet off n h
  case flushHold off n => exact flushWrite_quiet off n h
  case flushWrite off n => exact flushWrite_quiet off n h
  case flushRelease ok => exact flushRelease_quiet ok h
  case flushEnd ok => exact flushEnd_quiet ok h
  case checkCancel => simp only [runOp, checkCancel]; split <;> exact h

/-- Only its own statement sets `Done`. -/
theorem runOp_not_done (hop : op.isQuiet = true) (h : s.status.astate ≠ .done) : (runOp op s).state.status.astate ≠ .done := by
  by_cases hset : ∃ a, op = .setAState a
  · obtain ⟨a, rfl⟩ := hset
    rintro (rfl : a = .done)
    cases hop
  · rwa [runOp_astate fun a ha => hset ⟨a, ha.symm⟩]

/-- No time has passed at the reading that a pace latches (R205). -/
theorem elapsed_startPace (t : State) : t.startPace.elapsed = 0 := by
  have hself : (t.startPace.elapsed : Int) = 0 := by
    rw [elapsed_eq]
    exact (congrArg (· % _) (sub_self (t.readMtime.mtime : Int))).trans (Int.zero_emod _)
  exact_mod_cast hself

/-- A pace before such a counter waits, and its end never comes (R205). -/
theorem pace_starves (h : NoPaceSince s t) :
    ∃ u, runOp .pace t = .wait u .paceWait ∧ Op.paceWait.StarvedIn u ∧ NoPaceSince s u := by
  obtain ⟨hticks, hpace, htrace⟩ := h
  have hstarved : Op.paceWait.StarvedIn t.startPace :=
    ⟨hticks.later, Nat.mod_lt _ (by positivity), by rw [elapsed_startPace]; exact hpace⟩
  obtain ⟨hwaits, hstarved'⟩ := paceWait_starves hstarved
  exact ⟨_, hwaits, hstarved', hticks.later.later, hpace, htrace⟩

/-! ### `SCROLL` before such a counter -/

/-- The statements come to a pace before any of them sets `Done`. -/
def PaceComes (ops : List Op) : Prop := ∃ pre post, ops = pre ++ .pace :: post ∧ ∀ op ∈ pre, op.isQuiet = true

/-- A `SCROLL` sets `Painting` and comes to the pace of its first step (R156, R161). -/
theorem scrollOps_paceComes (o : Orient) (len : Nat) :
    ∃ ops, scrollOps o len = .setAState .painting :: ops ∧ PaceComes ops := by
  have hfirst : (List.range (len + trailingChars)).flatMap (charOps o) =
      charOps o 0 ++ ((List.range (len + 1)).map Nat.succ).flatMap (charOps o) := by
    rw [trailingChars, List.range_succ_eq_map, List.flatMap_cons]
  rw [scrollOps, hfirst]
  refine ⟨_, rfl, scrollStart.tail ++ [.setSchr 0, .lookupMsg, .setBlank, .setScol 0, .shift o, .insert o, fullFlush], _, rfl, ?_⟩
  simp [scrollStart, fullFlush, Op.isQuiet]

/-- A command that began in `s` has not come to `Done` and does not: it has ended otherwise, or comes to a pace first, or waits
in a pace that does not end. -/
def KeptFromDone (s t : State) : Prop :=
  NoPaceSince s t ∧ t.status.astate ≠ .done ∧
    (t.Ready ∨ PaceComes t.todo ∨ ∃ post, t.todo = .paceWait :: post ∧ Op.paceWait.StarvedIn t)

theorem NoPaceSince.begun (h : NoPaceSince s t) : NoPaceSince s t.begun := by
  obtain ⟨d, fo, hbegun⟩ := begun_shape t
  rw [hbegun]
  exact h

theorem raise_keptFromDone (h : NoPaceSince s t) (hast : t.status.astate ≠ .done) (e : Abort) :
    KeptFromDone s (t.raise e) := by
  have hraised := raised e t
  refine ⟨by rwa [NoPaceSince, hraised.plat, hraised.cfg, hraised.trace], ?_, .inl hraised.ready⟩
  rw [hraised.astate]
  split
  exacts [nofun, hast]

theorem run_keptFromDone (hops : PaceComes ops) (h : NoPaceSince s u) (hast : u.status.astate ≠ .done) :
    KeptFromDone s (run ops u) := by
  obtain ⟨pre, post, rfl, hquiet⟩ := hops
  induction pre generalizing u with
  | nil =>
    obtain ⟨v, hwait, hstarved, hv⟩ := pace_starves h
    have hast' := (runOp_animator (op := .pace) rfl u).2.2
    rw [hwait] at hast'
    rw [List.nil_append, run_wait hwait]
    exact ⟨hv, fun hdone => hast (hast'.symm.trans hdone), .inr (.inr ⟨post, rfl, hstarved⟩)⟩
  | cons op pre ih =>
    have hrest : ∀ op ∈ pre, op.isQuiet = true := fun o ho => hquiet o (List.mem_cons_of_mem _ ho)
    have hop := runOp_quiet (hquiet op List.mem_cons_self) h
    have hast' := runOp_not_done (hquiet op List.mem_cons_self) hast
    rw [List.cons_append]
    cases hx : runOp op u with
    | done v =>
      rw [hx] at hop hast'
      rw [run_done hx]
      exact ih hop hast' hrest
    | raise e v =>
      rw [hx] at hop hast'
      rw [run_raise hx]
      exact raise_keptFromDone hop hast' e
    | wait v r =>
      rw [hx] at hop hast'
      obtain ⟨hv, hr⟩ := hop
      rw [run_wait hx]
      exact ⟨hv, hast', .inr (.inl ⟨r :: pre, post, rfl, List.forall_mem_cons.mpr ⟨hr, hrest⟩⟩)⟩

theorem KeptFromDone.resume (h : KeptFromDone s u) (hb : u.status.busy = true) : KeptFromDone s u.begun.resume := by
  obtain ⟨hu, hast, hready | hops | ⟨post, htodo, hstarved⟩⟩ := h
  · exact absurd (hready.1.symm.trans hb) Bool.false_ne_true
  · rw [State.resume, begun_todo]
    exact run_keptFromDone hops hu.begun (by rwa [begun_status])
  · obtain ⟨hwaits, hstarved'⟩ := paceWait_starves hstarved.begun
    obtain ⟨hticks, hpace, htrace⟩ := hu.begun
    rw [State.resume, begun_todo, htodo, run_wait hwaits]
    refine ⟨⟨hticks.later, hpace, htrace⟩, ?_, .inr (.inr ⟨post, rfl, hstarved'⟩)⟩
    show u.begun.status.astate ≠ .done
    rwa [begun_status]

theorem Executes.keptFromDone {k : Nat} (hticks : s.plat.ticks.All (· = 0)) (hpace : 0 < s.cfg.paceTicks)
    (h : Executes (.scroll o) k s t) : KeptFromDone s t := by
  refine h.keeps (P := KeptFromDone s) (fun t hexec => ?_) fun u hu hb => hu.resume hb
  obtain rfl : run (scrollOps o s.msglen.toNat) (s.accept (.scroll o)) = t := Host.Outcome.next.inj hexec
  obtain ⟨ops, hops, hcomes⟩ := scrollOps_paceComes o s.msglen.toNat
  rw [hops, run_done rfl]
  exact run_keptFromDone (u := (s.accept (.scroll o)).withAState .painting) hcomes
    ⟨hticks, hpace, [], (List.append_nil _).symm, rfl⟩ nofun

/-- Settles O12: what waits for an answer that never comes waits again at the same statement, and one comparison of a pace is
R205's, so that a `SCROLL` before a counter that stands still does not come past its first pace. -/
theorem starvedCoreHangs : Obligations.StarvedCoreHangs := by
  refine ⟨fun s k h => ?_, fun s => ⟨paceWait_eq _, paceWait_eq s⟩, fun o k s t hticks hpace h => ?_⟩
  · obtain ⟨t, hrun, ht⟩ := h.core_run k
    refine ⟨t, hrun, ht.starved.1, ht.todo, ht.pb, fun a ha hout => ht.device a ha ?_⟩
    rintro op hop off n rfl
    obtain ⟨rest, htodo⟩ := List.head?_eq_some_iff.mp hop
    exact hout off n rest htodo
  · obtain ⟨⟨-, -, htrace⟩, hast, -⟩ := h.keptFromDone hticks hpace
    exact ⟨hast, htrace⟩

end Sys2Proof.Machine
end
